-- ==== Sys2Proof/Word.lean ====
section
/-! DEFINITION. The word types of AFEP (00_scope.md R11): every quantity is an unsigned number of a stated width. A number
whose width is a parameter of R7 is a `Nat` below the power of two of its width: an address of ADDR_W bits, a length or
counter of LEN_W bits, a CMD word of 16 + LEN_W + ADDR_W bits (30_encoding.md R91). `Params.addr` and `Params.len` reduce a
number to its width. -/

namespace Sys2Proof

/-- A byte: buffer memory, peripheral registers, FIFO and ring contents, responses. -/
abbrev Byte := BitVec 8

/-- A ring index, 7 bits: its increment is the modulo-128 successor (R12). -/
abbrev RingIx := BitVec 7

/-- An EVT word, 96 bits (30_encoding.md R98). -/
abbrev EvtWord := BitVec 96

end Sys2Proof
end

