-- ==== Sys2Proof/Syntax.lean ====
section
/-! DEFINITION. The names the operations speak of (channels, interrupt sources) and the operations themselves:
one constructor of `Instr` per row of spec/opcode_table.json (30_encoding.md R92, R96, R101). -/

namespace Sys2Proof

/-- A channel with a CTL/STAT/FIFO register triple (00_scope.md R6, 90_conflicts.md C7). -/
inductive Channel where
  | control | bulkIn | bulkOut
deriving DecidableEq, Repr

/-- A channel that sends: it has a send context and a Tx FIFO (10_state.md R21, R48). -/
inductive TxCh where
  | control | bulkIn
deriving DecidableEq, Repr

/-- A channel that receives: it has a receive context, a staging buffer and an Rx FIFO (10_state.md R21, R25, R48). -/
inductive RxCh where
  | control | bulkOut
deriving DecidableEq, Repr

/-- The six interrupt sources, in the slot order 0 to 5 of 42_irq_dispatch.md R182. -/
inductive Source where
  | diagTx | ctrlTx | ctrlRx | busReset | bulkoutRx | bulkinTx
deriving DecidableEq, Repr

/-- The operations of the block. Operand fields are those of 30_encoding.md R91 and R92: `epa`, `addr` and `b` are
field A, `len`, `mps` and `value` are field L (LEN_W bits), `buf` and `attr` are field P (ADDR_W bits). The generic rows
SUBMIT_XFER, STALL and CLEAR_STALL stand for the words that no refining row selects (R101). -/
inductive Instr where
  -- foreground API, 43_foreground_api.md
  | init
  | connect
  | disconnect
  | setAddress (addr : Byte)
  | remoteWakeup
  | openEp (epa : Byte) (mps attr : Nat)
  | closeEp (epa : Byte)
  | submitXfer (epa : Byte) (buf len : Nat)
  -- transfers, 40_endpoint_transfer.md
  | sendCtrl (buf len : Nat)
  | sendBulk (buf len : Nat)
  | recvCtrl (buf len : Nat)
  | recvBulk (buf len : Nat)
  -- stall, 40_endpoint_transfer.md
  | stall (epa : Byte)
  | stallControl (epa : Byte)
  | stallBulkin (epa : Byte)
  | stallBulkout (epa : Byte)
  | clearStall (epa : Byte)
  | clearStallControl (epa : Byte)
  | clearStallBulkin (epa : Byte)
  | clearStallBulkout (epa : Byte)
  -- diagnostic ring, 41_diag_ring.md
  | diagInit
  | diagPutb (b : Byte)
  | diagPuts (buf len : Nat)
  | diagPuthex8 (b : Byte)
  | diagPut16 (value : Nat)
  -- handler operations, 42_irq_dispatch.md R182
  | isrDiagTx
  | isrCtrlTx
  | isrCtrlRx
  | isrBusReset
  | isrBulkoutRx
  | isrBulkinTx
deriving DecidableEq, Repr

end Sys2Proof
end

