-- ==== Sys2Proof/Config.lean ====
section
/-! DEFINITION. The fixed values of 00_scope.md R6, the parameters of R7, and the free values of the spec's `draw`. -/

namespace Sys2Proof

/-- Maximum packet size of a sending channel (R6). -/
def Config.mps : TxCh → Nat
  | .control => 64
  | .bulkIn => 512

/-- Maximum packet size of a receiving channel (R6). -/
def Config.rxMps : RxCh → Nat
  | .control => 64
  | .bulkOut => 512

/-- STG_CAP: capacity of a staging buffer (R6). -/
def Config.stgCap : RxCh → Nat
  | .control => 64
  | .bulkOut => 512

/-- SETUP_LEN: bytes of a SETUP packet (R6). -/
def Config.setupLen : Nat := 8

/-! ## The parameters of R7 -/

/-- The bit positions of 10_state.md R41 to R47 that R7 names, each within its register. -/
structure BitLayout where
  txfull : Fin 8
  rxempty : Fin 8
  setupPend : Fin 8
  forceTx : Fin 8
  stall : Fin 8
  rxmode : Fin 8
  ready : Fin 8
  send : Fin 8
  gie : Fin 8
  gate : Fin 8
deriving DecidableEq, Repr

/-- What R7 leaves to the implementation: the named arguments of the model (log 1). `addrW` and `lenW` are ADDR_W and
LEN_W; `regOffsets` follows the rows of 10_state.md R40. -/
structure Params where
  addrW : Nat
  lenW : Nat
  txDepthControl : Nat
  txDepthBulkIn : Nat
  rxDepthControl : Nat
  rxDepthBulkOut : Nat
  regBase : Nat
  regOffsets : Vector Nat 15
  layout : BitLayout
  epaCtrlOut : Byte
  epaCtrlIn : Byte
  epaBulkIn : Byte
  epaBulkOut : Byte
  epaDiag : Byte
  epNumMask : Byte
  hwrevGiePulse : Bool
  hexAlpha : Byte
deriving DecidableEq, Repr

/-- An address as the ADDR_W-bit number it is: address arithmetic is modulo 2^ADDR_W (R11). -/
def Params.addr (p : Params) (a : Nat) : Nat := a % 2 ^ p.addrW

/-- A length or counter as the LEN_W-bit number it is (R11). -/
def Params.len (p : Params) (n : Nat) : Nat := n % 2 ^ p.lenW

/-- TXDEPTH: bytes a Tx FIFO takes before it reports full (R7). -/
def Params.txDepth (p : Params) : TxCh → Nat
  | .control => p.txDepthControl
  | .bulkIn => p.txDepthBulkIn

/-- RXDEPTH: bytes an Rx FIFO can hold (R7). -/
def Params.rxDepth (p : Params) : RxCh → Nat
  | .control => p.rxDepthControl
  | .bulkOut => p.rxDepthBulkOut

/-- The default positions (10_state.md R41, R43 to R45, R47). -/
def BitLayout.default : BitLayout where
  txfull := 0
  rxempty := 1
  setupPend := 2
  forceTx := 0
  stall := 1
  rxmode := 2
  ready := 0
  send := 0
  gie := 6
  gate := 0

/-- The defaults of R7; the offsets are those of 10_state.md R40. -/
def Params.default : Params where
  addrW := 32
  lenW := 16
  txDepthControl := 64
  txDepthBulkIn := 512
  rxDepthControl := 64
  rxDepthBulkOut := 512
  regBase := 0
  regOffsets := #v[0x00, 0x01, 0x02, 0x04, 0x05, 0x06, 0x08, 0x09, 0x0A, 0x0C, 0x0D, 0x0E, 0x10, 0x11, 0x12]
  layout := BitLayout.default
  epaCtrlOut := 0x00
  epaCtrlIn := 0x80
  epaBulkIn := 0x81
  epaBulkOut := 0x02
  epaDiag := 0x83
  epNumMask := 0x0F
  hwrevGiePulse := false
  hexAlpha := 0x41

/-- Fields of one register stand at different positions, and GIE at none of the six source positions (10_state.md R41,
R44, R45). -/
abbrev BitLayout.Legal (l : BitLayout) : Prop :=
  [l.txfull, l.rxempty, l.setupPend].Nodup ∧ [l.forceTx, l.stall, l.rxmode].Nodup ∧ l.gie ∉ [0, 1, 2, 3, 4, (7 : Fin 8)]

/-- What the spec asks of the values: the endpoint addresses are pairwise distinct and the three channel numbers differ
under EP_NUM_MASK (92_eei_decisions.md D9); an Rx FIFO holds a packet of MPS bytes (60_exceptions.md R237); a byte count
fits the payload it is zero-extended to (30_encoding.md R98; DEDUCED, log 1). -/
abbrev Params.Legal (p : Params) : Prop :=
  [p.epaCtrlOut, p.epaCtrlIn, p.epaBulkIn, p.epaBulkOut, p.epaDiag].Nodup
    ∧ [p.epaCtrlOut &&& p.epNumMask, p.epaBulkIn &&& p.epNumMask, p.epaBulkOut &&& p.epNumMask].Nodup
    ∧ Config.rxMps .control ≤ p.rxDepthControl ∧ Config.rxMps .bulkOut ≤ p.rxDepthBulkOut
    ∧ p.layout.Legal ∧ p.lenW ≤ 64

/-! ## Free values -/

/-- The free values `draw(8)` of the spec, one per draw: nothing constrains them (20_memory.md R67,
93_implementation_defined.md U3; log 16). -/
opaque Config.draw : Nat → Byte

/-- The free values of the open environment, a run of bytes per draw: how many a FIFO takes or gives and which
(60_exceptions.md R243; log 20). -/
opaque Config.drawBytes : Nat → List Byte

end Sys2Proof
end

