-- ==== Sys2Proof/WellFormed.lean ====
section
/-! DEFINITION. Which terms of `Instr` stand for a word: a generic row holds only the operands that no refining row
selects, a refining row only those it selects (30_encoding.md R101), and an operand of field L or P has that field's width
(R91, R95). -/

namespace Sys2Proof

/-- The low bits of an endpoint address are those of `base` (30_encoding.md R94). -/
def sameEpNum (p : Params) (epa base : Byte) : Bool :=
  epa &&& p.epNumMask == base &&& p.epNumMask

/-- The low bits of an endpoint address are those of none of Control, BulkIn and BulkOut (R94). -/
def noEpNum (p : Params) (epa : Byte) : Bool :=
  !sameEpNum p epa p.epaCtrlOut && !sameEpNum p epa p.epaBulkIn && !sameEpNum p epa p.epaBulkOut

/-- Operands that fields P and L hold: an address of ADDR_W bits and a length of LEN_W bits (R95). -/
def fitsFields (p : Params) (buf len : Nat) : Bool := p.addr buf == buf && p.len len == len

/-- A term of `Instr` that some word of its row encodes, at the parameters given (R101). -/
def WellFormed (p : Params) : Instr → Bool
  | .submitXfer epa buf len =>
    epa != p.epaCtrlIn && epa != p.epaBulkIn && epa != p.epaCtrlOut && epa != p.epaBulkOut && fitsFields p buf len
  | .stall epa | .clearStall epa => noEpNum p epa
  | .stallControl epa | .clearStallControl epa => sameEpNum p epa p.epaCtrlOut
  | .stallBulkin epa | .clearStallBulkin epa => sameEpNum p epa p.epaBulkIn
  | .stallBulkout epa | .clearStallBulkout epa => sameEpNum p epa p.epaBulkOut
  | .openEp _ mps attr => fitsFields p attr mps
  | .sendCtrl buf len | .sendBulk buf len | .recvCtrl buf len | .recvBulk buf len => fitsFields p buf len
  | .diagPuts buf len => fitsFields p buf len
  | .diagPut16 value => p.len value == value
  | .init | .connect | .disconnect | .setAddress _ | .remoteWakeup | .closeEp _ => true
  | .diagInit | .diagPutb _ | .diagPuthex8 _ => true
  | .isrDiagTx | .isrCtrlTx | .isrCtrlRx | .isrBusReset | .isrBulkoutRx | .isrBulkinTx => true

end Sys2Proof
end

