-- ==== Sys2Proof/Decode.lean ====
section
/-! DEFINITION. Decoding and encoding of the operations (30_encoding.md). A CMD word is a number on the command port
and a source bitmap a number in INT_SRC: neither has a byte layout (20_memory.md R65; log 2). -/

namespace Sys2Proof

/-! ## The CMD word (R91) -/

/-- Bits `lo + width - 1 : lo` of a word. -/
def bitsOf (w lo width : Nat) : Nat := w / 2 ^ lo % 2 ^ width

/-- The width of a CMD word, 64 at the defaults. A number wider than that is taken by its low bits (log 1). -/
def cmdWidth (p : Params) : Nat := 16 + p.lenW + p.addrW

/-- Field OP, the top 8 bits: 63:56 at the defaults. -/
def cmdOp (p : Params) (w : Nat) : Byte := BitVec.ofNat 8 (bitsOf w (8 + p.lenW + p.addrW) 8)

/-- Field A, the next 8 bits: 55:48 at the defaults. -/
def cmdA (p : Params) (w : Nat) : Byte := BitVec.ofNat 8 (bitsOf w (p.lenW + p.addrW) 8)

/-- Field L, the next LEN_W bits: 47:32 at the defaults. -/
def cmdL (p : Params) (w : Nat) : Nat := bitsOf w p.addrW p.lenW

/-- Field P, the low ADDR_W bits: 31:0 at the defaults. -/
def cmdP (p : Params) (w : Nat) : Nat := bitsOf w 0 p.addrW

/-- The CMD word of four fields, the most significant first: `OP << (8 + LEN_W + ADDR_W) | A << (LEN_W + ADDR_W) |
L << ADDR_W | P` (R91, R102). -/
def cmdWord (p : Params) (op a : Byte) (l buf : Nat) : Nat :=
  op.toNat * 2 ^ (8 + p.lenW + p.addrW) + a.toNat * 2 ^ (p.lenW + p.addrW) + p.len l * 2 ^ p.addrW + p.addr buf

/-! ## Opcodes (R92) -/

def opInit : Byte := 0x01
def opConnect : Byte := 0x02
def opDisconnect : Byte := 0x03
def opSetAddress : Byte := 0x04
def opRemoteWakeup : Byte := 0x05
def opOpenEp : Byte := 0x06
def opCloseEp : Byte := 0x07
def opSubmitXfer : Byte := 0x08
def opStall : Byte := 0x09
def opClearStall : Byte := 0x0A
def opDiagInit : Byte := 0x10
def opDiagPutb : Byte := 0x11
def opDiagPuts : Byte := 0x12
def opDiagPuthex8 : Byte := 0x13
def opDiagPut16 : Byte := 0x14

/-! ## Endpoint addresses -/

/-- The full-address decode of R93: which transfer direction of which channel an endpoint address names. -/
inductive EpRoute where
  | send (ch : TxCh)
  | recv (ch : RxCh)
  | diag
deriving DecidableEq, Repr

/-- R93; none is an unrecognised address. -/
def epRoute (p : Params) (epa : Byte) : Option EpRoute :=
  if epa = p.epaCtrlOut then some (.recv .control)
  else if epa = p.epaCtrlIn then some (.send .control)
  else if epa = p.epaBulkIn then some (.send .bulkIn)
  else if epa = p.epaBulkOut then some (.recv .bulkOut)
  else if epa = p.epaDiag then some .diag
  else none

/-- The low-bits decode of R94, none where the address maps to no channel. -/
def stallChannel (p : Params) (epa : Byte) : Option Channel :=
  let n := epa &&& p.epNumMask
  if n = p.epaCtrlOut &&& p.epNumMask then some .control
  else if n = p.epaBulkIn &&& p.epNumMask then some .bulkIn
  else if n = p.epaBulkOut &&& p.epNumMask then some .bulkOut
  else none

/-! ## Commands -/

/-- Why a word encodes no operation. -/
inductive DecodeError where
  /-- OP is not in the opcode map (R99 (a)). -/
  | illegalCmd (op : Byte)
  /-- No source bit is set in the bitmap (R99 (d), 42_irq_dispatch.md R185). -/
  | noSource
deriving DecidableEq, Repr

/-- The rows of SUBMIT_XFER: a routed address selects its refining row (R101). -/
def decodeSubmit (p : Params) (epa : Byte) (buf len : Nat) : Instr :=
  match epRoute p epa with
  | some (.send .control) => .sendCtrl buf len
  | some (.send .bulkIn) => .sendBulk buf len
  | some (.recv .control) => .recvCtrl buf len
  | some (.recv .bulkOut) => .recvBulk buf len
  | some .diag | none => .submitXfer epa buf len

/-- The rows of STALL (R101). -/
def decodeStall (p : Params) (epa : Byte) : Instr :=
  match stallChannel p epa with
  | some .control => .stallControl epa
  | some .bulkIn => .stallBulkin epa
  | some .bulkOut => .stallBulkout epa
  | none => .stall epa

/-- The rows of CLEAR_STALL (R101). -/
def decodeClearStall (p : Params) (epa : Byte) : Instr :=
  match stallChannel p epa with
  | some .control => .clearStallControl epa
  | some .bulkIn => .clearStallBulkin epa
  | some .bulkOut => .clearStallBulkout epa
  | none => .clearStall epa

/-- The command decoder: OP selects the operation (R92, R100), the other fields are its operands (R95); fields the
opcode does not use are ignored (R91). -/
def decodeCmd (p : Params) (w : Nat) : Except DecodeError Instr :=
  let op := cmdOp p w
  if op = opInit then .ok .init
  else if op = opConnect then .ok .connect
  else if op = opDisconnect then .ok .disconnect
  else if op = opSetAddress then .ok (.setAddress (cmdA p w))
  else if op = opRemoteWakeup then .ok .remoteWakeup
  else if op = opOpenEp then .ok (.openEp (cmdA p w) (cmdL p w) (cmdP p w))
  else if op = opCloseEp then .ok (.closeEp (cmdA p w))
  else if op = opSubmitXfer then .ok (decodeSubmit p (cmdA p w) (cmdP p w) (cmdL p w))
  else if op = opStall then .ok (decodeStall p (cmdA p w))
  else if op = opClearStall then .ok (decodeClearStall p (cmdA p w))
  else if op = opDiagInit then .ok .diagInit
  else if op = opDiagPutb then .ok (.diagPutb (cmdA p w))
  else if op = opDiagPuts then .ok (.diagPuts (cmdP p w) (cmdL p w))
  else if op = opDiagPuthex8 then .ok (.diagPuthex8 (cmdA p w))
  else if op = opDiagPut16 then .ok (.diagPut16 (cmdL p w))
  else .error (.illegalCmd op)

/-! ## The source bitmap (R96) -/

/-- mask(slot): the source's bit in the bitmap, its enable bit in INT_EN and its pending bit in PEND (R96, 10_state.md
R41, R42). -/
def Source.mask : Source → Byte
  | .diagTx => 0x10
  | .ctrlTx => 0x01
  | .ctrlRx => 0x02
  | .busReset => 0x80
  | .bulkoutRx => 0x08
  | .bulkinTx => 0x04

/-- The slot after this one in the dispatch order; none after slot 5 (42_irq_dispatch.md R182). -/
def Source.next : Source → Option Source
  | .diagTx => some .ctrlTx
  | .ctrlTx => some .ctrlRx
  | .ctrlRx => some .busReset
  | .busReset => some .bulkoutRx
  | .bulkoutRx => some .bulkinTx
  | .bulkinTx => none

/-- The six slots in dispatch order (42_irq_dispatch.md R182). -/
def slotOrder : List Source := [.diagTx, .ctrlTx, .ctrlRx, .busReset, .bulkoutRx, .bulkinTx]

/-- The operation a source selects (R96). -/
def Source.instr : Source → Instr
  | .diagTx => .isrDiagTx
  | .ctrlTx => .isrCtrlTx
  | .ctrlRx => .isrCtrlRx
  | .busReset => .isrBusReset
  | .bulkoutRx => .isrBulkoutRx
  | .bulkinTx => .isrBulkinTx

/-- A row matches when `B & mask = mask` (R96). -/
def Source.selectedIn (src : Source) (b : Byte) : Bool := b &&& src.mask == src.mask

/-- The sources set in a bitmap, in slot order; bits 5 and 6 contribute nothing (42_irq_dispatch.md R185). -/
def routeSources (b : Byte) : List Source := slotOrder.filter (fun src => src.selectedIn b)

/-- `route(B)`: the operations a bitmap selects, in slot order (42_irq_dispatch.md R185). -/
def route (b : Byte) : List Instr := (routeSources b).map Source.instr

/-- `next(B)` of the priority encoder: the operation of the lowest slot set (42_irq_dispatch.md R182). -/
def decodeSrc (b : Byte) : Except DecodeError Instr :=
  match route b with
  | i :: _ => .ok i
  | [] => .error .noSource

/-! ## Both formats (R90) -/

/-- An encoded operation: a CMD word or a source bitmap (R90). -/
inductive Encoded where
  | cmd (w : Nat)
  | src (b : Byte)
deriving DecidableEq, Repr

/-- The decoder over both formats: total, refusing by name. -/
def decode (p : Params) : Encoded → Except DecodeError Instr
  | .cmd w => decodeCmd p w
  | .src b => decodeSrc b

/-- The encoder, from R92, R93, R96 and R102; an unused field is zero (R91). -/
def encode (p : Params) : Instr → Encoded
  | .init => .cmd (cmdWord p opInit 0 0 0)
  | .connect => .cmd (cmdWord p opConnect 0 0 0)
  | .disconnect => .cmd (cmdWord p opDisconnect 0 0 0)
  | .setAddress addr => .cmd (cmdWord p opSetAddress addr 0 0)
  | .remoteWakeup => .cmd (cmdWord p opRemoteWakeup 0 0 0)
  | .openEp epa mps attr => .cmd (cmdWord p opOpenEp epa mps attr)
  | .closeEp epa => .cmd (cmdWord p opCloseEp epa 0 0)
  | .submitXfer epa buf len => .cmd (cmdWord p opSubmitXfer epa len buf)
  | .sendCtrl buf len => .cmd (cmdWord p opSubmitXfer p.epaCtrlIn len buf)
  | .sendBulk buf len => .cmd (cmdWord p opSubmitXfer p.epaBulkIn len buf)
  | .recvCtrl buf len => .cmd (cmdWord p opSubmitXfer p.epaCtrlOut len buf)
  | .recvBulk buf len => .cmd (cmdWord p opSubmitXfer p.epaBulkOut len buf)
  | .stall epa => .cmd (cmdWord p opStall epa 0 0)
  | .stallControl epa => .cmd (cmdWord p opStall epa 0 0)
  | .stallBulkin epa => .cmd (cmdWord p opStall epa 0 0)
  | .stallBulkout epa => .cmd (cmdWord p opStall epa 0 0)
  | .clearStall epa => .cmd (cmdWord p opClearStall epa 0 0)
  | .clearStallControl epa => .cmd (cmdWord p opClearStall epa 0 0)
  | .clearStallBulkin epa => .cmd (cmdWord p opClearStall epa 0 0)
  | .clearStallBulkout epa => .cmd (cmdWord p opClearStall epa 0 0)
  | .diagInit => .cmd (cmdWord p opDiagInit 0 0 0)
  | .diagPutb b => .cmd (cmdWord p opDiagPutb b 0 0)
  | .diagPuts buf len => .cmd (cmdWord p opDiagPuts 0 len buf)
  | .diagPuthex8 b => .cmd (cmdWord p opDiagPuthex8 b 0 0)
  | .diagPut16 value => .cmd (cmdWord p opDiagPut16 0 value 0)
  | .isrDiagTx => .src Source.diagTx.mask
  | .isrCtrlTx => .src Source.ctrlTx.mask
  | .isrCtrlRx => .src Source.ctrlRx.mask
  | .isrBusReset => .src Source.busReset.mask
  | .isrBulkoutRx => .src Source.bulkoutRx.mask
  | .isrBulkinTx => .src Source.bulkinTx.mask

/-- The encoding of a table row's bits: a row of at most 8 bits is a SRC row, a wider one a CMD row (R101). -/
def tableEncoding (nbits w : Nat) : Encoded :=
  if nbits ≤ 8 then .src (BitVec.ofNat 8 w) else .cmd w

/-- The instruction the decoder reads from the bits `w` of a table row of `nbits` bits: the table's words are written at
the default parameters (R101). -/
def decodeTableWord (nbits w : Nat) : Option Instr := (decode Params.default (tableEncoding nbits w)).toOption

end Sys2Proof
end

