-- ==== Sys2Proof/Machine/State.lean ====
section
/-! DEFINITION. The state of AFEP and of everything it runs against (10_state.md), as plain data, with the reasons a
step can stop and the state after hardware reset. -/

namespace Sys2Proof.Machine

/-! ## Families over channels -/

/-- One thing per channel with a register triple. -/
structure PerCh (α : Type) where
  control : α
  bulkIn : α
  bulkOut : α
deriving DecidableEq, Repr

/-- One thing per sending channel. -/
structure PerTx (α : Type) where
  control : α
  bulkIn : α
deriving DecidableEq, Repr

/-- One thing per receiving channel. -/
structure PerRx (α : Type) where
  control : α
  bulkOut : α
deriving DecidableEq, Repr

/-! ## Parts of the state -/

/-- A transfer context (10_state.md R21): `buffer` is a cursor of ADDR_W bits; `total`, `completed` and `remaining` are
`total_requested`, `bytes_completed` and `bytes_remaining`, of LEN_W bits. -/
structure Ctx where
  buffer : Nat
  total : Nat
  completed : Nat
  remaining : Nat
deriving DecidableEq, Repr

/-- A receive context: the four fields and `pending` (10_state.md R22). -/
structure RecvCtx extends Ctx where
  pending : Bool
deriving DecidableEq, Repr

/-- What an event says (30_encoding.md R98): its KIND and the fields that KIND gives a value. -/
inductive EventKind where
  | busReset
  | setupReceived (bytes : List Byte)
  | xferComplete (epa : Byte) (count : Nat)
deriving DecidableEq, Repr

/-- An event on the event port; STATUS is always SUCCESS (30_encoding.md R98, 43_foreground_api.md R214). -/
structure Event where
  kind : EventKind
  fromIsr : Bool
deriving DecidableEq, Repr

/-- The command in progress: the micro-step it takes next, numbered as its rule numbers them, and its locals
(20_memory.md R70, 60_exceptions.md R245, R248). `round` and `byte` serve the DIAG_PUT rounds (41_diag_ring.md R166 to
R168), `staged` SUBMIT_RECV (40_endpoint_transfer.md R126 step 2), `ok` the result of ENQUEUE (R165 step 2). `touched` is
the model's own: a byte of a receive's buffer the HOST reached before step 2 has said whether the window is open (log 9). -/
structure InProgress where
  instr : Instr
  at_ : Nat
  round : Nat
  byte : Byte
  staged : Bool
  ok : Bool
  touched : Option Nat
deriving DecidableEq, Repr

/-- A buffer the block has borrowed: its bytes, and whether the block writes it (20_memory.md R64). -/
structure Window where
  base : Nat
  size : Nat
  written : Bool
deriving DecidableEq, Repr

/-- One scheduled move: who moves next and what the mover chooses (20_memory.md R70, 30_encoding.md R104; log 3). -/
inductive Input where
  /-- HOST issues a command and nothing falls between its micro-steps (20_memory.md R79; log 5). -/
  | command (w : Nat)
  /-- HOST issues a command, whose micro-steps FG takes one by one (20_memory.md R70 (d)). -/
  | issue (w : Nat)
  /-- FG executes the next micro-step of the command in progress (20_memory.md R70 (a)). -/
  | fg
  /-- ISR starts a handler invocation (20_memory.md R70 (b), 42_irq_dispatch.md R180). -/
  | irq
  /-- ENV move TXSENT (60_exceptions.md R236). -/
  | txSent (ch : TxCh)
  /-- ENV move RXPKT with a data packet (60_exceptions.md R237). -/
  | rxData (ch : RxCh) (bytes : List Byte)
  /-- ENV move RXPKT with a SETUP packet (60_exceptions.md R238). -/
  | rxSetup (bytes : List Byte)
  /-- ENV move BUSRESET (60_exceptions.md R239). -/
  | busReset
  /-- ENV move DIAGSENT (60_exceptions.md R240). -/
  | diagSent
  /-- ENV move SPURIOUS (60_exceptions.md R241). -/
  | spurious
  /-- In the open environment, pending bits rise, without a cause (60_exceptions.md R243). -/
  | openRaise (bits : Byte)
  /-- HOST writes bytes of buffer memory (20_memory.md R70 (d)). -/
  | hostWrite (a : Nat) (bytes : List Byte)
  /-- HOST reads `n` bytes of buffer memory (20_memory.md R70 (d)). -/
  | hostRead (a n : Nat)
  /-- The reset input is asserted (70_reset_and_hazards.md R280). -/
  | hardReset
deriving DecidableEq, Repr

/-- A range of addresses with no memory behind it (93_implementation_defined.md U13; log 12). -/
structure Hole where
  base : Nat
  size : Nat
deriving DecidableEq, Repr

/-- Buffer memory: the bytes that differ from what an unlisted address reads as, by rising address (log 11). -/
abbrev Memory := List Host.Cell

/-! ## The state -/

/-- The state of a run. The sections follow 10_state.md R20: block state, interface registers, hidden peripheral
state, ghost state, output streams; then buffer memory and the model's own fields. `lentTx` and `lentRx` are the borrow
windows a transfer of the direction holds open (20_memory.md R64; log 9); `params` are the parameters of 00_scope.md R7,
which no step changes (log 1). -/
structure State where
  -- block state
  txCtx : PerTx Ctx
  rxCtx : PerRx RecvCtx
  stg : PerRx (List Byte)
  ringData : Vector Byte 128
  ringRead : RingIx
  ringWrite : RingIx
  firstTxcDiscard : Bool
  inHandler : Bool
  latched : Byte
  slot : Option Source
  fatal : Bool
  fatalCause : Byte
  fatalInfo : Byte
  cmd : Option InProgress
  -- interface registers
  intEn : Byte
  irqGate : Byte
  ctl : PerCh Byte
  diagCtl : Byte
  diagStat : Byte
  -- hidden peripheral state
  pend : Byte
  txq : PerTx (List Byte)
  rxq : PerRx (List Byte)
  setupLeft : Nat
  diagHold : Byte
  spuriousArmed : Bool
  -- ghost state
  busy : PerTx Bool
  lentTx : PerTx (List Window)
  lentRx : PerRx (List Window)
  -- output streams
  events : List Event
  responses : List Byte
  wireTx : PerTx (List (List Byte))
  wireDiag : List Byte
  -- buffer memory
  mem : Memory
  noMem : List Hole
  -- the model's own fields
  params : Params
  script : List Input
  draws : Nat
  openEnv : Bool
deriving DecidableEq, Repr

/-! ## Why a step stops -/

/-- The machine stops: no further step of the agent asked for is possible. -/
inductive Fault where
  /-- A command, a micro-step, a handler step or the idle machine was asked to go on in the FATAL state, where no FG
  and no ISR step is enabled (60_exceptions.md R231, 70_reset_and_hazards.md R311). Raised by every such step. Safe:
  the spec says the run ends there as a fault. -/
  | fatalState (cause info : Byte)
  /-- A buffer access at an address with no memory behind it: the agent is stuck (93_implementation_defined.md U13).
  Raised by the operations that read or write buffer memory. Safe: the spec calls it stuck. -/
  | noMemory (a : Nat)
deriving DecidableEq, Repr

/-- The run is outside the envelope the spec gives a meaning (00_scope.md R10). -/
inductive Refusal where
  /-- An instruction with no meaning yet. Raised by exec's refused arms only. Safe. -/
  | notModelled (mnemonic : String)
  /-- A second submission on a direction whose transfer has not completed (93_implementation_defined.md U1). Raised by
  SUBMIT_SEND and SUBMIT_RECV. Safe: the spec's treatment is to refuse. -/
  | secondSubmission
  /-- A HOST access inside a borrow window (93_implementation_defined.md U2). Raised by the HOST moves, and by micro-step
  2 of a receive for an access before it (log 9). Safe. -/
  | borrowWindow (a : Nat)
  /-- A command given while a handler invocation runs (93_implementation_defined.md U11). Raised by the commands. Safe. -/
  | commandInHandler
  /-- A command given while another is in progress (93_implementation_defined.md U11). Raised by the commands. Safe. -/
  | commandInProgress
  /-- The script schedules a move that its own rule does not enable, so it is no run (20_memory.md R70,
  60_exceptions.md R236 to R243; log 3). Raised by the step that reads the script. Safe. -/
  | moveNotEnabled (move : String)
deriving DecidableEq, Repr

/-- What a step, an operation or a meaning answers. -/
abbrev Out := Host.Outcome State Fault Refusal

/-! ## Reset -/

/-- EMPTY (10_state.md R23). -/
def Ctx.empty : Ctx := { buffer := 0, total := 0, completed := 0, remaining := 0 }

/-- EMPTY of a receive context (10_state.md R23). -/
def RecvCtx.empty : RecvCtx := { Ctx.empty with pending := false }

/-- The state after hardware reset: the column "after hardware reset" of 10_state.md R50 (70_reset_and_hazards.md R280).
DESIGN CHOICE for what R50 calls unspecified (log 14), for buffer memory (log 11, log 12) and for the model's own
fields (log 1, log 22). -/
def State.reset : State where
  txCtx := { control := Ctx.empty, bulkIn := Ctx.empty }
  rxCtx := { control := RecvCtx.empty, bulkOut := RecvCtx.empty }
  stg := { control := [], bulkOut := [] }
  ringData := Vector.replicate 128 0
  ringRead := 0
  ringWrite := 0
  firstTxcDiscard := true
  inHandler := false
  latched := 0x00
  slot := none
  fatal := false
  fatalCause := 0x00
  fatalInfo := 0x00
  cmd := none
  intEn := 0x00
  irqGate := 0x00
  ctl := { control := 0x00, bulkIn := 0x00, bulkOut := 0x00 }
  diagCtl := 0x00
  diagStat := 0x01
  pend := 0x00
  txq := { control := [], bulkIn := [] }
  rxq := { control := [], bulkOut := [] }
  setupLeft := 0
  diagHold := 0x00
  spuriousArmed := false
  busy := { control := false, bulkIn := false }
  lentTx := { control := [], bulkIn := [] }
  lentRx := { control := [], bulkOut := [] }
  events := []
  responses := []
  wireTx := { control := [], bulkIn := [] }
  wireDiag := []
  mem := []
  noMem := []
  params := Params.default
  script := []
  draws := 0
  openEnv := false

end Sys2Proof.Machine
end

