-- ==== Sys2Proof/Machine/Channels.lean ====
section
/-! DEFINITION. Access by channel, and what belongs to a channel: its register triple, its interrupt source and its
endpoint address (40_endpoint_transfer.md, notation). -/

namespace Sys2Proof.Machine

def PerCh.get {α : Type} (p : PerCh α) : Channel → α
  | .control => p.control
  | .bulkIn => p.bulkIn
  | .bulkOut => p.bulkOut

def PerCh.set {α : Type} (p : PerCh α) (ch : Channel) (v : α) : PerCh α :=
  match ch with
  | .control => { p with control := v }
  | .bulkIn => { p with bulkIn := v }
  | .bulkOut => { p with bulkOut := v }

def PerTx.get {α : Type} (p : PerTx α) : TxCh → α
  | .control => p.control
  | .bulkIn => p.bulkIn

def PerTx.set {α : Type} (p : PerTx α) (ch : TxCh) (v : α) : PerTx α :=
  match ch with
  | .control => { p with control := v }
  | .bulkIn => { p with bulkIn := v }

def PerRx.get {α : Type} (p : PerRx α) : RxCh → α
  | .control => p.control
  | .bulkOut => p.bulkOut

def PerRx.set {α : Type} (p : PerRx α) (ch : RxCh) (v : α) : PerRx α :=
  match ch with
  | .control => { p with control := v }
  | .bulkOut => { p with bulkOut := v }

/-- The channel whose CTL and STAT registers a sending channel uses. -/
def txChannel : TxCh → Channel
  | .control => .control
  | .bulkIn => .bulkIn

/-- The channel whose CTL and STAT registers a receiving channel uses. -/
def rxChannel : RxCh → Channel
  | .control => .control
  | .bulkOut => .bulkOut

/-- EN_TX(ch), SRC_TX(ch): the Tx-complete source of a channel (60_exceptions.md R234). -/
def txSource : TxCh → Source
  | .control => .ctrlTx
  | .bulkIn => .bulkinTx

/-- EN_RX(ch), SRC_RX(ch): the Rx-complete source of a channel (60_exceptions.md R234). -/
def rxSource : RxCh → Source
  | .control => .ctrlRx
  | .bulkOut => .bulkoutRx

/-- epa_tx(ch) (30_encoding.md R93). -/
def epaTx (p : Params) : TxCh → Byte
  | .control => p.epaCtrlIn
  | .bulkIn => p.epaBulkIn

/-- epa_rx(ch) (30_encoding.md R93). -/
def epaRx (p : Params) : RxCh → Byte
  | .control => p.epaCtrlOut
  | .bulkOut => p.epaBulkOut

end Sys2Proof.Machine
end

