-- ==== Sys2Proof/Machine/Flags.lean ====
section
/-! DEFINITION. Every register field and flag (10_state.md R35, R40 to R49): bit positions, reserved bits, what a
write leaves, and the status bits as functions of the hidden state. -/

namespace Sys2Proof.Machine

/-! ## Fields of an 8-bit register -/

/-- `REG.FIELD <- v`: write one field and leave the others (00_scope.md, notation; 20_memory.md R69). -/
def setField (r mask : Byte) (v : Bool) : Byte := if v then r ||| mask else r &&& ~~~mask

/-- `REG.FIELD = 1`. -/
def fieldSet (r mask : Byte) : Bool := r &&& mask != 0

/-! ## Bit positions, the defaults of R7 -/

/-- INT_EN.GIE (R41). -/
def gieBit : Byte := 0x40
/-- The bits of INT_EN that a write reaches: bit 5 is reserved (R41). -/
def intEnBits : Byte := 0xDF
/-- The bits a read of INT_SRC can return: the six sources (R42). -/
def srcBits : Byte := 0x9F
/-- IRQ_GATE.GATE (R43). -/
def gateBit : Byte := 0x01
/-- CTL.FORCE_TX (R44). -/
def forceTxBit : Byte := 0x01
/-- CTL.STALL (R44). -/
def stallBit : Byte := 0x02
/-- CTL.RXMODE (R44). -/
def rxmodeBit : Byte := 0x04
/-- The bits of CTL that a write reaches (R44). -/
def ctlBits : Byte := 0x07
/-- STAT.TXFULL (R45). -/
def txfullBit : Byte := 0x01
/-- STAT.RXEMPTY (R45). -/
def rxemptyBit : Byte := 0x02
/-- STAT.SETUP_PEND (R45). -/
def setupPendBit : Byte := 0x04
/-- DIAG_STAT.READY (R47). -/
def readyBit : Byte := 0x01
/-- DIAG_CTL.SEND (R47). -/
def sendBit : Byte := 0x01

/-- "Default receive-ready state" of a control register: RXMODE 1, STALL 0, FORCE_TX 0 (R44, 40_endpoint_transfer.md
R133). -/
def receiveReady : Byte := rxmodeBit

/-! ## INT_EN, IRQ_GATE, CTL -/

/-- Write INT_EN whole: the reserved bit is ignored (R41). -/
def writeIntEn (v : Byte) (s : State) : State := { s with intEn := v &&& intEnBits }

/-- Mask a source: write 0 to its enable bit (20_memory.md R72). -/
def maskSource (src : Source) (s : State) : State := { s with intEn := setField s.intEn src.mask false }

/-- Unmask a source: write 1 to its enable bit, whatever it held before (20_memory.md R72, 90_conflicts.md C5). -/
def unmaskSource (src : Source) (s : State) : State := { s with intEn := setField s.intEn src.mask true }

/-- `INT_EN.GIE <- v`. -/
def setGie (v : Bool) (s : State) : State := { s with intEn := setField s.intEn gieBit v }

/-- `IRQ_GATE.GATE <- v` (R43). -/
def setGate (v : Bool) (s : State) : State := { s with irqGate := setField s.irqGate gateBit v }

/-- Write CTL[ch] whole: the reserved bits are ignored (R44). -/
def writeCtl (ch : Channel) (v : Byte) (s : State) : State := { s with ctl := s.ctl.set ch (v &&& ctlBits) }

/-- `CTL[ch].FIELD <- v` for one field's mask (R44). -/
def setCtl (ch : Channel) (mask : Byte) (v : Bool) (s : State) : State :=
  { s with ctl := s.ctl.set ch (setField (s.ctl.get ch) mask v) }

/-! ## INT_SRC and PEND -/

/-- The value INT_SRC reads: the pending sources whose enable bit is 1 (R42). -/
def intSrc (s : State) : Byte := s.pend &&& s.intEn &&& srcBits

/-- What the INT_SRC read leaves: the bits it returned are cleared in PEND (R42). -/
def clearIntSrc (s : State) : State := { s with pend := s.pend &&& ~~~(intSrc s) }

/-- `PEND <- PEND | SRC` (60_exceptions.md R234). -/
def raiseSource (src : Source) (s : State) : State := { s with pend := s.pend ||| src.mask }

/-- The interrupt request: an invocation may start (42_irq_dispatch.md R180). -/
def irqEnabled (s : State) : Bool :=
  !s.fatal && !s.inHandler && fieldSet s.irqGate gateBit && fieldSet s.intEn gieBit && intSrc s != 0

/-! ## Status bits (R45, R49) -/

/-- STAT[ch].TXFULL: the Tx FIFO takes no more bytes (R45, R49). A queue holds at most TXDEPTH bytes (R48), so `≤`
says what R49's equality says (log 17). -/
def txFull (ch : TxCh) (s : State) : Bool := s.params.txDepth ch ≤ (s.txq.get ch).length

/-- STAT[ch].RXEMPTY: the Rx FIFO holds no byte (R45, R49). -/
def rxEmpty (ch : RxCh) (s : State) : Bool := (s.rxq.get ch).isEmpty

/-- STAT[Control].SETUP_PEND (R45, R49). -/
def setupPend (s : State) : Bool := 0 < s.setupLeft

/-- DIAG_STAT.READY (R47). -/
def diagReady (s : State) : Bool := fieldSet s.diagStat readyBit

/-- STAT[ch] as a register: on BulkIn RXEMPTY reads 1, on BulkOut TXFULL reads 0, SETUP_PEND reads 0 on the bulk
channels (R45). -/
def statReg (ch : Channel) (s : State) : Byte :=
  match ch with
  | .control =>
    setField (setField (setField 0 txfullBit (txFull .control s)) rxemptyBit (rxEmpty .control s)) setupPendBit
      (setupPend s)
  | .bulkIn => setField (setField 0 txfullBit (txFull .bulkIn s)) rxemptyBit true
  | .bulkOut => setField 0 rxemptyBit (rxEmpty .bulkOut s)

/-! ## The register map (R40) -/

/-- The registers of R40. -/
inductive Reg where
  | intEn | intSrc | irqGate
  | ctl (ch : Channel) | stat (ch : Channel) | fifo (ch : Channel)
  | diagCtl | diagStat | diagData
deriving DecidableEq, Repr

/-- The row of R40 that gives a register's offset. -/
def Reg.row : Reg → Fin 15
  | .intEn => 0
  | .intSrc => 1
  | .irqGate => 2
  | .ctl .control => 3
  | .stat .control => 4
  | .fifo .control => 5
  | .ctl .bulkIn => 6
  | .stat .bulkIn => 7
  | .fifo .bulkIn => 8
  | .ctl .bulkOut => 9
  | .stat .bulkOut => 10
  | .fifo .bulkOut => 11
  | .diagCtl => 12
  | .diagStat => 13
  | .diagData => 14

/-- The address of a register: REG_BASE and its offset, both parameters (R40, 20_memory.md R77). -/
def regAddr (p : Params) (r : Reg) : Nat := p.addr (p.regBase + p.regOffsets.get r.row)

/-- A field standing at a bit position. -/
def fieldAt (pos : Fin 8) (v : Bool) : Byte := if v then 1 <<< pos.val else 0

/-- CTL as the bus shows it: the three fields at the positions the parameters give (R44). -/
def ctlView (l : BitLayout) (r : Byte) : Byte :=
  fieldAt l.forceTx (fieldSet r forceTxBit) ||| fieldAt l.stall (fieldSet r stallBit)
    ||| fieldAt l.rxmode (fieldSet r rxmodeBit)

/-- STAT as the bus shows it (R45). -/
def statView (l : BitLayout) (r : Byte) : Byte :=
  fieldAt l.txfull (fieldSet r txfullBit) ||| fieldAt l.rxempty (fieldSet r rxemptyBit)
    ||| fieldAt l.setupPend (fieldSet r setupPendBit)

/-- The value a register shows on the bus, without the side effect a read of it may have; none for the write-only
FIFO[BulkIn] and DIAG_DATA and for an empty FIFO (R40 to R47). State keeps every register at the default positions, since
rules name fields; here the fields stand where the parameters put them (92_eei_decisions.md D5; log 1). -/
def regValue (r : Reg) (s : State) : Option Byte :=
  let l := s.params.layout
  match r with
  | .intEn => some ((s.intEn &&& srcBits) ||| fieldAt l.gie (fieldSet s.intEn gieBit))
  | .intSrc => some (intSrc s)
  | .irqGate => some (fieldAt l.gate (fieldSet s.irqGate gateBit))
  | .ctl ch => some (ctlView l (s.ctl.get ch))
  | .stat ch => some (statView l (statReg ch s))
  | .fifo .control => s.rxq.control.head?
  | .fifo .bulkIn => none
  | .fifo .bulkOut => s.rxq.bulkOut.head?
  | .diagCtl => some (fieldAt l.send (fieldSet s.diagCtl sendBit))
  | .diagStat => some (fieldAt l.ready (diagReady s))
  | .diagData => none

end Sys2Proof.Machine
end

