-- ==== Sys2Proof/Machine/Memory.lean ====
section
/-! DEFINITION. Buffer memory (20_memory.md R60 (a), R61): single bytes at addresses modulo 2^ADDR_W, in ascending order
(R65), kept in one canonical form. -/

namespace Sys2Proof.Machine

/-- What an address that no write has reached reads as. DESIGN CHOICE, unsafe: the spec gives buffer memory no
contents at reset (log 11). -/
def unlistedByte : Byte := 0x00

/-- The canonical form: addresses of the address space, strictly rising, and no cell that says what an unlisted
address says. -/
abbrev Memory.wf (p : Params) (m : Memory) : Prop :=
  m.Pairwise (fun c d => c.1 < d.1) ∧ ∀ c ∈ m, c.1 < 2 ^ p.addrW ∧ c.2 ≠ unlistedByte

/-- The byte at a cell address. -/
def readCell : Memory → Nat → Byte
  | [], _ => unlistedByte
  | (k, v) :: m, a => if a < k then unlistedByte else if a = k then v else readCell m a

/-- Put a cell in front, unless it says what an unlisted address says. -/
def consCell (a : Nat) (b : Byte) (m : Memory) : Memory :=
  if b = unlistedByte then m else (a, b) :: m

/-- Store a byte at a cell address, keeping the canonical form. -/
def writeCell : Memory → Nat → Byte → Memory
  | [], a, b => consCell a b []
  | (k, v) :: m, a, b =>
    if a < k then consCell a b ((k, v) :: m)
    else if a = k then consCell a b m
    else (k, v) :: writeCell m a b

/-- `MemRead(addr, 1)`: an address has ADDR_W bits (R61). -/
def memRead (p : Params) (m : Memory) (a : Nat) : Byte := readCell m (p.addr a)

/-- `MemWrite(addr, 1, v)` (R61). -/
def memWrite (p : Params) (m : Memory) (a : Nat) (b : Byte) : Memory := writeCell m (p.addr a) b

/-- The `n` bytes from address `a` on, ascending modulo 2^ADDR_W (R61, R65). -/
def readBytes (p : Params) (m : Memory) : Nat → Nat → List Byte
  | _, 0 => []
  | a, n + 1 => memRead p m a :: readBytes p m (a + 1) n

/-- Store bytes from address `a` on, ascending modulo 2^ADDR_W (R61, R65). -/
def writeBytes (p : Params) : Memory → Nat → List Byte → Memory
  | m, _, [] => m
  | m, a, b :: bs => writeBytes p (memWrite p m a b) (a + 1) bs

/-- The address lies in the `n` bytes from `base` on, modulo 2^ADDR_W (R61). -/
def inRange (p : Params) (base n a : Nat) : Bool :=
  p.addr (p.addr a + 2 ^ p.addrW - p.addr base) < n

/-- The first of the `n` addresses from `a` on, modulo 2^ADDR_W, where a test fails. -/
def firstFailing (p : Params) (ok : Nat → Bool) : Nat → Nat → Option Nat
  | _, 0 => none
  | a, n + 1 => if ok (p.addr a) then firstFailing p ok (a + 1) n else some (p.addr a)

/-- There is memory behind the address (93_implementation_defined.md U13; log 12). -/
def hasMemory (p : Params) (holes : List Hole) (a : Nat) : Bool := holes.all (fun h => !inRange p h.base h.size a)

/-- The first of the `n` addresses from `a` on that has no memory behind it. -/
def firstHole (p : Params) (holes : List Hole) (a n : Nat) : Option Nat := firstFailing p (hasMemory p holes) a n

end Sys2Proof.Machine
end

