-- ==== Sys2Proof/Machine/Ops.lean ====
section
/-! DEFINITION. The named operations the meanings are written over: sequencing, the response and event ports, entry
and exit of the contexts (command, handler, FATAL), buffer memory and the FIFO registers. -/

namespace Sys2Proof.Machine

/-! ## Sequencing -/

/-- Go on from a next state; a fault or refusal stands. -/
def andThen (o : Out) (k : State → Out) : Out :=
  match o with
  | .next s => k s
  | .fault f => .fault f
  | .refused r => .refused r

/-! ## Ports -/

/-- RESP: 0x01 TRUE, 0x00 FALSE (30_encoding.md R97). -/
def respWord (v : Bool) : Byte := if v then 0x01 else 0x00

/-- `return v`: a command ends with response `v` and is no longer in progress (30_encoding.md R97, 20_memory.md R71). -/
def respond (v : Bool) (s : State) : State :=
  { s with responses := s.responses ++ [respWord v], cmd := none }

/-- `emit`: append an event to the event port (43_foreground_api.md R211). -/
def emit (e : Event) (s : State) : State := { s with events := s.events ++ [e] }

/-- XFER_COMPLETE with STATUS = SUCCESS (43_foreground_api.md R214). -/
def emitComplete (epa : Byte) (count : Nat) (fromIsr : Bool) (s : State) : State :=
  emit { kind := .xferComplete epa count, fromIsr := fromIsr } s

/-- KIND of an event word (30_encoding.md R98). -/
def eventKindByte : EventKind → Byte
  | .busReset => 0x01
  | .setupReceived _ => 0x02
  | .xferComplete _ _ => 0x03

/-- EPA of an event word (30_encoding.md R98). -/
def eventEpa (p : Params) : EventKind → Byte
  | .busReset => 0x00
  | .setupReceived _ => p.epaCtrlOut
  | .xferComplete epa _ => epa

/-- The SETUP payload: byte `i` in bits `8i+7 : 8i` (30_encoding.md R98, 20_memory.md R65). -/
def setupPayload : List Byte → BitVec 64
  | [] => 0
  | b :: bs => (setupPayload bs <<< 8) ||| b.setWidth 64

/-- PAYLOAD of an event word (30_encoding.md R98). -/
def eventPayload : EventKind → BitVec 64
  | .busReset => 0
  | .setupReceived bytes => setupPayload bytes
  | .xferComplete _ count => BitVec.ofNat 64 count

/-- The EVT word of an event (30_encoding.md R98): KIND, FROM_ISR and seven zeros, EPA, STATUS = SUCCESS, PAYLOAD. -/
def Event.word (p : Params) (e : Event) : EvtWord :=
  eventKindByte e.kind ++ (if e.fromIsr then 0x80 else 0x00 : Byte) ++ eventEpa p e.kind ++ (0x00 : Byte)
    ++ eventPayload e.kind

/-! ## The FATAL state -/

/-- Cause codes (60_exceptions.md R232). -/
def causeBadEpStall : Byte := 0x01
def causeBadEpClearStall : Byte := 0x02
def causeIllegalCmd : Byte := 0x03

/-- `raise Fatal(cause, info)`: the block's only exception; nothing else is written and no response is produced
(60_exceptions.md R231; log 7). -/
def raiseFatal (cause info : Byte) (s : State) : State :=
  { s with fatal := true, fatalCause := cause, fatalInfo := info }

/-- The only way out of FATAL: the reset input puts every element of state at its reset value (70_reset_and_hazards.md
R280). Buffer memory belongs to the firmware and the schedule to the outside: neither is the block's (log 21). -/
def hardwareReset (s : State) : State :=
  { State.reset with
    mem := s.mem, noMem := s.noMem, params := s.params, script := s.script, draws := s.draws, openEnv := s.openEnv }

/-! ## Contexts -/

/-- The block takes a command: foreground context, none in progress, not FATAL (43_foreground_api.md R210, R216). -/
def acceptsCommand (s : State) : Bool := !s.fatal && !s.inHandler && s.cmd.isNone

/-- A command runs only where the block takes one (43_foreground_api.md R210; U11; log 10). -/
def asCommand (s : State) (k : State → Out) : Out :=
  if s.fatal then .fault (.fatalState s.fatalCause s.fatalInfo)
  else if s.inHandler then .refused .commandInHandler
  else if s.cmd.isSome then .refused .commandInProgress
  else k s

/-- A foreground or handler step is enabled only while `fatal = 0` (60_exceptions.md R231). -/
def unlessFatal (s : State) (k : State → Out) : Out :=
  if s.fatal then .fault (.fatalState s.fatalCause s.fatalInfo) else k s

/-- `INT_EN.GIE <- 0; INT_EN.GIE <- 1` on the hardware revisions that do so (42_irq_dispatch.md R181 step 3,
20_memory.md R74). -/
def giePulse (pulse : Bool) (s : State) : State := if pulse then setGie true (setGie false s) else s

/-- Handler entry, steps 1 to 3 of 42_irq_dispatch.md R181: close the gate, latch the bitmap by the one INT_SRC read,
pulse GIE; the walk stands at slot 0. -/
def handlerEntry (pulse : Bool) (s : State) : State :=
  let s1 := { setGate false s with inHandler := true }
  giePulse pulse { clearIntSrc s1 with latched := intSrc s1, slot := some .diagTx }

/-- Handler exit, step 5 of 42_irq_dispatch.md R181; the foreground resumes where it was (60_exceptions.md R246). -/
def handlerExit (s : State) : State :=
  setGate true { s with slot := none, latched := 0x00, inHandler := false }

/-! ## Buffer memory -/

/-- Go on only if all `n` bytes from `a` on have memory behind them; otherwise the agent is stuck
(93_implementation_defined.md U13; log 12). -/
def withMemory (s : State) (a n : Nat) (k : State → Out) : Out :=
  match firstHole s.params s.noMem a n with
  | some h => .fault (.noMemory h)
  | none => k s

/-! ## FIFO registers -/

/-- `FifoRead(Control)`: pop the head of the Rx queue, or answer a free value where it is empty; the SETUP counter
goes down with every read (20_memory.md R67; log 16). -/
def fifoReadControl (s : State) : Byte × State :=
  match s.rxq.control with
  | b :: bs => (b, { s with rxq := { s.rxq with control := bs }, setupLeft := s.setupLeft - 1 })
  | [] => (Config.draw s.draws, { s with draws := s.draws + 1, setupLeft := s.setupLeft - 1 })

/-- `n` reads of FIFO[Control], in order. -/
def readControl : Nat → State → List Byte × State
  | 0, s => ([], s)
  | n + 1, s =>
    let r := fifoReadControl s
    let rs := readControl n r.2
    (r.1 :: rs.1, rs.2)

/-! ## The open environment's reads (60_exceptions.md R243; log 20)

In the open environment what a status bit or a FIFO answers is a free value at each read: the operations below draw the
hidden state anew before an operation reads it. In the reference environment each is the identity. -/

/-- A status bit drawn. -/
def drawnBit (s : State) : Bool := fieldSet (Config.draw s.draws) 0x01

/-- What a Tx FIFO holds as TXFULL is read: any bytes within TXDEPTH, so a fill writes any number up to it. -/
def freshTx (ch : TxCh) (s : State) : State :=
  if s.openEnv then
    { s with txq := s.txq.set ch ((Config.drawBytes s.draws).take (s.params.txDepth ch)), draws := s.draws + 1 }
  else s

/-- What an Rx FIFO holds as RXEMPTY is read: any bytes within RXDEPTH, so a drain reads any number up to it. -/
def freshRx (ch : RxCh) (s : State) : State :=
  if s.openEnv then
    { s with rxq := s.rxq.set ch ((Config.drawBytes s.draws).take (s.params.rxDepth ch)), draws := s.draws + 1 }
  else s

/-- SETUP_PEND as it is read. -/
def freshSetup (s : State) : State :=
  if s.openEnv then { s with setupLeft := if drawnBit s then Config.setupLen else 0, draws := s.draws + 1 } else s

/-- READY as it is read. -/
def freshReady (s : State) : State :=
  if s.openEnv then { s with diagStat := setField s.diagStat readyBit (drawnBit s), draws := s.draws + 1 } else s

end Sys2Proof.Machine
end

