-- ==== Sys2Proof/Machine/Operands.lean ====
section
/-! DEFINITION. Operand forms of the commands (30_encoding.md R93 to R95): what a field A, L or P means to the operation
that takes it. The two endpoint-address decodes themselves are `epRoute` and `stallChannel` of Sys2Proof.Decode. -/

namespace Sys2Proof.Machine

/-- The endpoints OPEN_EP supports: the five recognised addresses (43_foreground_api.md R205, 30_encoding.md R93). -/
def supportedEp (p : Params) (epa : Byte) : Bool := (epRoute p epa).isSome

/-- The channel, address and length of a receive; none for every other operation (43_foreground_api.md R207). -/
def recvOperands (p : Params) : Instr → Option (RxCh × Nat × Nat)
  | .recvCtrl buf len => some (.control, buf, len)
  | .recvBulk buf len => some (.bulkOut, buf, len)
  | .submitXfer epa buf len =>
    match epRoute p epa with
    | some (.recv ch) => some (ch, buf, len)
    | some (.send _) | some .diag | none => none
  | .init | .connect | .disconnect | .setAddress _ | .remoteWakeup | .openEp _ _ _ | .closeEp _ => none
  | .sendCtrl _ _ | .sendBulk _ _ => none
  | .stall _ | .stallControl _ | .stallBulkin _ | .stallBulkout _ => none
  | .clearStall _ | .clearStallControl _ | .clearStallBulkin _ | .clearStallBulkout _ => none
  | .diagInit | .diagPutb _ | .diagPuts _ _ | .diagPuthex8 _ | .diagPut16 _ => none
  | .isrDiagTx | .isrCtrlTx | .isrCtrlRx | .isrBusReset | .isrBulkoutRx | .isrBulkinTx => none

/-- The character of a hex digit (41_diag_ring.md R167). DESIGN CHOICE (log 38): the spec gives HEX_ALPHA no width and no
bound; it is a byte, and where it is above 0xFA the sum that passes 0xFF is taken modulo 256. -/
def hexChar (p : Params) (d : BitVec 4) : Byte :=
  if d.toNat < 10 then 0x30 + d.setWidth 8 else p.hexAlpha + d.setWidth 8 - 10

/-- The two bytes DIAG_PUTHEX8 puts, the high digit first (41_diag_ring.md R167). -/
def hexBytes (p : Params) (b : Byte) : List Byte := [hexChar p (b.extractLsb' 4 4), hexChar p (b.extractLsb' 0 4)]

/-- The two bytes DIAG_PUT16 puts, the low byte first: bits 7:0 and 15:8 of L (41_diag_ring.md R168, 30_encoding.md R95).
DESIGN CHOICE (log 35): where LEN_W is below 16, L has no bit 15 and the spec does not say what the missing bits are; they
are 0, so with LEN_W of at most 8 the high byte is 0x00. -/
def lowHighBytes (p : Params) (v : Nat) : List Byte := [BitVec.ofNat 8 (p.len v), BitVec.ofNat 8 (p.len v / 256)]

end Sys2Proof.Machine
end

