-- ==== Sys2Proof/Machine/Transfer.lean ====
section
/-! DEFINITION. Endpoint transfer operations (40_endpoint_transfer.md): the subroutines FILL_FLUSH, RXC_DATA and STAGE,
the routines SUBMIT_SEND and SUBMIT_RECV, and the meanings of the commands that run them, of STALL and CLEAR_STALL. -/

namespace Sys2Proof.Machine

/-! ## FILL_FLUSH (R121, R122) -/

/-- What the fill loop leaves: the context, and the bytes it pushed, in order; their number is `k` of R121. -/
structure Fill where
  ctx : Ctx
  pushed : List Byte
deriving DecidableEq, Repr

/-- One byte moved: the cursor and the counters go on by one (R121, R129). -/
def advance1 (p : Params) (c : Ctx) : Ctx :=
  { c with buffer := p.addr (c.buffer + 1), remaining := c.remaining - 1, completed := p.len (c.completed + 1) }

/-- The loop of R121: while bytes remain and TXFULL = 0, push the byte at the cursor. The first argument is the room
left in the Tx FIFO: TXFULL = 0 says that there is some (10_state.md R49), and no room is freed while the loop runs
(00_scope.md R17). -/
def fillLoop (p : Params) (m : Memory) : Nat → Ctx → Fill
  | 0, c => { ctx := c, pushed := [] }
  | room + 1, c =>
    if c.remaining = 0 then { ctx := c, pushed := [] }
    else
      let rest := fillLoop p m room (advance1 p c)
      { rest with pushed := memRead p m c.buffer :: rest.pushed }

/-- The room left in a Tx FIFO: none exactly when TXFULL = 1 (10_state.md R49). -/
def txRoom (ch : TxCh) (s : State) : Nat := s.params.txDepth ch - (s.txq.get ch).length

/-- The loop of FILL_FLUSH on a channel, from the state (R121). -/
def runFill (ch : TxCh) (s : State) : Fill := fillLoop s.params s.mem (txRoom ch s) (s.txCtx.get ch)

/-- Write back what the loop did; FORCE_TX is written 1 exactly when the transfer is finished and the packet written
is shorter than MPS (R122). -/
def finishFill (ch : TxCh) (f : Fill) (s : State) : State :=
  let s1 := { s with txCtx := s.txCtx.set ch f.ctx, txq := s.txq.set ch (s.txq.get ch ++ f.pushed) }
  if f.ctx.remaining = 0 ∧ f.pushed.length < Config.mps ch then setCtl (txChannel ch) forceTxBit true s1 else s1

/-- FILL_FLUSH once TXFULL answers as the queue has it. The bytes read are the `k` from the cursor on (R135). -/
def fillFrom (ch : TxCh) (s : State) : Out :=
  let f := runFill ch s
  withMemory s (s.txCtx.get ch).buffer f.pushed.length fun s => .next (finishFill ch f s)

/-- FILL_FLUSH(ch) (R121): one step. -/
def fillFlush (ch : TxCh) (s : State) : Out := fillFrom ch (freshTx ch s)

/-! ## SUBMIT_SEND (R123) -/

/-- The context a submission records: nothing completed, everything remaining (R123 step 3, R126 step 3b). -/
def newCtx (p : Params) (buf len : Nat) : Ctx :=
  { buffer := p.addr buf, total := p.len len, completed := 0, remaining := p.len len }

/-- R123 step 1: send mode. -/
def sendMode (ch : TxCh) (s : State) : State := setCtl (txChannel ch) rxmodeBit false s

/-- R123 step 3: record the transfer; the ghost bit marks it in flight, and its borrow window opens (20_memory.md R64). -/
def recordSend (ch : TxCh) (buf len : Nat) (s : State) : State :=
  { s with
    txCtx := s.txCtx.set ch (newCtx s.params buf len)
    busy := s.busy.set ch true
    lentTx := s.lentTx.set ch (s.lentTx.get ch ++ [{ base := s.params.addr buf, size := s.params.len len, written := false }]) }

/-- SUBMIT_SEND(ch, buf, len), steps 1 to 5 (R123). A second submission before completion is refused
(93_implementation_defined.md U1; log 8). -/
def submitSend (ch : TxCh) (buf len : Nat) (s : State) : Out :=
  if s.busy.get ch then .refused .secondSubmission
  else
    andThen (fillFlush ch (recordSend ch buf len (maskSource (txSource ch) (sendMode ch s)))) fun s =>
      .next (unmaskSource (txSource ch) s)

/-! ## SUBMIT_RECV (R126) -/

/-- R126 step 2: the staging buffer already holds data. -/
def hasStaged (ch : RxCh) (s : State) : Bool := !(s.stg.get ch).isEmpty

/-- R126 step 3a: copy what fits, drop the rest, complete at once from the foreground (90_conflicts.md C3). -/
def takeStaged (ch : RxCh) (buf maxLen : Nat) (s : State) : Out :=
  let taken := (s.stg.get ch).take (s.params.len maxLen)
  withMemory s buf taken.length fun s =>
    .next (emitComplete (epaRx s.params ch) taken.length false
      { s with mem := writeBytes s.params s.mem buf taken, stg := s.stg.set ch [] })

/-- R126 step 3b: arm receive mode and record a pending request, whose borrow window opens (20_memory.md R64). A second
request is refused (93_implementation_defined.md U1; log 8). For `max_length` 0 the spec conflicts with itself: R126's
pseudocode, and 95_test_vectors.md V4, record `buf`; R126's corner case and 10_state.md R22 say that every field but `pending`
is zero. DESIGN CHOICE (log 37): `buf` is recorded. -/
def recordRecv (ch : RxCh) (buf maxLen : Nat) (s : State) : Out :=
  if (s.rxCtx.get ch).pending then .refused .secondSubmission
  else
    let s1 := setCtl (rxChannel ch) rxmodeBit true s
    .next { s1 with
      rxCtx := s1.rxCtx.set ch { newCtx s.params buf maxLen with pending := true }
      lentRx := s1.lentRx.set ch
        (s1.lentRx.get ch ++ [{ base := s.params.addr buf, size := s.params.len maxLen, written := true }]) }

/-- R126 steps 2 and 3: which branch runs. -/
def recvBranch (staged : Bool) (ch : RxCh) (buf maxLen : Nat) (s : State) : Out :=
  if staged then takeStaged ch buf maxLen s else recordRecv ch buf maxLen s

/-- SUBMIT_RECV(ch, buf, max_length), steps 1 to 4 (R126). -/
def submitRecv (ch : RxCh) (buf maxLen : Nat) (s : State) : Out :=
  let s1 := maskSource (rxSource ch) s
  andThen (recvBranch (hasStaged ch s1) ch buf maxLen s1) fun s => .next (unmaskSource (rxSource ch) s)

/-! ## Rx-complete handling (R129, R130) -/

/-- What the drain loop works on: the context, the Rx FIFO, buffer memory and the count `n` of bytes moved. -/
structure Drain where
  ctx : Ctx
  fifo : List Byte
  mem : Memory
  count : Nat
deriving DecidableEq, Repr

/-- The loop of R129: while `n < total_requested` and RXEMPTY = 0, store the head of the FIFO at the cursor. The first
argument is what is left of `total_requested`. The Control FIFO is drained here only with SETUP_PEND = 0, where a read
leaves the SETUP counter at 0 (20_memory.md R67; log 33). -/
def drainLoop (p : Params) : Nat → Drain → Drain
  | 0, d => d
  | n + 1, d =>
    match d.fifo with
    | [] => d
    | b :: bs =>
      drainLoop p n
        { ctx := advance1 p d.ctx
          fifo := bs
          mem := memWrite p d.mem d.ctx.buffer b
          count := d.count + 1 }

/-- The drain of RXC_DATA on a channel, from the state (R129). -/
def runDrain (ch : RxCh) (s : State) : Drain :=
  let c := (s.rxCtx.get ch).toCtx
  drainLoop s.params c.total { ctx := c, fifo := s.rxq.get ch, mem := s.mem, count := 0 }

/-- The pending branch of R129: drain, complete with the bytes moved, clear the request, whose window closes
(20_memory.md R64). -/
def drainPending (ch : RxCh) (s : State) : Out :=
  let d := runDrain ch s
  withMemory s (s.rxCtx.get ch).buffer d.count fun s =>
    .next (emitComplete (epaRx s.params ch) d.count true
      { s with rxCtx := s.rxCtx.set ch RecvCtx.empty, lentRx := s.lentRx.set ch [], rxq := s.rxq.set ch d.fifo, mem := d.mem })

/-- The loop of STAGE: append what fits, read and drop the rest (R130, 90_conflicts.md C4). -/
def stageLoop (cap : Nat) : List Byte → List Byte → List Byte
  | [], staged => staged
  | b :: fifo, staged => stageLoop cap fifo (if staged.length < cap then staged ++ [b] else staged)

/-- STAGE(ch) (R130): the FIFO ends empty. -/
def stage (ch : RxCh) (s : State) : State :=
  { s with stg := s.stg.set ch (stageLoop (Config.stgCap ch) (s.rxq.get ch) (s.stg.get ch)), rxq := s.rxq.set ch [] }

/-- RXC_DATA(ch) (R129): pending request first, then the empty FIFO, then staging (90_conflicts.md C13). -/
def rxcData (ch : RxCh) (s : State) : Out :=
  if (s.rxCtx.get ch).pending then drainPending ch (freshRx ch s)
  else
    let s1 := freshRx ch s
    if rxEmpty ch s1 then .next (emitComplete (epaRx s1.params ch) 0 true s1) else .next (stage ch (freshRx ch s1))

/-! ## Meanings of the submissions -/

/-- A routine's last step is the response TRUE (43_foreground_api.md R207). -/
def thenTrue (o : Out) : Out := andThen o fun s => .next (respond true s)

/-- SEND.CTRL: SUBMIT_SEND(Control) (R123, 43_foreground_api.md R207). -/
def execSendCtrl (buf len : Nat) (s : State) : Out :=
  asCommand s fun s => thenTrue (submitSend .control buf len s)

/-- SEND.BULK: SUBMIT_SEND(BulkIn) (R123, 43_foreground_api.md R207). -/
def execSendBulk (buf len : Nat) (s : State) : Out :=
  asCommand s fun s => thenTrue (submitSend .bulkIn buf len s)

/-- RECV.CTRL: SUBMIT_RECV(Control) (R126, 43_foreground_api.md R207). -/
def execRecvCtrl (buf len : Nat) (s : State) : Out :=
  asCommand s fun s => thenTrue (submitRecv .control buf len s)

/-- RECV.BULK: SUBMIT_RECV(BulkOut) (R126, 43_foreground_api.md R207). -/
def execRecvBulk (buf len : Nat) (s : State) : Out :=
  asCommand s fun s => thenTrue (submitRecv .bulkOut buf len s)

/-! ## Meanings of STALL and CLEAR_STALL (R131, R132) -/

/-- R131 and R132 steps 2 and 3 on a channel: write the STALL bit and nothing else. -/
def writeStall (v : Bool) (ch : Channel) (s : State) : State := respond true (setCtl ch stallBit v s)

/-- R131 and R132 from step 1: an address that maps to no channel is fatal, before any write. -/
def stallByEpa (v : Bool) (cause epa : Byte) (s : State) : State :=
  match stallChannel s.params epa with
  | some ch => writeStall v ch s
  | none => raiseFatal cause epa s

/-- STALL, the generic row (R131): on the words of this row it raises Fatal(BAD_EP_STALL). -/
def execStall (epa : Byte) (s : State) : Out :=
  asCommand s fun s => .next (stallByEpa true causeBadEpStall epa s)

/-- STALL.CONTROL: the low bits of the operand select Control (R131). -/
def execStallControl (_epa : Byte) (s : State) : Out :=
  asCommand s fun s => .next (writeStall true .control s)

/-- STALL.BULKIN: the low bits of the operand select BulkIn (R131). -/
def execStallBulkin (_epa : Byte) (s : State) : Out :=
  asCommand s fun s => .next (writeStall true .bulkIn s)

/-- STALL.BULKOUT: the low bits of the operand select BulkOut (R131). -/
def execStallBulkout (_epa : Byte) (s : State) : Out :=
  asCommand s fun s => .next (writeStall true .bulkOut s)

/-- CLEAR_STALL, the generic row (R132): on the words of this row it raises Fatal(BAD_EP_CLEAR_STALL). -/
def execClearStall (epa : Byte) (s : State) : Out :=
  asCommand s fun s => .next (stallByEpa false causeBadEpClearStall epa s)

/-- CLEAR_STALL.CONTROL: the low bits of the operand select Control (R132). -/
def execClearStallControl (_epa : Byte) (s : State) : Out :=
  asCommand s fun s => .next (writeStall false .control s)

/-- CLEAR_STALL.BULKIN: the low bits of the operand select BulkIn (R132). -/
def execClearStallBulkin (_epa : Byte) (s : State) : Out :=
  asCommand s fun s => .next (writeStall false .bulkIn s)

/-- CLEAR_STALL.BULKOUT: the low bits of the operand select BulkOut (R132). -/
def execClearStallBulkout (_epa : Byte) (s : State) : Out :=
  asCommand s fun s => .next (writeStall false .bulkOut s)

end Sys2Proof.Machine
end

