-- ==== Sys2Proof/Machine/Api.lean ====
section
/-! DEFINITION. The foreground request API (43_foreground_api.md): INIT, the commands that change nothing, OPEN_EP and the
generic row of SUBMIT_XFER. -/

namespace Sys2Proof.Machine

/-! ## INIT, one definition per micro-step (R200) -/

/-- Step 2: every context is emptied without an event, and no send is in flight. The borrow windows stay: they close at
a completion event (20_memory.md R64). -/
def emptyContexts (s : State) : State :=
  { s with
    txCtx := { control := Ctx.empty, bulkIn := Ctx.empty }
    rxCtx := { control := RecvCtx.empty, bulkOut := RecvCtx.empty }
    busy := { control := false, bulkIn := false } }

/-- Step 3: staged bytes are dropped. -/
def emptyStaging (s : State) : State := { s with stg := { control := [], bulkOut := [] } }

/-- Step 4: the next control Tx-complete will be discarded (10_state.md R29). -/
def armDiscard (s : State) : State := { s with firstTxcDiscard := true }

/-- Step 5: the three control registers. -/
def defaultCtl (s : State) : State :=
  writeCtl .bulkOut receiveReady (writeCtl .bulkIn 0x00 (writeCtl .control receiveReady s))

/-- Step 6: the peripheral owes its spurious control Tx-complete (60_exceptions.md R241). -/
def armSpurious (s : State) : State := { s with spuriousArmed := true }

/-- Step 7: every source enabled, GIE = 1. -/
def enableAll (s : State) : State := writeIntEn 0xDF s

/-- INIT steps 1 to 8, in their order. -/
def initSteps (s : State) : State :=
  setGate true (enableAll (armSpurious (defaultCtl (armDiscard (emptyStaging (emptyContexts (setGate false s)))))))

/-- INIT (R200). -/
def execInit (s : State) : Out := asCommand s fun s => .next (respond true (initSteps s))

/-! ## Commands without effect -/

/-- CONNECT (R201). -/
def execConnect (s : State) : Out := asCommand s fun s => .next (respond true s)

/-- DISCONNECT (R202). -/
def execDisconnect (s : State) : Out := asCommand s fun s => .next (respond true s)

/-- SET_ADDRESS: the device address is ignored (R203). -/
def execSetAddress (_addr : Byte) (s : State) : Out := asCommand s fun s => .next (respond true s)

/-- REMOTE_WAKEUP (R204). -/
def execRemoteWakeup (s : State) : Out := asCommand s fun s => .next (respond true s)

/-- OPEN_EP: the descriptor's size and attributes are ignored (R205). -/
def execOpenEp (epa : Byte) (_mps : Nat) (_attr : Nat) (s : State) : Out :=
  asCommand s fun s => .next (respond (supportedEp s.params epa) s)

/-- CLOSE_EP: the endpoint address is ignored (R206). -/
def execCloseEp (_epa : Byte) (s : State) : Out := asCommand s fun s => .next (respond true s)

/-! ## SUBMIT_XFER -/

/-- SUBMIT_XFER, the generic row, with the whole routing of R207: on the words of this row no address is routed and
the answer is FALSE (90_conflicts.md C2). -/
def execSubmitXfer (epa : Byte) (buf len : Nat) (s : State) : Out :=
  asCommand s fun s =>
    match epRoute s.params epa with
    | some (.send ch) => thenTrue (submitSend ch buf len s)
    | some (.recv ch) => thenTrue (submitRecv ch buf len s)
    | some .diag | none => .next (respond false s)

end Sys2Proof.Machine
end

