-- ==== Sys2Proof/Machine/Ring.lean ====
section
/-! DEFINITION. Diagnostic ring operations (41_diag_ring.md): ENQUEUE, DRAIN_ONE and the five DIAG commands. -/

namespace Sys2Proof.Machine

/-- `ring.data[i]`. -/
def ringGet (v : Vector Byte 128) (i : RingIx) : Byte := v[i.toNat]

/-- `ring.data[i] <- b`. -/
def ringSet (v : Vector Byte 128) (i : RingIx) (b : Byte) : Vector Byte 128 := v.set i.toNat b

/-- The number of bytes the ring holds (00_scope.md R12, 10_state.md R28). -/
def ringHeld (s : State) : Nat := (s.ringWrite - s.ringRead).toNat

/-- The `n` bytes from index `i` on, modulo 128. -/
def ringFrom (v : Vector Byte 128) : RingIx → Nat → List Byte
  | _, 0 => []
  | i, n + 1 => ringGet v i :: ringFrom v (i + 1) n

/-- The bytes the ring holds, oldest first (10_state.md R28). -/
def ringBytes (s : State) : List Byte := ringFrom s.ringData s.ringRead (ringHeld s)

/-- DRAIN_ONE once READY answers as DIAG_STAT has it: writing 1 to SEND clears READY at once (10_state.md R47). -/
def drainIfReady (s : State) : State :=
  if s.ringRead ≠ s.ringWrite ∧ diagReady s then
    { s with
      diagHold := ringGet s.ringData s.ringRead
      ringRead := s.ringRead + 1
      diagCtl := setField s.diagCtl sendBit true
      diagStat := setField s.diagStat readyBit false }
  else s

/-- DRAIN_ONE() (R163). -/
def drainOne (s : State) : State := drainIfReady (freshReady s)

/-- ENQUEUE(b) (R162): the full test comes before the drain (90_conflicts.md C17). -/
def enqueue (b : Byte) (s : State) : Bool × State :=
  if s.ringWrite + 1 = s.ringRead then (false, s)
  else (true, drainOne { s with ringData := ringSet s.ringData s.ringWrite b, ringWrite := s.ringWrite + 1 })

/-- DIAG_PUTB's critical section, micro-steps 1 to 3 (R165). -/
def putByte (b : Byte) (s : State) : Bool × State :=
  let r := enqueue b (maskSource .diagTx s)
  (r.1, unmaskSource .diagTx r.2)

/-- Bytes put one by one; the first failure ends the write and leaves what was put (R166, R167, R168). -/
def putBytes : List Byte → State → Bool × State
  | [], s => (true, s)
  | b :: bs, s =>
    let r := putByte b s
    if r.1 then putBytes bs r.2 else r

/-- The loop of DIAG_PUTS (R166): a byte is read only when the ones before it were put. R166 conflicts with itself on the
byte whose put fails: its pseudocode, and 95_test_vectors.md V7, read byte `i` before its DIAG_PUTB; its corner-case
sentence says that byte `i` is not read. DESIGN CHOICE (log 36): the pseudocode, so a full ring with no memory behind byte
`i` is stuck there and does not answer FALSE. -/
def putString : Nat → Nat → State → Out
  | 0, _, s => .next (respond true s)
  | n + 1, a, s =>
    withMemory s a 1 fun s =>
      let r := putByte (memRead s.params s.mem a) s
      if r.1 then putString n (a + 1) r.2 else .next (respond false r.2)

/-- R161 step 1: both indices to zero; the data is not cleared. -/
def clearRing (s : State) : State := { s with ringRead := 0, ringWrite := 0 }

/-- The response of a DIAG_PUT command is whether every byte was enqueued (30_encoding.md R97). -/
def respondPut (r : Bool × State) : State := respond r.1 r.2

/-- DIAG_INIT (R161). -/
def execDiagInit (s : State) : Out := asCommand s fun s => .next (respond true (clearRing s))

/-- DIAG_PUTB (R165). -/
def execDiagPutb (b : Byte) (s : State) : Out := asCommand s fun s => .next (respondPut (putByte b s))

/-- DIAG_PUTS (R166). -/
def execDiagPuts (buf len : Nat) (s : State) : Out := asCommand s fun s => putString (s.params.len len) buf s

/-- DIAG_PUTHEX8 (R167). -/
def execDiagPuthex8 (b : Byte) (s : State) : Out := asCommand s fun s => .next (respondPut (putBytes (hexBytes s.params b) s))

/-- DIAG_PUT16 (R168). -/
def execDiagPut16 (value : Nat) (s : State) : Out :=
  asCommand s fun s => .next (respondPut (putBytes (lowHighBytes s.params value) s))

end Sys2Proof.Machine
end

