-- ==== Sys2Proof/Machine/Handler.lean ====
section
/-! DEFINITION. The six handler operations (42_irq_dispatch.md R182, 40_endpoint_transfer.md, 41_diag_ring.md). -/

namespace Sys2Proof.Machine

/-- The completion branch of R124 and R125: report the transfer, empty the context, end the flight. The event closes the
borrow windows of the direction (20_memory.md R64). -/
def completeSend (ch : TxCh) (s : State) : State :=
  emitComplete (epaTx s.params ch) (s.txCtx.get ch).completed true
    { s with txCtx := s.txCtx.set ch Ctx.empty, busy := s.busy.set ch false, lentTx := s.lentTx.set ch [] }

/-- Tx-complete handling after the discard test (R124, R125): go on filling, or complete. -/
def txComplete (ch : TxCh) (s : State) : Out :=
  if (s.txCtx.get ch).remaining ≠ 0 then fillFlush ch s else .next (completeSend ch s)

/-- The SETUP branch of R127: exactly 8 reads, whatever the FIFO holds and whatever is pending. -/
def receiveSetup (s : State) : State :=
  let r := readControl Config.setupLen s
  emit { kind := .setupReceived r.1, fromIsr := true } r.2

/-- ISR.DIAG_TX, slot 0 (41_diag_ring.md R164). -/
def execIsrDiagTx (s : State) : Out := unlessFatal s fun s => .next (drainOne s)

/-- ISR.CTRL_TX, slot 1: the one-shot discard comes first (R124). -/
def execIsrCtrlTx (s : State) : Out :=
  unlessFatal s fun s =>
    if s.firstTxcDiscard then .next { s with firstTxcDiscard := false } else txComplete .control s

/-- ISR.CTRL_RX, slot 2 (R127). -/
def execIsrCtrlRx (s : State) : Out :=
  unlessFatal s fun s =>
    let s1 := freshSetup s
    if setupPend s1 then .next (receiveSetup (freshRx .control s1)) else rxcData .control s1

/-- ISR.BUS_RESET, slot 3: CTL[Control] whole, one event, nothing else (R133). -/
def execIsrBusReset (s : State) : Out :=
  unlessFatal s fun s => .next (emit { kind := .busReset, fromIsr := true } (writeCtl .control receiveReady s))

/-- ISR.BULKOUT_RX, slot 4 (R128). -/
def execIsrBulkoutRx (s : State) : Out := unlessFatal s fun s => rxcData .bulkOut s

/-- ISR.BULKIN_TX, slot 5: no discard on the bulk channel (R125). -/
def execIsrBulkinTx (s : State) : Out := unlessFatal s fun s => txComplete .bulkIn s

end Sys2Proof.Machine
end

