-- ==== Sys2Proof/Machine/Dispatch.lean ====
section
/-! DEFINITION. exec: one arm per constructor of Instr, each one direct call of that instruction's meaning. -/

namespace Sys2Proof.Machine

def exec (i : Instr) (s : State) : Host.Outcome State Fault Refusal :=
  match i with
  | .init => Sys2Proof.Machine.execInit s
  | .connect => Sys2Proof.Machine.execConnect s
  | .disconnect => Sys2Proof.Machine.execDisconnect s
  | .setAddress addr => Sys2Proof.Machine.execSetAddress addr s
  | .remoteWakeup => Sys2Proof.Machine.execRemoteWakeup s
  | .openEp epa mps attr => Sys2Proof.Machine.execOpenEp epa mps attr s
  | .closeEp epa => Sys2Proof.Machine.execCloseEp epa s
  | .submitXfer epa buf len => Sys2Proof.Machine.execSubmitXfer epa buf len s
  | .sendCtrl buf len => Sys2Proof.Machine.execSendCtrl buf len s
  | .sendBulk buf len => Sys2Proof.Machine.execSendBulk buf len s
  | .recvCtrl buf len => Sys2Proof.Machine.execRecvCtrl buf len s
  | .recvBulk buf len => Sys2Proof.Machine.execRecvBulk buf len s
  | .stall epa => Sys2Proof.Machine.execStall epa s
  | .stallControl epa => Sys2Proof.Machine.execStallControl epa s
  | .stallBulkin epa => Sys2Proof.Machine.execStallBulkin epa s
  | .stallBulkout epa => Sys2Proof.Machine.execStallBulkout epa s
  | .clearStall epa => Sys2Proof.Machine.execClearStall epa s
  | .clearStallControl epa => Sys2Proof.Machine.execClearStallControl epa s
  | .clearStallBulkin epa => Sys2Proof.Machine.execClearStallBulkin epa s
  | .clearStallBulkout epa => Sys2Proof.Machine.execClearStallBulkout epa s
  | .diagInit => Sys2Proof.Machine.execDiagInit s
  | .diagPutb b => Sys2Proof.Machine.execDiagPutb b s
  | .diagPuts buf len => Sys2Proof.Machine.execDiagPuts buf len s
  | .diagPuthex8 b => Sys2Proof.Machine.execDiagPuthex8 b s
  | .diagPut16 value => Sys2Proof.Machine.execDiagPut16 value s
  | .isrDiagTx => Sys2Proof.Machine.execIsrDiagTx s
  | .isrCtrlTx => Sys2Proof.Machine.execIsrCtrlTx s
  | .isrCtrlRx => Sys2Proof.Machine.execIsrCtrlRx s
  | .isrBusReset => Sys2Proof.Machine.execIsrBusReset s
  | .isrBulkoutRx => Sys2Proof.Machine.execIsrBulkoutRx s
  | .isrBulkinTx => Sys2Proof.Machine.execIsrBulkinTx s

end Sys2Proof.Machine
end

