-- ==== Sys2Proof/Machine/Env.lean ====
section
/-! DEFINITION. The moves of the agents outside the block: the reference peripheral (60_exceptions.md R236 to R242), the
open environment (R243), and the HOST's accesses to buffer memory (20_memory.md R64, R70 (d)). -/

namespace Sys2Proof.Machine

/-- A move its rule does not enable cannot be scheduled (log 3). -/
def ifEnabled (enabled : Bool) (move : String) (s : State) : Out :=
  if enabled then .next s else .refused (.moveNotEnabled move)

/-! ## The reference environment -/

/-- A control completion waits for the spurious one that is owed (R236). -/
def spuriousFirst (ch : TxCh) (s : State) : Bool :=
  match ch with
  | .control => s.spuriousArmed
  | .bulkIn => false

/-- TXSENT(ch) is enabled: a full FIFO, or FORCE_TX (R236). -/
def txSentEnabled (ch : TxCh) (s : State) : Bool :=
  (txFull ch s || fieldSet (s.ctl.get (txChannel ch)) forceTxBit) && !spuriousFirst ch s

/-- The effect of TXSENT(ch): the FIFO leaves as one packet (R236). -/
def txSentEffect (ch : TxCh) (s : State) : State :=
  raiseSource (txSource ch) (setCtl (txChannel ch) forceTxBit false
    { s with wireTx := s.wireTx.set ch (s.wireTx.get ch ++ [s.txq.get ch]), txq := s.txq.set ch [] })

def txSent (ch : TxCh) (s : State) : Out := ifEnabled (txSentEnabled ch s) "TXSENT" (txSentEffect ch s)

/-- The SETUP packet whose 8 reads are not done keeps a data packet out (R237). -/
def setupWaiting (ch : RxCh) (s : State) : Bool :=
  match ch with
  | .control => setupPend s
  | .bulkOut => false

/-- RXPKT(ch, data, bytes) is enabled: an empty FIFO and at most MPS bytes (R237). -/
def rxDataEnabled (ch : RxCh) (bytes : List Byte) (s : State) : Bool :=
  rxEmpty ch s && !setupWaiting ch s && bytes.length ≤ Config.rxMps ch

def rxDataEffect (ch : RxCh) (bytes : List Byte) (s : State) : State :=
  raiseSource (rxSource ch) { s with rxq := s.rxq.set ch bytes }

def rxData (ch : RxCh) (bytes : List Byte) (s : State) : Out :=
  ifEnabled (rxDataEnabled ch bytes s) "RXPKT" (rxDataEffect ch bytes s)

/-- RXPKT(Control, setup, bytes): exactly 8 bytes, in every state; what the FIFO held is lost (R238). -/
def rxSetupEffect (bytes : List Byte) (s : State) : State :=
  raiseSource .ctrlRx { s with rxq := { s.rxq with control := bytes }, setupLeft := Config.setupLen }

def rxSetup (bytes : List Byte) (s : State) : Out :=
  ifEnabled (bytes.length = Config.setupLen) "RXPKT" (rxSetupEffect bytes s)

/-- BUSRESET: the pending bit and nothing else (R239). -/
def busReset (s : State) : Out := .next (raiseSource .busReset s)

/-- The effect of DIAGSENT (R240). -/
def diagSentEffect (s : State) : State :=
  raiseSource .diagTx
    { s with
      wireDiag := s.wireDiag ++ [s.diagHold]
      diagCtl := setField s.diagCtl sendBit false
      diagStat := setField s.diagStat readyBit true }

/-- DIAGSENT is enabled while SEND = 1 (R240). -/
def diagSent (s : State) : Out := ifEnabled (fieldSet s.diagCtl sendBit) "DIAGSENT" (diagSentEffect s)

/-- The effect of SPURIOUS (R241). -/
def spuriousEffect (s : State) : State := raiseSource .ctrlTx { s with spuriousArmed := false }

/-- SPURIOUS is enabled while it is owed (R241). -/
def spurious (s : State) : Out := ifEnabled s.spuriousArmed "SPURIOUS" (spuriousEffect s)

/-! ## The open environment -/

/-- In the open environment any bits of PEND may become set between two steps; what the status bits and the FIFOs
answer is drawn where they are read (R243; log 20). -/
def openRaise (bits : Byte) (s : State) : Out := ifEnabled s.openEnv "OPEN" { s with pend := s.pend ||| bits }

/-! ## The HOST and buffer memory -/

/-- The window of a receive that step 2 found staged bytes for. R64 gives its time, "the command itself"; DESIGN CHOICE
(log 34): it covers all `max_length` bytes, and the HOST may neither read nor write them. Before step 2 the block has not
decided: see `noteTouch`. -/
def stagedWindow (p : Params) (buf maxLen : Nat) (c : InProgress) : List Window :=
  if c.staged then [{ base := p.addr buf, size := p.len maxLen, written := true }] else []

/-- The windows of a command in progress: a staged receive, and DIAG_PUTS (R64). DESIGN CHOICE (log 34): R64 gives the
time of the window of DIAG_PUTS, "the command itself"; the model has it cover all `L` bytes, which the HOST may read and
not write. The other commands borrow no buffer of their own, or borrow it for a transfer. -/
def commandWindow (p : Params) (c : InProgress) : List Window :=
  match c.instr with
  | .recvCtrl buf len | .recvBulk buf len | .submitXfer _ buf len => stagedWindow p buf len c
  | .diagPuts buf len => [{ base := p.addr buf, size := p.len len, written := false }]
  | .init | .connect | .disconnect | .setAddress _ | .remoteWakeup | .openEp _ _ _ | .closeEp _ => []
  | .sendCtrl _ _ | .sendBulk _ _ => []
  | .stall _ | .stallControl _ | .stallBulkin _ | .stallBulkout _ => []
  | .clearStall _ | .clearStallControl _ | .clearStallBulkin _ | .clearStallBulkout _ => []
  | .diagInit | .diagPutb _ | .diagPuthex8 _ | .diagPut16 _ => []
  | .isrDiagTx | .isrCtrlTx | .isrCtrlRx | .isrBusReset | .isrBulkoutRx | .isrBulkinTx => []

/-- The windows of the command in progress, if there is one (R64). -/
def commandWindows (s : State) : List Window :=
  match s.cmd with
  | none => []
  | some c => commandWindow s.params c

/-- Every borrow window open in the state: those of the transfers, from SUBMIT_SEND step 3 or SUBMIT_RECV step 3b to the
completion event, and those of the command in progress (R64). -/
def windows (s : State) : List Window :=
  s.lentTx.control ++ s.lentTx.bulkIn ++ s.lentRx.control ++ s.lentRx.bulkOut ++ commandWindows s

/-- The HOST may not write a borrowed byte (93_implementation_defined.md U2). -/
def hostMayWrite (s : State) (a : Nat) : Bool := (windows s).all fun w => !inRange s.params w.base w.size a

/-- The HOST may not read a byte of a buffer the block writes (93_implementation_defined.md U2). -/
def hostMayRead (s : State) (a : Nat) : Bool := (windows s).all fun w => !(w.written && inRange s.params w.base w.size a)

/-- A HOST access to the `n` bytes from `a` on while a receive in progress has not reached step 2: its first byte in the
buffer is kept, for step 2 to judge (R64; log 9). -/
def noteTouch (p : Params) (a n : Nat) (c : InProgress) : InProgress :=
  match recvOperands p c.instr with
  | some (_, buf, len) =>
    if c.at_ ≤ 2 then { c with touched := c.touched.or (firstFailing p (fun x => !inRange p buf (p.len len) x) a n) } else c
  | none => c

/-- What a HOST access leaves noted in the command in progress. -/
def noteAccess (a n : Nat) (s : State) : State := { s with cmd := s.cmd.map (noteTouch s.params a n) }

/-- HOST writes bytes of buffer memory, outside every window (R70 (d)). -/
def hostWrite (a : Nat) (bytes : List Byte) (s : State) : Out :=
  match firstFailing s.params (hostMayWrite s) a bytes.length with
  | some x => .refused (.borrowWindow x)
  | none =>
    withMemory s a bytes.length fun s => .next { noteAccess a bytes.length s with mem := writeBytes s.params s.mem a bytes }

/-- HOST reads bytes of buffer memory: no state of the block changes (R70 (d)). -/
def hostRead (a n : Nat) (s : State) : Out :=
  match firstFailing s.params (hostMayRead s) a n with
  | some x => .refused (.borrowWindow x)
  | none => withMemory s a n fun s => .next (noteAccess a n s)

end Sys2Proof.Machine
end

