-- ==== Sys2Proof/Machine/Foreground.lean ====
section
/-! DEFINITION. The foreground taking a command micro-step by micro-step (20_memory.md R70 (a)), over the same
operations the atomic meanings are written with. A micro-step's number is its line in the command's rule; `return` is
a micro-step of its own, and the operands are decoded when the command is issued (log 5, log 24). -/

namespace Sys2Proof.Machine

/-- The command goes on at its next micro-step. -/
def goOn (c : InProgress) (s : State) : Out := .next { s with cmd := some { c with at_ := c.at_ + 1 } }

/-- `return v`, the last micro-step of a command. -/
def finish (v : Bool) (s : State) : Out := .next (respond v s)

/-- A command just issued stands before its first micro-step. -/
def startCommand (i : Instr) : InProgress :=
  { instr := i, at_ := 1, round := 0, byte := 0, staged := false, ok := false, touched := none }

/-- INIT, micro-steps 1 to 9 (43_foreground_api.md R200). -/
def microInit (c : InProgress) (s : State) : Out :=
  match c.at_ with
  | 1 => goOn c (setGate false s)
  | 2 => goOn c (emptyContexts s)
  | 3 => goOn c (emptyStaging s)
  | 4 => goOn c (armDiscard s)
  | 5 => goOn c (defaultCtl s)
  | 6 => goOn c (armSpurious s)
  | 7 => goOn c (enableAll s)
  | 8 => goOn c (setGate true s)
  | _ => finish true s

/-- SUBMIT_SEND, micro-steps 1 to 5 and the response (40_endpoint_transfer.md R123). -/
def microSend (ch : TxCh) (buf len : Nat) (c : InProgress) (s : State) : Out :=
  match c.at_ with
  | 1 => if s.busy.get ch then .refused .secondSubmission else goOn c (sendMode ch s)
  | 2 => goOn c (maskSource (txSource ch) s)
  | 3 => goOn c (recordSend ch buf len s)
  | 4 => andThen (fillFlush ch s) (goOn c)
  | 5 => goOn c (unmaskSource (txSource ch) s)
  | _ => finish true s

/-- SUBMIT_RECV micro-step 2 decides the branch. The window of a staged receive is the command itself (20_memory.md R64),
so where bytes are staged an access the HOST made to the buffer since the issue is outside the envelope
(93_implementation_defined.md U2; log 9). -/
def decideRecv (ch : RxCh) (c : InProgress) (s : State) : Out :=
  match if hasStaged ch s then c.touched else none with
  | some a => .refused (.borrowWindow a)
  | none => goOn { c with staged := hasStaged ch s } s

/-- SUBMIT_RECV, micro-steps 1 to 4 and the response (40_endpoint_transfer.md R126). -/
def microRecv (ch : RxCh) (buf maxLen : Nat) (c : InProgress) (s : State) : Out :=
  match c.at_ with
  | 1 => goOn c (maskSource (rxSource ch) s)
  | 2 => decideRecv ch c s
  | 3 => andThen (recvBranch c.staged ch buf maxLen s) (goOn c)
  | 4 => goOn c (unmaskSource (rxSource ch) s)
  | _ => finish true s

/-- SUBMIT_XFER: the routine its address routes to (43_foreground_api.md R207). -/
def microSubmit (epa : Byte) (buf len : Nat) (c : InProgress) (s : State) : Out :=
  match epRoute s.params epa with
  | some (.send ch) => microSend ch buf len c s
  | some (.recv ch) => microRecv ch buf len c s
  | some .diag | none => finish false s

/-- STALL and CLEAR_STALL, micro-steps 1 to 3 (40_endpoint_transfer.md R131, R132). -/
def microStall (v : Bool) (cause epa : Byte) (c : InProgress) (s : State) : Out :=
  match stallChannel s.params epa with
  | none => .next (raiseFatal cause epa s)
  | some ch =>
    match c.at_ with
    | 1 => goOn c s
    | 2 => goOn c (setCtl ch stallBit v s)
    | _ => finish true s

/-- DIAG_INIT, micro-steps 1 and 2 (41_diag_ring.md R161). -/
def microDiagInit (c : InProgress) (s : State) : Out :=
  match c.at_ with
  | 1 => goOn c (clearRing s)
  | _ => finish true s

/-- One round of DIAG_PUTB, micro-steps 1 to 4, as the round-th of `count` (41_diag_ring.md R165 to R168): the byte `b`
is fetched with step 1, and step 4 returns, ends the write on a failure, or goes to the next round. -/
def microPutRound (b : Byte) (count : Nat) (c : InProgress) (s : State) : Out :=
  match c.at_ with
  | 1 => goOn { c with byte := b } (maskSource .diagTx s)
  | 2 =>
    let r := enqueue c.byte s
    goOn { c with ok := r.1 } r.2
  | 3 => goOn c (unmaskSource .diagTx s)
  | _ =>
    if c.ok = true ∧ c.round + 1 < count then .next { s with cmd := some { c with at_ := 1, round := c.round + 1 } }
    else finish c.ok s

/-- The DIAG_PUT commands whose bytes are operands (41_diag_ring.md R165, R167, R168). -/
def microPutBytes (bytes : List Byte) (c : InProgress) (s : State) : Out :=
  microPutRound (bytes.getD c.round 0) bytes.length c s

/-- DIAG_PUTS (41_diag_ring.md R166): each round reads its byte from buffer memory at its first micro-step. DESIGN CHOICE
(log 36): the byte whose put fails is read too, as R166's pseudocode has it, against its corner-case sentence. -/
def microPuts (buf len : Nat) (c : InProgress) (s : State) : Out :=
  if s.params.len len = 0 then finish true s
  else
    let a := buf + c.round
    if c.at_ = 1 then withMemory s a 1 fun s => microPutRound (memRead s.params s.mem a) (s.params.len len) c s
    else microPutRound 0 (s.params.len len) c s

/-- The next micro-step of the command in progress. A handler operation is no command. -/
def microStep (c : InProgress) (s : State) : Out :=
  match c.instr with
  | .init => microInit c s
  | .connect | .disconnect | .setAddress _ | .remoteWakeup | .closeEp _ => finish true s
  | .openEp epa _ _ => finish (supportedEp s.params epa) s
  | .submitXfer epa buf len => microSubmit epa buf len c s
  | .sendCtrl buf len => microSend .control buf len c s
  | .sendBulk buf len => microSend .bulkIn buf len c s
  | .recvCtrl buf len => microRecv .control buf len c s
  | .recvBulk buf len => microRecv .bulkOut buf len c s
  | .stall epa | .stallControl epa | .stallBulkin epa | .stallBulkout epa => microStall true causeBadEpStall epa c s
  | .clearStall epa | .clearStallControl epa | .clearStallBulkin epa | .clearStallBulkout epa =>
    microStall false causeBadEpClearStall epa c s
  | .diagInit => microDiagInit c s
  | .diagPutb b => microPutBytes [b] c s
  | .diagPuts buf len => microPuts buf len c s
  | .diagPuthex8 b => microPutBytes (hexBytes s.params b) c s
  | .diagPut16 v => microPutBytes (lowHighBytes s.params v) c s
  | .isrDiagTx | .isrCtrlTx | .isrCtrlRx | .isrBusReset | .isrBulkoutRx | .isrBulkinTx =>
    .refused (.moveNotEnabled "fg")

/-- A foreground step: enabled while a command is in progress and `fatal = 0` (20_memory.md R70 (a)). -/
def fgStep (s : State) : Out :=
  unlessFatal s fun s =>
    match s.cmd with
    | some c => microStep c s
    | none => .refused (.moveNotEnabled "fg")

/-- An illegal command word is fatal at its decode (30_encoding.md R99 (a)). -/
def illegalCommand (op : Byte) (s : State) : Out := .next (raiseFatal causeIllegalCmd op s)

/-- A word that encodes no operation: the command decoder names only OP (30_encoding.md R99 (a)). -/
def undecodedCommand (w : Nat) (e : DecodeError) (s : State) : Out :=
  match e with
  | .illegalCmd op => illegalCommand op s
  | .noSource => illegalCommand (cmdOp s.params w) s

/-- HOST issues a command on the command port (43_foreground_api.md R210). -/
def issueCommand (w : Nat) (s : State) : Out :=
  asCommand s fun s =>
    match decodeCmd s.params w with
    | .ok i => .next { s with cmd := some (startCommand i) }
    | .error e => undecodedCommand w e s

end Sys2Proof.Machine
end

