-- ==== Sys2Proof/Machine/Agents.lean ====
section
/-! DEFINITION. Who takes a step (20_memory.md R70): the handler walking its slots, the block idling, and the move the
script schedules next. Step.lean puts these together. -/

namespace Sys2Proof.Machine

/-! ## The handler (42_irq_dispatch.md R181) -/

/-- An invocation starts, where R180 enables it. -/
def startInvocation (s : State) : Out :=
  unlessFatal s fun s =>
    if irqEnabled s then .next (handlerEntry s.params.hwrevGiePulse s) else .refused (.moveNotEnabled "irq")

/-- The walk goes to the next slot, or out of the handler after slot 5 (10_state.md R30). -/
def leaveSlot (src : Source) (s : State) : State :=
  match src.next with
  | some n => { s with slot := some n }
  | none => handlerExit s

/-- One slot of R181 step 4: run the operation where its bit is set in `B`, never re-reading PEND (R183). -/
def slotStep (src : Source) (s : State) : Out :=
  if s.latched &&& src.mask ≠ 0 then andThen (exec src.instr s) fun t => .next (leaveSlot src t)
  else .next (leaveSlot src s)

/-- The next step of the invocation under way: one slot a step, with nothing in between (log 6). -/
def handlerStep (s : State) : Out :=
  unlessFatal s fun s =>
    match s.slot with
    | some src => slotStep src s
    | none => .next (handlerExit s)

/-- R181 steps 4 and 5 from a list of slots on. -/
def walkSlots : List Source → State → Out
  | [], s => .next s
  | src :: rest, s => andThen (slotStep src s) (walkSlots rest)

/-- One whole handler invocation as the single step R181 gives. -/
def invocation (s : State) : Out := andThen (startInvocation s) (walkSlots slotOrder)

/-! ## Commands and inputs -/

/-- HOST issues a command and nothing falls between its micro-steps (20_memory.md R79; log 5). -/
def runCommand (w : Nat) (s : State) : Out :=
  match decodeCmd s.params w with
  | .ok i => exec i s
  | .error e => asCommand s (undecodedCommand w e)

/-- With nothing scheduled the block's own agents go on, and the one move the peripheral owes is made; then the state
is quiescent and stays (70_reset_and_hazards.md R311, R312). DESIGN CHOICE: that these steps are taken with nothing
scheduled, and in this order, where 20_memory.md R70 lets any enabled step be next (log 4). DESIGN CHOICE: SPURIOUS is made
here as owed in both environments, though in the open one 60_exceptions.md R243 replaces R241, 70_reset_and_hazards.md R293
says that it may never come, and R312 owes it without exception (log 4, log 20). -/
def idleStep (s : State) : Out :=
  unlessFatal s fun s =>
    if s.cmd.isSome then fgStep s
    else if irqEnabled s then startInvocation s
    else if s.spuriousArmed then spurious s
    else .next s

/-- The scheduled move is made (20_memory.md R70). -/
def takeInput (m : Input) (s : State) : Out :=
  match m with
  | .command w => runCommand w s
  | .issue w => issueCommand w s
  | .fg => fgStep s
  | .irq => startInvocation s
  | .txSent ch => txSent ch s
  | .rxData ch bytes => rxData ch bytes s
  | .rxSetup bytes => rxSetup bytes s
  | .busReset => busReset s
  | .diagSent => diagSent s
  | .spurious => spurious s
  | .openRaise bits => openRaise bits s
  | .hostWrite a bytes => hostWrite a bytes s
  | .hostRead a n => hostRead a n s
  | .hardReset => .next (hardwareReset s)

/-- Nothing falls inside a handler invocation (20_memory.md R70); otherwise the script says who moves. -/
def advance (s : State) : Out :=
  if s.inHandler then handlerStep s
  else
    match s.script with
    | m :: rest => takeInput m { s with script := rest }
    | [] => idleStep s

/-! ## Placing the next instruction -/

/-- The state with an encoded operation as the one the next step runs (log 26). A command goes to the head of the
script, with the command port free; a source bitmap is latched by an invocation under way, at the slot of its first
source. -/
def placeNext (e : Encoded) (s : State) : State :=
  match e with
  | .cmd w =>
    { s with script := .command w :: s.script, cmd := none, inHandler := false, slot := none, latched := 0, fatal := false }
  | .src b =>
    { setGate false s with inHandler := true, latched := b, slot := (routeSources b).head?, fatal := false }

end Sys2Proof.Machine
end

