-- ==== Sys2Proof/Machine/Step.lean ====
section
/-! DEFINITION. One step of a run, and where the next instruction is placed. -/

namespace Sys2Proof.Machine

/-- One step: of the handler while an invocation runs, else of the agent the script names (20_memory.md R70). -/
def step (s : State) : Host.Outcome State Fault Refusal := advance s

/-- The state with the instruction of `nbits` bits `w` placed where `step` takes its next one (log 26). -/
def State.withFetchWord (s : State) (nbits w : Nat) : State := placeNext (tableEncoding nbits w) s

end Sys2Proof.Machine
end

