-- ==== Sys2Proof/Safety.lean ====
section
/-! DEFINITION. What counts as a safe state and a safe run: the invariants the rules promise, in the terms the
statements use. -/

namespace Sys2Proof.Machine

/-! ## The invariant of the machine -/

/-- Queues, staging buffers and the SETUP counter stay within their capacities (10_state.md R25, R48). -/
abbrev Bounded (s : State) : Prop :=
  s.txq.control.length ≤ s.params.txDepth .control ∧ s.txq.bulkIn.length ≤ s.params.txDepth .bulkIn
    ∧ s.rxq.control.length ≤ s.params.rxDepth .control ∧ s.rxq.bulkOut.length ≤ s.params.rxDepth .bulkOut
    ∧ s.stg.control.length ≤ Config.stgCap .control ∧ s.stg.bulkOut.length ≤ Config.stgCap .bulkOut
    ∧ s.setupLeft ≤ Config.setupLen

/-- Reserved register bits read 0 (10_state.md R41, R43, R44, R47). -/
abbrev ReservedZero (s : State) : Prop :=
  s.intEn &&& 0x20 = 0 ∧ s.irqGate &&& 0xFE = 0
    ∧ s.ctl.control &&& 0xF8 = 0 ∧ s.ctl.bulkIn &&& 0xF8 = 0 ∧ s.ctl.bulkOut &&& 0xF8 = 0
    ∧ s.diagCtl &&& 0xFE = 0 ∧ s.diagStat &&& 0xFE = 0

/-- Sequencing: outside a handler the slot is IDLE and B is 0; inside it the slot names a source and the gate is closed
(10_state.md R30, 20_memory.md R74). A Fatal cannot occur inside the handler (60_exceptions.md R246), and the fatal
registers are written only by raise Fatal (10_state.md R32). -/
abbrev Sequenced (s : State) : Prop :=
  (s.inHandler = false → s.slot = none ∧ s.latched = 0)
    ∧ (s.inHandler = true → s.slot.isSome = true ∧ s.irqGate = 0 ∧ s.fatal = false)
    ∧ (s.fatal = false → s.fatalCause = 0 ∧ s.fatalInfo = 0)

/-- `bytes_completed + bytes_remaining = total_requested`, which fits LEN_W bits, so no sum overflows (00_scope.md R13); the
cursor fits ADDR_W bits (10_state.md R21). -/
abbrev CtxConserved (p : Params) (c : Ctx) : Prop :=
  c.completed + c.remaining = c.total ∧ c.total < 2 ^ p.lenW ∧ c.buffer < 2 ^ p.addrW

/-- Conservation in all four contexts (00_scope.md R13). -/
abbrev Conserved (s : State) : Prop :=
  CtxConserved s.params s.txCtx.control ∧ CtxConserved s.params s.txCtx.bulkIn
    ∧ CtxConserved s.params s.rxCtx.control.toCtx ∧ CtxConserved s.params s.rxCtx.bulkOut.toCtx

/-- An idle context is EMPTY (10_state.md R23, 40_endpoint_transfer.md R120). -/
abbrev IdleEmpty (s : State) : Prop :=
  (s.busy.control = false → s.txCtx.control = Ctx.empty) ∧ (s.busy.bulkIn = false → s.txCtx.bulkIn = Ctx.empty)
    ∧ (s.rxCtx.control.pending = false → s.rxCtx.control = RecvCtx.empty)
    ∧ (s.rxCtx.bulkOut.pending = false → s.rxCtx.bulkOut = RecvCtx.empty)

/-- What holds of the reference environment only (60_exceptions.md R242): bits 5 and 6 of PEND are never raised, and the
diagnostic endpoint is ready exactly when no byte is on its way (10_state.md R47). -/
abbrev ReferencePeripheral (s : State) : Prop :=
  s.openEnv = false → s.pend &&& 0x60 = 0 ∧ (diagReady s = true ↔ fieldSet s.diagCtl sendBit = false)

/-- The invariant of the machine. -/
abbrev MachineInv (s : State) : Prop :=
  s.params.Legal ∧ Memory.wf s.params s.mem ∧ Bounded s ∧ ReservedZero s ∧ Sequenced s ∧ Conserved s ∧ IdleEmpty s
    ∧ ReferencePeripheral s

/-! ## The masking discipline (20_memory.md R72, R73) -/

/-- A source no handler step can service: its enable bit is 0, and the invocation under way, if any, has not latched
it. -/
abbrev Excluded (src : Source) (s : State) : Prop :=
  s.intEn &&& src.mask = 0 ∧ (s.inHandler = true → s.latched &&& src.mask = 0)

/-- The receiving channel whose critical section a command in progress runs (40_endpoint_transfer.md R126). -/
def receivingChannel (p : Params) (i : Instr) : Option RxCh := (recvOperands p i).map Prod.fst

/-- Between its mask and its record, a receive command in progress keeps the Rx source of its channel out, and what it
found in the staging buffer at step 2 is still so at step 3 (20_memory.md R72, 40_endpoint_transfer.md R126). -/
abbrev RecvSectionSafe (ch : RxCh) (s : State) : Prop :=
  ∀ c, s.cmd = some c → receivingChannel s.params c.instr = some ch →
    ((c.at_ = 2 ∨ c.at_ = 3) → Excluded (rxSource ch) s) ∧ (c.at_ = 3 → c.staged = hasStaged ch s)

/-- Staged bytes and a pending request never stand together on a channel (10_state.md R26). -/
abbrev StagedOrPending (ch : RxCh) (s : State) : Prop :=
  (s.rxCtx.get ch).pending = true → s.stg.get ch = []

/-- The staging invariant of a channel, with what the micro-steps of a receive in progress rely on. -/
abbrev StagingInv (ch : RxCh) (s : State) : Prop := StagedOrPending ch s ∧ RecvSectionSafe ch s

/-! ## Naming operations by channel -/

/-- SEND.CTRL or SEND.BULK. -/
def sendInstr (ch : TxCh) (buf len : Nat) : Instr :=
  match ch with
  | .control => .sendCtrl buf len
  | .bulkIn => .sendBulk buf len

/-- RECV.CTRL or RECV.BULK. -/
def recvInstr (ch : RxCh) (buf len : Nat) : Instr :=
  match ch with
  | .control => .recvCtrl buf len
  | .bulkOut => .recvBulk buf len

/-- STALL.CONTROL, STALL.BULKIN or STALL.BULKOUT. -/
def stallInstr (ch : Channel) (epa : Byte) : Instr :=
  match ch with
  | .control => .stallControl epa
  | .bulkIn => .stallBulkin epa
  | .bulkOut => .stallBulkout epa

/-- CLEAR_STALL.CONTROL, CLEAR_STALL.BULKIN or CLEAR_STALL.BULKOUT. -/
def clearStallInstr (ch : Channel) (epa : Byte) : Instr :=
  match ch with
  | .control => .clearStallControl epa
  | .bulkIn => .clearStallBulkin epa
  | .bulkOut => .clearStallBulkout epa

/-- ISR.CTRL_TX or ISR.BULKIN_TX. -/
def txCompleteInstr : TxCh → Instr
  | .control => .isrCtrlTx
  | .bulkIn => .isrBulkinTx

/-- ISR.CTRL_RX or ISR.BULKOUT_RX. -/
def rxCompleteInstr : RxCh → Instr
  | .control => .isrCtrlRx
  | .bulkOut => .isrBulkoutRx

/-- The state an Rx-complete operation starts from: on Control SETUP_PEND has been read, which in the open environment
draws it (40_endpoint_transfer.md R127, R128; 60_exceptions.md R243). -/
def rxStart (ch : RxCh) (s : State) : State :=
  match ch with
  | .control => freshSetup s
  | .bulkOut => s

/-- No SETUP packet is half read on the channel; BulkOut has none (10_state.md R48). -/
def NoSetup (ch : RxCh) (s : State) : Prop := ch = .control → s.setupLeft = 0

/-- The Rx-complete operation of a channel takes the data branch: on Control SETUP_PEND reads 0
(40_endpoint_transfer.md R127, R128). -/
def DataBranch (ch : RxCh) (s : State) : Prop := NoSetup ch (rxStart ch s)

/-- The Tx-complete operation of a channel is not the one the one-shot flag discards (40_endpoint_transfer.md R124,
R125). -/
def NotDiscarded (ch : TxCh) (s : State) : Prop := ch = .control → s.firstTxcDiscard = false

/-- Of the addresses from `a` on, the one `j` further is the first with no memory behind it
(93_implementation_defined.md U13; log 12). -/
def FirstHoleAt (s : State) (a j : Nat) : Prop :=
  (∀ i < j, hasMemory s.params s.noMem (a + i) = true) ∧ hasMemory s.params s.noMem (a + j) = false

/-! ## Micro-steps -/

/-- How many micro-steps a command takes when nothing stops it, its response included; none for the helpers whose
number depends on how full the ring is, and for handler operations (20_memory.md R70, 70_reset_and_hazards.md R310). -/
def microCount : Instr → Option Nat
  | .init => some 9
  | .connect | .disconnect | .setAddress _ | .remoteWakeup | .openEp _ _ _ | .closeEp _ => some 1
  | .submitXfer _ _ _ => some 1
  | .sendCtrl _ _ | .sendBulk _ _ => some 6
  | .recvCtrl _ _ | .recvBulk _ _ => some 5
  | .stallControl _ | .stallBulkin _ | .stallBulkout _ => some 3
  | .clearStallControl _ | .clearStallBulkin _ | .clearStallBulkout _ => some 3
  | .diagInit => some 2
  | .diagPutb _ => some 4
  | .stall _ | .clearStall _ => none
  | .diagPuts _ _ | .diagPuthex8 _ | .diagPut16 _ => none
  | .isrDiagTx | .isrCtrlTx | .isrCtrlRx | .isrBusReset | .isrBulkoutRx | .isrBulkinTx => none

/-! ## Runs -/

/-- A state is quiescent (70_reset_and_hazards.md R311). -/
abbrev Quiescent (s : State) : Prop :=
  s.cmd = none ∧ s.inHandler = false ∧ irqEnabled s = false ∧ s.spuriousArmed = false

end Sys2Proof.Machine
end

