-- ==== Sys2Proof/Certificates/Slice0/Obligations.lean ====
section
/-! DEFINITION. The statements for the provers. Where a statement gives a next state as a record over `s`, every field
it does not name is as it was: that is the instruction's frame, every byte of buffer memory among it unless `mem` is
named.

`freshTx`, `freshRx`, `freshSetup` and `freshReady` are what a status bit or a FIFO answers when it is read: the identity in
the reference environment, a free value in the open one (60_exceptions.md R243; log 20). A statement over them holds in
both.

An operand of field L or P is a number, and a statement says of one that is wider than its field what it says of its low
bits: the model's choice (log 1), of which no word of 30_encoding.md R91 gives a case. -/

open Sys2Proof Sys2Proof.Machine

/-! ## Running and decoding -/

/-- Outside a handler, a command word at the head of the script is decoded and its meaning is the step, the word taken
off the script (20_memory.md R70, R79; log 5). -/
def Obligations.StepRunsTheDecodedCommand : Prop :=
  ∀ (w : Nat) (i : Instr) (rest : List Input) (s : State),
    s.inHandler = false → s.script = .command w :: rest → decodeCmd s.params w = .ok i →
      WellFormed s.params i = true ∧ step s = exec i { s with script := rest }

/-- Inside a handler a step runs the operation of the slot when its bit is set in B and goes to the next slot; a slot
whose bit is not set is skipped (42_irq_dispatch.md R181 step 4; log 6). -/
def Obligations.StepRunsTheSlotOperation : Prop :=
  ∀ (src : Source) (s : State), s.inHandler = true → s.fatal = false → s.slot = some src →
    decodeSrc src.mask = .ok src.instr
      ∧ (s.latched &&& src.mask ≠ 0 → step s = andThen (exec src.instr s) fun t => .next (leaveSlot src t))
      ∧ (s.latched &&& src.mask = 0 → step s = .next (leaveSlot src s))

/-- Words the spec prints, decoded at the default parameters (95_test_vectors.md V6, V7, V9; 30_encoding.md R96). -/
def Obligations.PrintedWordsDecode : Prop :=
  decodeCmd Params.default 0x0100000000000000 = .ok .init
    ∧ decodeCmd Params.default 0x0405000000000000 = .ok (.setAddress 5)
    ∧ decodeCmd Params.default 0x0681020000000002 = .ok (.openEp 0x81 512 2)
    ∧ decodeCmd Params.default 0x0880006400001000 = .ok (.sendCtrl 0x1000 100)
    ∧ decodeCmd Params.default 0x0881040000004000 = .ok (.sendBulk 0x4000 1024)
    ∧ decodeCmd Params.default 0x0800004000003000 = .ok (.recvCtrl 0x3000 64)
    ∧ decodeCmd Params.default 0x0802020000002100 = .ok (.recvBulk 0x2100 512)
    ∧ decodeCmd Params.default 0x0805000800001000 = .ok (.submitXfer 0x05 0x1000 8)
    ∧ decodeCmd Params.default 0x0981FFFFFFFFFFFF = .ok (.stallBulkin 0x81)
    ∧ decodeCmd Params.default 0x0983000000000000 = .ok (.stall 0x83)
    ∧ decodeCmd Params.default 0x0A02000000000000 = .ok (.clearStallBulkout 0x02)
    ∧ decodeCmd Params.default 0x1200000300004000 = .ok (.diagPuts 0x4000 3)
    ∧ decodeCmd Params.default 0x1400123400000000 = .ok (.diagPut16 0x1234)
    ∧ decodeCmd Params.default 0xFF123456789ABCDE = .error (.illegalCmd 0xFF)
    ∧ decodeSrc 0x80 = .ok .isrBusReset

/-- Decoding an encoded operation gives it back, with every operand at every value its row admits, at every legal value of
the parameters (30_encoding.md R91, R92, R96, R101; 00_scope.md R7). Which parameters are legal is in part the model's
reading (log 1, DEDUCED). -/
def Obligations.DecodeOfEncode : Prop :=
  ∀ (p : Params) (i : Instr), p.Legal → WellFormed p i = true → decode p (encode p i) = .ok i

/-- A word of `16 + LEN_W + ADDR_W` bits is its four fields, at every width of ADDR_W and LEN_W; and every word that decodes
does so to a well-formed operation, whose own word has that width, keeps the opcode and decodes to it again
(30_encoding.md R91, R101). -/
def Obligations.DecodedWordsReencode : Prop :=
  ∀ (p : Params) (w : Nat),
    (w < 2 ^ (16 + p.lenW + p.addrW) →
      (cmdOp p w).toNat * 2 ^ (8 + p.lenW + p.addrW) + (cmdA p w).toNat * 2 ^ (p.lenW + p.addrW) + cmdL p w * 2 ^ p.addrW
          + cmdP p w = w
        ∧ cmdL p w < 2 ^ p.lenW ∧ cmdP p w < 2 ^ p.addrW)
    ∧ ∀ i : Instr, decodeCmd p w = .ok i →
        WellFormed p i = true
          ∧ ∃ w' : Nat, encode p i = .cmd w' ∧ w' < 2 ^ (16 + p.lenW + p.addrW) ∧ cmdOp p w' = cmdOp p w
              ∧ decodeCmd p w' = .ok i

/-- A word whose OP is not in the opcode map raises Fatal(ILLEGAL_CMD, OP) and writes nothing else, whether it is run at
once or issued for micro-steps (30_encoding.md R99 (a), 60_exceptions.md R232). That Fatal is taken as a next state is the
model's reading (log 7, DEDUCED). -/
def Obligations.IllegalCommandIsFatal : Prop :=
  ∀ (w : Nat) (m : Input) (rest : List Input) (s : State), acceptsCommand s = true →
    cmdOp s.params w ∉ [0x01, 0x02, 0x03, 0x04, 0x05, 0x06, 0x07, 0x08, 0x09, 0x0A, 0x10, 0x11, 0x12, 0x13, (0x14 : Byte)] →
    (m = .command w ∨ m = .issue w) → s.script = m :: rest →
      step s = .next { s with script := rest, fatal := true, fatalCause := 0x03, fatalInfo := cmdOp s.params w }

/-- `route(B)`: an operation is in it exactly when its bit is set in B, bits 5 and 6 contribute nothing, no operation is
in it twice, and the operations stand in the slot order (42_irq_dispatch.md R182, R185). -/
def Obligations.RouteIsTheSlotOrder : Prop :=
  ∀ b : Byte,
    (∀ src : Source, src.instr ∈ route b ↔ b &&& src.mask ≠ 0)
      ∧ route (b &&& 0x9F) = route b
      ∧ (route b).Sublist [.isrDiagTx, .isrCtrlTx, .isrCtrlRx, .isrBusReset, .isrBulkoutRx, .isrBulkinTx]

/-! ## Reset and invariants -/

/-- What hardware reset leaves, where 10_state.md R50 gives a value; no command is in progress (70_reset_and_hazards.md
R280). -/
def Obligations.ResetValues : Prop :=
  (∀ ch, State.reset.txCtx.get ch = Ctx.empty ∧ State.reset.txq.get ch = [] ∧ State.reset.busy.get ch = false
      ∧ State.reset.wireTx.get ch = [])
    ∧ (∀ ch, State.reset.rxCtx.get ch = RecvCtx.empty ∧ State.reset.stg.get ch = [] ∧ State.reset.rxq.get ch = [])
    ∧ (∀ ch, State.reset.ctl.get ch = 0x00 ∧ statReg ch State.reset = 0x02)
    ∧ State.reset.ringRead = 0 ∧ State.reset.ringWrite = 0 ∧ State.reset.firstTxcDiscard = true
    ∧ State.reset.inHandler = false ∧ State.reset.latched = 0x00 ∧ State.reset.slot = none
    ∧ State.reset.fatal = false ∧ State.reset.fatalCause = 0x00 ∧ State.reset.fatalInfo = 0x00
    ∧ State.reset.intEn = 0x00 ∧ State.reset.pend = 0x00 ∧ State.reset.irqGate = 0x00
    ∧ State.reset.diagCtl = 0x00 ∧ State.reset.diagStat = 0x01
    ∧ State.reset.setupLeft = 0 ∧ State.reset.spuriousArmed = false
    ∧ State.reset.cmd = none
    ∧ State.reset.events = [] ∧ State.reset.responses = [] ∧ State.reset.wireDiag = []

/-- The reset input, asserted between any two steps outside a handler, clears FATAL and leaves the reset values; buffer
memory and the schedule, which are not the block's, stay (70_reset_and_hazards.md R280). That they stay is the model's
choice (log 21). The equation with `State.reset` also puts `ring.data` and `diag_hold`, which 10_state.md R51 calls
unspecified, at 0x00: the model's choice (log 14, DESIGN CHOICE). -/
def Obligations.HardResetLeavesResetState : Prop :=
  ∀ (rest : List Input) (s : State), s.inHandler = false → s.script = .hardReset :: rest →
    step s = .next { State.reset with
      mem := s.mem, noMem := s.noMem, params := s.params, script := rest, draws := s.draws, openEnv := s.openEnv }

/-- The invariant of the machine and the staging invariant of both receiving channels hold at reset. Which parameters are
legal is in part the model's reading (log 1, DEDUCED). -/
def Obligations.ResetSatisfiesInvariants : Prop := MachineInv State.reset ∧ ∀ ch, StagingInv ch State.reset

/-- Every step keeps the invariant: canonical memory, bounded queues, reserved bits zero, a coherent sequencer, conserved
counters, EMPTY idle contexts, a peripheral as 60_exceptions.md R242 has it, and legal parameters, which no step changes.
Which parameters are legal is in part the model's reading (log 1, DEDUCED). -/
def Obligations.StepKeepsInvariant : Prop :=
  ∀ s t : State, MachineInv s → step s = .next t → MachineInv t ∧ t.params = s.params

/-- Counter conservation of the send contexts: every step keeps completed + remaining = total without overflow, and a
Tx-complete that goes on filling adds to `bytes_completed`, and takes from `bytes_remaining`, exactly the number of bytes
it pushed into the FIFO (00_scope.md R13). What the reads of the open environment answer is the model's reading of
60_exceptions.md R243 (log 20, DEDUCED). -/
def Obligations.SendCountersAreConserved : Prop :=
  (∀ (ch : TxCh) (s t : State), CtxConserved s.params (s.txCtx.get ch) → step s = .next t →
      CtxConserved s.params (t.txCtx.get ch))
    ∧ ∀ (ch : TxCh) (s t : State), CtxConserved s.params (s.txCtx.get ch) → NotDiscarded ch s →
        (s.txCtx.get ch).remaining ≠ 0 → exec (txCompleteInstr ch) s = .next t →
          ∃ k : Nat, (t.txq.get ch).length = ((freshTx ch s).txq.get ch).length + k
            ∧ (t.txCtx.get ch).completed = (s.txCtx.get ch).completed + k
            ∧ (t.txCtx.get ch).remaining + k = (s.txCtx.get ch).remaining

/-- Staged bytes and a pending request never stand together, whatever handler invocation falls between the micro-steps of
a receive: the mask of R73 is what keeps it so (10_state.md R26, 20_memory.md R72). That the micro-steps have these
numbers is the model's reading (log 24, DEDUCED). -/
def Obligations.StepKeepsStagingInvariant : Prop :=
  ∀ (ch : RxCh) (s t : State), StagingInv ch s → step s = .next t → StagingInv ch t

/-! ## Foreground API -/

/-- CONNECT, DISCONNECT, SET_ADDRESS, REMOTE_WAKEUP and CLOSE_EP are the opcodes 0x02 to 0x05 and 0x07, whatever the
other fields of the word are; they answer TRUE and change no state (43_foreground_api.md R201 to R204, R206). -/
def Obligations.NoOpCommandsOnlyRespond : Prop :=
  ∀ (w : Nat) (i : Instr) (s : State), acceptsCommand s = true →
    (cmdOp s.params w, i) ∈ [(0x02, Instr.connect), (0x03, .disconnect), (0x04, .setAddress (cmdA s.params w)),
        (0x05, .remoteWakeup), ((0x07 : Byte), .closeEp (cmdA s.params w))] →
      decodeCmd s.params w = .ok i ∧ exec i s = .next { s with responses := s.responses ++ [0x01] }

/-- OPEN_EP, opcode 0x06, answers whether the address is one of the five, whatever the descriptor says, and changes no
state (43_foreground_api.md R205). A number wider than its field is taken by its low bits, the model's choice (log 1). -/
def Obligations.OpenEpAnswersSupported : Prop :=
  ∀ (epa : Byte) (mps attr : Nat) (s : State), acceptsCommand s = true →
    decodeCmd s.params (cmdWord s.params 0x06 epa mps attr) = .ok (.openEp epa (s.params.len mps) (s.params.addr attr))
      ∧ exec (.openEp epa mps attr) s =
        .next { s with
          responses := s.responses ++
            [if epa ∈ [s.params.epaCtrlOut, s.params.epaCtrlIn, s.params.epaBulkIn, s.params.epaBulkOut, s.params.epaDiag]
              then 0x01 else 0x00] }

/-- SUBMIT_XFER to an address it does not route answers FALSE, changes no state and does not trap (43_foreground_api.md
R207, 90_conflicts.md C2). -/
def Obligations.UnroutedSubmitIsFalse : Prop :=
  ∀ (epa : Byte) (buf len : Nat) (s : State), acceptsCommand s = true →
    epa ∉ [s.params.epaCtrlOut, s.params.epaCtrlIn, s.params.epaBulkIn, s.params.epaBulkOut] →
      exec (.submitXfer epa buf len) s = .next { s with responses := s.responses ++ [0x00] }

/-- INIT: what it leaves in every element it writes; the ring, PEND, the FIFOs, the DIAG registers, the fatal registers
and buffer memory are as they were (43_foreground_api.md R200, 70_reset_and_hazards.md R281). That INIT leaves the borrow
windows open is the model's reading (log 9, DEDUCED). -/
def Obligations.InitConfiguresTheBlock : Prop :=
  ∀ s : State, acceptsCommand s = true →
    exec .init s =
      .next { s with
        txCtx := { control := Ctx.empty, bulkIn := Ctx.empty }
        rxCtx := { control := RecvCtx.empty, bulkOut := RecvCtx.empty }
        busy := { control := false, bulkIn := false }
        stg := { control := [], bulkOut := [] }
        firstTxcDiscard := true
        ctl := { control := 0x04, bulkIn := 0x00, bulkOut := 0x04 }
        spuriousArmed := true
        intEn := 0xDF
        irqGate := s.irqGate ||| 0x01
        responses := s.responses ++ [0x01] }

/-- A command is taken only in the foreground, with none in progress and not in FATAL: in FATAL it is a fault, inside a
handler or while another is in progress it is refused (43_foreground_api.md R210, 93_implementation_defined.md U11). -/
def Obligations.CommandsAreTakenInTheForeground : Prop :=
  ∀ (p : Params) (i : Instr) (w : Nat) (s : State), encode p i = .cmd w →
    (s.fatal = true → exec i s = .fault (.fatalState s.fatalCause s.fatalInfo))
      ∧ (s.fatal = false → s.inHandler = true → exec i s = .refused .commandInHandler)
      ∧ (s.fatal = false → s.inHandler = false → s.cmd.isSome = true → exec i s = .refused .commandInProgress)

/-! ## Sending -/

/-- SEND.CTRL and SEND.BULK: send mode, the context recorded and its borrow window opened, the first fill of `k` bytes
taken in address order from buffer memory, FORCE_TX when that finishes the transfer with a short packet, the source
unmasked, TRUE; no event (40_endpoint_transfer.md R121, R122, R123). The borrow windows are ghost state of the model's own
(log 9, DEDUCED). What the reads of the open environment answer is the model's reading of 60_exceptions.md R243 (log 20,
DEDUCED). -/
def Obligations.SendSubmitsAndFills : Prop :=
  ∀ (ch : TxCh) (buf len : Nat) (s e : State) (k : Nat), acceptsCommand s = true → s.busy.get ch = false →
    e = freshTx ch s → k = min (s.params.len len) (s.params.txDepth ch - (e.txq.get ch).length) →
    (∀ j < k, hasMemory s.params s.noMem (buf + j) = true) →
      exec (sendInstr ch buf len) s =
        .next { e with
          ctl := s.ctl.set (txChannel ch)
            (setField (s.ctl.get (txChannel ch) &&& 0xFB) 0x01
              (fieldSet (s.ctl.get (txChannel ch)) 0x01 || (k = s.params.len len ∧ k < Config.mps ch)))
          intEn := s.intEn ||| (txSource ch).mask
          txCtx := s.txCtx.set ch
            { buffer := s.params.addr (buf + k), total := s.params.len len, completed := k
              remaining := s.params.len len - k }
          busy := s.busy.set ch true
          lentTx := s.lentTx.set ch
            (s.lentTx.get ch ++ [{ base := s.params.addr buf, size := s.params.len len, written := false }])
          txq := s.txq.set ch (e.txq.get ch ++ readBytes s.params s.mem buf k)
          responses := s.responses ++ [0x01] }

/-- With TXDEPTH = MPS and an empty FIFO the first fill of a send of `len` bytes forces a transmit exactly when the transfer
is shorter than one packet, so a send of one or more full packets never does (00_scope.md R15, 40_endpoint_transfer.md
R122, 90_conflicts.md C1). -/
def Obligations.FirstFillForcesShortPackets : Prop :=
  ∀ (ch : TxCh) (buf len : Nat) (s t : State), s.params.txDepth ch = Config.mps ch →
    (freshTx ch s).txq.get ch = [] → fieldSet (s.ctl.get (txChannel ch)) 0x01 = false →
    exec (sendInstr ch buf len) s = .next t →
      (fieldSet (t.ctl.get (txChannel ch)) 0x01 = true ↔ s.params.len len < Config.mps ch)
        ∧ (t.txq.get ch).length = min (s.params.len len) (Config.mps ch)

/-- A second send on a direction whose transfer has not completed, and a receive that would record a second request, are
refused (10_state.md R24, 93_implementation_defined.md U1). -/
def Obligations.SecondSubmissionIsRefused : Prop :=
  (∀ (ch : TxCh) (buf len : Nat) (s : State), acceptsCommand s = true → s.busy.get ch = true →
      exec (sendInstr ch buf len) s = .refused .secondSubmission)
    ∧ ∀ (ch : RxCh) (buf len : Nat) (s : State), acceptsCommand s = true → s.stg.get ch = [] →
      (s.rxCtx.get ch).pending = true → exec (recvInstr ch buf len) s = .refused .secondSubmission

/-- Every access to buffer memory that a command or a handler operation makes is stuck at the first address with no memory
behind it: the fill of a send, the copy of a staged receive, DIAG_PUTS at the byte it reads once the ones before it were
put, the refill of a Tx-complete, and the drain of an Rx-complete (93_implementation_defined.md U13; that the fault leaves
no state is log 32). That DIAG_PUTS is stuck at a byte even where its put would fail on a full ring is the model's choice
where 41_diag_ring.md R166 conflicts with itself (log 36, DESIGN CHOICE). What the reads of the open environment answer is
the model's reading of 60_exceptions.md R243 (log 20, DEDUCED). -/
def Obligations.AccessWithoutMemoryIsStuck : Prop :=
  (∀ (ch : TxCh) (buf len : Nat) (s : State) (j : Nat), acceptsCommand s = true → s.busy.get ch = false →
      j < min (s.params.len len) (s.params.txDepth ch - ((freshTx ch s).txq.get ch).length) → FirstHoleAt s buf j →
        exec (sendInstr ch buf len) s = .fault (.noMemory (s.params.addr (buf + j))))
    ∧ (∀ (ch : RxCh) (buf len : Nat) (s : State) (j : Nat), acceptsCommand s = true →
      j < min (s.stg.get ch).length (s.params.len len) → FirstHoleAt s buf j →
        exec (recvInstr ch buf len) s = .fault (.noMemory (s.params.addr (buf + j))))
    ∧ (∀ (buf len : Nat) (s : State) (j : Nat), acceptsCommand s = true → j < s.params.len len →
      (putBytes (readBytes s.params s.mem buf j) s).1 = true → FirstHoleAt s buf j →
        exec (.diagPuts buf len) s = .fault (.noMemory (s.params.addr (buf + j))))
    ∧ (∀ (ch : TxCh) (s : State) (j : Nat), s.fatal = false → NotDiscarded ch s →
      j < min (s.txCtx.get ch).remaining (s.params.txDepth ch - ((freshTx ch s).txq.get ch).length) →
      FirstHoleAt s (s.txCtx.get ch).buffer j →
        exec (txCompleteInstr ch) s = .fault (.noMemory (s.params.addr ((s.txCtx.get ch).buffer + j))))
    ∧ ∀ (ch : RxCh) (s : State) (j : Nat), s.fatal = false → DataBranch ch s → (s.rxCtx.get ch).pending = true →
      j < min (s.rxCtx.get ch).total ((freshRx ch (rxStart ch s)).rxq.get ch).length →
      FirstHoleAt s (s.rxCtx.get ch).buffer j →
        exec (rxCompleteInstr ch) s = .fault (.noMemory (s.params.addr ((s.rxCtx.get ch).buffer + j)))

/-- Frame of the sends: the other channel's context, FIFO, busy bit and windows, every other CTL register, the STALL bit
and the reserved bits of the channel's own, every other enable bit, and everything not named stay; buffer memory is not
written (40_endpoint_transfer.md R123). The borrow windows are ghost state of the model's own (log 9, DEDUCED). What the
reads of the open environment answer is the model's reading of 60_exceptions.md R243 (log 20, DEDUCED). -/
def Obligations.SendFrame : Prop :=
  ∀ (ch : TxCh) (buf len : Nat) (s t : State), exec (sendInstr ch buf len) s = .next t →
    ∃ (ctx : Ctx) (fifo : List Byte) (ctl en : Byte) (lent : List Window) (draws : Nat),
      t = { s with
        txCtx := s.txCtx.set ch ctx
        txq := s.txq.set ch fifo
        busy := s.busy.set ch true
        lentTx := s.lentTx.set ch lent
        ctl := s.ctl.set (txChannel ch) ctl
        intEn := en
        draws := draws
        responses := s.responses ++ [0x01] }
      ∧ ctl &&& 0xFA = s.ctl.get (txChannel ch) &&& 0xFA
      ∧ en &&& ~~~(txSource ch).mask = s.intEn &&& ~~~(txSource ch).mask
      ∧ s.lentTx.get ch <+: lent
      ∧ (s.openEnv = false → draws = s.draws)
      ∧ ∀ a : Nat, memRead s.params t.mem a = memRead s.params s.mem a

/-! ## Receiving -/

/-- RECV.CTRL and RECV.BULK with nothing staged and nothing pending: receive mode, the request recorded and its borrow
window opened, TRUE; nothing is read or written in buffer memory and no event is emitted (40_endpoint_transfer.md R126
step 3b). The borrow windows are ghost state of the model's own (log 9, DEDUCED). For a request of length 0 the buffer is
recorded like any other: the model's choice where R126 and 10_state.md R22 conflict with R126's pseudocode (log 37, DESIGN
CHOICE). -/
def Obligations.RecvRecordsTheRequest : Prop :=
  ∀ (ch : RxCh) (buf len : Nat) (s : State), acceptsCommand s = true → s.stg.get ch = [] →
    (s.rxCtx.get ch).pending = false →
      exec (recvInstr ch buf len) s =
        .next { s with
          ctl := s.ctl.set (rxChannel ch) (s.ctl.get (rxChannel ch) ||| 0x04)
          intEn := s.intEn ||| (rxSource ch).mask
          rxCtx := s.rxCtx.set ch 
            { buffer := s.params.addr buf, total := s.params.len len, completed := 0, remaining := s.params.len len
              pending := true }
          lentRx := s.lentRx.set ch
            (s.lentRx.get ch ++ [{ base := s.params.addr buf, size := s.params.len len, written := true }])
          responses := s.responses ++ [0x01] }

/-- RECV.CTRL and RECV.BULK with staged bytes: the first `min(staged, max_length)` go to the buffer, staging is cleared,
the completion is emitted from the foreground with FROM_ISR = 0, then TRUE; the context is not touched
(40_endpoint_transfer.md R126 step 3a, 00_scope.md R14). -/
def Obligations.RecvDeliversStagedBytes : Prop :=
  ∀ (ch : RxCh) (buf len : Nat) (s : State), acceptsCommand s = true → s.stg.get ch ≠ [] →
    (∀ j < min (s.stg.get ch).length (s.params.len len), hasMemory s.params s.noMem (buf + j) = true) →
      exec (recvInstr ch buf len) s =
        .next { s with
          mem := writeBytes s.params s.mem buf ((s.stg.get ch).take (s.params.len len))
          stg := s.stg.set ch []
          intEn := s.intEn ||| (rxSource ch).mask
          events := s.events ++
            [{ kind := .xferComplete (epaRx s.params ch) (min (s.stg.get ch).length (s.params.len len)), fromIsr := false }]
          responses := s.responses ++ [0x01] }

/-- Staging round-trip: after the receive the buffer reads back exactly the staged bytes it asked for, in order, where the
address space is wide enough to hold them apart; every byte of memory outside it reads as before (95_test_vectors.md S3,
40_endpoint_transfer.md R126). -/
def Obligations.StagedBytesReadBack : Prop :=
  ∀ (ch : RxCh) (buf len : Nat) (s t : State) (n : Nat), Memory.wf s.params s.mem → s.stg.get ch ≠ [] →
    n = min (s.stg.get ch).length (s.params.len len) → exec (recvInstr ch buf len) s = .next t →
      (n ≤ 2 ^ s.params.addrW → readBytes s.params t.mem buf n = (s.stg.get ch).take n)
        ∧ t.stg.get ch = []
        ∧ ∀ a : Nat, inRange s.params buf n a = false → memRead s.params t.mem a = memRead s.params s.mem a

/-- Frame of the receives: the other channel's context and staging, every other CTL register, every CTL bit but RXMODE,
every other enable bit and everything not named stay; no window closes; memory changes only in the bytes copied
(40_endpoint_transfer.md R126). The borrow windows are ghost state of the model's own (log 9, DEDUCED). -/
def Obligations.RecvFrame : Prop :=
  ∀ (ch : RxCh) (buf len : Nat) (s t : State), Memory.wf s.params s.mem →
    exec (recvInstr ch buf len) s = .next t →
      ∃ (ctx : RecvCtx) (staged : List Byte) (ctl en : Byte) (evs : List Event) (mem : Memory) (lent : List Window),
        t = { s with
          rxCtx := s.rxCtx.set ch ctx
          lentRx := s.lentRx.set ch lent
          stg := s.stg.set ch staged
          ctl := s.ctl.set (rxChannel ch) ctl
          intEn := en
          events := evs
          mem := mem
          responses := s.responses ++ [0x01] }
        ∧ ctl &&& 0xFB = s.ctl.get (rxChannel ch) &&& 0xFB
        ∧ en &&& ~~~(rxSource ch).mask = s.intEn &&& ~~~(rxSource ch).mask
        ∧ s.lentRx.get ch <+: lent
        ∧ ∀ a : Nat, inRange s.params buf (min (s.stg.get ch).length (s.params.len len)) a = false →
            memRead s.params t.mem a = memRead s.params s.mem a

/-! ## Stall -/

/-- STALL and CLEAR_STALL on an address whose low bits select a channel write that channel's STALL bit and nothing else,
and answer TRUE (40_endpoint_transfer.md R131, R132). -/
def Obligations.StallWritesOneBit : Prop :=
  ∀ (ch : Channel) (epa : Byte) (s : State), acceptsCommand s = true →
    exec (stallInstr ch epa) s =
        .next { s with
          ctl := s.ctl.set ch (s.ctl.get ch ||| 0x02)
          responses := s.responses ++ [0x01] }
      ∧ exec (clearStallInstr ch epa) s =
        .next { s with
          ctl := s.ctl.set ch (s.ctl.get ch &&& 0xFD)
          responses := s.responses ++ [0x01] }

/-- STALL and CLEAR_STALL on an address whose low bits select no channel take Fatal with their cause and the address: the
fatal registers are written and nothing else, and there is no response (40_endpoint_transfer.md R131, R132,
60_exceptions.md R232). That Fatal is taken as a next state is the model's reading (log 7, DEDUCED). -/
def Obligations.StallElsewhereIsFatal : Prop :=
  ∀ (epa : Byte) (s : State), acceptsCommand s = true →
    epa &&& s.params.epNumMask ∉
      [s.params.epaCtrlOut, s.params.epaBulkIn, s.params.epaBulkOut].map (· &&& s.params.epNumMask) →
    exec (.stall epa) s = .next { s with fatal := true, fatalCause := 0x01, fatalInfo := epa }
      ∧ exec (.clearStall epa) s = .next { s with fatal := true, fatalCause := 0x02, fatalInfo := epa }

/-! ## Diagnostic ring -/

/-- DIAG_INIT zeroes the two indices and nothing else, and answers TRUE (41_diag_ring.md R161). -/
def Obligations.DiagInitEmptiesTheRing : Prop :=
  ∀ s : State, acceptsCommand s = true →
    exec .diagInit s = .next { s with ringRead := 0, ringWrite := 0, responses := s.responses ++ [0x01] }

/-- DIAG_PUTB on a ring that is not full: TRUE, the byte behind the ones held; if the endpoint is ready the oldest byte
goes to it at once, otherwise nothing leaves. `e` is the state as READY is read (41_diag_ring.md R162, R163, R165). What
the reads of the open environment answer is the model's reading of 60_exceptions.md R243 (log 20, DEDUCED). -/
def Obligations.PutByteQueuesInOrder : Prop :=
  ∀ (b : Byte) (s e : State), acceptsCommand s = true → ringHeld s < 127 → e = freshReady s →
    ∃ t, exec (.diagPutb b) s = .next t
      ∧ t.responses = s.responses ++ [0x01]
      ∧ t.intEn = s.intEn ||| 0x10
      ∧ (fieldSet e.diagStat 0x01 = false →
          ringBytes t = ringBytes s ++ [b] ∧ t.diagHold = s.diagHold ∧ t.diagCtl = s.diagCtl ∧ t.diagStat = e.diagStat)
      ∧ (fieldSet e.diagStat 0x01 = true →
          t.diagHold :: ringBytes t = ringBytes s ++ [b]
            ∧ t.diagCtl = s.diagCtl ||| 0x01 ∧ t.diagStat = e.diagStat &&& 0xFE)

/-- DIAG_PUTB on a full ring: FALSE, and nothing but the enable bit changes: no byte is overwritten and none is sent,
even with the endpoint ready (41_diag_ring.md R162, R165, 90_conflicts.md C17). -/
def Obligations.PutByteOnFullRingFails : Prop :=
  ∀ (b : Byte) (s : State), acceptsCommand s = true → ringHeld s = 127 →
    exec (.diagPutb b) s = .next { s with intEn := s.intEn ||| 0x10, responses := s.responses ++ [0x00] }

/-- DIAG_PUTHEX8 and DIAG_PUT16 in the reference environment, their two bytes the high digit first and the low byte first.
With the endpoint not ready as many are queued as fit, and the answer is TRUE exactly when both were. With the endpoint
ready and the ring not full the oldest byte leaves at once, so both are queued and the answer is TRUE; on a full ring it
is FALSE and nothing moves (41_diag_ring.md R162, R163, R165, R167, R168). Where LEN_W is below 16, that the bits of
L[15:0] which L does not have are 0 is the model's choice (log 35, DESIGN CHOICE). Where HEX_ALPHA is above 0xFA, that a
character past 0xFF is taken modulo 256 is the model's choice (log 38, DESIGN CHOICE). -/
def Obligations.TwoByteHelpersQueueWhatFits : Prop :=
  ∀ (s : State) (i : Instr) (bytes : List Byte), acceptsCommand s = true → s.openEnv = false →
    ((∃ b : Byte, i = .diagPuthex8 b
        ∧ bytes = [hexChar s.params (b.extractLsb' 4 4), hexChar s.params (b.extractLsb' 0 4)])
      ∨ ∃ v : Nat, i = .diagPut16 v ∧ bytes = [BitVec.ofNat 8 (s.params.len v), BitVec.ofNat 8 (s.params.len v / 256)]) →
      (fieldSet s.diagStat 0x01 = false →
        ∃ t, exec i s = .next t
          ∧ ringBytes t = ringBytes s ++ bytes.take (127 - ringHeld s)
          ∧ t.responses = s.responses ++ [respWord (ringHeld s + 2 ≤ 127)]
          ∧ t.diagHold = s.diagHold ∧ t.diagCtl = s.diagCtl ∧ t.diagStat = s.diagStat)
      ∧ (fieldSet s.diagStat 0x01 = true → ringHeld s < 127 →
        ∃ t, exec i s = .next t
          ∧ t.diagHold :: ringBytes t = ringBytes s ++ bytes
          ∧ t.responses = s.responses ++ [0x01]
          ∧ t.diagCtl = s.diagCtl ||| 0x01 ∧ t.diagStat = s.diagStat &&& 0xFE)
      ∧ (ringHeld s = 127 →
        exec i s = .next { s with intEn := s.intEn ||| 0x10, responses := s.responses ++ [0x00] })

/-- DIAG_PUTS in the reference environment: the bytes from the address on are queued as far as they fit, and the answer is
TRUE exactly when all were; with the endpoint ready, the ring not full and a byte to put, the oldest byte leaves at once
and one more fits; with no byte to put, or on a full ring, no byte moves. Only the bytes it comes to need memory behind
them, the one whose put fails among them: that this one is read is the model's choice where R166 conflicts with itself
(log 36, DESIGN CHOICE) (41_diag_ring.md R162, R163, R165, R166). -/
def Obligations.PutStringQueuesWhatFits : Prop :=
  ∀ (buf len : Nat) (s : State) (room : Nat), acceptsCommand s = true → s.openEnv = false →
    room = (if fieldSet s.diagStat 0x01 = true ∧ ringHeld s < 127 then 128 else 127) - ringHeld s →
    (∀ j < min (s.params.len len) (room + 1), hasMemory s.params s.noMem (buf + j) = true) →
      ∃ t, exec (.diagPuts buf len) s = .next t
        ∧ t.responses = s.responses ++ [respWord (s.params.len len ≤ room)]
        ∧ (fieldSet s.diagStat 0x01 = false ∨ ringHeld s = 127 ∨ s.params.len len = 0 →
          ringBytes t = ringBytes s ++ readBytes s.params s.mem buf (min (s.params.len len) room)
            ∧ t.diagHold = s.diagHold ∧ t.diagCtl = s.diagCtl ∧ t.diagStat = s.diagStat)
        ∧ (fieldSet s.diagStat 0x01 = true → ringHeld s < 127 → s.params.len len ≠ 0 →
          t.diagHold :: ringBytes t = ringBytes s ++ readBytes s.params s.mem buf (min (s.params.len len) room)
            ∧ t.diagCtl = s.diagCtl ||| 0x01 ∧ t.diagStat = s.diagStat &&& 0xFE)

/-- Frame of the DIAG_PUT commands: they change the ring, the diagnostic endpoint's registers and its hold byte, the
enable bit of the diagnostic source and the responses, and nothing else; `ring.data` keeps its length and buffer memory is
not written; in the open environment READY is drawn. In both environments each completes where the block takes a command,
DIAG_PUTS with memory behind its bytes (41_diag_ring.md R165 to R168). What the reads of the open environment answer is
the model's reading of 60_exceptions.md R243 (log 20, DEDUCED). -/
def Obligations.DiagPutFrame : Prop :=
  ∀ (i : Instr) (b : Byte) (v : Nat) (buf len : Nat) (s : State),
    i ∈ [.diagPutb b, .diagPuts buf len, .diagPuthex8 b, .diagPut16 v] →
      (acceptsCommand s = true → (∀ j < s.params.len len, hasMemory s.params s.noMem (buf + j) = true) →
        ∃ t, exec i s = .next t)
      ∧ ∀ t : State, exec i s = .next t →
        ∃ (data : Vector Byte 128) (rd wr : RingIx) (hold dctl dstat en : Byte) (draws : Nat) (ok : Bool),
          t = { s with
            ringData := data
            ringRead := rd
            ringWrite := wr
            diagHold := hold
            diagCtl := dctl
            diagStat := dstat
            intEn := en
            draws := draws
            responses := s.responses ++ [respWord ok] }
          ∧ dctl &&& 0xFE = s.diagCtl &&& 0xFE ∧ dstat &&& 0xFE = s.diagStat &&& 0xFE
          ∧ en &&& 0xEF = s.intEn &&& 0xEF
          ∧ (s.openEnv = false → draws = s.draws)

/-- Ring capacity law: in the reference environment, with no byte leaving, DIAG_PUTB commands in a row succeed exactly
until the ring holds 127 bytes, and the ring holds the bytes that succeeded, in order (41_diag_ring.md R169). -/
def Obligations.RingCapacityLaw : Prop :=
  ∀ (bs : List Byte) (rest : List Input) (s : State), acceptsCommand s = true → s.openEnv = false →
    fieldSet s.diagStat 0x01 = false →
    s.script = bs.map (fun b => Input.command (cmdWord s.params 0x11 b 0 0)) ++ rest →
      ∃ t, Host.Core.run Sys2Proof.core bs.length s = .next t
        ∧ t.script = rest
        ∧ t.responses = s.responses ++ (List.range bs.length).map (fun i => respWord (ringHeld s + i < 127))
        ∧ ringBytes t = ringBytes s ++ bs.take (127 - ringHeld s)

/-! ## Handler operations -/

/-- ISR.DIAG_TX, source bit 0x10 and slot 0: one byte leaves a ring that holds some while the endpoint is ready;
otherwise the operation writes nothing; no event either way. `e` is the state as READY is read: `s` itself in the reference
environment, and in the open one `s` with READY drawn anew (log 20, DEDUCED) (41_diag_ring.md R163, R164, 60_exceptions.md
R243). -/
def Obligations.DiagTxDrainsOneByte : Prop :=
  decodeSrc 0x10 = .ok .isrDiagTx ∧ slotOrder.head? = some .diagTx ∧
    ∀ s e : State, s.fatal = false → e = freshReady s →
      exec .isrDiagTx s =
        .next (if s.ringRead ≠ s.ringWrite ∧ fieldSet e.diagStat 0x01 = true then
          { e with
            diagHold := ringGet s.ringData s.ringRead
            ringRead := s.ringRead + 1
            diagCtl := s.diagCtl ||| 0x01
            diagStat := e.diagStat &&& 0xFE }
        else e)

/-- First-completion suppression: while the one-shot flag is 1, ISR.CTRL_TX clears it and does nothing else, whatever
the transfer state (40_endpoint_transfer.md R124, R134 (b)). -/
def Obligations.FirstControlCompletionIsDiscarded : Prop :=
  ∀ s : State, s.fatal = false → s.firstTxcDiscard = true →
    exec .isrCtrlTx s = .next { s with firstTxcDiscard := false }

/-- ISR.CTRL_TX (not discarded) and ISR.BULKIN_TX on a context with nothing remaining: the completion with the bytes
completed, FROM_ISR = 1, the context EMPTY, the direction's windows closed; also when the context was idle
(40_endpoint_transfer.md R124, R125). The borrow windows are ghost state of the model's own (log 9, DEDUCED). -/
def Obligations.TxCompleteReports : Prop :=
  ∀ (ch : TxCh) (s : State), s.fatal = false → NotDiscarded ch s → (s.txCtx.get ch).remaining = 0 →
    exec (txCompleteInstr ch) s =
      .next { s with
        events := s.events ++ [{ kind := .xferComplete (epaTx s.params ch) (s.txCtx.get ch).completed, fromIsr := true }]
        txCtx := s.txCtx.set ch Ctx.empty
        busy := s.busy.set ch false
        lentTx := s.lentTx.set ch [] }

/-- ISR.CTRL_TX (not discarded) and ISR.BULKIN_TX on a context with bytes remaining: the next fill of `k` bytes, FORCE_TX
when it finishes the transfer with a short packet, no event; everything else stays (40_endpoint_transfer.md R121, R124,
R125). The premise that the context's counters are conserved is what SendCountersAreConserved says every step keeps. What
the reads of the open environment answer is the model's reading of 60_exceptions.md R243 (log 20, DEDUCED). -/
def Obligations.TxCompleteRefills : Prop :=
  ∀ (ch : TxCh) (s e : State) (k : Nat), s.fatal = false → NotDiscarded ch s → (s.txCtx.get ch).remaining ≠ 0 →
    CtxConserved s.params (s.txCtx.get ch) → e = freshTx ch s →
    k = min (s.txCtx.get ch).remaining (s.params.txDepth ch - (e.txq.get ch).length) →
    (∀ j < k, hasMemory s.params s.noMem ((s.txCtx.get ch).buffer + j) = true) →
      exec (txCompleteInstr ch) s =
        .next { e with
          ctl := s.ctl.set (txChannel ch)
            (setField (s.ctl.get (txChannel ch)) 0x01
              (fieldSet (s.ctl.get (txChannel ch)) 0x01 || (k = (s.txCtx.get ch).remaining ∧ k < Config.mps ch)))
          txCtx := s.txCtx.set ch
            { buffer := s.params.addr ((s.txCtx.get ch).buffer + k)
              total := (s.txCtx.get ch).total
              completed := (s.txCtx.get ch).completed + k
              remaining := (s.txCtx.get ch).remaining - k }
          txq := s.txq.set ch (e.txq.get ch ++ readBytes s.params s.mem (s.txCtx.get ch).buffer k) }

/-- Setup bypass: with SETUP_PEND = 1 ISR.CTRL_RX reads exactly 8 bytes and reports them in FIFO order, whatever is
pending, and touches no context and no staging buffer; bytes the FIFO lacks are free values. `e` is the state as
SETUP_PEND and the FIFO are read (40_endpoint_transfer.md R127, 20_memory.md R67). What an empty FIFO answers is a free
value of the model's (log 16, DESIGN CHOICE). What the reads of the open environment answer is the model's reading of
60_exceptions.md R243 (log 20, DEDUCED). -/
def Obligations.SetupBypassesPendingRequest : Prop :=
  ∀ s e : State, s.fatal = false → e = freshRx .control (freshSetup s) → 0 < e.setupLeft →
    ∃ bytes : List Byte, bytes.length = 8 ∧ bytes.take e.rxq.control.length = e.rxq.control.take 8
      ∧ exec .isrCtrlRx s =
        .next { e with
          rxq := { s.rxq with control := e.rxq.control.drop 8 }
          setupLeft := e.setupLeft - 8
          draws := e.draws + (8 - e.rxq.control.length)
          events := s.events ++ [{ kind := .setupReceived bytes, fromIsr := true }] }

/-- ISR.CTRL_RX (no SETUP pending) and ISR.BULKOUT_RX with a request pending: `n = min(total_requested, bytes in the
FIFO)` bytes go to the buffer in arrival order, the completion carries `n` with FROM_ISR = 1, the request is cleared and
its window closed, the rest stays in the FIFO (40_endpoint_transfer.md R129, 00_scope.md R14). The borrow windows are
ghost state of the model's own (log 9, DEDUCED). What the reads of the open environment answer is the model's reading of
60_exceptions.md R243 (log 20, DEDUCED). -/
def Obligations.RxCompleteFillsTheRequest : Prop :=
  ∀ (ch : RxCh) (s e : State) (n : Nat), s.fatal = false → DataBranch ch s → (s.rxCtx.get ch).pending = true →
    e = freshRx ch (rxStart ch s) → n = min (s.rxCtx.get ch).total (e.rxq.get ch).length →
    (∀ j < n, hasMemory s.params s.noMem ((s.rxCtx.get ch).buffer + j) = true) →
      exec (rxCompleteInstr ch) s =
        .next { e with
          mem := writeBytes s.params s.mem (s.rxCtx.get ch).buffer ((e.rxq.get ch).take n)
          rxq := s.rxq.set ch ((e.rxq.get ch).drop n)
          rxCtx := s.rxCtx.set ch RecvCtx.empty
          lentRx := s.lentRx.set ch []
          events := s.events ++ [{ kind := .xferComplete (epaRx s.params ch) n, fromIsr := true }] }

/-- The same operations with nothing pending: an empty FIFO is reported as a zero-length packet; otherwise what fits goes
behind what is staged, the rest is dropped without a report, and the FIFO ends empty. `e` is the state as RXEMPTY is first
read, `e'` as the staging loop reads the FIFO: in the reference environment they are one (40_endpoint_transfer.md R129,
R130, 90_conflicts.md C4, 60_exceptions.md R243). What the reads of the open environment answer is the model's reading of
60_exceptions.md R243 (log 20, DEDUCED). -/
def Obligations.RxCompleteWithoutRequest : Prop :=
  ∀ (ch : RxCh) (s e e' : State), s.fatal = false → DataBranch ch s → (s.rxCtx.get ch).pending = false →
    e = freshRx ch (rxStart ch s) → e' = freshRx ch e →
    (e.rxq.get ch = [] →
      exec (rxCompleteInstr ch) s =
        .next { e with events := s.events ++ [{ kind := .xferComplete (epaRx s.params ch) 0, fromIsr := true }] })
    ∧ (e.rxq.get ch ≠ [] → (s.stg.get ch).length ≤ Config.stgCap ch →
      exec (rxCompleteInstr ch) s =
        .next { e' with
          stg := s.stg.set ch ((s.stg.get ch ++ e'.rxq.get ch).take (Config.stgCap ch))
          rxq := s.rxq.set ch [] })
    ∧ (s.openEnv = false → e' = e)

/-- ISR.BUS_RESET writes CTL[Control] whole and emits BUS_RESET; no context, FIFO, staging buffer, bulk register, ring,
enable bit or one-shot flag changes (40_endpoint_transfer.md R133). -/
def Obligations.BusResetTouchesControlOnly : Prop :=
  ∀ s : State, s.fatal = false →
    exec .isrBusReset s =
      .next { s with
        ctl := s.ctl.set .control 0x04
        events := s.events ++ [{ kind := .busReset, fromIsr := true }] }

/-- Frame of the handler operations: a Tx-complete leaves memory, the receive side and the other sending channel alone,
and on BulkIn the one-shot flag; an Rx-complete leaves the send side, the registers and the other receiving channel alone,
and on BulkOut the SETUP counter; it stores to memory only in the pending branch, the bytes it drains to the buffer, and
in every other branch all of memory is as before; outside the open environment the counter of draws moves only by the
reads of an empty FIFO that ISR.CTRL_RX makes in its SETUP branch (20_memory.md R67, 40_endpoint_transfer.md R121, R124,
R125, R127 to R130; 42_irq_dispatch.md R184). The borrow windows are ghost state of the model's own (log 9, DEDUCED). What
the reads of the open environment answer is the model's reading of 60_exceptions.md R243 (log 20, DEDUCED). That each read
of an empty FIFO counts one draw is the model's choice (log 16, DESIGN CHOICE). -/
def Obligations.CompletionHandlerFrame : Prop :=
  (∀ (ch : TxCh) (s t : State), exec (txCompleteInstr ch) s = .next t →
    ∃ (ctx : Ctx) (fifo : List Byte) (busy flag : Bool) (lent : List Window) (ctl : Byte) (evs : List Event) (draws : Nat),
      t = { s with
        txCtx := s.txCtx.set ch ctx
        txq := s.txq.set ch fifo
        busy := s.busy.set ch busy
        lentTx := s.lentTx.set ch lent
        firstTxcDiscard := flag
        ctl := s.ctl.set (txChannel ch) ctl
        draws := draws
        events := evs }
      ∧ ctl &&& 0xFE = s.ctl.get (txChannel ch) &&& 0xFE
      ∧ (ch = .bulkIn → flag = s.firstTxcDiscard)
      ∧ (s.openEnv = false → draws = s.draws))
  ∧ ∀ (ch : RxCh) (s t : State), Memory.wf s.params s.mem → exec (rxCompleteInstr ch) s = .next t →
    ∃ (ctx : RecvCtx) (fifo staged : List Byte) (lent : List Window) (left draws : Nat) (evs : List Event) (mem : Memory),
      t = { s with
        rxCtx := s.rxCtx.set ch ctx
        rxq := s.rxq.set ch fifo
        stg := s.stg.set ch staged
        lentRx := s.lentRx.set ch lent
        setupLeft := left
        draws := draws
        events := evs
        mem := mem }
      ∧ (ch = .bulkOut → left = s.setupLeft)
      ∧ (s.openEnv = false → DataBranch ch s → left = s.setupLeft ∧ draws = s.draws)
      ∧ (s.openEnv = false → ¬DataBranch ch s → left = s.setupLeft - 8 ∧ draws = s.draws + (8 - (s.rxq.get ch).length))
      ∧ ((s.rxCtx.get ch).pending = true → DataBranch ch s →
          ∀ a : Nat, inRange s.params (s.rxCtx.get ch).buffer (runDrain ch (freshRx ch (rxStart ch s))).count a = false →
            memRead s.params t.mem a = memRead s.params s.mem a)
      ∧ (¬((s.rxCtx.get ch).pending = true ∧ DataBranch ch s) →
          ∀ a : Nat, memRead s.params t.mem a = memRead s.params s.mem a)

/-! ## Interrupt request, entry and return -/

/-- An invocation is enabled exactly when the block is not FATAL, no handler runs, the gate is open, GIE is 1 and some
source is both pending and enabled; and a scheduled invocation starts exactly then (42_irq_dispatch.md R180). -/
def Obligations.InvocationStartsExactlyWhenRequested : Prop :=
  ∀ s : State,
    (irqEnabled s = true ↔
      s.fatal = false ∧ s.inHandler = false ∧ s.irqGate &&& 0x01 ≠ 0 ∧ s.intEn &&& 0x40 ≠ 0
        ∧ s.pend &&& s.intEn &&& 0x9F ≠ 0)
      ∧ ∀ rest : List Input, s.inHandler = false → s.script = .irq :: rest →
          ((∃ t, step s = .next t) ↔ irqEnabled s = true) ∧ ∀ t, step s = .next t → t.inHandler = true

/-- Entry closes the gate, latches the pending and enabled sources and clears exactly those in PEND, and stands at slot
0; on the revisions that pulse GIE the result is the same. The step that takes a scheduled invocation leaves exactly that
state (42_irq_dispatch.md R181 steps 1 to 3, 10_state.md R42, 20_memory.md R74). Third clause, the model's choice (log 4,
DESIGN CHOICE): with an empty script and no command in progress the step is this entry too, even while SPURIOUS is owed;
20_memory.md R70 leaves open which enabled step is next. -/
def Obligations.EntryLatchesEnabledSources : Prop :=
  ∀ s t : State, irqEnabled s = true →
    t = { s with
      irqGate := s.irqGate &&& 0xFE
      inHandler := true
      latched := s.pend &&& s.intEn &&& 0x9F
      pend := s.pend &&& ~~~(s.pend &&& s.intEn &&& 0x9F)
      slot := some .diagTx } →
      (∀ pulse : Bool, handlerEntry pulse s = t)
        ∧ step { s with script := .irq :: s.script } = .next t
        ∧ (s.script = [] → s.cmd = none → step s = .next t)

/-- Seven steps from an enabled request are one whole invocation: entry, then the operation of every source latched,
each at most once and in the slot order, then exit with the gate open; nothing scheduled falls inside
(42_irq_dispatch.md R181 to R183, 20_memory.md R70). -/
def Obligations.SevenStepsAreOneInvocation : Prop :=
  ∀ (rest : List Input) (s t : State), s.inHandler = false → s.script = .irq :: rest →
    invocation { s with script := rest } = .next t →
      Host.Core.run Sys2Proof.core 7 s = .next t
        ∧ t.script = rest ∧ t.inHandler = false ∧ t.slot = none ∧ t.latched = 0
        ∧ t.irqGate &&& 0x01 = 0x01

/-- What a mask orders: while a source's enable bit is 0 and the invocation under way has not latched it, no step of a
handler touches what the mask guards, and the source stays excluded. For a Tx source: the context, the Tx FIFO, the busy
bit, and FORCE_TX of the channel; for an Rx source: the context, the Rx FIFO, staging, and RXMODE of the channel; for the
diagnostic source: the ring, its data and both indices, and the diagnostic registers. FORCE_TX and RXMODE of CTL[Control]
are kept but by a bus reset, against which no mask guards them (20_memory.md R72, R73). -/
def Obligations.MaskedSourceIsNotServiced : Prop :=
  ∀ s t : State, s.inHandler = true → step s = .next t →
    (∀ ch : TxCh, Excluded (txSource ch) s →
      Excluded (txSource ch) t ∧ t.txCtx.get ch = s.txCtx.get ch ∧ t.txq.get ch = s.txq.get ch
        ∧ t.busy.get ch = s.busy.get ch
        ∧ ((ch = .control → s.slot = some .busReset → s.latched &&& 0x80 = 0) →
          t.ctl.get (txChannel ch) &&& 0x01 = s.ctl.get (txChannel ch) &&& 0x01))
    ∧ (∀ ch : RxCh, Excluded (rxSource ch) s →
      Excluded (rxSource ch) t ∧ t.rxCtx.get ch = s.rxCtx.get ch ∧ t.rxq.get ch = s.rxq.get ch
        ∧ t.stg.get ch = s.stg.get ch
        ∧ ((ch = .control → s.slot = some .busReset → s.latched &&& 0x80 = 0) →
          t.ctl.get (rxChannel ch) &&& 0x04 = s.ctl.get (rxChannel ch) &&& 0x04))
    ∧ (Excluded .diagTx s →
      Excluded .diagTx t ∧ t.ringData = s.ringData ∧ t.ringRead = s.ringRead ∧ t.ringWrite = s.ringWrite
        ∧ t.diagHold = s.diagHold ∧ t.diagCtl = s.diagCtl ∧ t.diagStat = s.diagStat)

/-! ## Micro-steps -/

/-- A command taken micro-step by micro-step with nothing in between ends as the command run at once: the coarser model
of 20_memory.md R79 is a schedule of the finer one (R70). Left out are the commands `microCount` gives no number: DIAG_PUTS,
DIAG_PUTHEX8 and DIAG_PUT16, whose number of micro-steps depends on the ring, and the generic STALL and CLEAR_STALL rows,
which end in Fatal and not in a response (log 7). -/
def Obligations.MicroStepsRefineTheCommand : Prop :=
  ∀ (w : Nat) (i : Instr) (n : Nat) (rest : List Input) (s t : State), acceptsCommand s = true →
    decodeCmd s.params w = .ok i → microCount i = some n →
    s.script = .issue w :: (List.replicate n Input.fg ++ rest) → exec i { s with script := rest } = .next t →
      Host.Core.run Sys2Proof.core (n + 1) s = .next t

/-! ## The whole machine -/

/-- FATAL is terminal and precise: raising it writes the three fatal registers and nothing else; in it every command,
micro-step, invocation and idle step is a fault; every move of the environment has the effect it has outside FATAL; and
only the reset input leaves it (60_exceptions.md R231). That the moves of the environment go on in FATAL is the model's
reading (log 27, DEDUCED). -/
def Obligations.FatalIsTerminal : Prop :=
  (∀ (c i : Byte) (s : State), raiseFatal c i s = { s with fatal := true, fatalCause := c, fatalInfo := i })
    ∧ (∀ (m : Input) (w : Nat) (rest : List Input) (s : State), s.fatal = true → s.inHandler = false →
        m ∈ [.command w, .issue w, .fg, .irq] → s.script = m :: rest →
          step s = .fault (.fatalState s.fatalCause s.fatalInfo))
    ∧ (∀ s : State, s.fatal = true → s.inHandler = true ∨ s.script = [] →
        step s = .fault (.fatalState s.fatalCause s.fatalInfo))
    ∧ (∀ (m : Input) (ch : TxCh) (rx : RxCh) (bytes : List Byte) (bits c i : Byte) (s : State),
        m ∈ [.txSent ch, .rxData rx bytes, .rxSetup bytes, .busReset, .diagSent, .spurious, .openRaise bits] →
          takeInput m (raiseFatal c i s) = andThen (takeInput m s) fun t => .next (raiseFatal c i t))
    ∧ ∀ s t : State, s.fatal = true → step s = .next t →
        (∃ rest, s.script = .hardReset :: rest)
          ∨ (t.fatal = true ∧ t.fatalCause = s.fatalCause ∧ t.fatalInfo = s.fatalInfo ∧ t.responses = s.responses
              ∧ t.events = s.events)

/-- The one-shot flag is set only by the reset input and by INIT, and cleared only by ISR.CTRL_TX (10_state.md R29). That
the micro-steps have these numbers is the model's reading (log 24, DEDUCED). -/
def Obligations.DiscardFlagWriters : Prop :=
  ∀ s t : State, step s = .next t →
    (s.firstTxcDiscard = false → t.firstTxcDiscard = true →
      s.inHandler = false ∧
        ((∃ rest, s.script = .hardReset :: rest)
          ∨ (∃ w rest, s.script = .command w :: rest ∧ decodeCmd s.params w = .ok .init)
          ∨ ∃ c, s.cmd = some c ∧ c.instr = .init ∧ c.at_ = 4))
      ∧ (s.firstTxcDiscard = true → t.firstTxcDiscard = false →
        s.inHandler = true ∧ s.slot = some .ctrlTx ∧ s.latched &&& 0x01 ≠ 0)

/-- The output streams are append-only: every step but the reset input keeps what was emitted, answered and sent
(10_state.md R34). -/
def Obligations.StreamsOnlyGrow : Prop :=
  ∀ s t : State, step s = .next t → (s.inHandler = true ∨ ∀ rest, s.script ≠ .hardReset :: rest) →
    s.events <+: t.events ∧ s.responses <+: t.responses ∧ s.wireDiag <+: t.wireDiag
      ∧ ∀ ch, s.wireTx.get ch <+: t.wireTx.get ch

/-- A BUS_RESET event is emitted only by a handler step that services the bus-reset source, and each such step emits exactly
one; a SETUP_RECEIVED event only by one that services control Rx, with exactly 8 bytes (43_foreground_api.md R212, R213). -/
def Obligations.EventOrigins : Prop :=
  ∀ s t : State, step s = .next t →
    (∀ e, t.events = s.events ++ [e] →
      (e.kind = .busReset → s.inHandler = true ∧ s.slot = some .busReset ∧ s.latched &&& 0x80 ≠ 0 ∧ e.fromIsr = true)
        ∧ ∀ bytes, e.kind = .setupReceived bytes →
            s.inHandler = true ∧ s.slot = some .ctrlRx ∧ s.latched &&& 0x02 ≠ 0 ∧ bytes.length = 8 ∧ e.fromIsr = true)
      ∧ (s.inHandler = true → s.slot = some .busReset → s.latched &&& 0x80 ≠ 0 →
          t.events = s.events ++ [{ kind := .busReset, fromIsr := true }])

/-- No two events leave one step: the events after a step are those before, or one more. A step outside the handler emits
only the completion of a receive that found staged bytes, with FROM_ISR = 0, the channel's receive address and a count of
at most the bytes staged, and leaves the staging buffer empty. The bytes were there to deliver, or the receive in progress
had found them at its micro-step 2, and in a state with the staging invariant they still were (43_foreground_api.md R211,
R214, 40_endpoint_transfer.md R126 step 3a, 90_conflicts.md C3). The step is any but the reset input. That the micro-steps
have these numbers is the model's reading (log 24, DEDUCED). -/
def Obligations.ForegroundEmitsOnlyStagedCompletions : Prop :=
  ∀ s t : State, step s = .next t → (s.inHandler = true ∨ ∀ rest, s.script ≠ .hardReset :: rest) →
    t.events = s.events
      ∨ ∃ e, t.events = s.events ++ [e] ∧ (e.fromIsr = true ↔ s.inHandler = true)
          ∧ (s.inHandler = false → ∃ (ch : RxCh) (count : Nat),
              e.kind = .xferComplete (epaRx s.params ch) count ∧ count ≤ (s.stg.get ch).length ∧ t.stg.get ch = []
                ∧ (s.stg.get ch ≠ [] ∨ ∃ c, s.cmd = some c ∧ c.at_ = 3 ∧ c.staged = true
                    ∧ receivingChannel s.params c.instr = some ch)
                ∧ (StagingInv ch s → s.stg.get ch ≠ []))

/-! ## The environment and the HOST -/

/-- BUSRESET sets its pending bit and nothing else, always. DIAGSENT, while SEND = 1, puts the held byte on the wire,
clears SEND, sets READY and its pending bit, and while SEND = 0 it is not enabled. SPURIOUS, while it is owed, is owed no
more and sets the pending bit of control Tx, and while it is not owed it is not enabled (60_exceptions.md R239 to R241; of
R241 the enabling and the effect, not the duty). In the open environment 60_exceptions.md R243 replaces R239 to R241, and
that these moves, SPURIOUS among them, stay enabled there as here is the model's choice (log 20, DESIGN CHOICE). -/
def Obligations.BusResetDiagSentAndSpuriousMoves : Prop :=
  ∀ s : State,
    takeInput .busReset s = .next { s with pend := s.pend ||| 0x80 }
      ∧ (fieldSet s.diagCtl 0x01 = true →
        takeInput .diagSent s =
          .next { s with
            wireDiag := s.wireDiag ++ [s.diagHold]
            diagCtl := s.diagCtl &&& 0xFE
            diagStat := s.diagStat ||| 0x01
            pend := s.pend ||| 0x10 })
      ∧ (fieldSet s.diagCtl 0x01 = false → ∀ t, takeInput .diagSent s ≠ .next t)
      ∧ (s.spuriousArmed = true →
        takeInput .spurious s = .next { s with spuriousArmed := false, pend := s.pend ||| 0x01 })
      ∧ (s.spuriousArmed = false → ∀ t, takeInput .spurious s ≠ .next t)

/-- TXSENT is enabled exactly by a full FIFO or FORCE_TX, and on Control only when no spurious completion is owed; it
sends the FIFO as one packet, clears FORCE_TX and raises the channel's source (60_exceptions.md R236). In the open
environment 60_exceptions.md R243 replaces R236, and that the move stays enabled there as here is the model's choice (log
20, DESIGN CHOICE). -/
def Obligations.TxSentMovesOnePacket : Prop :=
  ∀ (ch : TxCh) (s : State), (s.txq.get ch).length ≤ s.params.txDepth ch →
    (((s.txq.get ch).length = s.params.txDepth ch ∨ s.ctl.get (txChannel ch) &&& 0x01 ≠ 0)
        ∧ (ch = .control → s.spuriousArmed = false) →
      takeInput (.txSent ch) s =
        .next { s with
          wireTx := s.wireTx.set ch (s.wireTx.get ch ++ [s.txq.get ch])
          txq := s.txq.set ch []
          ctl := s.ctl.set (txChannel ch) (s.ctl.get (txChannel ch) &&& 0xFE)
          pend := s.pend ||| (txSource ch).mask })
    ∧ (¬(((s.txq.get ch).length = s.params.txDepth ch ∨ s.ctl.get (txChannel ch) &&& 0x01 ≠ 0)
        ∧ (ch = .control → s.spuriousArmed = false)) → ∀ t, takeInput (.txSent ch) s ≠ .next t)

/-- Packets arrive: a data packet only into an empty FIFO, with no SETUP packet half read, and of at most one packet's
bytes; a SETUP packet of 8 bytes in every state, displacing what the FIFO held (60_exceptions.md R237, R238). That a SETUP
packet is always taken and displaces what the FIFO held is marked by R238 itself as general knowledge (log 19, PRESUMED).
In the open environment 60_exceptions.md R243 replaces R237 and R238, and that the moves stay enabled there as here is the
model's choice (log 20, DESIGN CHOICE). -/
def Obligations.PacketsArrive : Prop :=
  (∀ (ch : RxCh) (bytes : List Byte) (s : State), s.rxq.get ch = [] → NoSetup ch s →
      bytes.length ≤ Config.rxMps ch →
        takeInput (.rxData ch bytes) s =
          .next { s with rxq := s.rxq.set ch bytes, pend := s.pend ||| (rxSource ch).mask })
    ∧ (∀ (ch : RxCh) (bytes : List Byte) (s : State),
        ¬(s.rxq.get ch = [] ∧ NoSetup ch s ∧ bytes.length ≤ Config.rxMps ch) →
          ∀ t, takeInput (.rxData ch bytes) s ≠ .next t)
    ∧ ∀ (bytes : List Byte) (s : State), bytes.length = 8 →
        takeInput (.rxSetup bytes) s =
          .next { s with
            rxq := s.rxq.set .control bytes
            setupLeft := 8
            pend := s.pend ||| 0x02 }

/-- HOST accesses and the open windows: a write to any byte of a window, and a read of any byte of a window the block
writes, is refused; an access that touches none and has memory behind it is made. A write stores its bytes, a read changes
nothing, but that a receive in progress not yet at step 2 keeps a note of the access (20_memory.md R64,
93_implementation_defined.md U2; the note is the model's, log 9). `windows s` includes those of a staged receive and of
DIAG_PUTS in progress: which bytes these cover, and that the HOST may read those of a DIAG_PUTS, is the model's choice
(log 34, DESIGN CHOICE). That the accesses go on in FATAL, where 93_implementation_defined.md U11 calls the HOST stuck, is
the model's reading (log 27, DEDUCED). -/
def Obligations.HostAccessesRespectWindows : Prop :=
  ∀ (a : Nat) (bytes : List Byte) (n : Nat) (s : State),
    (∀ (w : Window) (j : Nat), w ∈ windows s → j < bytes.length →
        inRange s.params w.base w.size (a + j) = true → ∃ x, takeInput (.hostWrite a bytes) s = .refused (.borrowWindow x))
      ∧ ((∀ (w : Window) (j : Nat), w ∈ windows s → j < bytes.length →
            inRange s.params w.base w.size (a + j) = false) →
          (∀ j < bytes.length, hasMemory s.params s.noMem (a + j) = true) →
            takeInput (.hostWrite a bytes) s =
              .next { s with
                mem := writeBytes s.params s.mem a bytes
                cmd := s.cmd.map (noteTouch s.params a bytes.length) })
      ∧ (∀ (w : Window) (j : Nat), w ∈ windows s → w.written = true → j < n →
          inRange s.params w.base w.size (a + j) = true → ∃ x, takeInput (.hostRead a n) s = .refused (.borrowWindow x))
      ∧ ((∀ (w : Window) (j : Nat), w ∈ windows s → w.written = true → j < n →
            inRange s.params w.base w.size (a + j) = false) →
          (∀ j < n, hasMemory s.params s.noMem (a + j) = true) →
            takeInput (.hostRead a n) s = .next { s with cmd := s.cmd.map (noteTouch s.params a n) })

/-- The window a submission opens is its own buffer. After SEND.CTRL or SEND.BULK every byte of the buffer is one the HOST
may not write, however much of it the first fill has taken; after a receive that recorded its request, one it may neither
read nor write. A staged receive's window is the command: past micro-step 2 the HOST may neither read nor write the
buffer, and where it did so before, micro-step 2 is refused (20_memory.md R64; that the last two cover all `max_length`
bytes is the model's choice, log 34, and how the early access is judged, log 9). The borrow windows are ghost state of the
model's own (log 9, DEDUCED). -/
def Obligations.SubmissionsOpenTheirWindows : Prop :=
  (∀ (ch : TxCh) (buf len : Nat) (s t : State) (a : Nat), exec (sendInstr ch buf len) s = .next t →
      inRange s.params buf (s.params.len len) a = true → hostMayWrite t a = false)
    ∧ (∀ (ch : RxCh) (buf len : Nat) (s t : State) (a : Nat), exec (recvInstr ch buf len) s = .next t →
      s.stg.get ch = [] → inRange s.params buf (s.params.len len) a = true →
        hostMayWrite t a = false ∧ hostMayRead t a = false)
    ∧ ∀ (ch : RxCh) (buf len : Nat) (c : InProgress) (s : State) (a : Nat), s.fatal = false → s.cmd = some c →
      c.instr = recvInstr ch buf len →
        (c.staged = true → inRange s.params buf (s.params.len len) a = true →
            hostMayWrite s a = false ∧ hostMayRead s a = false)
          ∧ (c.at_ = 2 → s.stg.get ch ≠ [] →
            (c.touched = some a → fgStep s = .refused (.borrowWindow a))
              ∧ (c.touched = none → fgStep s = .next { s with cmd := some { c with at_ := 3, staged := true } }))
end

