-- ==== Sys2Proof/Laws/Config.lean ====
section
/-! SUPPORT. Addresses and lengths as numbers of ADDR_W and LEN_W bits (00_scope.md R11). -/

namespace Sys2Proof

@[simp] theorem addr_addr (p : Params) (a : Nat) : p.addr (p.addr a) = p.addr a := Nat.mod_mod a _

@[simp] theorem len_len (p : Params) (n : Nat) : p.len (p.len n) = p.len n := Nat.mod_mod n _

theorem addr_lt (p : Params) (a : Nat) : p.addr a < 2 ^ p.addrW := Nat.mod_lt a (Nat.two_pow_pos _)

theorem len_lt (p : Params) (n : Nat) : p.len n < 2 ^ p.lenW := Nat.mod_lt n (Nat.two_pow_pos _)

@[simp] theorem addr_zero (p : Params) : p.addr 0 = 0 := Nat.zero_mod _

@[simp] theorem len_zero (p : Params) : p.len 0 = 0 := Nat.zero_mod _

theorem addr_of_lt {p : Params} {a : Nat} (h : a < 2 ^ p.addrW) : p.addr a = a := Nat.mod_eq_of_lt h

theorem len_of_lt {p : Params} {n : Nat} (h : n < 2 ^ p.lenW) : p.len n = n := Nat.mod_eq_of_lt h

/-- An address is reduced once, however often it was reduced on the way (R11). -/
@[simp] theorem addr_addr_add (p : Params) (a k : Nat) : p.addr (p.addr a + k) = p.addr (a + k) := Nat.mod_add_mod a _ k

@[simp] theorem addr_add_addr (p : Params) (a k : Nat) : p.addr (a + p.addr k) = p.addr (a + k) := Nat.add_mod_mod a k _

@[simp] theorem addr_add_size (p : Params) (a : Nat) : p.addr (a + 2 ^ p.addrW) = p.addr a := Nat.add_mod_right a _

theorem addr_le (p : Params) (a : Nat) : p.addr a ≤ a := Nat.mod_le a _

theorem len_le (p : Params) (n : Nat) : p.len n ≤ n := Nat.mod_le n _

theorem addr_add_congr {p : Params} {a b : Nat} (h : p.addr a = p.addr b) (k : Nat) : p.addr (a + k) = p.addr (b + k) := by
  rw [← addr_addr_add, h, addr_addr_add]

end Sys2Proof
end

