-- ==== Sys2Proof/Laws/Decode.lean ====
section
/-! SUPPORT. Field extraction and field assembly of a CMD word are inverse (30_encoding.md R91), and what the selection
rules of the endpoint addresses and of the source bitmap say. -/

namespace Sys2Proof

theorem fitsFields_iff {p : Params} {buf len : Nat} :
    fitsFields p buf len = true ↔ p.addr buf = buf ∧ p.len len = len := by simp [fitsFields]

theorem fitsFields_reduced (p : Params) (buf len : Nat) : fitsFields p (p.addr buf) (p.len len) = true := by
  simp [fitsFields_iff]

/-! ## The fields of a CMD word (R91) -/

/-- A field `f` of width `w` above `r < 2^lo`. -/
theorem bitsOf_field (hi : Nat) {f r lo w : Nat} (hf : f < 2 ^ w) (hr : r < 2 ^ lo) :
    bitsOf ((hi * 2 ^ w + f) * 2 ^ lo + r) lo w = f := by
  rw [bitsOf, Nat.mul_comm, Nat.mul_add_div (Nat.two_pow_pos lo), Nat.div_eq_of_lt hr, Nat.add_zero, Nat.mul_comm hi,
    Nat.mul_add_mod, Nat.mod_eq_of_lt hf]

/-- A field of width `w` above one of width `lo`. -/
theorem field_lt {f r lo w : Nat} (hf : f < 2 ^ w) (hr : r < 2 ^ lo) : f * 2 ^ lo + r < 2 ^ (w + lo) :=
  calc f * 2 ^ lo + r < f * 2 ^ lo + 2 ^ lo := Nat.add_lt_add_left hr _
    _ = (f + 1) * 2 ^ lo := (Nat.succ_mul f _).symm
    _ ≤ 2 ^ w * 2 ^ lo := Nat.mul_le_mul_right _ hf
    _ = 2 ^ (w + lo) := (Nat.pow_add 2 w lo).symm

/-- Fields L and P of a word together. -/
theorem tail_lt (p : Params) (l buf : Nat) : p.len l * 2 ^ p.addrW + p.addr buf < 2 ^ (p.lenW + p.addrW) :=
  field_lt (len_lt p l) (addr_lt p buf)

/-- The word of four fields, one field over the next (R102). -/
theorem cmdWord_eq (p : Params) (op a : Byte) (l buf : Nat) :
    cmdWord p op a l buf =
      op.toNat * 2 ^ (8 + (p.lenW + p.addrW)) + (a.toNat * 2 ^ (p.lenW + p.addrW) + (p.len l * 2 ^ p.addrW + p.addr buf)) := by
  simp only [cmdWord, Nat.add_assoc]

theorem cmdWord_lt (p : Params) (op a : Byte) (l buf : Nat) : cmdWord p op a l buf < 2 ^ cmdWidth p := by
  have h := field_lt op.isLt (field_lt a.isLt (tail_lt p l buf))
  rw [cmdWord_eq, cmdWidth]
  convert h using 2
  omega

@[simp] theorem cmdOp_cmdWord (p : Params) (op a : Byte) (l buf : Nat) : cmdOp p (cmdWord p op a l buf) = op := by
  have h := bitsOf_field 0 op.isLt (field_lt a.isLt (tail_lt p l buf))
  rw [Nat.zero_mul, Nat.zero_add, ← cmdWord_eq, ← Nat.add_assoc] at h
  rw [cmdOp, h, BitVec.ofNat_toNat, BitVec.setWidth_eq]

@[simp] theorem cmdA_cmdWord (p : Params) (op a : Byte) (l buf : Nat) : cmdA p (cmdWord p op a l buf) = a := by
  have h := bitsOf_field op.toNat a.isLt (tail_lt p l buf)
  rw [Nat.add_mul, Nat.mul_assoc, ← Nat.pow_add, Nat.add_assoc, ← cmdWord_eq] at h
  rw [cmdA, h, BitVec.ofNat_toNat, BitVec.setWidth_eq]

@[simp] theorem cmdL_cmdWord (p : Params) (op a : Byte) (l buf : Nat) :
    cmdL p (cmdWord p op a l buf) = p.len l := by
  have h := bitsOf_field (op.toNat * 2 ^ 8 + a.toNat) (len_lt p l) (addr_lt p buf)
  rw [cmdL, ← h, cmdWord]
  congr 1
  simp only [Nat.pow_add]
  ring

@[simp] theorem cmdP_cmdWord (p : Params) (op a : Byte) (l buf : Nat) :
    cmdP p (cmdWord p op a l buf) = p.addr buf := by
  have h := bitsOf_field ((op.toNat * 2 ^ 8 + a.toNat) * 2 ^ p.lenW + p.len l) (addr_lt p buf) (Nat.two_pow_pos 0)
  rw [cmdP, ← h, cmdWord]
  congr 1
  simp only [Nat.pow_add]
  ring

/-- A field takes its width of the operand. -/
@[simp] theorem cmdWord_reduced (p : Params) (op a : Byte) (l buf : Nat) :
    cmdWord p op a (p.len l) (p.addr buf) = cmdWord p op a l buf := by simp [cmdWord]

@[simp] theorem addr_cmdP (p : Params) (w : Nat) : p.addr (cmdP p w) = cmdP p w := Nat.mod_mod _ _

@[simp] theorem len_cmdL (p : Params) (w : Nat) : p.len (cmdL p w) = cmdL p w := Nat.mod_mod _ _

/-- The low bits of a word, the next field over them. -/
theorem mod_two_pow_add (x a b : Nat) : x % 2 ^ (a + b) = bitsOf x b a * 2 ^ b + x % 2 ^ b := by
  rw [Nat.add_comm a b, Nat.pow_add, Nat.mod_mul, bitsOf, Nat.add_comm, Nat.mul_comm]

/-- A word is its four fields: what stands above its width is not looked at (R91). -/
theorem cmdWord_fields (p : Params) (w : Nat) :
    cmdWord p (cmdOp p w) (cmdA p w) (cmdL p w) (cmdP p w) = w % 2 ^ cmdWidth p := by
  have hb : ∀ lo, (BitVec.ofNat 8 (bitsOf w lo 8)).toNat = bitsOf w lo 8 := fun lo => by simp [bitsOf]
  have h0 : w % 2 ^ p.addrW = cmdP p w := by simp [cmdP, bitsOf]
  rw [cmdWord_eq, len_cmdL, addr_cmdP, cmdOp, cmdA, hb, hb, ← h0, cmdL, ← mod_two_pow_add, ← mod_two_pow_add,
    Nat.add_assoc 8, ← mod_two_pow_add, cmdWidth]
  congr 2
  omega

/-! ## One lemma per opcode (R92) -/

theorem decodeCmd_init {p : Params} {w : Nat} (h : cmdOp p w = opInit) : decodeCmd p w = .ok .init := by
  simp only [decodeCmd, h]
  rfl

theorem decodeCmd_connect {p : Params} {w : Nat} (h : cmdOp p w = opConnect) : decodeCmd p w = .ok .connect := by
  simp only [decodeCmd, h]
  rfl

theorem decodeCmd_disconnect {p : Params} {w : Nat} (h : cmdOp p w = opDisconnect) : decodeCmd p w = .ok .disconnect := by
  simp only [decodeCmd, h]
  rfl

theorem decodeCmd_setAddress {p : Params} {w : Nat} (h : cmdOp p w = opSetAddress) : decodeCmd p w = .ok (.setAddress (cmdA p w)) := by
  simp only [decodeCmd, h]
  rfl

theorem decodeCmd_remoteWakeup {p : Params} {w : Nat} (h : cmdOp p w = opRemoteWakeup) : decodeCmd p w = .ok .remoteWakeup := by
  simp only [decodeCmd, h]
  rfl

theorem decodeCmd_openEp {p : Params} {w : Nat} (h : cmdOp p w = opOpenEp) : decodeCmd p w = .ok (.openEp (cmdA p w) (cmdL p w) (cmdP p w)) := by
  simp only [decodeCmd, h]
  rfl

theorem decodeCmd_closeEp {p : Params} {w : Nat} (h : cmdOp p w = opCloseEp) : decodeCmd p w = .ok (.closeEp (cmdA p w)) := by
  simp only [decodeCmd, h]
  rfl

theorem decodeCmd_submitXfer {p : Params} {w : Nat} (h : cmdOp p w = opSubmitXfer) : decodeCmd p w = .ok (decodeSubmit p (cmdA p w) (cmdP p w) (cmdL p w)) := by
  simp only [decodeCmd, h]
  rfl

theorem decodeCmd_stall {p : Params} {w : Nat} (h : cmdOp p w = opStall) : decodeCmd p w = .ok (decodeStall p (cmdA p w)) := by
  simp only [decodeCmd, h]
  rfl

theorem decodeCmd_clearStall {p : Params} {w : Nat} (h : cmdOp p w = opClearStall) : decodeCmd p w = .ok (decodeClearStall p (cmdA p w)) := by
  simp only [decodeCmd, h]
  rfl

theorem decodeCmd_diagInit {p : Params} {w : Nat} (h : cmdOp p w = opDiagInit) : decodeCmd p w = .ok .diagInit := by
  simp only [decodeCmd, h]
  rfl

theorem decodeCmd_diagPutb {p : Params} {w : Nat} (h : cmdOp p w = opDiagPutb) : decodeCmd p w = .ok (.diagPutb (cmdA p w)) := by
  simp only [decodeCmd, h]
  rfl

theorem decodeCmd_diagPuts {p : Params} {w : Nat} (h : cmdOp p w = opDiagPuts) : decodeCmd p w = .ok (.diagPuts (cmdP p w) (cmdL p w)) := by
  simp only [decodeCmd, h]
  rfl

theorem decodeCmd_diagPuthex8 {p : Params} {w : Nat} (h : cmdOp p w = opDiagPuthex8) : decodeCmd p w = .ok (.diagPuthex8 (cmdA p w)) := by
  simp only [decodeCmd, h]
  rfl

theorem decodeCmd_diagPut16 {p : Params} {w : Nat} (h : cmdOp p w = opDiagPut16) : decodeCmd p w = .ok (.diagPut16 (cmdL p w)) := by
  simp only [decodeCmd, h]
  rfl

/-- A word that decodes has one of the fifteen opcodes, and the operation is the one its opcode names (R92, R100). -/
theorem decodeCmd_cases {p : Params} {w : Nat} {i : Instr} (hw : decodeCmd p w = .ok i) :
    (cmdOp p w = opInit ∧ i = .init)
      ∨ (cmdOp p w = opConnect ∧ i = .connect)
      ∨ (cmdOp p w = opDisconnect ∧ i = .disconnect)
      ∨ (cmdOp p w = opSetAddress ∧ i = .setAddress (cmdA p w))
      ∨ (cmdOp p w = opRemoteWakeup ∧ i = .remoteWakeup)
      ∨ (cmdOp p w = opOpenEp ∧ i = .openEp (cmdA p w) (cmdL p w) (cmdP p w))
      ∨ (cmdOp p w = opCloseEp ∧ i = .closeEp (cmdA p w))
      ∨ (cmdOp p w = opSubmitXfer ∧ i = decodeSubmit p (cmdA p w) (cmdP p w) (cmdL p w))
      ∨ (cmdOp p w = opStall ∧ i = decodeStall p (cmdA p w))
      ∨ (cmdOp p w = opClearStall ∧ i = decodeClearStall p (cmdA p w))
      ∨ (cmdOp p w = opDiagInit ∧ i = .diagInit)
      ∨ (cmdOp p w = opDiagPutb ∧ i = .diagPutb (cmdA p w))
      ∨ (cmdOp p w = opDiagPuts ∧ i = .diagPuts (cmdP p w) (cmdL p w))
      ∨ (cmdOp p w = opDiagPuthex8 ∧ i = .diagPuthex8 (cmdA p w))
      ∨ (cmdOp p w = opDiagPut16 ∧ i = .diagPut16 (cmdL p w)) := by
  by_cases h : cmdOp p w = opInit
  · exact .inl ⟨h, (Except.ok.inj ((decodeCmd_init h).symm.trans hw)).symm⟩
  rename' h => h0
  by_cases h : cmdOp p w = opConnect
  · exact .inr <| .inl ⟨h, (Except.ok.inj ((decodeCmd_connect h).symm.trans hw)).symm⟩
  rename' h => h1
  by_cases h : cmdOp p w = opDisconnect
  · exact .inr <| .inr <| .inl ⟨h, (Except.ok.inj ((decodeCmd_disconnect h).symm.trans hw)).symm⟩
  rename' h => h2
  by_cases h : cmdOp p w = opSetAddress
  · exact .inr <| .inr <| .inr <| .inl ⟨h, (Except.ok.inj ((decodeCmd_setAddress h).symm.trans hw)).symm⟩
  rename' h => h3
  by_cases h : cmdOp p w = opRemoteWakeup
  · exact .inr <| .inr <| .inr <| .inr <| .inl ⟨h, (Except.ok.inj ((decodeCmd_remoteWakeup h).symm.trans hw)).symm⟩
  rename' h => h4
  by_cases h : cmdOp p w = opOpenEp
  · exact .inr <| .inr <| .inr <| .inr <| .inr <| .inl ⟨h, (Except.ok.inj ((decodeCmd_openEp h).symm.trans hw)).symm⟩
  rename' h => h5
  by_cases h : cmdOp p w = opCloseEp
  · exact .inr <| .inr <| .inr <| .inr <| .inr <| .inr <| .inl ⟨h, (Except.ok.inj ((decodeCmd_closeEp h).symm.trans hw)).symm⟩
  rename' h => h6
  by_cases h : cmdOp p w = opSubmitXfer
  · exact .inr <| .inr <| .inr <| .inr <| .inr <| .inr <| .inr <| .inl ⟨h, (Except.ok.inj ((decodeCmd_submitXfer h).symm.trans hw)).symm⟩
  rename' h => h7
  by_cases h : cmdOp p w = opStall
  · exact .inr <| .inr <| .inr <| .inr <| .inr <| .inr <| .inr <| .inr <| .inl ⟨h, (Except.ok.inj ((decodeCmd_stall h).symm.trans hw)).symm⟩
  rename' h => h8
  by_cases h : cmdOp p w = opClearStall
  · exact .inr <| .inr <| .inr <| .inr <| .inr <| .inr <| .inr <| .inr <| .inr <| .inl ⟨h, (Except.ok.inj ((decodeCmd_clearStall h).symm.trans hw)).symm⟩
  rename' h => h9
  by_cases h : cmdOp p w = opDiagInit
  · exact .inr <| .inr <| .inr <| .inr <| .inr <| .inr <| .inr <| .inr <| .inr <| .inr <| .inl ⟨h, (Except.ok.inj ((decodeCmd_diagInit h).symm.trans hw)).symm⟩
  rename' h => h10
  by_cases h : cmdOp p w = opDiagPutb
  · exact .inr <| .inr <| .inr <| .inr <| .inr <| .inr <| .inr <| .inr <| .inr <| .inr <| .inr <| .inl ⟨h, (Except.ok.inj ((decodeCmd_diagPutb h).symm.trans hw)).symm⟩
  rename' h => h11
  by_cases h : cmdOp p w = opDiagPuts
  · exact .inr <| .inr <| .inr <| .inr <| .inr <| .inr <| .inr <| .inr <| .inr <| .inr <| .inr <| .inr <| .inl ⟨h, (Except.ok.inj ((decodeCmd_diagPuts h).symm.trans hw)).symm⟩
  rename' h => h12
  by_cases h : cmdOp p w = opDiagPuthex8
  · exact .inr <| .inr <| .inr <| .inr <| .inr <| .inr <| .inr <| .inr <| .inr <| .inr <| .inr <| .inr <| .inr <| .inl ⟨h, (Except.ok.inj ((decodeCmd_diagPuthex8 h).symm.trans hw)).symm⟩
  rename' h => h13
  by_cases h : cmdOp p w = opDiagPut16
  · exact .inr <| .inr <| .inr <| .inr <| .inr <| .inr <| .inr <| .inr <| .inr <| .inr <| .inr <| .inr <| .inr <| .inr ⟨h, (Except.ok.inj ((decodeCmd_diagPut16 h).symm.trans hw)).symm⟩
  rename' h => h14
  exfalso
  unfold decodeCmd at hw
  simp only [h0, h1, h2, h3, h4, h5, h6, h7, h8, h9, h10, h11, h12, h13, h14, if_false] at hw
  cases hw

/-! ## The refined rows (R101) -/

/-- The endpoint address behind a routed direction (R93). -/
def routeAddr (p : Params) : EpRoute → Byte
  | .recv .control => p.epaCtrlOut
  | .send .control => p.epaCtrlIn
  | .send .bulkIn => p.epaBulkIn
  | .recv .bulkOut => p.epaBulkOut
  | .diag => p.epaDiag

theorem epRoute_addr {p : Params} {epa : Byte} {r : EpRoute} (h : epRoute p epa = some r) : routeAddr p r = epa := by
  simp only [epRoute] at h
  split at h; · rename_i c; cases h; exact c.symm
  split at h; · rename_i c; cases h; exact c.symm
  split at h; · rename_i c; cases h; exact c.symm
  split at h; · rename_i c; cases h; exact c.symm
  split at h; · rename_i c; cases h; exact c.symm
  cases h

/-- Whichever row a SUBMIT_XFER word selects, the word is the one given. -/
theorem encode_decodeSubmit (p : Params) (epa : Byte) (buf len : Nat) :
    encode p (decodeSubmit p epa buf len) = .cmd (cmdWord p opSubmitXfer epa len buf) := by
  simp only [decodeSubmit]
  split
  · rename_i h; rw [← epRoute_addr h]; rfl
  · rename_i h; rw [← epRoute_addr h]; rfl
  · rename_i h; rw [← epRoute_addr h]; rfl
  · rename_i h; rw [← epRoute_addr h]; rfl
  · rfl
  · rfl

theorem encode_decodeStall (p : Params) (epa : Byte) : encode p (decodeStall p epa) = .cmd (cmdWord p opStall epa 0 0) := by
  simp only [decodeStall]
  split <;> rfl

theorem encode_decodeClearStall (p : Params) (epa : Byte) : encode p (decodeClearStall p epa) = .cmd (cmdWord p opClearStall epa 0 0) := by
  simp only [decodeClearStall]
  split <;> rfl

/-! ## Addresses and bitmaps -/

/-- The low-bits decode selects a channel exactly where the address has the low bits of its base address, which are not
those of another (R94, 92_eei_decisions.md D9). -/
theorem stallChannel_eq_some_iff {p : Params} (hp : p.Legal) (epa : Byte) (ch : Channel) :
    stallChannel p epa = some ch ↔
      match ch with
      | .control => sameEpNum p epa p.epaCtrlOut = true
      | .bulkIn => sameEpNum p epa p.epaBulkIn = true
      | .bulkOut => sameEpNum p epa p.epaBulkOut = true := by
  have hd := hp.2.1
  simp only [List.nodup_cons, List.mem_cons, List.not_mem_nil, or_false, not_or] at hd
  obtain ⟨⟨h1, h2⟩, h3, -⟩ := hd
  cases ch <;> simp only [stallChannel, sameEpNum, beq_iff_eq] <;> constructor <;> intro h
  all_goals first
    | (split at h; · first | assumption | cases h
       split at h; · first | assumption | cases h
       split at h; · first | assumption | cases h
       cases h)
    | simp [h, Ne.symm h1, Ne.symm h2, Ne.symm h3]

/-- The low-bits decode selects no channel exactly where the address has the low bits of none (R94). -/
theorem stallChannel_eq_none_iff (p : Params) (epa : Byte) : stallChannel p epa = none ↔ noEpNum p epa = true := by
  simp only [stallChannel, noEpNum, sameEpNum, Bool.and_eq_true, Bool.not_eq_true', beq_eq_false_iff_ne, ne_eq]
  constructor
  · intro h
    split at h; · cases h
    split at h; · cases h
    split at h; · cases h
    exact ⟨⟨‹_›, ‹_›⟩, ‹_›⟩
  · rintro ⟨⟨h1, h2⟩, h3⟩
    rw [if_neg h1, if_neg h2, if_neg h3]

/-- A SUBMIT_XFER word selects the generic row exactly where the address is none of the four routed ones (R93, R101). -/
theorem decodeSubmit_generic {p : Params} {epa : Byte} (buf len : Nat)
    (h : WellFormed p (.submitXfer epa buf len) = true) : decodeSubmit p epa buf len = .submitXfer epa buf len := by
  simp only [WellFormed, Bool.and_eq_true, bne_iff_ne, ne_eq] at h
  obtain ⟨⟨⟨⟨h1, h2⟩, h3⟩, h4⟩, -⟩ := h
  simp only [decodeSubmit, epRoute, if_neg h1, if_neg h2, if_neg h3, if_neg h4]
  split <;> first | rfl | (rename_i hr; split at hr <;> cases hr)

/-- A bitmap selects a source exactly when the source's bit is set (R96). -/
theorem selectedIn_iff (src : Source) (b : Byte) : src.selectedIn b = true ↔ b &&& src.mask ≠ 0 := by
  revert b; cases src <;> decide +kernel

theorem mem_slotOrder (src : Source) : src ∈ slotOrder := by cases src <;> decide

theorem mem_routeSources (src : Source) (b : Byte) : src ∈ routeSources b ↔ b &&& src.mask ≠ 0 := by
  simp [routeSources, mem_slotOrder, selectedIn_iff]

end Sys2Proof
end

