-- ==== Sys2Proof/Laws/Memory.lean ====
section
/-! SUPPORT. Buffer memory: every operation keeps the canonical form; a read after a write to the same address gives
the byte written, and a write leaves every other address alone. -/

namespace Sys2Proof.Machine

variable {p : Params}

/-! ## The canonical form -/

theorem wf_nil : Memory.wf p [] := by simp [Memory.wf]

theorem wf_tail {c : Host.Cell} {m : Memory} (h : Memory.wf p (c :: m)) : Memory.wf p m :=
  ⟨(List.pairwise_cons.mp h.1).2, fun d hd => h.2 d (List.mem_cons_of_mem _ hd)⟩

theorem wf_head_lt {c : Host.Cell} {m : Memory} (h : Memory.wf p (c :: m)) : ∀ d ∈ m, c.1 < d.1 :=
  (List.pairwise_cons.mp h.1).1

/-- A cell below every cell of a canonical memory may be put in front. -/
theorem wf_consCell {a : Nat} {b : Byte} {m : Memory} (h : Memory.wf p m) (ha : a < 2 ^ p.addrW) (hlt : ∀ d ∈ m, a < d.1) :
    Memory.wf p (consCell a b m) := by
  unfold consCell
  split
  · exact h
  · rename_i hb
    refine ⟨List.pairwise_cons.mpr ⟨hlt, h.1⟩, ?_⟩
    rintro c (_ | ⟨_, hc⟩)
    · exact ⟨ha, hb⟩
    · exact h.2 c hc

/-- The addresses of a memory after a store: the stored one and those there were. -/
theorem mem_writeCell_addr {m : Memory} {a : Nat} {b : Byte} {d : Host.Cell} (hd : d ∈ writeCell m a b) :
    d.1 = a ∨ d ∈ m := by
  induction m with
  | nil =>
    simp only [writeCell, consCell] at hd
    split at hd <;> simp_all
  | cons c m ih =>
    obtain ⟨k, v⟩ := c
    simp only [writeCell, consCell] at hd
    split at hd
    · split at hd <;> simp_all
      rcases hd with rfl | h | h <;> simp_all
    · split at hd
      · split at hd <;> simp_all
        rcases hd with rfl | h <;> simp_all
      · rcases List.mem_cons.mp hd with rfl | h
        · simp
        · rcases ih h with h | h <;> simp [h]

theorem wf_writeCell {m : Memory} (h : Memory.wf p m) {a : Nat} (ha : a < 2 ^ p.addrW) (b : Byte) :
    Memory.wf p (writeCell m a b) := by
  induction m with
  | nil => exact wf_consCell h ha (by simp)
  | cons c m ih =>
    obtain ⟨k, v⟩ := c
    simp only [writeCell]
    split
    · rename_i hlt
      refine wf_consCell h ha ?_
      rintro d (_ | ⟨_, hd⟩)
      · exact hlt
      · exact lt_trans hlt (wf_head_lt h d hd)
    · split
      · rename_i heq
        exact wf_consCell (wf_tail h) ha (fun d hd => heq ▸ wf_head_lt h d hd)
      · rename_i hge hne
        have ih := ih (wf_tail h)
        refine ⟨List.pairwise_cons.mpr ⟨?_, ih.1⟩, ?_⟩
        · intro d hd
          rcases mem_writeCell_addr hd with h' | h'
          · simp only [h']; omega
          · exact wf_head_lt h d h'
        · rintro d (_ | ⟨_, hd⟩)
          · exact h.2 _ (by simp)
          · exact ih.2 d hd

theorem wf_memWrite {m : Memory} (h : Memory.wf p m) (a : Nat) (b : Byte) : Memory.wf p (memWrite p m a b) :=
  wf_writeCell h (addr_lt p a) b

theorem wf_writeBytes {m : Memory} (h : Memory.wf p m) (a : Nat) (bs : List Byte) : Memory.wf p (writeBytes p m a bs) := by
  induction bs generalizing m a with
  | nil => exact h
  | cons b bs ih => exact ih (wf_memWrite h a b) (a + 1)

/-! ## Reading after writing -/

/-- Below every cell, memory reads as unlisted. -/
theorem readCell_below {m : Memory} {a : Nat} (h : ∀ d ∈ m, a < d.1) : readCell m a = unlistedByte := by
  cases m with
  | nil => rfl
  | cons c m => simp [readCell, h c (by simp)]

theorem readCell_consCell_same {m : Memory} {a : Nat} (b : Byte) (h : ∀ d ∈ m, a < d.1) :
    readCell (consCell a b m) a = b := by
  unfold consCell
  split
  · rename_i hb; rw [readCell_below h, hb]
  · simp [readCell]

theorem readCell_consCell_other {m : Memory} {a x : Nat} (b : Byte) (h : ∀ d ∈ m, a < d.1) (hx : x ≠ a) :
    readCell (consCell a b m) x = readCell m x := by
  unfold consCell
  split
  · rfl
  · simp only [readCell]
    split
    · rename_i hlt
      rw [readCell_below (fun d hd => lt_trans hlt (h d hd))]
    · simp

theorem readCell_writeCell_same {m : Memory} (h : Memory.wf p m) (a : Nat) (b : Byte) :
    readCell (writeCell m a b) a = b := by
  induction m with
  | nil => exact readCell_consCell_same b (by simp)
  | cons c m ih =>
    obtain ⟨k, v⟩ := c
    simp only [writeCell]
    split
    · rename_i hlt
      refine readCell_consCell_same b ?_
      rintro d (_ | ⟨_, hd⟩)
      · exact hlt
      · exact lt_trans hlt (wf_head_lt h d hd)
    · split
      · rename_i heq
        exact readCell_consCell_same b (fun d hd => heq ▸ wf_head_lt h d hd)
      · rename_i hge hne
        simp [readCell, hge, hne, ih (wf_tail h)]

theorem readCell_writeCell_other {m : Memory} (h : Memory.wf p m) {a x : Nat} (b : Byte) (hx : x ≠ a) :
    readCell (writeCell m a b) x = readCell m x := by
  induction m with
  | nil => exact readCell_consCell_other b (by simp) hx
  | cons c m ih =>
    obtain ⟨k, v⟩ := c
    simp only [writeCell]
    split
    · rename_i hlt
      refine readCell_consCell_other b ?_ hx
      rintro d (_ | ⟨_, hd⟩)
      · exact hlt
      · exact lt_trans hlt (wf_head_lt h d hd)
    · split
      · rename_i heq
        rw [readCell_consCell_other b (fun d hd => heq ▸ wf_head_lt h d hd) hx]
        simp only [readCell]
        split
        · rename_i hlt
          exact readCell_below (fun d hd => lt_trans hlt (wf_head_lt h d hd))
        · have : x ≠ k := heq ▸ hx
          simp [this]
      · simp only [readCell, ih (wf_tail h)]

theorem memRead_memWrite_same {m : Memory} (h : Memory.wf p m) {a x : Nat} (b : Byte) (hx : p.addr x = p.addr a) :
    memRead p (memWrite p m a b) x = b := by
  rw [memRead, memWrite, hx, readCell_writeCell_same h]

theorem memRead_memWrite_other {m : Memory} (h : Memory.wf p m) {a x : Nat} (b : Byte) (hx : p.addr x ≠ p.addr a) :
    memRead p (memWrite p m a b) x = memRead p m x :=
  readCell_writeCell_other h b hx

/-! ## Addresses modulo 2^ADDR_W -/

@[simp] theorem memRead_addr (m : Memory) (a : Nat) : memRead p m (p.addr a) = memRead p m a := by simp [memRead]

@[simp] theorem memWrite_addr (m : Memory) (a : Nat) (b : Byte) : memWrite p m (p.addr a) b = memWrite p m a b := by
  simp [memWrite]

@[simp] theorem inRange_addr_base (base n a : Nat) :
    inRange p (p.addr base) n a = inRange p base n a := by simp [inRange]

@[simp] theorem inRange_addr (base n a : Nat) : inRange p base n (p.addr a) = inRange p base n a := by
  simp [inRange]

@[simp] theorem hasMemory_addr (holes : List Hole) (a : Nat) :
    hasMemory p holes (p.addr a) = hasMemory p holes a := by simp [hasMemory]

/-- Reading on from an address is reading on from its ADDR_W bits. -/
theorem readBytes_congr (m : Memory) {a b : Nat} (h : p.addr a = p.addr b) (n : Nat) :
    readBytes p m a n = readBytes p m b n := by
  induction n generalizing a b with
  | zero => rfl
  | succ n ih => rw [readBytes, readBytes, memRead, memRead, h, ih (addr_add_congr h 1)]

@[simp] theorem readBytes_addr (m : Memory) (a n : Nat) : readBytes p m (p.addr a) n = readBytes p m a n :=
  readBytes_congr m (addr_addr p a) n

theorem writeBytes_congr (m : Memory) {a b : Nat} (h : p.addr a = p.addr b) (bs : List Byte) :
    writeBytes p m a bs = writeBytes p m b bs := by
  induction bs generalizing m a b with
  | nil => rfl
  | cons v bs ih => rw [writeBytes, writeBytes, memWrite, memWrite, h, ih _ (addr_add_congr h 1)]

@[simp] theorem writeBytes_addr (m : Memory) (a : Nat) (bs : List Byte) :
    writeBytes p m (p.addr a) bs = writeBytes p m a bs := writeBytes_congr m (addr_addr p a) bs

/-! ## Ranges -/

/-- The addresses of a range are those at its first `n` offsets, modulo 2^ADDR_W (R61). -/
theorem inRange_iff {base a n : Nat} :
    inRange p base n a = true ↔ ∃ j < n, p.addr (base + j) = p.addr a := by
  have hb := addr_lt p base
  simp only [inRange, decide_eq_true_eq]
  constructor
  · intro h
    refine ⟨_, h, ?_⟩
    rw [← addr_addr_add, addr_add_addr,
      show p.addr base + (p.addr a + 2 ^ p.addrW - p.addr base) = p.addr a + 2 ^ p.addrW by omega, addr_add_size, addr_addr]
  · rintro ⟨j, hj, h⟩
    rw [← h, ← addr_addr_add, Nat.add_sub_assoc (Nat.le_of_lt hb), addr_addr_add,
      show p.addr base + j + (2 ^ p.addrW - p.addr base) = j + 2 ^ p.addrW by omega, addr_add_size]
    exact Nat.lt_of_le_of_lt (addr_le p j) hj

theorem inRange_false_iff {base a n : Nat} :
    inRange p base n a = false ↔ ∀ j < n, p.addr (base + j) ≠ p.addr a := by
  rw [← Bool.not_eq_true, inRange_iff]
  simp

theorem inRange_zero (base a : Nat) : inRange p base 0 a = false := by simp [inRange]

/-- A store of bytes leaves every address outside the stored range alone. -/
theorem memRead_writeBytes_outside {m : Memory} (h : Memory.wf p m) {a x : Nat} {bs : List Byte}
    (hx : inRange p a bs.length x = false) : memRead p (writeBytes p m a bs) x = memRead p m x := by
  induction bs generalizing m a with
  | nil => rfl
  | cons b bs ih =>
    have hx := inRange_false_iff.mp hx
    rw [writeBytes, ih (wf_memWrite h a b), memRead_memWrite_other h b (by simpa using (hx 0 (by simp)).symm)]
    refine inRange_false_iff.mpr fun j hj => ?_
    rw [Nat.add_assoc, Nat.add_comm 1 j]
    exact hx (j + 1) (by simpa using hj)

/-- The first failing address of a range, none where the test holds all along it. -/
theorem firstFailing_none_iff {ok : Nat → Bool} {a n : Nat} :
    firstFailing p ok a n = none ↔ ∀ j < n, ok (p.addr (a + j)) = true := by
  induction n generalizing a with
  | zero => simp [firstFailing]
  | succ n ih =>
    rw [firstFailing, Nat.forall_lt_succ_left]
    simp only [Nat.add_zero, ← Nat.add_assoc, Nat.add_right_comm a _ 1]
    split
    · rename_i h0
      simp only [ih, h0, true_and]
    · rename_i h0
      simp [h0]

/-- The same for a test that goes by the ADDR_W bits of an address. -/
theorem firstFailing_none_of {ok : Nat → Bool} {a n : Nat} (hok : ∀ x, ok (p.addr x) = ok x) :
    firstFailing p ok a n = none ↔ ∀ j < n, ok (a + j) = true := by
  simp only [firstFailing_none_iff, hok]

/-- No byte of a range is a hole. -/
theorem firstHole_none_iff {holes : List Hole} {a n : Nat} :
    firstHole p holes a n = none ↔ ∀ j < n, hasMemory p holes (a + j) = true :=
  firstFailing_none_of (hasMemory_addr holes)

/-- Where the first `j` addresses have memory and the next has none, that one is the first hole. -/
theorem firstHole_at {holes : List Hole} {a n j : Nat} (hj : j < n) (h1 : ∀ i < j, hasMemory p holes (a + i) = true)
    (h2 : hasMemory p holes (a + j) = false) : firstHole p holes a n = some (p.addr (a + j)) := by
  unfold firstHole
  induction n generalizing a j with
  | zero => omega
  | succ n ih =>
    cases j with
    | zero => simp at h2; simp [firstFailing, h2]
    | succ j =>
      have h0 := h1 0 (by omega)
      simp at h0
      simp only [firstFailing, hasMemory_addr, h0, if_true]
      rw [ih (j := j) (by omega) (fun i hi => by rw [Nat.add_assoc, Nat.add_comm 1 i]; exact h1 _ (by omega))
        (by rw [Nat.add_assoc, Nat.add_comm 1 j]; exact h2), Nat.add_assoc, Nat.add_comm 1 j]

@[simp] theorem readBytes_length (m : Memory) (a n : Nat) : (readBytes p m a n).length = n := by
  induction n generalizing a with
  | zero => rfl
  | succ n ih => simp [readBytes, ih]

end Sys2Proof.Machine
end

