-- ==== Sys2Proof/Laws/State.lean ====
section
/-! SUPPORT. What each elementary update of the state leaves in each field, so that no proof unfolds a record update;
and what reading after writing gives in the families over channels. -/

namespace Sys2Proof.Machine

section PerChannel

variable {α : Type}

@[simp] theorem perCh_get_set (p : PerCh α) (ch : Channel) (v : α) : (p.set ch v).get ch = v := by
  cases ch <;> rfl

theorem perCh_get_set_other (p : PerCh α) {ch ch' : Channel} (v : α) (h : ch' ≠ ch) : (p.set ch v).get ch' = p.get ch' := by
  cases ch <;> cases ch' <;> first | rfl | exact absurd rfl h

@[simp] theorem perCh_set_set (p : PerCh α) (ch : Channel) (v w : α) : (p.set ch v).set ch w = p.set ch w := by
  cases ch <;> rfl

@[simp] theorem perCh_set_get (p : PerCh α) (ch : Channel) : p.set ch (p.get ch) = p := by
  cases ch <;> rfl

@[simp] theorem perTx_get_set (p : PerTx α) (ch : TxCh) (v : α) : (p.set ch v).get ch = v := by
  cases ch <;> rfl

theorem perTx_get_set_other (p : PerTx α) {ch ch' : TxCh} (v : α) (h : ch' ≠ ch) : (p.set ch v).get ch' = p.get ch' := by
  cases ch <;> cases ch' <;> first | rfl | exact absurd rfl h

@[simp] theorem perTx_set_set (p : PerTx α) (ch : TxCh) (v w : α) : (p.set ch v).set ch w = p.set ch w := by
  cases ch <;> rfl

@[simp] theorem perTx_set_get (p : PerTx α) (ch : TxCh) : p.set ch (p.get ch) = p := by
  cases ch <;> rfl

@[simp] theorem perRx_get_set (p : PerRx α) (ch : RxCh) (v : α) : (p.set ch v).get ch = v := by
  cases ch <;> rfl

theorem perRx_get_set_other (p : PerRx α) {ch ch' : RxCh} (v : α) (h : ch' ≠ ch) : (p.set ch v).get ch' = p.get ch' := by
  cases ch <;> cases ch' <;> first | rfl | exact absurd rfl h

@[simp] theorem perRx_set_set (p : PerRx α) (ch : RxCh) (v w : α) : (p.set ch v).set ch w = p.set ch w := by
  cases ch <;> rfl

@[simp] theorem perRx_set_get (p : PerRx α) (ch : RxCh) : p.set ch (p.get ch) = p := by
  cases ch <;> rfl

end PerChannel

variable (s : State)

/-! ## maskSource -/

@[simp] theorem maskSource_txCtx (src : Source) : (maskSource src s).txCtx = s.txCtx := rfl
@[simp] theorem maskSource_rxCtx (src : Source) : (maskSource src s).rxCtx = s.rxCtx := rfl
@[simp] theorem maskSource_stg (src : Source) : (maskSource src s).stg = s.stg := rfl
@[simp] theorem maskSource_ringData (src : Source) : (maskSource src s).ringData = s.ringData := rfl
@[simp] theorem maskSource_ringRead (src : Source) : (maskSource src s).ringRead = s.ringRead := rfl
@[simp] theorem maskSource_ringWrite (src : Source) : (maskSource src s).ringWrite = s.ringWrite := rfl
@[simp] theorem maskSource_firstTxcDiscard (src : Source) : (maskSource src s).firstTxcDiscard = s.firstTxcDiscard := rfl
@[simp] theorem maskSource_inHandler (src : Source) : (maskSource src s).inHandler = s.inHandler := rfl
@[simp] theorem maskSource_latched (src : Source) : (maskSource src s).latched = s.latched := rfl
@[simp] theorem maskSource_slot (src : Source) : (maskSource src s).slot = s.slot := rfl
@[simp] theorem maskSource_fatal (src : Source) : (maskSource src s).fatal = s.fatal := rfl
@[simp] theorem maskSource_fatalCause (src : Source) : (maskSource src s).fatalCause = s.fatalCause := rfl
@[simp] theorem maskSource_fatalInfo (src : Source) : (maskSource src s).fatalInfo = s.fatalInfo := rfl
@[simp] theorem maskSource_cmd (src : Source) : (maskSource src s).cmd = s.cmd := rfl
@[simp] theorem maskSource_intEn (src : Source) : (maskSource src s).intEn = setField s.intEn src.mask false := rfl
@[simp] theorem maskSource_irqGate (src : Source) : (maskSource src s).irqGate = s.irqGate := rfl
@[simp] theorem maskSource_ctl (src : Source) : (maskSource src s).ctl = s.ctl := rfl
@[simp] theorem maskSource_diagCtl (src : Source) : (maskSource src s).diagCtl = s.diagCtl := rfl
@[simp] theorem maskSource_diagStat (src : Source) : (maskSource src s).diagStat = s.diagStat := rfl
@[simp] theorem maskSource_pend (src : Source) : (maskSource src s).pend = s.pend := rfl
@[simp] theorem maskSource_txq (src : Source) : (maskSource src s).txq = s.txq := rfl
@[simp] theorem maskSource_rxq (src : Source) : (maskSource src s).rxq = s.rxq := rfl
@[simp] theorem maskSource_setupLeft (src : Source) : (maskSource src s).setupLeft = s.setupLeft := rfl
@[simp] theorem maskSource_diagHold (src : Source) : (maskSource src s).diagHold = s.diagHold := rfl
@[simp] theorem maskSource_spuriousArmed (src : Source) : (maskSource src s).spuriousArmed = s.spuriousArmed := rfl
@[simp] theorem maskSource_busy (src : Source) : (maskSource src s).busy = s.busy := rfl
@[simp] theorem maskSource_lentTx (src : Source) : (maskSource src s).lentTx = s.lentTx := rfl
@[simp] theorem maskSource_lentRx (src : Source) : (maskSource src s).lentRx = s.lentRx := rfl
@[simp] theorem maskSource_events (src : Source) : (maskSource src s).events = s.events := rfl
@[simp] theorem maskSource_responses (src : Source) : (maskSource src s).responses = s.responses := rfl
@[simp] theorem maskSource_wireTx (src : Source) : (maskSource src s).wireTx = s.wireTx := rfl
@[simp] theorem maskSource_wireDiag (src : Source) : (maskSource src s).wireDiag = s.wireDiag := rfl
@[simp] theorem maskSource_mem (src : Source) : (maskSource src s).mem = s.mem := rfl
@[simp] theorem maskSource_noMem (src : Source) : (maskSource src s).noMem = s.noMem := rfl
@[simp] theorem maskSource_params (src : Source) : (maskSource src s).params = s.params := rfl
@[simp] theorem maskSource_script (src : Source) : (maskSource src s).script = s.script := rfl
@[simp] theorem maskSource_draws (src : Source) : (maskSource src s).draws = s.draws := rfl
@[simp] theorem maskSource_openEnv (src : Source) : (maskSource src s).openEnv = s.openEnv := rfl

/-! ## unmaskSource -/

@[simp] theorem unmaskSource_txCtx (src : Source) : (unmaskSource src s).txCtx = s.txCtx := rfl
@[simp] theorem unmaskSource_rxCtx (src : Source) : (unmaskSource src s).rxCtx = s.rxCtx := rfl
@[simp] theorem unmaskSource_stg (src : Source) : (unmaskSource src s).stg = s.stg := rfl
@[simp] theorem unmaskSource_ringData (src : Source) : (unmaskSource src s).ringData = s.ringData := rfl
@[simp] theorem unmaskSource_ringRead (src : Source) : (unmaskSource src s).ringRead = s.ringRead := rfl
@[simp] theorem unmaskSource_ringWrite (src : Source) : (unmaskSource src s).ringWrite = s.ringWrite := rfl
@[simp] theorem unmaskSource_firstTxcDiscard (src : Source) : (unmaskSource src s).firstTxcDiscard = s.firstTxcDiscard := rfl
@[simp] theorem unmaskSource_inHandler (src : Source) : (unmaskSource src s).inHandler = s.inHandler := rfl
@[simp] theorem unmaskSource_latched (src : Source) : (unmaskSource src s).latched = s.latched := rfl
@[simp] theorem unmaskSource_slot (src : Source) : (unmaskSource src s).slot = s.slot := rfl
@[simp] theorem unmaskSource_fatal (src : Source) : (unmaskSource src s).fatal = s.fatal := rfl
@[simp] theorem unmaskSource_fatalCause (src : Source) : (unmaskSource src s).fatalCause = s.fatalCause := rfl
@[simp] theorem unmaskSource_fatalInfo (src : Source) : (unmaskSource src s).fatalInfo = s.fatalInfo := rfl
@[simp] theorem unmaskSource_cmd (src : Source) : (unmaskSource src s).cmd = s.cmd := rfl
@[simp] theorem unmaskSource_intEn (src : Source) : (unmaskSource src s).intEn = setField s.intEn src.mask true := rfl
@[simp] theorem unmaskSource_irqGate (src : Source) : (unmaskSource src s).irqGate = s.irqGate := rfl
@[simp] theorem unmaskSource_ctl (src : Source) : (unmaskSource src s).ctl = s.ctl := rfl
@[simp] theorem unmaskSource_diagCtl (src : Source) : (unmaskSource src s).diagCtl = s.diagCtl := rfl
@[simp] theorem unmaskSource_diagStat (src : Source) : (unmaskSource src s).diagStat = s.diagStat := rfl
@[simp] theorem unmaskSource_pend (src : Source) : (unmaskSource src s).pend = s.pend := rfl
@[simp] theorem unmaskSource_txq (src : Source) : (unmaskSource src s).txq = s.txq := rfl
@[simp] theorem unmaskSource_rxq (src : Source) : (unmaskSource src s).rxq = s.rxq := rfl
@[simp] theorem unmaskSource_setupLeft (src : Source) : (unmaskSource src s).setupLeft = s.setupLeft := rfl
@[simp] theorem unmaskSource_diagHold (src : Source) : (unmaskSource src s).diagHold = s.diagHold := rfl
@[simp] theorem unmaskSource_spuriousArmed (src : Source) : (unmaskSource src s).spuriousArmed = s.spuriousArmed := rfl
@[simp] theorem unmaskSource_busy (src : Source) : (unmaskSource src s).busy = s.busy := rfl
@[simp] theorem unmaskSource_lentTx (src : Source) : (unmaskSource src s).lentTx = s.lentTx := rfl
@[simp] theorem unmaskSource_lentRx (src : Source) : (unmaskSource src s).lentRx = s.lentRx := rfl
@[simp] theorem unmaskSource_events (src : Source) : (unmaskSource src s).events = s.events := rfl
@[simp] theorem unmaskSource_responses (src : Source) : (unmaskSource src s).responses = s.responses := rfl
@[simp] theorem unmaskSource_wireTx (src : Source) : (unmaskSource src s).wireTx = s.wireTx := rfl
@[simp] theorem unmaskSource_wireDiag (src : Source) : (unmaskSource src s).wireDiag = s.wireDiag := rfl
@[simp] theorem unmaskSource_mem (src : Source) : (unmaskSource src s).mem = s.mem := rfl
@[simp] theorem unmaskSource_noMem (src : Source) : (unmaskSource src s).noMem = s.noMem := rfl
@[simp] theorem unmaskSource_params (src : Source) : (unmaskSource src s).params = s.params := rfl
@[simp] theorem unmaskSource_script (src : Source) : (unmaskSource src s).script = s.script := rfl
@[simp] theorem unmaskSource_draws (src : Source) : (unmaskSource src s).draws = s.draws := rfl
@[simp] theorem unmaskSource_openEnv (src : Source) : (unmaskSource src s).openEnv = s.openEnv := rfl

/-! ## writeIntEn -/

@[simp] theorem writeIntEn_txCtx (v : Byte) : (writeIntEn v s).txCtx = s.txCtx := rfl
@[simp] theorem writeIntEn_rxCtx (v : Byte) : (writeIntEn v s).rxCtx = s.rxCtx := rfl
@[simp] theorem writeIntEn_stg (v : Byte) : (writeIntEn v s).stg = s.stg := rfl
@[simp] theorem writeIntEn_ringData (v : Byte) : (writeIntEn v s).ringData = s.ringData := rfl
@[simp] theorem writeIntEn_ringRead (v : Byte) : (writeIntEn v s).ringRead = s.ringRead := rfl
@[simp] theorem writeIntEn_ringWrite (v : Byte) : (writeIntEn v s).ringWrite = s.ringWrite := rfl
@[simp] theorem writeIntEn_firstTxcDiscard (v : Byte) : (writeIntEn v s).firstTxcDiscard = s.firstTxcDiscard := rfl
@[simp] theorem writeIntEn_inHandler (v : Byte) : (writeIntEn v s).inHandler = s.inHandler := rfl
@[simp] theorem writeIntEn_latched (v : Byte) : (writeIntEn v s).latched = s.latched := rfl
@[simp] theorem writeIntEn_slot (v : Byte) : (writeIntEn v s).slot = s.slot := rfl
@[simp] theorem writeIntEn_fatal (v : Byte) : (writeIntEn v s).fatal = s.fatal := rfl
@[simp] theorem writeIntEn_fatalCause (v : Byte) : (writeIntEn v s).fatalCause = s.fatalCause := rfl
@[simp] theorem writeIntEn_fatalInfo (v : Byte) : (writeIntEn v s).fatalInfo = s.fatalInfo := rfl
@[simp] theorem writeIntEn_cmd (v : Byte) : (writeIntEn v s).cmd = s.cmd := rfl
@[simp] theorem writeIntEn_intEn (v : Byte) : (writeIntEn v s).intEn = v &&& intEnBits := rfl
@[simp] theorem writeIntEn_irqGate (v : Byte) : (writeIntEn v s).irqGate = s.irqGate := rfl
@[simp] theorem writeIntEn_ctl (v : Byte) : (writeIntEn v s).ctl = s.ctl := rfl
@[simp] theorem writeIntEn_diagCtl (v : Byte) : (writeIntEn v s).diagCtl = s.diagCtl := rfl
@[simp] theorem writeIntEn_diagStat (v : Byte) : (writeIntEn v s).diagStat = s.diagStat := rfl
@[simp] theorem writeIntEn_pend (v : Byte) : (writeIntEn v s).pend = s.pend := rfl
@[simp] theorem writeIntEn_txq (v : Byte) : (writeIntEn v s).txq = s.txq := rfl
@[simp] theorem writeIntEn_rxq (v : Byte) : (writeIntEn v s).rxq = s.rxq := rfl
@[simp] theorem writeIntEn_setupLeft (v : Byte) : (writeIntEn v s).setupLeft = s.setupLeft := rfl
@[simp] theorem writeIntEn_diagHold (v : Byte) : (writeIntEn v s).diagHold = s.diagHold := rfl
@[simp] theorem writeIntEn_spuriousArmed (v : Byte) : (writeIntEn v s).spuriousArmed = s.spuriousArmed := rfl
@[simp] theorem writeIntEn_busy (v : Byte) : (writeIntEn v s).busy = s.busy := rfl
@[simp] theorem writeIntEn_lentTx (v : Byte) : (writeIntEn v s).lentTx = s.lentTx := rfl
@[simp] theorem writeIntEn_lentRx (v : Byte) : (writeIntEn v s).lentRx = s.lentRx := rfl
@[simp] theorem writeIntEn_events (v : Byte) : (writeIntEn v s).events = s.events := rfl
@[simp] theorem writeIntEn_responses (v : Byte) : (writeIntEn v s).responses = s.responses := rfl
@[simp] theorem writeIntEn_wireTx (v : Byte) : (writeIntEn v s).wireTx = s.wireTx := rfl
@[simp] theorem writeIntEn_wireDiag (v : Byte) : (writeIntEn v s).wireDiag = s.wireDiag := rfl
@[simp] theorem writeIntEn_mem (v : Byte) : (writeIntEn v s).mem = s.mem := rfl
@[simp] theorem writeIntEn_noMem (v : Byte) : (writeIntEn v s).noMem = s.noMem := rfl
@[simp] theorem writeIntEn_params (v : Byte) : (writeIntEn v s).params = s.params := rfl
@[simp] theorem writeIntEn_script (v : Byte) : (writeIntEn v s).script = s.script := rfl
@[simp] theorem writeIntEn_draws (v : Byte) : (writeIntEn v s).draws = s.draws := rfl
@[simp] theorem writeIntEn_openEnv (v : Byte) : (writeIntEn v s).openEnv = s.openEnv := rfl

/-! ## setGie -/

@[simp] theorem setGie_txCtx (v : Bool) : (setGie v s).txCtx = s.txCtx := rfl
@[simp] theorem setGie_rxCtx (v : Bool) : (setGie v s).rxCtx = s.rxCtx := rfl
@[simp] theorem setGie_stg (v : Bool) : (setGie v s).stg = s.stg := rfl
@[simp] theorem setGie_ringData (v : Bool) : (setGie v s).ringData = s.ringData := rfl
@[simp] theorem setGie_ringRead (v : Bool) : (setGie v s).ringRead = s.ringRead := rfl
@[simp] theorem setGie_ringWrite (v : Bool) : (setGie v s).ringWrite = s.ringWrite := rfl
@[simp] theorem setGie_firstTxcDiscard (v : Bool) : (setGie v s).firstTxcDiscard = s.firstTxcDiscard := rfl
@[simp] theorem setGie_inHandler (v : Bool) : (setGie v s).inHandler = s.inHandler := rfl
@[simp] theorem setGie_latched (v : Bool) : (setGie v s).latched = s.latched := rfl
@[simp] theorem setGie_slot (v : Bool) : (setGie v s).slot = s.slot := rfl
@[simp] theorem setGie_fatal (v : Bool) : (setGie v s).fatal = s.fatal := rfl
@[simp] theorem setGie_fatalCause (v : Bool) : (setGie v s).fatalCause = s.fatalCause := rfl
@[simp] theorem setGie_fatalInfo (v : Bool) : (setGie v s).fatalInfo = s.fatalInfo := rfl
@[simp] theorem setGie_cmd (v : Bool) : (setGie v s).cmd = s.cmd := rfl
@[simp] theorem setGie_intEn (v : Bool) : (setGie v s).intEn = setField s.intEn gieBit v := rfl
@[simp] theorem setGie_irqGate (v : Bool) : (setGie v s).irqGate = s.irqGate := rfl
@[simp] theorem setGie_ctl (v : Bool) : (setGie v s).ctl = s.ctl := rfl
@[simp] theorem setGie_diagCtl (v : Bool) : (setGie v s).diagCtl = s.diagCtl := rfl
@[simp] theorem setGie_diagStat (v : Bool) : (setGie v s).diagStat = s.diagStat := rfl
@[simp] theorem setGie_pend (v : Bool) : (setGie v s).pend = s.pend := rfl
@[simp] theorem setGie_txq (v : Bool) : (setGie v s).txq = s.txq := rfl
@[simp] theorem setGie_rxq (v : Bool) : (setGie v s).rxq = s.rxq := rfl
@[simp] theorem setGie_setupLeft (v : Bool) : (setGie v s).setupLeft = s.setupLeft := rfl
@[simp] theorem setGie_diagHold (v : Bool) : (setGie v s).diagHold = s.diagHold := rfl
@[simp] theorem setGie_spuriousArmed (v : Bool) : (setGie v s).spuriousArmed = s.spuriousArmed := rfl
@[simp] theorem setGie_busy (v : Bool) : (setGie v s).busy = s.busy := rfl
@[simp] theorem setGie_lentTx (v : Bool) : (setGie v s).lentTx = s.lentTx := rfl
@[simp] theorem setGie_lentRx (v : Bool) : (setGie v s).lentRx = s.lentRx := rfl
@[simp] theorem setGie_events (v : Bool) : (setGie v s).events = s.events := rfl
@[simp] theorem setGie_responses (v : Bool) : (setGie v s).responses = s.responses := rfl
@[simp] theorem setGie_wireTx (v : Bool) : (setGie v s).wireTx = s.wireTx := rfl
@[simp] theorem setGie_wireDiag (v : Bool) : (setGie v s).wireDiag = s.wireDiag := rfl
@[simp] theorem setGie_mem (v : Bool) : (setGie v s).mem = s.mem := rfl
@[simp] theorem setGie_noMem (v : Bool) : (setGie v s).noMem = s.noMem := rfl
@[simp] theorem setGie_params (v : Bool) : (setGie v s).params = s.params := rfl
@[simp] theorem setGie_script (v : Bool) : (setGie v s).script = s.script := rfl
@[simp] theorem setGie_draws (v : Bool) : (setGie v s).draws = s.draws := rfl
@[simp] theorem setGie_openEnv (v : Bool) : (setGie v s).openEnv = s.openEnv := rfl

/-! ## setGate -/

@[simp] theorem setGate_txCtx (v : Bool) : (setGate v s).txCtx = s.txCtx := rfl
@[simp] theorem setGate_rxCtx (v : Bool) : (setGate v s).rxCtx = s.rxCtx := rfl
@[simp] theorem setGate_stg (v : Bool) : (setGate v s).stg = s.stg := rfl
@[simp] theorem setGate_ringData (v : Bool) : (setGate v s).ringData = s.ringData := rfl
@[simp] theorem setGate_ringRead (v : Bool) : (setGate v s).ringRead = s.ringRead := rfl
@[simp] theorem setGate_ringWrite (v : Bool) : (setGate v s).ringWrite = s.ringWrite := rfl
@[simp] theorem setGate_firstTxcDiscard (v : Bool) : (setGate v s).firstTxcDiscard = s.firstTxcDiscard := rfl
@[simp] theorem setGate_inHandler (v : Bool) : (setGate v s).inHandler = s.inHandler := rfl
@[simp] theorem setGate_latched (v : Bool) : (setGate v s).latched = s.latched := rfl
@[simp] theorem setGate_slot (v : Bool) : (setGate v s).slot = s.slot := rfl
@[simp] theorem setGate_fatal (v : Bool) : (setGate v s).fatal = s.fatal := rfl
@[simp] theorem setGate_fatalCause (v : Bool) : (setGate v s).fatalCause = s.fatalCause := rfl
@[simp] theorem setGate_fatalInfo (v : Bool) : (setGate v s).fatalInfo = s.fatalInfo := rfl
@[simp] theorem setGate_cmd (v : Bool) : (setGate v s).cmd = s.cmd := rfl
@[simp] theorem setGate_intEn (v : Bool) : (setGate v s).intEn = s.intEn := rfl
@[simp] theorem setGate_irqGate (v : Bool) : (setGate v s).irqGate = setField s.irqGate gateBit v := rfl
@[simp] theorem setGate_ctl (v : Bool) : (setGate v s).ctl = s.ctl := rfl
@[simp] theorem setGate_diagCtl (v : Bool) : (setGate v s).diagCtl = s.diagCtl := rfl
@[simp] theorem setGate_diagStat (v : Bool) : (setGate v s).diagStat = s.diagStat := rfl
@[simp] theorem setGate_pend (v : Bool) : (setGate v s).pend = s.pend := rfl
@[simp] theorem setGate_txq (v : Bool) : (setGate v s).txq = s.txq := rfl
@[simp] theorem setGate_rxq (v : Bool) : (setGate v s).rxq = s.rxq := rfl
@[simp] theorem setGate_setupLeft (v : Bool) : (setGate v s).setupLeft = s.setupLeft := rfl
@[simp] theorem setGate_diagHold (v : Bool) : (setGate v s).diagHold = s.diagHold := rfl
@[simp] theorem setGate_spuriousArmed (v : Bool) : (setGate v s).spuriousArmed = s.spuriousArmed := rfl
@[simp] theorem setGate_busy (v : Bool) : (setGate v s).busy = s.busy := rfl
@[simp] theorem setGate_lentTx (v : Bool) : (setGate v s).lentTx = s.lentTx := rfl
@[simp] theorem setGate_lentRx (v : Bool) : (setGate v s).lentRx = s.lentRx := rfl
@[simp] theorem setGate_events (v : Bool) : (setGate v s).events = s.events := rfl
@[simp] theorem setGate_responses (v : Bool) : (setGate v s).responses = s.responses := rfl
@[simp] theorem setGate_wireTx (v : Bool) : (setGate v s).wireTx = s.wireTx := rfl
@[simp] theorem setGate_wireDiag (v : Bool) : (setGate v s).wireDiag = s.wireDiag := rfl
@[simp] theorem setGate_mem (v : Bool) : (setGate v s).mem = s.mem := rfl
@[simp] theorem setGate_noMem (v : Bool) : (setGate v s).noMem = s.noMem := rfl
@[simp] theorem setGate_params (v : Bool) : (setGate v s).params = s.params := rfl
@[simp] theorem setGate_script (v : Bool) : (setGate v s).script = s.script := rfl
@[simp] theorem setGate_draws (v : Bool) : (setGate v s).draws = s.draws := rfl
@[simp] theorem setGate_openEnv (v : Bool) : (setGate v s).openEnv = s.openEnv := rfl

/-! ## writeCtl -/

@[simp] theorem writeCtl_txCtx (ch : Channel) (v : Byte) : (writeCtl ch v s).txCtx = s.txCtx := rfl
@[simp] theorem writeCtl_rxCtx (ch : Channel) (v : Byte) : (writeCtl ch v s).rxCtx = s.rxCtx := rfl
@[simp] theorem writeCtl_stg (ch : Channel) (v : Byte) : (writeCtl ch v s).stg = s.stg := rfl
@[simp] theorem writeCtl_ringData (ch : Channel) (v : Byte) : (writeCtl ch v s).ringData = s.ringData := rfl
@[simp] theorem writeCtl_ringRead (ch : Channel) (v : Byte) : (writeCtl ch v s).ringRead = s.ringRead := rfl
@[simp] theorem writeCtl_ringWrite (ch : Channel) (v : Byte) : (writeCtl ch v s).ringWrite = s.ringWrite := rfl
@[simp] theorem writeCtl_firstTxcDiscard (ch : Channel) (v : Byte) : (writeCtl ch v s).firstTxcDiscard = s.firstTxcDiscard := rfl
@[simp] theorem writeCtl_inHandler (ch : Channel) (v : Byte) : (writeCtl ch v s).inHandler = s.inHandler := rfl
@[simp] theorem writeCtl_latched (ch : Channel) (v : Byte) : (writeCtl ch v s).latched = s.latched := rfl
@[simp] theorem writeCtl_slot (ch : Channel) (v : Byte) : (writeCtl ch v s).slot = s.slot := rfl
@[simp] theorem writeCtl_fatal (ch : Channel) (v : Byte) : (writeCtl ch v s).fatal = s.fatal := rfl
@[simp] theorem writeCtl_fatalCause (ch : Channel) (v : Byte) : (writeCtl ch v s).fatalCause = s.fatalCause := rfl
@[simp] theorem writeCtl_fatalInfo (ch : Channel) (v : Byte) : (writeCtl ch v s).fatalInfo = s.fatalInfo := rfl
@[simp] theorem writeCtl_cmd (ch : Channel) (v : Byte) : (writeCtl ch v s).cmd = s.cmd := rfl
@[simp] theorem writeCtl_intEn (ch : Channel) (v : Byte) : (writeCtl ch v s).intEn = s.intEn := rfl
@[simp] theorem writeCtl_irqGate (ch : Channel) (v : Byte) : (writeCtl ch v s).irqGate = s.irqGate := rfl
@[simp] theorem writeCtl_ctl (ch : Channel) (v : Byte) : (writeCtl ch v s).ctl = s.ctl.set ch (v &&& ctlBits) := rfl
@[simp] theorem writeCtl_diagCtl (ch : Channel) (v : Byte) : (writeCtl ch v s).diagCtl = s.diagCtl := rfl
@[simp] theorem writeCtl_diagStat (ch : Channel) (v : Byte) : (writeCtl ch v s).diagStat = s.diagStat := rfl
@[simp] theorem writeCtl_pend (ch : Channel) (v : Byte) : (writeCtl ch v s).pend = s.pend := rfl
@[simp] theorem writeCtl_txq (ch : Channel) (v : Byte) : (writeCtl ch v s).txq = s.txq := rfl
@[simp] theorem writeCtl_rxq (ch : Channel) (v : Byte) : (writeCtl ch v s).rxq = s.rxq := rfl
@[simp] theorem writeCtl_setupLeft (ch : Channel) (v : Byte) : (writeCtl ch v s).setupLeft = s.setupLeft := rfl
@[simp] theorem writeCtl_diagHold (ch : Channel) (v : Byte) : (writeCtl ch v s).diagHold = s.diagHold := rfl
@[simp] theorem writeCtl_spuriousArmed (ch : Channel) (v : Byte) : (writeCtl ch v s).spuriousArmed = s.spuriousArmed := rfl
@[simp] theorem writeCtl_busy (ch : Channel) (v : Byte) : (writeCtl ch v s).busy = s.busy := rfl
@[simp] theorem writeCtl_lentTx (ch : Channel) (v : Byte) : (writeCtl ch v s).lentTx = s.lentTx := rfl
@[simp] theorem writeCtl_lentRx (ch : Channel) (v : Byte) : (writeCtl ch v s).lentRx = s.lentRx := rfl
@[simp] theorem writeCtl_events (ch : Channel) (v : Byte) : (writeCtl ch v s).events = s.events := rfl
@[simp] theorem writeCtl_responses (ch : Channel) (v : Byte) : (writeCtl ch v s).responses = s.responses := rfl
@[simp] theorem writeCtl_wireTx (ch : Channel) (v : Byte) : (writeCtl ch v s).wireTx = s.wireTx := rfl
@[simp] theorem writeCtl_wireDiag (ch : Channel) (v : Byte) : (writeCtl ch v s).wireDiag = s.wireDiag := rfl
@[simp] theorem writeCtl_mem (ch : Channel) (v : Byte) : (writeCtl ch v s).mem = s.mem := rfl
@[simp] theorem writeCtl_noMem (ch : Channel) (v : Byte) : (writeCtl ch v s).noMem = s.noMem := rfl
@[simp] theorem writeCtl_params (ch : Channel) (v : Byte) : (writeCtl ch v s).params = s.params := rfl
@[simp] theorem writeCtl_script (ch : Channel) (v : Byte) : (writeCtl ch v s).script = s.script := rfl
@[simp] theorem writeCtl_draws (ch : Channel) (v : Byte) : (writeCtl ch v s).draws = s.draws := rfl
@[simp] theorem writeCtl_openEnv (ch : Channel) (v : Byte) : (writeCtl ch v s).openEnv = s.openEnv := rfl

/-! ## setCtl -/

@[simp] theorem setCtl_txCtx (ch : Channel) (m : Byte) (v : Bool) : (setCtl ch m v s).txCtx = s.txCtx := rfl
@[simp] theorem setCtl_rxCtx (ch : Channel) (m : Byte) (v : Bool) : (setCtl ch m v s).rxCtx = s.rxCtx := rfl
@[simp] theorem setCtl_stg (ch : Channel) (m : Byte) (v : Bool) : (setCtl ch m v s).stg = s.stg := rfl
@[simp] theorem setCtl_ringData (ch : Channel) (m : Byte) (v : Bool) : (setCtl ch m v s).ringData = s.ringData := rfl
@[simp] theorem setCtl_ringRead (ch : Channel) (m : Byte) (v : Bool) : (setCtl ch m v s).ringRead = s.ringRead := rfl
@[simp] theorem setCtl_ringWrite (ch : Channel) (m : Byte) (v : Bool) : (setCtl ch m v s).ringWrite = s.ringWrite := rfl
@[simp] theorem setCtl_firstTxcDiscard (ch : Channel) (m : Byte) (v : Bool) : (setCtl ch m v s).firstTxcDiscard = s.firstTxcDiscard := rfl
@[simp] theorem setCtl_inHandler (ch : Channel) (m : Byte) (v : Bool) : (setCtl ch m v s).inHandler = s.inHandler := rfl
@[simp] theorem setCtl_latched (ch : Channel) (m : Byte) (v : Bool) : (setCtl ch m v s).latched = s.latched := rfl
@[simp] theorem setCtl_slot (ch : Channel) (m : Byte) (v : Bool) : (setCtl ch m v s).slot = s.slot := rfl
@[simp] theorem setCtl_fatal (ch : Channel) (m : Byte) (v : Bool) : (setCtl ch m v s).fatal = s.fatal := rfl
@[simp] theorem setCtl_fatalCause (ch : Channel) (m : Byte) (v : Bool) : (setCtl ch m v s).fatalCause = s.fatalCause := rfl
@[simp] theorem setCtl_fatalInfo (ch : Channel) (m : Byte) (v : Bool) : (setCtl ch m v s).fatalInfo = s.fatalInfo := rfl
@[simp] theorem setCtl_cmd (ch : Channel) (m : Byte) (v : Bool) : (setCtl ch m v s).cmd = s.cmd := rfl
@[simp] theorem setCtl_intEn (ch : Channel) (m : Byte) (v : Bool) : (setCtl ch m v s).intEn = s.intEn := rfl
@[simp] theorem setCtl_irqGate (ch : Channel) (m : Byte) (v : Bool) : (setCtl ch m v s).irqGate = s.irqGate := rfl
@[simp] theorem setCtl_ctl (ch : Channel) (m : Byte) (v : Bool) : (setCtl ch m v s).ctl = s.ctl.set ch (setField (s.ctl.get ch) m v) := rfl
@[simp] theorem setCtl_diagCtl (ch : Channel) (m : Byte) (v : Bool) : (setCtl ch m v s).diagCtl = s.diagCtl := rfl
@[simp] theorem setCtl_diagStat (ch : Channel) (m : Byte) (v : Bool) : (setCtl ch m v s).diagStat = s.diagStat := rfl
@[simp] theorem setCtl_pend (ch : Channel) (m : Byte) (v : Bool) : (setCtl ch m v s).pend = s.pend := rfl
@[simp] theorem setCtl_txq (ch : Channel) (m : Byte) (v : Bool) : (setCtl ch m v s).txq = s.txq := rfl
@[simp] theorem setCtl_rxq (ch : Channel) (m : Byte) (v : Bool) : (setCtl ch m v s).rxq = s.rxq := rfl
@[simp] theorem setCtl_setupLeft (ch : Channel) (m : Byte) (v : Bool) : (setCtl ch m v s).setupLeft = s.setupLeft := rfl
@[simp] theorem setCtl_diagHold (ch : Channel) (m : Byte) (v : Bool) : (setCtl ch m v s).diagHold = s.diagHold := rfl
@[simp] theorem setCtl_spuriousArmed (ch : Channel) (m : Byte) (v : Bool) : (setCtl ch m v s).spuriousArmed = s.spuriousArmed := rfl
@[simp] theorem setCtl_busy (ch : Channel) (m : Byte) (v : Bool) : (setCtl ch m v s).busy = s.busy := rfl
@[simp] theorem setCtl_lentTx (ch : Channel) (m : Byte) (v : Bool) : (setCtl ch m v s).lentTx = s.lentTx := rfl
@[simp] theorem setCtl_lentRx (ch : Channel) (m : Byte) (v : Bool) : (setCtl ch m v s).lentRx = s.lentRx := rfl
@[simp] theorem setCtl_events (ch : Channel) (m : Byte) (v : Bool) : (setCtl ch m v s).events = s.events := rfl
@[simp] theorem setCtl_responses (ch : Channel) (m : Byte) (v : Bool) : (setCtl ch m v s).responses = s.responses := rfl
@[simp] theorem setCtl_wireTx (ch : Channel) (m : Byte) (v : Bool) : (setCtl ch m v s).wireTx = s.wireTx := rfl
@[simp] theorem setCtl_wireDiag (ch : Channel) (m : Byte) (v : Bool) : (setCtl ch m v s).wireDiag = s.wireDiag := rfl
@[simp] theorem setCtl_mem (ch : Channel) (m : Byte) (v : Bool) : (setCtl ch m v s).mem = s.mem := rfl
@[simp] theorem setCtl_noMem (ch : Channel) (m : Byte) (v : Bool) : (setCtl ch m v s).noMem = s.noMem := rfl
@[simp] theorem setCtl_params (ch : Channel) (m : Byte) (v : Bool) : (setCtl ch m v s).params = s.params := rfl
@[simp] theorem setCtl_script (ch : Channel) (m : Byte) (v : Bool) : (setCtl ch m v s).script = s.script := rfl
@[simp] theorem setCtl_draws (ch : Channel) (m : Byte) (v : Bool) : (setCtl ch m v s).draws = s.draws := rfl
@[simp] theorem setCtl_openEnv (ch : Channel) (m : Byte) (v : Bool) : (setCtl ch m v s).openEnv = s.openEnv := rfl

/-! ## clearIntSrc -/

@[simp] theorem clearIntSrc_txCtx : (clearIntSrc s).txCtx = s.txCtx := rfl
@[simp] theorem clearIntSrc_rxCtx : (clearIntSrc s).rxCtx = s.rxCtx := rfl
@[simp] theorem clearIntSrc_stg : (clearIntSrc s).stg = s.stg := rfl
@[simp] theorem clearIntSrc_ringData : (clearIntSrc s).ringData = s.ringData := rfl
@[simp] theorem clearIntSrc_ringRead : (clearIntSrc s).ringRead = s.ringRead := rfl
@[simp] theorem clearIntSrc_ringWrite : (clearIntSrc s).ringWrite = s.ringWrite := rfl
@[simp] theorem clearIntSrc_firstTxcDiscard : (clearIntSrc s).firstTxcDiscard = s.firstTxcDiscard := rfl
@[simp] theorem clearIntSrc_inHandler : (clearIntSrc s).inHandler = s.inHandler := rfl
@[simp] theorem clearIntSrc_latched : (clearIntSrc s).latched = s.latched := rfl
@[simp] theorem clearIntSrc_slot : (clearIntSrc s).slot = s.slot := rfl
@[simp] theorem clearIntSrc_fatal : (clearIntSrc s).fatal = s.fatal := rfl
@[simp] theorem clearIntSrc_fatalCause : (clearIntSrc s).fatalCause = s.fatalCause := rfl
@[simp] theorem clearIntSrc_fatalInfo : (clearIntSrc s).fatalInfo = s.fatalInfo := rfl
@[simp] theorem clearIntSrc_cmd : (clearIntSrc s).cmd = s.cmd := rfl
@[simp] theorem clearIntSrc_intEn : (clearIntSrc s).intEn = s.intEn := rfl
@[simp] theorem clearIntSrc_irqGate : (clearIntSrc s).irqGate = s.irqGate := rfl
@[simp] theorem clearIntSrc_ctl : (clearIntSrc s).ctl = s.ctl := rfl
@[simp] theorem clearIntSrc_diagCtl : (clearIntSrc s).diagCtl = s.diagCtl := rfl
@[simp] theorem clearIntSrc_diagStat : (clearIntSrc s).diagStat = s.diagStat := rfl
@[simp] theorem clearIntSrc_pend : (clearIntSrc s).pend = s.pend &&& ~~~(intSrc s) := rfl
@[simp] theorem clearIntSrc_txq : (clearIntSrc s).txq = s.txq := rfl
@[simp] theorem clearIntSrc_rxq : (clearIntSrc s).rxq = s.rxq := rfl
@[simp] theorem clearIntSrc_setupLeft : (clearIntSrc s).setupLeft = s.setupLeft := rfl
@[simp] theorem clearIntSrc_diagHold : (clearIntSrc s).diagHold = s.diagHold := rfl
@[simp] theorem clearIntSrc_spuriousArmed : (clearIntSrc s).spuriousArmed = s.spuriousArmed := rfl
@[simp] theorem clearIntSrc_busy : (clearIntSrc s).busy = s.busy := rfl
@[simp] theorem clearIntSrc_lentTx : (clearIntSrc s).lentTx = s.lentTx := rfl
@[simp] theorem clearIntSrc_lentRx : (clearIntSrc s).lentRx = s.lentRx := rfl
@[simp] theorem clearIntSrc_events : (clearIntSrc s).events = s.events := rfl
@[simp] theorem clearIntSrc_responses : (clearIntSrc s).responses = s.responses := rfl
@[simp] theorem clearIntSrc_wireTx : (clearIntSrc s).wireTx = s.wireTx := rfl
@[simp] theorem clearIntSrc_wireDiag : (clearIntSrc s).wireDiag = s.wireDiag := rfl
@[simp] theorem clearIntSrc_mem : (clearIntSrc s).mem = s.mem := rfl
@[simp] theorem clearIntSrc_noMem : (clearIntSrc s).noMem = s.noMem := rfl
@[simp] theorem clearIntSrc_params : (clearIntSrc s).params = s.params := rfl
@[simp] theorem clearIntSrc_script : (clearIntSrc s).script = s.script := rfl
@[simp] theorem clearIntSrc_draws : (clearIntSrc s).draws = s.draws := rfl
@[simp] theorem clearIntSrc_openEnv : (clearIntSrc s).openEnv = s.openEnv := rfl

/-! ## raiseSource -/

@[simp] theorem raiseSource_txCtx (src : Source) : (raiseSource src s).txCtx = s.txCtx := rfl
@[simp] theorem raiseSource_rxCtx (src : Source) : (raiseSource src s).rxCtx = s.rxCtx := rfl
@[simp] theorem raiseSource_stg (src : Source) : (raiseSource src s).stg = s.stg := rfl
@[simp] theorem raiseSource_ringData (src : Source) : (raiseSource src s).ringData = s.ringData := rfl
@[simp] theorem raiseSource_ringRead (src : Source) : (raiseSource src s).ringRead = s.ringRead := rfl
@[simp] theorem raiseSource_ringWrite (src : Source) : (raiseSource src s).ringWrite = s.ringWrite := rfl
@[simp] theorem raiseSource_firstTxcDiscard (src : Source) : (raiseSource src s).firstTxcDiscard = s.firstTxcDiscard := rfl
@[simp] theorem raiseSource_inHandler (src : Source) : (raiseSource src s).inHandler = s.inHandler := rfl
@[simp] theorem raiseSource_latched (src : Source) : (raiseSource src s).latched = s.latched := rfl
@[simp] theorem raiseSource_slot (src : Source) : (raiseSource src s).slot = s.slot := rfl
@[simp] theorem raiseSource_fatal (src : Source) : (raiseSource src s).fatal = s.fatal := rfl
@[simp] theorem raiseSource_fatalCause (src : Source) : (raiseSource src s).fatalCause = s.fatalCause := rfl
@[simp] theorem raiseSource_fatalInfo (src : Source) : (raiseSource src s).fatalInfo = s.fatalInfo := rfl
@[simp] theorem raiseSource_cmd (src : Source) : (raiseSource src s).cmd = s.cmd := rfl
@[simp] theorem raiseSource_intEn (src : Source) : (raiseSource src s).intEn = s.intEn := rfl
@[simp] theorem raiseSource_irqGate (src : Source) : (raiseSource src s).irqGate = s.irqGate := rfl
@[simp] theorem raiseSource_ctl (src : Source) : (raiseSource src s).ctl = s.ctl := rfl
@[simp] theorem raiseSource_diagCtl (src : Source) : (raiseSource src s).diagCtl = s.diagCtl := rfl
@[simp] theorem raiseSource_diagStat (src : Source) : (raiseSource src s).diagStat = s.diagStat := rfl
@[simp] theorem raiseSource_pend (src : Source) : (raiseSource src s).pend = s.pend ||| src.mask := rfl
@[simp] theorem raiseSource_txq (src : Source) : (raiseSource src s).txq = s.txq := rfl
@[simp] theorem raiseSource_rxq (src : Source) : (raiseSource src s).rxq = s.rxq := rfl
@[simp] theorem raiseSource_setupLeft (src : Source) : (raiseSource src s).setupLeft = s.setupLeft := rfl
@[simp] theorem raiseSource_diagHold (src : Source) : (raiseSource src s).diagHold = s.diagHold := rfl
@[simp] theorem raiseSource_spuriousArmed (src : Source) : (raiseSource src s).spuriousArmed = s.spuriousArmed := rfl
@[simp] theorem raiseSource_busy (src : Source) : (raiseSource src s).busy = s.busy := rfl
@[simp] theorem raiseSource_lentTx (src : Source) : (raiseSource src s).lentTx = s.lentTx := rfl
@[simp] theorem raiseSource_lentRx (src : Source) : (raiseSource src s).lentRx = s.lentRx := rfl
@[simp] theorem raiseSource_events (src : Source) : (raiseSource src s).events = s.events := rfl
@[simp] theorem raiseSource_responses (src : Source) : (raiseSource src s).responses = s.responses := rfl
@[simp] theorem raiseSource_wireTx (src : Source) : (raiseSource src s).wireTx = s.wireTx := rfl
@[simp] theorem raiseSource_wireDiag (src : Source) : (raiseSource src s).wireDiag = s.wireDiag := rfl
@[simp] theorem raiseSource_mem (src : Source) : (raiseSource src s).mem = s.mem := rfl
@[simp] theorem raiseSource_noMem (src : Source) : (raiseSource src s).noMem = s.noMem := rfl
@[simp] theorem raiseSource_params (src : Source) : (raiseSource src s).params = s.params := rfl
@[simp] theorem raiseSource_script (src : Source) : (raiseSource src s).script = s.script := rfl
@[simp] theorem raiseSource_draws (src : Source) : (raiseSource src s).draws = s.draws := rfl
@[simp] theorem raiseSource_openEnv (src : Source) : (raiseSource src s).openEnv = s.openEnv := rfl

/-! ## respond -/

@[simp] theorem respond_txCtx (v : Bool) : (respond v s).txCtx = s.txCtx := rfl
@[simp] theorem respond_rxCtx (v : Bool) : (respond v s).rxCtx = s.rxCtx := rfl
@[simp] theorem respond_stg (v : Bool) : (respond v s).stg = s.stg := rfl
@[simp] theorem respond_ringData (v : Bool) : (respond v s).ringData = s.ringData := rfl
@[simp] theorem respond_ringRead (v : Bool) : (respond v s).ringRead = s.ringRead := rfl
@[simp] theorem respond_ringWrite (v : Bool) : (respond v s).ringWrite = s.ringWrite := rfl
@[simp] theorem respond_firstTxcDiscard (v : Bool) : (respond v s).firstTxcDiscard = s.firstTxcDiscard := rfl
@[simp] theorem respond_inHandler (v : Bool) : (respond v s).inHandler = s.inHandler := rfl
@[simp] theorem respond_latched (v : Bool) : (respond v s).latched = s.latched := rfl
@[simp] theorem respond_slot (v : Bool) : (respond v s).slot = s.slot := rfl
@[simp] theorem respond_fatal (v : Bool) : (respond v s).fatal = s.fatal := rfl
@[simp] theorem respond_fatalCause (v : Bool) : (respond v s).fatalCause = s.fatalCause := rfl
@[simp] theorem respond_fatalInfo (v : Bool) : (respond v s).fatalInfo = s.fatalInfo := rfl
@[simp] theorem respond_cmd (v : Bool) : (respond v s).cmd = none := rfl
@[simp] theorem respond_intEn (v : Bool) : (respond v s).intEn = s.intEn := rfl
@[simp] theorem respond_irqGate (v : Bool) : (respond v s).irqGate = s.irqGate := rfl
@[simp] theorem respond_ctl (v : Bool) : (respond v s).ctl = s.ctl := rfl
@[simp] theorem respond_diagCtl (v : Bool) : (respond v s).diagCtl = s.diagCtl := rfl
@[simp] theorem respond_diagStat (v : Bool) : (respond v s).diagStat = s.diagStat := rfl
@[simp] theorem respond_pend (v : Bool) : (respond v s).pend = s.pend := rfl
@[simp] theorem respond_txq (v : Bool) : (respond v s).txq = s.txq := rfl
@[simp] theorem respond_rxq (v : Bool) : (respond v s).rxq = s.rxq := rfl
@[simp] theorem respond_setupLeft (v : Bool) : (respond v s).setupLeft = s.setupLeft := rfl
@[simp] theorem respond_diagHold (v : Bool) : (respond v s).diagHold = s.diagHold := rfl
@[simp] theorem respond_spuriousArmed (v : Bool) : (respond v s).spuriousArmed = s.spuriousArmed := rfl
@[simp] theorem respond_busy (v : Bool) : (respond v s).busy = s.busy := rfl
@[simp] theorem respond_lentTx (v : Bool) : (respond v s).lentTx = s.lentTx := rfl
@[simp] theorem respond_lentRx (v : Bool) : (respond v s).lentRx = s.lentRx := rfl
@[simp] theorem respond_events (v : Bool) : (respond v s).events = s.events := rfl
@[simp] theorem respond_responses (v : Bool) : (respond v s).responses = s.responses ++ [respWord v] := rfl
@[simp] theorem respond_wireTx (v : Bool) : (respond v s).wireTx = s.wireTx := rfl
@[simp] theorem respond_wireDiag (v : Bool) : (respond v s).wireDiag = s.wireDiag := rfl
@[simp] theorem respond_mem (v : Bool) : (respond v s).mem = s.mem := rfl
@[simp] theorem respond_noMem (v : Bool) : (respond v s).noMem = s.noMem := rfl
@[simp] theorem respond_params (v : Bool) : (respond v s).params = s.params := rfl
@[simp] theorem respond_script (v : Bool) : (respond v s).script = s.script := rfl
@[simp] theorem respond_draws (v : Bool) : (respond v s).draws = s.draws := rfl
@[simp] theorem respond_openEnv (v : Bool) : (respond v s).openEnv = s.openEnv := rfl

/-! ## emit -/

@[simp] theorem emit_txCtx (e : Event) : (emit e s).txCtx = s.txCtx := rfl
@[simp] theorem emit_rxCtx (e : Event) : (emit e s).rxCtx = s.rxCtx := rfl
@[simp] theorem emit_stg (e : Event) : (emit e s).stg = s.stg := rfl
@[simp] theorem emit_ringData (e : Event) : (emit e s).ringData = s.ringData := rfl
@[simp] theorem emit_ringRead (e : Event) : (emit e s).ringRead = s.ringRead := rfl
@[simp] theorem emit_ringWrite (e : Event) : (emit e s).ringWrite = s.ringWrite := rfl
@[simp] theorem emit_firstTxcDiscard (e : Event) : (emit e s).firstTxcDiscard = s.firstTxcDiscard := rfl
@[simp] theorem emit_inHandler (e : Event) : (emit e s).inHandler = s.inHandler := rfl
@[simp] theorem emit_latched (e : Event) : (emit e s).latched = s.latched := rfl
@[simp] theorem emit_slot (e : Event) : (emit e s).slot = s.slot := rfl
@[simp] theorem emit_fatal (e : Event) : (emit e s).fatal = s.fatal := rfl
@[simp] theorem emit_fatalCause (e : Event) : (emit e s).fatalCause = s.fatalCause := rfl
@[simp] theorem emit_fatalInfo (e : Event) : (emit e s).fatalInfo = s.fatalInfo := rfl
@[simp] theorem emit_cmd (e : Event) : (emit e s).cmd = s.cmd := rfl
@[simp] theorem emit_intEn (e : Event) : (emit e s).intEn = s.intEn := rfl
@[simp] theorem emit_irqGate (e : Event) : (emit e s).irqGate = s.irqGate := rfl
@[simp] theorem emit_ctl (e : Event) : (emit e s).ctl = s.ctl := rfl
@[simp] theorem emit_diagCtl (e : Event) : (emit e s).diagCtl = s.diagCtl := rfl
@[simp] theorem emit_diagStat (e : Event) : (emit e s).diagStat = s.diagStat := rfl
@[simp] theorem emit_pend (e : Event) : (emit e s).pend = s.pend := rfl
@[simp] theorem emit_txq (e : Event) : (emit e s).txq = s.txq := rfl
@[simp] theorem emit_rxq (e : Event) : (emit e s).rxq = s.rxq := rfl
@[simp] theorem emit_setupLeft (e : Event) : (emit e s).setupLeft = s.setupLeft := rfl
@[simp] theorem emit_diagHold (e : Event) : (emit e s).diagHold = s.diagHold := rfl
@[simp] theorem emit_spuriousArmed (e : Event) : (emit e s).spuriousArmed = s.spuriousArmed := rfl
@[simp] theorem emit_busy (e : Event) : (emit e s).busy = s.busy := rfl
@[simp] theorem emit_lentTx (e : Event) : (emit e s).lentTx = s.lentTx := rfl
@[simp] theorem emit_lentRx (e : Event) : (emit e s).lentRx = s.lentRx := rfl
@[simp] theorem emit_events (e : Event) : (emit e s).events = s.events ++ [e] := rfl
@[simp] theorem emit_responses (e : Event) : (emit e s).responses = s.responses := rfl
@[simp] theorem emit_wireTx (e : Event) : (emit e s).wireTx = s.wireTx := rfl
@[simp] theorem emit_wireDiag (e : Event) : (emit e s).wireDiag = s.wireDiag := rfl
@[simp] theorem emit_mem (e : Event) : (emit e s).mem = s.mem := rfl
@[simp] theorem emit_noMem (e : Event) : (emit e s).noMem = s.noMem := rfl
@[simp] theorem emit_params (e : Event) : (emit e s).params = s.params := rfl
@[simp] theorem emit_script (e : Event) : (emit e s).script = s.script := rfl
@[simp] theorem emit_draws (e : Event) : (emit e s).draws = s.draws := rfl
@[simp] theorem emit_openEnv (e : Event) : (emit e s).openEnv = s.openEnv := rfl

/-! ## raiseFatal -/

@[simp] theorem raiseFatal_txCtx (cause info : Byte) : (raiseFatal cause info s).txCtx = s.txCtx := rfl
@[simp] theorem raiseFatal_rxCtx (cause info : Byte) : (raiseFatal cause info s).rxCtx = s.rxCtx := rfl
@[simp] theorem raiseFatal_stg (cause info : Byte) : (raiseFatal cause info s).stg = s.stg := rfl
@[simp] theorem raiseFatal_ringData (cause info : Byte) : (raiseFatal cause info s).ringData = s.ringData := rfl
@[simp] theorem raiseFatal_ringRead (cause info : Byte) : (raiseFatal cause info s).ringRead = s.ringRead := rfl
@[simp] theorem raiseFatal_ringWrite (cause info : Byte) : (raiseFatal cause info s).ringWrite = s.ringWrite := rfl
@[simp] theorem raiseFatal_firstTxcDiscard (cause info : Byte) : (raiseFatal cause info s).firstTxcDiscard = s.firstTxcDiscard := rfl
@[simp] theorem raiseFatal_inHandler (cause info : Byte) : (raiseFatal cause info s).inHandler = s.inHandler := rfl
@[simp] theorem raiseFatal_latched (cause info : Byte) : (raiseFatal cause info s).latched = s.latched := rfl
@[simp] theorem raiseFatal_slot (cause info : Byte) : (raiseFatal cause info s).slot = s.slot := rfl
@[simp] theorem raiseFatal_fatal (cause info : Byte) : (raiseFatal cause info s).fatal = true := rfl
@[simp] theorem raiseFatal_fatalCause (cause info : Byte) : (raiseFatal cause info s).fatalCause = cause := rfl
@[simp] theorem raiseFatal_fatalInfo (cause info : Byte) : (raiseFatal cause info s).fatalInfo = info := rfl
@[simp] theorem raiseFatal_cmd (cause info : Byte) : (raiseFatal cause info s).cmd = s.cmd := rfl
@[simp] theorem raiseFatal_intEn (cause info : Byte) : (raiseFatal cause info s).intEn = s.intEn := rfl
@[simp] theorem raiseFatal_irqGate (cause info : Byte) : (raiseFatal cause info s).irqGate = s.irqGate := rfl
@[simp] theorem raiseFatal_ctl (cause info : Byte) : (raiseFatal cause info s).ctl = s.ctl := rfl
@[simp] theorem raiseFatal_diagCtl (cause info : Byte) : (raiseFatal cause info s).diagCtl = s.diagCtl := rfl
@[simp] theorem raiseFatal_diagStat (cause info : Byte) : (raiseFatal cause info s).diagStat = s.diagStat := rfl
@[simp] theorem raiseFatal_pend (cause info : Byte) : (raiseFatal cause info s).pend = s.pend := rfl
@[simp] theorem raiseFatal_txq (cause info : Byte) : (raiseFatal cause info s).txq = s.txq := rfl
@[simp] theorem raiseFatal_rxq (cause info : Byte) : (raiseFatal cause info s).rxq = s.rxq := rfl
@[simp] theorem raiseFatal_setupLeft (cause info : Byte) : (raiseFatal cause info s).setupLeft = s.setupLeft := rfl
@[simp] theorem raiseFatal_diagHold (cause info : Byte) : (raiseFatal cause info s).diagHold = s.diagHold := rfl
@[simp] theorem raiseFatal_spuriousArmed (cause info : Byte) : (raiseFatal cause info s).spuriousArmed = s.spuriousArmed := rfl
@[simp] theorem raiseFatal_busy (cause info : Byte) : (raiseFatal cause info s).busy = s.busy := rfl
@[simp] theorem raiseFatal_lentTx (cause info : Byte) : (raiseFatal cause info s).lentTx = s.lentTx := rfl
@[simp] theorem raiseFatal_lentRx (cause info : Byte) : (raiseFatal cause info s).lentRx = s.lentRx := rfl
@[simp] theorem raiseFatal_events (cause info : Byte) : (raiseFatal cause info s).events = s.events := rfl
@[simp] theorem raiseFatal_responses (cause info : Byte) : (raiseFatal cause info s).responses = s.responses := rfl
@[simp] theorem raiseFatal_wireTx (cause info : Byte) : (raiseFatal cause info s).wireTx = s.wireTx := rfl
@[simp] theorem raiseFatal_wireDiag (cause info : Byte) : (raiseFatal cause info s).wireDiag = s.wireDiag := rfl
@[simp] theorem raiseFatal_mem (cause info : Byte) : (raiseFatal cause info s).mem = s.mem := rfl
@[simp] theorem raiseFatal_noMem (cause info : Byte) : (raiseFatal cause info s).noMem = s.noMem := rfl
@[simp] theorem raiseFatal_params (cause info : Byte) : (raiseFatal cause info s).params = s.params := rfl
@[simp] theorem raiseFatal_script (cause info : Byte) : (raiseFatal cause info s).script = s.script := rfl
@[simp] theorem raiseFatal_draws (cause info : Byte) : (raiseFatal cause info s).draws = s.draws := rfl
@[simp] theorem raiseFatal_openEnv (cause info : Byte) : (raiseFatal cause info s).openEnv = s.openEnv := rfl

/-! ## The reads of the open environment: each draws one element and counts the draw -/

theorem freshTx_of_reference (ch : TxCh) {s : State} (h : s.openEnv = false) : freshTx ch s = s := by simp [freshTx, h]
@[simp] theorem freshTx_txCtx (ch : TxCh) : (freshTx ch s).txCtx = s.txCtx := by unfold freshTx; split <;> rfl
@[simp] theorem freshTx_rxCtx (ch : TxCh) : (freshTx ch s).rxCtx = s.rxCtx := by unfold freshTx; split <;> rfl
@[simp] theorem freshTx_stg (ch : TxCh) : (freshTx ch s).stg = s.stg := by unfold freshTx; split <;> rfl
@[simp] theorem freshTx_ringData (ch : TxCh) : (freshTx ch s).ringData = s.ringData := by unfold freshTx; split <;> rfl
@[simp] theorem freshTx_ringRead (ch : TxCh) : (freshTx ch s).ringRead = s.ringRead := by unfold freshTx; split <;> rfl
@[simp] theorem freshTx_ringWrite (ch : TxCh) : (freshTx ch s).ringWrite = s.ringWrite := by unfold freshTx; split <;> rfl
@[simp] theorem freshTx_firstTxcDiscard (ch : TxCh) : (freshTx ch s).firstTxcDiscard = s.firstTxcDiscard := by unfold freshTx; split <;> rfl
@[simp] theorem freshTx_inHandler (ch : TxCh) : (freshTx ch s).inHandler = s.inHandler := by unfold freshTx; split <;> rfl
@[simp] theorem freshTx_latched (ch : TxCh) : (freshTx ch s).latched = s.latched := by unfold freshTx; split <;> rfl
@[simp] theorem freshTx_slot (ch : TxCh) : (freshTx ch s).slot = s.slot := by unfold freshTx; split <;> rfl
@[simp] theorem freshTx_fatal (ch : TxCh) : (freshTx ch s).fatal = s.fatal := by unfold freshTx; split <;> rfl
@[simp] theorem freshTx_fatalCause (ch : TxCh) : (freshTx ch s).fatalCause = s.fatalCause := by unfold freshTx; split <;> rfl
@[simp] theorem freshTx_fatalInfo (ch : TxCh) : (freshTx ch s).fatalInfo = s.fatalInfo := by unfold freshTx; split <;> rfl
@[simp] theorem freshTx_cmd (ch : TxCh) : (freshTx ch s).cmd = s.cmd := by unfold freshTx; split <;> rfl
@[simp] theorem freshTx_intEn (ch : TxCh) : (freshTx ch s).intEn = s.intEn := by unfold freshTx; split <;> rfl
@[simp] theorem freshTx_irqGate (ch : TxCh) : (freshTx ch s).irqGate = s.irqGate := by unfold freshTx; split <;> rfl
@[simp] theorem freshTx_ctl (ch : TxCh) : (freshTx ch s).ctl = s.ctl := by unfold freshTx; split <;> rfl
@[simp] theorem freshTx_diagCtl (ch : TxCh) : (freshTx ch s).diagCtl = s.diagCtl := by unfold freshTx; split <;> rfl
@[simp] theorem freshTx_diagStat (ch : TxCh) : (freshTx ch s).diagStat = s.diagStat := by unfold freshTx; split <;> rfl
@[simp] theorem freshTx_pend (ch : TxCh) : (freshTx ch s).pend = s.pend := by unfold freshTx; split <;> rfl
@[simp] theorem freshTx_rxq (ch : TxCh) : (freshTx ch s).rxq = s.rxq := by unfold freshTx; split <;> rfl
@[simp] theorem freshTx_setupLeft (ch : TxCh) : (freshTx ch s).setupLeft = s.setupLeft := by unfold freshTx; split <;> rfl
@[simp] theorem freshTx_diagHold (ch : TxCh) : (freshTx ch s).diagHold = s.diagHold := by unfold freshTx; split <;> rfl
@[simp] theorem freshTx_spuriousArmed (ch : TxCh) : (freshTx ch s).spuriousArmed = s.spuriousArmed := by unfold freshTx; split <;> rfl
@[simp] theorem freshTx_busy (ch : TxCh) : (freshTx ch s).busy = s.busy := by unfold freshTx; split <;> rfl
@[simp] theorem freshTx_lentTx (ch : TxCh) : (freshTx ch s).lentTx = s.lentTx := by unfold freshTx; split <;> rfl
@[simp] theorem freshTx_lentRx (ch : TxCh) : (freshTx ch s).lentRx = s.lentRx := by unfold freshTx; split <;> rfl
@[simp] theorem freshTx_events (ch : TxCh) : (freshTx ch s).events = s.events := by unfold freshTx; split <;> rfl
@[simp] theorem freshTx_responses (ch : TxCh) : (freshTx ch s).responses = s.responses := by unfold freshTx; split <;> rfl
@[simp] theorem freshTx_wireTx (ch : TxCh) : (freshTx ch s).wireTx = s.wireTx := by unfold freshTx; split <;> rfl
@[simp] theorem freshTx_wireDiag (ch : TxCh) : (freshTx ch s).wireDiag = s.wireDiag := by unfold freshTx; split <;> rfl
@[simp] theorem freshTx_mem (ch : TxCh) : (freshTx ch s).mem = s.mem := by unfold freshTx; split <;> rfl
@[simp] theorem freshTx_noMem (ch : TxCh) : (freshTx ch s).noMem = s.noMem := by unfold freshTx; split <;> rfl
@[simp] theorem freshTx_params (ch : TxCh) : (freshTx ch s).params = s.params := by unfold freshTx; split <;> rfl
@[simp] theorem freshTx_script (ch : TxCh) : (freshTx ch s).script = s.script := by unfold freshTx; split <;> rfl
@[simp] theorem freshTx_openEnv (ch : TxCh) : (freshTx ch s).openEnv = s.openEnv := by unfold freshTx; split <;> rfl

theorem freshRx_of_reference (ch : RxCh) {s : State} (h : s.openEnv = false) : freshRx ch s = s := by simp [freshRx, h]
@[simp] theorem freshRx_txCtx (ch : RxCh) : (freshRx ch s).txCtx = s.txCtx := by unfold freshRx; split <;> rfl
@[simp] theorem freshRx_rxCtx (ch : RxCh) : (freshRx ch s).rxCtx = s.rxCtx := by unfold freshRx; split <;> rfl
@[simp] theorem freshRx_stg (ch : RxCh) : (freshRx ch s).stg = s.stg := by unfold freshRx; split <;> rfl
@[simp] theorem freshRx_ringData (ch : RxCh) : (freshRx ch s).ringData = s.ringData := by unfold freshRx; split <;> rfl
@[simp] theorem freshRx_ringRead (ch : RxCh) : (freshRx ch s).ringRead = s.ringRead := by unfold freshRx; split <;> rfl
@[simp] theorem freshRx_ringWrite (ch : RxCh) : (freshRx ch s).ringWrite = s.ringWrite := by unfold freshRx; split <;> rfl
@[simp] theorem freshRx_firstTxcDiscard (ch : RxCh) : (freshRx ch s).firstTxcDiscard = s.firstTxcDiscard := by unfold freshRx; split <;> rfl
@[simp] theorem freshRx_inHandler (ch : RxCh) : (freshRx ch s).inHandler = s.inHandler := by unfold freshRx; split <;> rfl
@[simp] theorem freshRx_latched (ch : RxCh) : (freshRx ch s).latched = s.latched := by unfold freshRx; split <;> rfl
@[simp] theorem freshRx_slot (ch : RxCh) : (freshRx ch s).slot = s.slot := by unfold freshRx; split <;> rfl
@[simp] theorem freshRx_fatal (ch : RxCh) : (freshRx ch s).fatal = s.fatal := by unfold freshRx; split <;> rfl
@[simp] theorem freshRx_fatalCause (ch : RxCh) : (freshRx ch s).fatalCause = s.fatalCause := by unfold freshRx; split <;> rfl
@[simp] theorem freshRx_fatalInfo (ch : RxCh) : (freshRx ch s).fatalInfo = s.fatalInfo := by unfold freshRx; split <;> rfl
@[simp] theorem freshRx_cmd (ch : RxCh) : (freshRx ch s).cmd = s.cmd := by unfold freshRx; split <;> rfl
@[simp] theorem freshRx_intEn (ch : RxCh) : (freshRx ch s).intEn = s.intEn := by unfold freshRx; split <;> rfl
@[simp] theorem freshRx_irqGate (ch : RxCh) : (freshRx ch s).irqGate = s.irqGate := by unfold freshRx; split <;> rfl
@[simp] theorem freshRx_ctl (ch : RxCh) : (freshRx ch s).ctl = s.ctl := by unfold freshRx; split <;> rfl
@[simp] theorem freshRx_diagCtl (ch : RxCh) : (freshRx ch s).diagCtl = s.diagCtl := by unfold freshRx; split <;> rfl
@[simp] theorem freshRx_diagStat (ch : RxCh) : (freshRx ch s).diagStat = s.diagStat := by unfold freshRx; split <;> rfl
@[simp] theorem freshRx_pend (ch : RxCh) : (freshRx ch s).pend = s.pend := by unfold freshRx; split <;> rfl
@[simp] theorem freshRx_txq (ch : RxCh) : (freshRx ch s).txq = s.txq := by unfold freshRx; split <;> rfl
@[simp] theorem freshRx_setupLeft (ch : RxCh) : (freshRx ch s).setupLeft = s.setupLeft := by unfold freshRx; split <;> rfl
@[simp] theorem freshRx_diagHold (ch : RxCh) : (freshRx ch s).diagHold = s.diagHold := by unfold freshRx; split <;> rfl
@[simp] theorem freshRx_spuriousArmed (ch : RxCh) : (freshRx ch s).spuriousArmed = s.spuriousArmed := by unfold freshRx; split <;> rfl
@[simp] theorem freshRx_busy (ch : RxCh) : (freshRx ch s).busy = s.busy := by unfold freshRx; split <;> rfl
@[simp] theorem freshRx_lentTx (ch : RxCh) : (freshRx ch s).lentTx = s.lentTx := by unfold freshRx; split <;> rfl
@[simp] theorem freshRx_lentRx (ch : RxCh) : (freshRx ch s).lentRx = s.lentRx := by unfold freshRx; split <;> rfl
@[simp] theorem freshRx_events (ch : RxCh) : (freshRx ch s).events = s.events := by unfold freshRx; split <;> rfl
@[simp] theorem freshRx_responses (ch : RxCh) : (freshRx ch s).responses = s.responses := by unfold freshRx; split <;> rfl
@[simp] theorem freshRx_wireTx (ch : RxCh) : (freshRx ch s).wireTx = s.wireTx := by unfold freshRx; split <;> rfl
@[simp] theorem freshRx_wireDiag (ch : RxCh) : (freshRx ch s).wireDiag = s.wireDiag := by unfold freshRx; split <;> rfl
@[simp] theorem freshRx_mem (ch : RxCh) : (freshRx ch s).mem = s.mem := by unfold freshRx; split <;> rfl
@[simp] theorem freshRx_noMem (ch : RxCh) : (freshRx ch s).noMem = s.noMem := by unfold freshRx; split <;> rfl
@[simp] theorem freshRx_params (ch : RxCh) : (freshRx ch s).params = s.params := by unfold freshRx; split <;> rfl
@[simp] theorem freshRx_script (ch : RxCh) : (freshRx ch s).script = s.script := by unfold freshRx; split <;> rfl
@[simp] theorem freshRx_openEnv (ch : RxCh) : (freshRx ch s).openEnv = s.openEnv := by unfold freshRx; split <;> rfl

theorem freshSetup_of_reference {s : State} (h : s.openEnv = false) : freshSetup s = s := by simp [freshSetup, h]
@[simp] theorem freshSetup_txCtx : (freshSetup s).txCtx = s.txCtx := by unfold freshSetup; split <;> rfl
@[simp] theorem freshSetup_rxCtx : (freshSetup s).rxCtx = s.rxCtx := by unfold freshSetup; split <;> rfl
@[simp] theorem freshSetup_stg : (freshSetup s).stg = s.stg := by unfold freshSetup; split <;> rfl
@[simp] theorem freshSetup_ringData : (freshSetup s).ringData = s.ringData := by unfold freshSetup; split <;> rfl
@[simp] theorem freshSetup_ringRead : (freshSetup s).ringRead = s.ringRead := by unfold freshSetup; split <;> rfl
@[simp] theorem freshSetup_ringWrite : (freshSetup s).ringWrite = s.ringWrite := by unfold freshSetup; split <;> rfl
@[simp] theorem freshSetup_firstTxcDiscard : (freshSetup s).firstTxcDiscard = s.firstTxcDiscard := by unfold freshSetup; split <;> rfl
@[simp] theorem freshSetup_inHandler : (freshSetup s).inHandler = s.inHandler := by unfold freshSetup; split <;> rfl
@[simp] theorem freshSetup_latched : (freshSetup s).latched = s.latched := by unfold freshSetup; split <;> rfl
@[simp] theorem freshSetup_slot : (freshSetup s).slot = s.slot := by unfold freshSetup; split <;> rfl
@[simp] theorem freshSetup_fatal : (freshSetup s).fatal = s.fatal := by unfold freshSetup; split <;> rfl
@[simp] theorem freshSetup_fatalCause : (freshSetup s).fatalCause = s.fatalCause := by unfold freshSetup; split <;> rfl
@[simp] theorem freshSetup_fatalInfo : (freshSetup s).fatalInfo = s.fatalInfo := by unfold freshSetup; split <;> rfl
@[simp] theorem freshSetup_cmd : (freshSetup s).cmd = s.cmd := by unfold freshSetup; split <;> rfl
@[simp] theorem freshSetup_intEn : (freshSetup s).intEn = s.intEn := by unfold freshSetup; split <;> rfl
@[simp] theorem freshSetup_irqGate : (freshSetup s).irqGate = s.irqGate := by unfold freshSetup; split <;> rfl
@[simp] theorem freshSetup_ctl : (freshSetup s).ctl = s.ctl := by unfold freshSetup; split <;> rfl
@[simp] theorem freshSetup_diagCtl : (freshSetup s).diagCtl = s.diagCtl := by unfold freshSetup; split <;> rfl
@[simp] theorem freshSetup_diagStat : (freshSetup s).diagStat = s.diagStat := by unfold freshSetup; split <;> rfl
@[simp] theorem freshSetup_pend : (freshSetup s).pend = s.pend := by unfold freshSetup; split <;> rfl
@[simp] theorem freshSetup_txq : (freshSetup s).txq = s.txq := by unfold freshSetup; split <;> rfl
@[simp] theorem freshSetup_rxq : (freshSetup s).rxq = s.rxq := by unfold freshSetup; split <;> rfl
@[simp] theorem freshSetup_diagHold : (freshSetup s).diagHold = s.diagHold := by unfold freshSetup; split <;> rfl
@[simp] theorem freshSetup_spuriousArmed : (freshSetup s).spuriousArmed = s.spuriousArmed := by unfold freshSetup; split <;> rfl
@[simp] theorem freshSetup_busy : (freshSetup s).busy = s.busy := by unfold freshSetup; split <;> rfl
@[simp] theorem freshSetup_lentTx : (freshSetup s).lentTx = s.lentTx := by unfold freshSetup; split <;> rfl
@[simp] theorem freshSetup_lentRx : (freshSetup s).lentRx = s.lentRx := by unfold freshSetup; split <;> rfl
@[simp] theorem freshSetup_events : (freshSetup s).events = s.events := by unfold freshSetup; split <;> rfl
@[simp] theorem freshSetup_responses : (freshSetup s).responses = s.responses := by unfold freshSetup; split <;> rfl
@[simp] theorem freshSetup_wireTx : (freshSetup s).wireTx = s.wireTx := by unfold freshSetup; split <;> rfl
@[simp] theorem freshSetup_wireDiag : (freshSetup s).wireDiag = s.wireDiag := by unfold freshSetup; split <;> rfl
@[simp] theorem freshSetup_mem : (freshSetup s).mem = s.mem := by unfold freshSetup; split <;> rfl
@[simp] theorem freshSetup_noMem : (freshSetup s).noMem = s.noMem := by unfold freshSetup; split <;> rfl
@[simp] theorem freshSetup_params : (freshSetup s).params = s.params := by unfold freshSetup; split <;> rfl
@[simp] theorem freshSetup_script : (freshSetup s).script = s.script := by unfold freshSetup; split <;> rfl
@[simp] theorem freshSetup_openEnv : (freshSetup s).openEnv = s.openEnv := by unfold freshSetup; split <;> rfl

theorem freshReady_of_reference {s : State} (h : s.openEnv = false) : freshReady s = s := by simp [freshReady, h]
@[simp] theorem freshReady_txCtx : (freshReady s).txCtx = s.txCtx := by unfold freshReady; split <;> rfl
@[simp] theorem freshReady_rxCtx : (freshReady s).rxCtx = s.rxCtx := by unfold freshReady; split <;> rfl
@[simp] theorem freshReady_stg : (freshReady s).stg = s.stg := by unfold freshReady; split <;> rfl
@[simp] theorem freshReady_ringData : (freshReady s).ringData = s.ringData := by unfold freshReady; split <;> rfl
@[simp] theorem freshReady_ringRead : (freshReady s).ringRead = s.ringRead := by unfold freshReady; split <;> rfl
@[simp] theorem freshReady_ringWrite : (freshReady s).ringWrite = s.ringWrite := by unfold freshReady; split <;> rfl
@[simp] theorem freshReady_firstTxcDiscard : (freshReady s).firstTxcDiscard = s.firstTxcDiscard := by unfold freshReady; split <;> rfl
@[simp] theorem freshReady_inHandler : (freshReady s).inHandler = s.inHandler := by unfold freshReady; split <;> rfl
@[simp] theorem freshReady_latched : (freshReady s).latched = s.latched := by unfold freshReady; split <;> rfl
@[simp] theorem freshReady_slot : (freshReady s).slot = s.slot := by unfold freshReady; split <;> rfl
@[simp] theorem freshReady_fatal : (freshReady s).fatal = s.fatal := by unfold freshReady; split <;> rfl
@[simp] theorem freshReady_fatalCause : (freshReady s).fatalCause = s.fatalCause := by unfold freshReady; split <;> rfl
@[simp] theorem freshReady_fatalInfo : (freshReady s).fatalInfo = s.fatalInfo := by unfold freshReady; split <;> rfl
@[simp] theorem freshReady_cmd : (freshReady s).cmd = s.cmd := by unfold freshReady; split <;> rfl
@[simp] theorem freshReady_intEn : (freshReady s).intEn = s.intEn := by unfold freshReady; split <;> rfl
@[simp] theorem freshReady_irqGate : (freshReady s).irqGate = s.irqGate := by unfold freshReady; split <;> rfl
@[simp] theorem freshReady_ctl : (freshReady s).ctl = s.ctl := by unfold freshReady; split <;> rfl
@[simp] theorem freshReady_diagCtl : (freshReady s).diagCtl = s.diagCtl := by unfold freshReady; split <;> rfl
@[simp] theorem freshReady_pend : (freshReady s).pend = s.pend := by unfold freshReady; split <;> rfl
@[simp] theorem freshReady_txq : (freshReady s).txq = s.txq := by unfold freshReady; split <;> rfl
@[simp] theorem freshReady_rxq : (freshReady s).rxq = s.rxq := by unfold freshReady; split <;> rfl
@[simp] theorem freshReady_setupLeft : (freshReady s).setupLeft = s.setupLeft := by unfold freshReady; split <;> rfl
@[simp] theorem freshReady_diagHold : (freshReady s).diagHold = s.diagHold := by unfold freshReady; split <;> rfl
@[simp] theorem freshReady_spuriousArmed : (freshReady s).spuriousArmed = s.spuriousArmed := by unfold freshReady; split <;> rfl
@[simp] theorem freshReady_busy : (freshReady s).busy = s.busy := by unfold freshReady; split <;> rfl
@[simp] theorem freshReady_lentTx : (freshReady s).lentTx = s.lentTx := by unfold freshReady; split <;> rfl
@[simp] theorem freshReady_lentRx : (freshReady s).lentRx = s.lentRx := by unfold freshReady; split <;> rfl
@[simp] theorem freshReady_events : (freshReady s).events = s.events := by unfold freshReady; split <;> rfl
@[simp] theorem freshReady_responses : (freshReady s).responses = s.responses := by unfold freshReady; split <;> rfl
@[simp] theorem freshReady_wireTx : (freshReady s).wireTx = s.wireTx := by unfold freshReady; split <;> rfl
@[simp] theorem freshReady_wireDiag : (freshReady s).wireDiag = s.wireDiag := by unfold freshReady; split <;> rfl
@[simp] theorem freshReady_mem : (freshReady s).mem = s.mem := by unfold freshReady; split <;> rfl
@[simp] theorem freshReady_noMem : (freshReady s).noMem = s.noMem := by unfold freshReady; split <;> rfl
@[simp] theorem freshReady_params : (freshReady s).params = s.params := by unfold freshReady; split <;> rfl
@[simp] theorem freshReady_script : (freshReady s).script = s.script := by unfold freshReady; split <;> rfl
@[simp] theorem freshReady_openEnv : (freshReady s).openEnv = s.openEnv := by unfold freshReady; split <;> rfl

end Sys2Proof.Machine
end

