-- ==== Sys2Proof/Laws/Ops.lean ====
section
/-! SUPPORT. What each sequencing and context operation can do, said once: when it answers a next state, and which. -/

namespace Sys2Proof.Machine

/-! ## Sequencing -/

@[simp] theorem andThen_next (s : State) (k : State → Out) : andThen (.next s) k = k s := rfl
@[simp] theorem andThen_fault (f : Fault) (k : State → Out) : andThen (.fault f) k = .fault f := rfl
@[simp] theorem andThen_refused (r : Refusal) (k : State → Out) : andThen (.refused r) k = .refused r := rfl

theorem andThen_eq_next {o : Out} {k : State → Out} {t : State} :
    andThen o k = .next t ↔ ∃ s, o = .next s ∧ k s = .next t := by
  cases o <;> simp [andThen]

theorem andThen_assoc (o : Out) (j k : State → Out) : andThen (andThen o j) k = andThen o fun s => andThen (j s) k := by
  cases o <;> rfl

/-! ## Contexts -/

theorem acceptsCommand_iff (s : State) :
    acceptsCommand s = true ↔ s.fatal = false ∧ s.inHandler = false ∧ s.cmd = none := by
  simp [acceptsCommand, and_assoc]

theorem asCommand_of_accepts {s : State} (h : acceptsCommand s = true) (k : State → Out) : asCommand s k = k s := by
  simp only [acceptsCommand_iff] at h
  simp [asCommand, h]

theorem asCommand_eq_next {s t : State} {k : State → Out} :
    asCommand s k = .next t ↔ acceptsCommand s = true ∧ k s = .next t := by
  constructor
  · intro h
    simp only [asCommand] at h
    split at h; · cases h
    split at h; · cases h
    split at h; · cases h
    simp_all [acceptsCommand_iff]
  · rintro ⟨h, hk⟩
    rw [asCommand_of_accepts h, hk]

theorem unlessFatal_of_running {s : State} (h : s.fatal = false) (k : State → Out) : unlessFatal s k = k s := by
  simp [unlessFatal, h]

theorem unlessFatal_eq_next {s t : State} {k : State → Out} :
    unlessFatal s k = .next t ↔ s.fatal = false ∧ k s = .next t := by
  cases h : s.fatal <;> simp [unlessFatal, h]

/-! ## Buffer memory -/

theorem withMemory_eq_next {s t : State} {a n : Nat} {k : State → Out} :
    withMemory s a n k = .next t ↔ firstHole s.params s.noMem a n = none ∧ k s = .next t := by
  simp only [withMemory]
  split <;> simp_all

theorem withMemory_of_present {s : State} {a n : Nat}
    (h : ∀ i < n, hasMemory s.params s.noMem (a + i) = true) (k : State → Out) : withMemory s a n k = k s := by
  simp only [withMemory, firstHole_none_iff.mpr h]

/-! ## The request line -/

theorem irqEnabled_iff (s : State) :
    irqEnabled s = true ↔ s.fatal = false ∧ s.inHandler = false ∧ fieldSet s.irqGate gateBit = true
      ∧ fieldSet s.intEn gieBit = true ∧ intSrc s ≠ 0 := by
  simp [irqEnabled, and_assoc]

/-! ## The reads of the open environment

What each draw can do: it sets the one element it reads, within its bounds, and the counter of draws. -/

theorem freshTx_spec (ch : TxCh) (s : State) :
    ∃ q d, freshTx ch s = { s with txq := s.txq.set ch q, draws := d }
      ∧ (q = s.txq.get ch ∨ q.length ≤ s.params.txDepth ch) := by
  unfold freshTx
  split
  · exact ⟨_, _, rfl, .inr (List.length_take_le _ _)⟩
  · exact ⟨s.txq.get ch, s.draws, by simp, .inl rfl⟩

theorem freshRx_spec (ch : RxCh) (s : State) :
    ∃ q d, freshRx ch s = { s with rxq := s.rxq.set ch q, draws := d }
      ∧ (q = s.rxq.get ch ∨ q.length ≤ s.params.rxDepth ch) := by
  unfold freshRx
  split
  · exact ⟨_, _, rfl, .inr (List.length_take_le _ _)⟩
  · exact ⟨s.rxq.get ch, s.draws, by simp, .inl rfl⟩

/-- A draw reaches the FIFO of its own channel only. -/
@[simp] theorem freshTx_txq_set (ch : TxCh) (s : State) (q : List Byte) :
    (freshTx ch s).txq.set ch q = s.txq.set ch q := by
  unfold freshTx
  split <;> simp

@[simp] theorem freshRx_rxq_set (ch : RxCh) (s : State) (q : List Byte) :
    (freshRx ch s).rxq.set ch q = s.rxq.set ch q := by
  unfold freshRx
  split <;> simp

theorem freshSetup_spec (s : State) :
    ∃ n d, freshSetup s = { s with setupLeft := n, draws := d } ∧ (n = s.setupLeft ∨ n ≤ Config.setupLen) := by
  unfold freshSetup
  split
  · exact ⟨_, _, rfl, .inr (by split <;> simp)⟩
  · exact ⟨s.setupLeft, s.draws, rfl, .inl rfl⟩

theorem freshReady_spec (s : State) :
    ∃ v d, freshReady s = { s with diagStat := v, draws := d } ∧ v &&& 0xFE = s.diagStat &&& 0xFE
      ∧ (s.openEnv = false → v = s.diagStat) := by
  have hstat : ∀ (r : Byte) (b : Bool), setField r readyBit b &&& 0xFE = r &&& 0xFE := by decide +kernel
  unfold freshReady
  split
  · rename_i h
    exact ⟨_, _, rfl, hstat _ _, fun h' => absurd (h.symm.trans h') (by decide)⟩
  · exact ⟨s.diagStat, s.draws, rfl, rfl, fun _ => rfl⟩

/-! ## FIFO[Control] reads -/

/-- `n` reads of FIFO[Control] take the first `n` bytes, free values standing for those the FIFO lacks; they count the
SETUP counter down and change nothing else (20_memory.md R67). -/
theorem readControl_spec (n : Nat) (s : State) :
    (readControl n s).1.length = n
      ∧ (readControl n s).1.take s.rxq.control.length = s.rxq.control.take n
      ∧ (readControl n s).2 =
        { s with
          rxq := { s.rxq with control := s.rxq.control.drop n }
          setupLeft := s.setupLeft - n
          draws := s.draws + (n - s.rxq.control.length) } := by
  induction n generalizing s with
  | zero => simp [readControl]
  | succ n ih =>
    simp only [readControl, fifoReadControl]
    cases hq : s.rxq.control with
    | nil =>
      obtain ⟨h1, h2, h3⟩ := ih { s with draws := s.draws + 1, setupLeft := s.setupLeft - 1 }
      simp only [hq] at h2 h3
      refine ⟨by simp [h1], by simp, ?_⟩
      rw [h3]
      simp [Nat.sub_sub, Nat.add_assoc, Nat.add_comm 1 n]
    | cons b bs =>
      obtain ⟨h1, h2, h3⟩ := ih { s with rxq := { s.rxq with control := bs }, setupLeft := s.setupLeft - 1 }
      simp only at h2 h3
      refine ⟨by simp [h1], by simpa using h2, ?_⟩
      rw [h3]
      simp [Nat.sub_sub, Nat.add_comm 1 n]

end Sys2Proof.Machine
end

