-- ==== Sys2Proof/Laws/Transfer.lean ====
section
/-! SUPPORT. The loops of the endpoint transfers in closed form, and what FILL_FLUSH, STAGE and the drain of RXC_DATA
leave (40_endpoint_transfer.md). -/

namespace Sys2Proof.Machine

/-! ## Register fields -/

@[simp] theorem setField_true (r mask : Byte) : setField r mask true = r ||| mask := rfl
@[simp] theorem setField_false (r mask : Byte) : setField r mask false = r &&& ~~~mask := rfl

/-- A source masked and unmasked is enabled, whatever it was; the other enable bits stay (20_memory.md R72). -/
theorem unmask_mask (r mask : Byte) : setField (setField r mask false) mask true = r ||| mask := by
  ext i
  simp only [setField_true, setField_false, BitVec.getElem_or, BitVec.getElem_and, BitVec.getElem_not]
  cases r[i] <;> cases mask[i] <;> rfl

/-- Writing a field again leaves the last value. -/
theorem setField_setField (r mask : Byte) (v w : Bool) : setField (setField r mask v) mask w = setField r mask w := by
  ext i
  cases v <;> cases w <;>
    simp only [setField_true, setField_false, BitVec.getElem_or, BitVec.getElem_and, BitVec.getElem_not] <;>
    cases r[i] <;> cases mask[i] <;> rfl

/-! ## Contexts -/

/-- A submission records a context whose counters are conserved (R13). -/
theorem newCtx_conserved (p : Params) (buf len : Nat) :
    (newCtx p buf len).completed + (newCtx p buf len).remaining = (newCtx p buf len).total
      ∧ (newCtx p buf len).total < 2 ^ p.lenW ∧ (newCtx p buf len).buffer < 2 ^ p.addrW :=
  ⟨Nat.zero_add _, len_lt p len, addr_lt p buf⟩

/-! ## FILL_FLUSH -/

/-- The fill loop takes `min(room, bytes_remaining)` bytes from the cursor on, in address order (R121). -/
theorem fillLoop_pushed (p : Params) (m : Memory) (room : Nat) (c : Ctx) :
    (fillLoop p m room c).pushed = readBytes p m c.buffer (min room c.remaining) := by
  induction room generalizing c with
  | zero => simp [fillLoop, readBytes]
  | succ room ih =>
    simp only [fillLoop]
    split
    · rename_i h; simp [h, readBytes]
    · rename_i h
      have hk : min (room + 1) c.remaining = min room (c.remaining - 1) + 1 := by omega
      rw [hk, readBytes]
      simp only [ih, advance1, readBytes_addr]

/-- What the fill loop leaves in a context within its widths, whose counters are conserved: the cursor and the counters moved
by the number of bytes taken, with no overflow (R13, R121). -/
theorem fillLoop_ctx {p : Params} (m : Memory) (room : Nat) {c : Ctx} (hc : c.completed + c.remaining < 2 ^ p.lenW)
    (hb : c.buffer < 2 ^ p.addrW) :
    (fillLoop p m room c).ctx =
      { buffer := p.addr (c.buffer + min room c.remaining)
        total := c.total
        completed := c.completed + min room c.remaining
        remaining := c.remaining - min room c.remaining } := by
  induction room generalizing c with
  | zero => simp [fillLoop, addr_of_lt hb]
  | succ room ih =>
    simp only [fillLoop]
    split
    · rename_i h
      obtain ⟨b, n, d, e⟩ := c
      simp only at h
      subst h
      simp [addr_of_lt hb]
    · rename_i h
      have hk : min (room + 1) c.remaining = min room (c.remaining - 1) + 1 := by omega
      have hd : p.len (c.completed + 1) = c.completed + 1 := len_of_lt (by omega)
      simp only [hk]
      rw [ih]
      · simp only [advance1, hd, addr_addr_add, Ctx.mk.injEq]
        exact ⟨congrArg p.addr (by omega), trivial, by omega, by omega⟩
      · simp only [advance1, hd]; omega
      · exact addr_lt p _

/-- The number of bytes a fill moves is the room left, or what remains if that is less (R121). -/
theorem runFill_pushed (ch : TxCh) (s : State) :
    (runFill ch s).pushed =
      readBytes s.params s.mem (s.txCtx.get ch).buffer (min (txRoom ch s) (s.txCtx.get ch).remaining) :=
  fillLoop_pushed _ _ _ _

/-- The context after a fill, where the counters of the one before are conserved (R13, R121). -/
theorem runFill_ctx {ch : TxCh} {s : State} {c : Ctx} (hc : s.txCtx.get ch = c) (hsum : c.completed + c.remaining = c.total)
    (htotal : c.total < 2 ^ s.params.lenW) (hb : c.buffer < 2 ^ s.params.addrW) :
    (runFill ch s).ctx =
      { buffer := s.params.addr (c.buffer + min (txRoom ch s) c.remaining)
        total := c.total
        completed := c.completed + min (txRoom ch s) c.remaining
        remaining := c.remaining - min (txRoom ch s) c.remaining } := by
  subst hc
  exact fillLoop_ctx _ _ (by omega) hb

/-- FILL_FLUSH fills `k = min(bytes_remaining, room)` bytes, which all need memory behind them (R121, R135). -/
theorem fillFrom_eq_next {ch : TxCh} {s t : State} :
    fillFrom ch s = .next t ↔
      firstHole s.params s.noMem (s.txCtx.get ch).buffer (runFill ch s).pushed.length = none
        ∧ t = finishFill ch (runFill ch s) s := by
  simp only [fillFrom, withMemory_eq_next, Host.Outcome.next.injEq, eq_comm (a := t)]

/-- What a submission writes before its fill does not bear on what TXFULL answers. -/
theorem freshTx_recordSend (ch : TxCh) (buf len : Nat) (s : State) :
    freshTx ch (recordSend ch buf len (maskSource (txSource ch) (sendMode ch s)))
      = recordSend ch buf len (maskSource (txSource ch) (sendMode ch (freshTx ch s))) := by
  by_cases h : s.openEnv = true
  · simp [freshTx, recordSend, maskSource, sendMode, setCtl, h]
  · simp [freshTx, recordSend, maskSource, sendMode, setCtl, h]

/-- What FILL_FLUSH writes: the context and FIFO of its channel, and FORCE_TX when the transfer ends short (R122). -/
theorem finishFill_eq (ch : TxCh) (f : Fill) (s : State) :
    finishFill ch f s =
      { s with
        txCtx := s.txCtx.set ch f.ctx
        txq := s.txq.set ch (s.txq.get ch ++ f.pushed)
        ctl := s.ctl.set (txChannel ch)
          (setField (s.ctl.get (txChannel ch)) forceTxBit
            (fieldSet (s.ctl.get (txChannel ch)) forceTxBit
              || (f.ctx.remaining = 0 ∧ f.pushed.length < Config.mps ch))) } := by
  have hself : ∀ r : Byte, setField r forceTxBit (fieldSet r forceTxBit) = r := by decide +kernel
  simp only [finishFill]
  by_cases h : f.ctx.remaining = 0 ∧ f.pushed.length < Config.mps ch
  · rw [if_pos h]
    simp [setCtl, h]
  · rw [if_neg h]
    rw [decide_eq_false h, Bool.or_false, hself, perCh_set_get]

/-! ## Rx-complete -/

/-- The drain loop moves `k = min(total_requested, bytes in the FIFO)` bytes to the cursor, in order (R129). -/
theorem drainLoop_eq (p : Params) (n : Nat) (d : Drain) :
    (drainLoop p n d).count = d.count + min n d.fifo.length
      ∧ (drainLoop p n d).fifo = d.fifo.drop n
      ∧ (drainLoop p n d).mem = writeBytes p d.mem d.ctx.buffer (d.fifo.take n) := by
  induction n generalizing d with
  | zero => simp [drainLoop, writeBytes]
  | succ n ih =>
    simp only [drainLoop]
    cases hf : d.fifo with
    | nil => simp [hf, writeBytes]
    | cons b bs =>
      obtain ⟨h1, h2, h3⟩ := ih
        { ctx := advance1 p d.ctx, fifo := bs, mem := memWrite p d.mem d.ctx.buffer b, count := d.count + 1 }
      refine ⟨?_, by simpa using h2, by simpa [writeBytes, advance1] using h3⟩
      rw [h1]
      simp only [List.length_cons]
      omega

/-- STAGE keeps what fits behind what was staged and drops the rest (R130). -/
theorem stageLoop_eq {cap : Nat} (fifo : List Byte) {staged : List Byte} (h : staged.length ≤ cap) :
    stageLoop cap fifo staged = (staged ++ fifo).take cap := by
  induction fifo generalizing staged with
  | nil => simp [stageLoop, h]
  | cons b fifo ih =>
    simp only [stageLoop]
    split
    · rename_i hlt
      rw [ih (by simp; omega)]
      simp
    · have : staged.length = cap := by omega
      rw [ih h, List.take_append_of_le_length (by omega), List.take_append_of_le_length (by omega)]

/-- A staging buffer that is full, or over-full, takes nothing. -/
theorem stageLoop_full {cap : Nat} (fifo : List Byte) {staged : List Byte} (h : cap ≤ staged.length) :
    stageLoop cap fifo staged = staged := by
  induction fifo with
  | nil => rfl
  | cons b fifo ih => simp only [stageLoop, if_neg (Nat.not_lt.mpr h), ih]

/-- The bytes the pending branch of RXC_DATA moves. -/
def drained (ch : RxCh) (s : State) : Nat := min (s.rxCtx.get ch).total (s.rxq.get ch).length

/-- The drain of RXC_DATA moves `drained` bytes (R129). -/
theorem runDrain_count (ch : RxCh) (s : State) : (runDrain ch s).count = drained ch s := by
  simp [runDrain, drainLoop_eq, drained]

theorem runDrain_fifo (ch : RxCh) (s : State) :
    (runDrain ch s).fifo = (s.rxq.get ch).drop (s.rxCtx.get ch).total := by
  simp [runDrain, drainLoop_eq]

theorem runDrain_mem (ch : RxCh) (s : State) :
    (runDrain ch s).mem =
      writeBytes s.params s.mem (s.rxCtx.get ch).buffer ((s.rxq.get ch).take (s.rxCtx.get ch).total) := by
  simp [runDrain, drainLoop_eq]

/-- The pending branch: `drained` bytes go to the buffer, which need memory behind them (R129). -/
theorem drainPending_eq_next {ch : RxCh} {s t : State} :
    drainPending ch s = .next t ↔
      firstHole s.params s.noMem (s.rxCtx.get ch).buffer (drained ch s) = none
        ∧ t = emitComplete (epaRx s.params ch) (drained ch s) true
            { s with
              rxCtx := s.rxCtx.set ch RecvCtx.empty
              lentRx := s.lentRx.set ch []
              rxq := s.rxq.set ch ((s.rxq.get ch).drop (s.rxCtx.get ch).total)
              mem := writeBytes s.params s.mem (s.rxCtx.get ch).buffer ((s.rxq.get ch).take (s.rxCtx.get ch).total) } := by
  simp only [drainPending, withMemory_eq_next, runDrain_count, runDrain_fifo, runDrain_mem, Host.Outcome.next.injEq,
    eq_comm (a := t)]

/-- When RXC_DATA answers a next state, it took one of its three branches (R129): `e` is the state as RXEMPTY is first
read. -/
theorem rxcData_cases {ch : RxCh} {s t e : State} (he : e = freshRx ch s) (h : rxcData ch s = .next t) :
    ((s.rxCtx.get ch).pending = true ∧ drainPending ch e = .next t)
      ∨ ((s.rxCtx.get ch).pending = false ∧ e.rxq.get ch = [] ∧ t = emitComplete (epaRx s.params ch) 0 true e)
      ∨ ((s.rxCtx.get ch).pending = false ∧ e.rxq.get ch ≠ [] ∧ t = stage ch (freshRx ch e)) := by
  subst he
  simp only [rxcData] at h
  split at h
  · rename_i hp
    exact .inl ⟨hp, h⟩
  · rename_i hp
    split at h
    · rename_i he
      exact .inr (.inl ⟨by simpa using hp, by simpa [rxEmpty] using he, by simpa using h.symm⟩)
    · rename_i he
      exact .inr (.inr ⟨by simpa using hp, by simpa [rxEmpty] using he, by simpa using h.symm⟩)

/-! ## The submissions -/

/-- When SUBMIT_SEND answers a next state, the direction was free and the first fill had memory behind it (R123). -/
theorem submitSend_cases {ch : TxCh} {buf len : Nat} {s t : State} (h : submitSend ch buf len s = .next t) :
    s.busy.get ch = false
      ∧ ∃ u, fillFrom ch (recordSend ch buf len (maskSource (txSource ch) (sendMode ch (freshTx ch s)))) = .next u
        ∧ t = unmaskSource (txSource ch) u := by
  simp only [submitSend, fillFlush, freshTx_recordSend] at h
  split at h
  · cases h
  · rename_i hb
    obtain ⟨u, hu, ht⟩ := andThen_eq_next.mp h
    exact ⟨by simpa using hb, u, hu, by simpa using ht.symm⟩

/-- When SUBMIT_RECV answers a next state, it either delivered staged bytes or recorded the request (R126). -/
theorem submitRecv_cases {ch : RxCh} {buf len : Nat} {s t : State} (h : submitRecv ch buf len s = .next t) :
    (s.stg.get ch ≠ [] ∧ ∃ u, takeStaged ch buf len (maskSource (rxSource ch) s) = .next u
        ∧ t = unmaskSource (rxSource ch) u)
      ∨ (s.stg.get ch = [] ∧ ∃ u, recordRecv ch buf len (maskSource (rxSource ch) s) = .next u
        ∧ t = unmaskSource (rxSource ch) u) := by
  simp only [submitRecv] at h
  obtain ⟨u, hu, ht⟩ := andThen_eq_next.mp h
  have ht : t = unmaskSource (rxSource ch) u := by simpa using ht.symm
  by_cases hs : s.stg.get ch = []
  · exact .inr ⟨hs, u, by simpa [recvBranch, hasStaged, hs] using hu, ht⟩
  · exact .inl ⟨hs, u, by simpa [recvBranch, hasStaged, hs] using hu, ht⟩

/-- Copying staged bytes: `min(staged, max_length)` of them, staging emptied, one completion (R126 step 3a). -/
theorem takeStaged_eq_next {ch : RxCh} {buf len : Nat} {s t : State} :
    takeStaged ch buf len s = .next t ↔
      firstHole s.params s.noMem buf (min (s.params.len len) (s.stg.get ch).length) = none
        ∧ t = emitComplete (epaRx s.params ch) (min (s.params.len len) (s.stg.get ch).length) false
            { s with mem := writeBytes s.params s.mem buf ((s.stg.get ch).take (s.params.len len)), stg := s.stg.set ch [] } := by
  simp only [takeStaged, withMemory_eq_next, List.length_take, Host.Outcome.next.injEq, eq_comm (a := t)]

/-- Recording a request: none may be pending; receive mode is armed (R126 step 3b). -/
theorem recordRecv_eq_next {ch : RxCh} {buf len : Nat} {s t : State} :
    recordRecv ch buf len s = .next t ↔
      (s.rxCtx.get ch).pending = false
        ∧ t = { setCtl (rxChannel ch) rxmodeBit true s with
          rxCtx := s.rxCtx.set ch { newCtx s.params buf len with pending := true }
          lentRx := s.lentRx.set ch
            (s.lentRx.get ch ++ [{ base := s.params.addr buf, size := s.params.len len, written := true }]) } := by
  simp only [recordRecv]
  split
  · rename_i hp
    simp [hp]
  · rename_i hp
    rw [Bool.not_eq_true] at hp
    simp only [Host.Outcome.next.injEq, hp, true_and, eq_comm (a := t)]
    rfl

end Sys2Proof.Machine
end

