-- ==== Sys2Proof/Laws/Ring.lean ====
section
/-! SUPPORT. The diagnostic ring as a queue: what ENQUEUE and DRAIN_ONE do to the bytes it holds (41_diag_ring.md). -/

namespace Sys2Proof.Machine

/-! ## Reading and writing one place -/

@[simp] theorem ringGet_ringSet (v : Vector Byte 128) (i : RingIx) (b : Byte) : ringGet (ringSet v i b) i = b := by
  simp [ringGet, ringSet]

theorem ringGet_ringSet_other (v : Vector Byte 128) {i j : RingIx} (b : Byte) (h : j ≠ i) :
    ringGet (ringSet v i b) j = ringGet v j := by
  have hne : i.toNat ≠ j.toNat := fun e => h (BitVec.eq_of_toNat_eq e.symm)
  simp [ringGet, ringSet, hne]

@[simp] theorem ringFrom_length (v : Vector Byte 128) (i : RingIx) (n : Nat) : (ringFrom v i n).length = n := by
  induction n generalizing i with
  | zero => rfl
  | succ n ih => simp [ringFrom, ih]

/-- An index that goes up by one and then by `k` has gone up by `k + 1` (00_scope.md R12). -/
theorem add_one_ofNat (i : RingIx) (k : Nat) : i + 1 + BitVec.ofNat 7 k = i + BitVec.ofNat 7 (k + 1) := by
  rw [BitVec.add_assoc, Nat.add_comm k 1, BitVec.ofNat_add]
  rfl

/-- The bytes from an index on, extended by one at the far end. -/
theorem ringFrom_snoc (v : Vector Byte 128) (i : RingIx) (n : Nat) :
    ringFrom v i (n + 1) = ringFrom v i n ++ [ringGet v (i + BitVec.ofNat 7 n)] := by
  induction n generalizing i with
  | zero => simp [ringFrom]
  | succ n ih =>
    rw [ringFrom, ih, ringFrom, List.cons_append, add_one_ofNat]

/-- A place outside the bytes read does not matter to them. -/
theorem ringFrom_ringSet (v : Vector Byte 128) {i w : RingIx} (b : Byte) {n : Nat} (h : n ≤ (w - i).toNat) :
    ringFrom (ringSet v w b) i n = ringFrom v i n := by
  induction n generalizing i with
  | zero => rfl
  | succ n ih =>
    have hne : i ≠ w := by
      rintro rfl
      simp at h
    have hstep : n ≤ (w - (i + 1)).toNat := by bv_omega
    rw [ringFrom, ringFrom, ih hstep, ringGet_ringSet_other v b hne]

/-! ## How much the ring holds -/

theorem ringHeld_lt (s : State) : ringHeld s < 128 := (s.ringWrite - s.ringRead).isLt

@[simp] theorem ringBytes_length (s : State) : (ringBytes s).length = ringHeld s := by simp [ringBytes]

/-- The full test of ENQUEUE: 127 bytes are held (R162). -/
theorem ring_full_iff (s : State) : s.ringWrite + 1 = s.ringRead ↔ ringHeld s = 127 := by
  unfold ringHeld
  constructor
  · intro h; rw [← h]; bv_omega
  · intro h; bv_omega

/-- The ring is empty exactly when the indices meet (10_state.md R28). -/
theorem ring_empty_iff (s : State) : s.ringRead = s.ringWrite ↔ ringHeld s = 0 := by
  unfold ringHeld
  constructor
  · intro h; simp [h]
  · intro h; bv_omega

/-! ## ENQUEUE and DRAIN_ONE -/

/-- The store half of ENQUEUE (R162). -/
def appendByte (b : Byte) (s : State) : State :=
  { s with ringData := ringSet s.ringData s.ringWrite b, ringWrite := s.ringWrite + 1 }

theorem appendByte_held {s : State} (b : Byte) (h : ringHeld s < 127) : ringHeld (appendByte b s) = ringHeld s + 1 := by
  unfold ringHeld at h ⊢
  simp only [appendByte]
  bv_omega

/-- Storing a byte in a ring that is not full puts it behind those held. -/
theorem appendByte_bytes {s : State} (b : Byte) (h : ringHeld s < 127) :
    ringBytes (appendByte b s) = ringBytes s ++ [b] := by
  rw [ringBytes, appendByte_held b h]
  simp only [appendByte]
  rw [ringFrom_snoc, ringFrom_ringSet s.ringData b (by simp [ringHeld]), ringBytes]
  have : s.ringRead + BitVec.ofNat 7 (ringHeld s) = s.ringWrite := by
    rw [ringHeld, BitVec.ofNat_toNat, BitVec.setWidth_eq]
    bv_omega
  rw [this, ringGet_ringSet]

theorem drainIfReady_notReady {s : State} (h : diagReady s = false) : drainIfReady s = s := by
  simp [drainIfReady, h]

theorem drainIfReady_empty {s : State} (h : s.ringRead = s.ringWrite) : drainIfReady s = s := by
  simp [drainIfReady, h]

/-- A ready endpoint takes the oldest byte of a ring that holds some (R163). -/
theorem drainIfReady_ready {s : State} (hn : s.ringRead ≠ s.ringWrite) (hr : diagReady s = true) :
    drainIfReady s =
      { s with
        diagHold := ringGet s.ringData s.ringRead
        ringRead := s.ringRead + 1
        diagCtl := setField s.diagCtl sendBit true
        diagStat := setField s.diagStat readyBit false } := by
  simp only [drainIfReady, hn, hr, ne_eq, not_false_eq_true, and_self, if_true]

/-- The byte taken and those left are the bytes held, in order (R163, 10_state.md R28). -/
theorem drainIfReady_bytes {s : State} (hn : s.ringRead ≠ s.ringWrite) (hr : diagReady s = true) :
    (drainIfReady s).diagHold :: ringBytes (drainIfReady s) = ringBytes s := by
  have hpos : ringHeld s ≠ 0 := fun e => hn ((ring_empty_iff s).mpr e)
  have hheld : ringHeld (drainIfReady s) = ringHeld s - 1 := by
    rw [drainIfReady_ready hn hr]
    simp only [ringHeld] at hpos ⊢
    bv_omega
  rw [ringBytes, ringBytes, hheld]
  obtain ⟨n, hn'⟩ : ∃ n, ringHeld s = n + 1 := ⟨ringHeld s - 1, by omega⟩
  rw [hn', drainIfReady_ready hn hr]
  simp only [ringFrom, Nat.add_sub_cancel]

theorem drainOne_of_reference {s : State} (h : s.openEnv = false) : drainOne s = drainIfReady s := by
  rw [drainOne, freshReady_of_reference h]

/-- The ring, the enable bits and the endpoint's other registers do not bear on what READY answers. -/
theorem freshReady_appendByte (b : Byte) (s : State) : freshReady (appendByte b s) = appendByte b (freshReady s) := by
  by_cases h : s.openEnv = true <;> simp [freshReady, appendByte, drawnBit, h]

theorem freshReady_maskSource (src : Source) (s : State) :
    freshReady (maskSource src s) = maskSource src (freshReady s) := by
  by_cases h : s.openEnv = true <;> simp [freshReady, maskSource, drawnBit, h]

theorem enqueue_full {s : State} (b : Byte) (h : ringHeld s = 127) : enqueue b s = (false, s) := by
  simp only [enqueue, if_pos ((ring_full_iff s).mpr h)]

theorem enqueue_room {s : State} (b : Byte) (h : ringHeld s < 127) : enqueue b s = (true, drainOne (appendByte b s)) := by
  have : ¬ s.ringWrite + 1 = s.ringRead := fun e => by
    have := (ring_full_iff s).mp e
    omega
  simp only [enqueue, if_neg this, appendByte]

/-! ## The DIAG_PUT commands -/

/-- A byte put on a full ring: only the enable bit changes (R165). -/
theorem putByte_full {s : State} (b : Byte) (h : ringHeld s = 127) :
    putByte b s = (false, { s with intEn := s.intEn ||| 0x10 }) := by
  have hm : ringHeld (maskSource .diagTx s) = 127 := h
  simp only [putByte, enqueue_full b hm]
  simp only [unmaskSource, maskSource_intEn, unmask_mask]
  rfl

/-- A byte put on a ring with room is queued, and the oldest leaves at once if the endpoint then reads ready (R165). -/
theorem putByte_room {s : State} (b : Byte) (h : ringHeld s < 127) :
    putByte b s = (true, { drainIfReady (appendByte b (freshReady s)) with intEn := s.intEn ||| 0x10 }) := by
  have hm : ringHeld (maskSource .diagTx s) < 127 := h
  simp only [putByte, enqueue_room b hm, drainOne, freshReady_appendByte, freshReady_maskSource]
  simp only [Prod.mk.injEq, true_and, unmaskSource]
  by_cases hd : (appendByte b (freshReady s)).ringRead ≠ (appendByte b (freshReady s)).ringWrite
      ∧ diagReady (appendByte b (freshReady s)) = true
  · rw [drainIfReady_ready hd.1 hd.2, drainIfReady_ready (s := appendByte b (maskSource .diagTx (freshReady s))) hd.1 hd.2]
    simp only [appendByte, maskSource, freshReady_intEn, unmask_mask]
    rfl
  · have hd' : ¬((appendByte b (maskSource .diagTx (freshReady s))).ringRead
        ≠ (appendByte b (maskSource .diagTx (freshReady s))).ringWrite
        ∧ diagReady (appendByte b (maskSource .diagTx (freshReady s))) = true) := hd
    simp only [drainIfReady, if_neg hd, if_neg hd']
    simp only [appendByte, maskSource, freshReady_intEn, unmask_mask]
    rfl

/-- A byte put on a ring with room while the endpoint is not ready: it is queued, nothing leaves (R165). -/
theorem putByte_notReady {s : State} (b : Byte) (h : ringHeld s < 127) (he : s.openEnv = false)
    (hr : diagReady s = false) : putByte b s = (true, { appendByte b s with intEn := s.intEn ||| 0x10 }) := by
  rw [putByte_room b h, freshReady_of_reference he, drainIfReady_notReady (by exact hr)]

/-- A put changes the ring, the diagnostic endpoint and the enable bit of its source, and nothing else but the counter of
draws (R165). -/
theorem putByte_frame (b : Byte) (s : State) :
    ∃ (data : Vector Byte 128) (rd wr : RingIx) (hold dctl dstat : Byte) (draws : Nat),
      (putByte b s).2 =
        { s with
          ringData := data
          ringRead := rd
          ringWrite := wr
          diagHold := hold
          diagCtl := dctl
          diagStat := dstat
          draws := draws
          intEn := s.intEn ||| 0x10 }
      ∧ dctl &&& 0xFE = s.diagCtl &&& 0xFE ∧ dstat &&& 0xFE = s.diagStat &&& 0xFE
      ∧ (s.openEnv = false → draws = s.draws) := by
  have hctl : ∀ r : Byte, setField r sendBit true &&& 0xFE = r &&& 0xFE := by decide +kernel
  have hstat : ∀ r : Byte, setField r readyBit false &&& 0xFE = r &&& 0xFE := by decide +kernel
  rcases Nat.lt_or_ge (ringHeld s) 127 with h | h
  · rw [putByte_room b h]
    obtain ⟨v, d, he, hv, hd⟩ := freshReady_spec s
    have hdraws : s.openEnv = false → d = s.draws := fun h' => by
      rw [freshReady_of_reference h'] at he
      exact (congrArg State.draws he).symm
    rw [he, drainIfReady]
    split
    · exact ⟨_, _, _, _, _, _, _, rfl, hctl _, (hstat _).trans hv, hdraws⟩
    · exact ⟨_, _, _, _, _, _, _, rfl, rfl, hv, hdraws⟩
  · rw [putByte_full b (by have := ringHeld_lt s; omega)]
    exact ⟨_, _, _, _, _, _, _, rfl, rfl, rfl, fun _ => rfl⟩

end Sys2Proof.Machine
end

