-- ==== Sys2Proof/Laws/Command.lean ====
section
/-! SUPPORT. What every command has in common: it runs only where the block takes a command, and a decoded word is a
command (43_foreground_api.md R210, 30_encoding.md R90). -/

namespace Sys2Proof.Machine

/-- A command that answers a next state was taken: no FATAL, no handler, no other command (R210, R216). -/
theorem command_accepted {p : Params} {i : Instr} {w : Nat} {s t : State} (he : encode p i = .cmd w) (h : exec i s = .next t) :
    acceptsCommand s = true := by
  cases i
  case init => exact (asCommand_eq_next (k := fun s => .next (respond true (initSteps s))).mp h).1
  case connect => exact (asCommand_eq_next (k := fun s => .next (respond true s)).mp h).1
  case disconnect => exact (asCommand_eq_next (k := fun s => .next (respond true s)).mp h).1
  case setAddress => exact (asCommand_eq_next (k := fun s => .next (respond true s)).mp h).1
  case remoteWakeup => exact (asCommand_eq_next (k := fun s => .next (respond true s)).mp h).1
  case openEp => simp only [exec, execOpenEp, asCommand_eq_next] at h; exact h.1
  case closeEp => exact (asCommand_eq_next (k := fun s => .next (respond true s)).mp h).1
  case submitXfer => simp only [exec, execSubmitXfer, asCommand_eq_next] at h; exact h.1
  case sendCtrl => simp only [exec, execSendCtrl, asCommand_eq_next] at h; exact h.1
  case sendBulk => simp only [exec, execSendBulk, asCommand_eq_next] at h; exact h.1
  case recvCtrl => simp only [exec, execRecvCtrl, asCommand_eq_next] at h; exact h.1
  case recvBulk => simp only [exec, execRecvBulk, asCommand_eq_next] at h; exact h.1
  case stall => simp only [exec, execStall, asCommand_eq_next] at h; exact h.1
  case stallControl => simp only [exec, execStallControl, asCommand_eq_next] at h; exact h.1
  case stallBulkin => simp only [exec, execStallBulkin, asCommand_eq_next] at h; exact h.1
  case stallBulkout => simp only [exec, execStallBulkout, asCommand_eq_next] at h; exact h.1
  case clearStall => simp only [exec, execClearStall, asCommand_eq_next] at h; exact h.1
  case clearStallControl => simp only [exec, execClearStallControl, asCommand_eq_next] at h; exact h.1
  case clearStallBulkin => simp only [exec, execClearStallBulkin, asCommand_eq_next] at h; exact h.1
  case clearStallBulkout => simp only [exec, execClearStallBulkout, asCommand_eq_next] at h; exact h.1
  case diagInit => simp only [exec, execDiagInit, asCommand_eq_next] at h; exact h.1
  case diagPutb => simp only [exec, execDiagPutb, asCommand_eq_next] at h; exact h.1
  case diagPuts => simp only [exec, execDiagPuts, asCommand_eq_next] at h; exact h.1
  case diagPuthex8 => simp only [exec, execDiagPuthex8, asCommand_eq_next] at h; exact h.1
  case diagPut16 => simp only [exec, execDiagPut16, asCommand_eq_next] at h; exact h.1
  all_goals cases he

/-- A command word decodes to a command, never to a handler operation (R90). -/
theorem decoded_isCommand {p : Params} {w : Nat} {i : Instr} (h : decodeCmd p w = .ok i) : ∃ w', encode p i = .cmd w' := by
  rcases decodeCmd_cases h with h | h | h | h | h | h | h | h | h | h | h | h | h | h | h <;> obtain ⟨_, rfl⟩ := h
  case inr.inr.inr.inr.inr.inr.inr.inl => exact ⟨_, encode_decodeSubmit _ _ _ _⟩
  case inr.inr.inr.inr.inr.inr.inr.inr.inl => exact ⟨_, encode_decodeStall _ _⟩
  case inr.inr.inr.inr.inr.inr.inr.inr.inr.inl => exact ⟨_, encode_decodeClearStall _ _⟩
  all_goals exact ⟨_, rfl⟩

/-- The shapes a command's next state can have: a pure update and a response, a routine and the response TRUE, a ring
write, or Fatal. One case per meaning over the shared operations (40, 41 and 43). -/
theorem command_cases {p : Params} {i : Instr} {w : Nat} {s t : State} (he : encode p i = .cmd w) (h : exec i s = .next t) :
    (i = .init ∧ t = respond true (initSteps s))
      ∨ (∃ v, t = respond v s)
      ∨ (∃ ch buf len u, submitSend ch buf len s = .next u ∧ t = respond true u)
      ∨ (∃ ch buf len u, submitRecv ch buf len s = .next u ∧ t = respond true u)
      ∨ (∃ v ch, t = writeStall v ch s)
      ∨ (∃ c e, t = raiseFatal c e s)
      ∨ t = respond true (clearRing s)
      ∨ (∃ bs, t = respondPut (putBytes bs s))
      ∨ ∃ n a, putString n a s = .next t := by
  have ha := command_accepted he h
  cases i
  case init =>
    simp only [exec, execInit, asCommand_of_accepts ha, Host.Outcome.next.injEq] at h
    exact .inl ⟨rfl, h.symm⟩
  case connect =>
    simp only [exec, execConnect, asCommand_of_accepts ha, Host.Outcome.next.injEq] at h
    exact .inr (.inl ⟨_, h.symm⟩)
  case disconnect =>
    simp only [exec, execDisconnect, asCommand_of_accepts ha, Host.Outcome.next.injEq] at h
    exact .inr (.inl ⟨_, h.symm⟩)
  case setAddress =>
    simp only [exec, execSetAddress, asCommand_of_accepts ha, Host.Outcome.next.injEq] at h
    exact .inr (.inl ⟨_, h.symm⟩)
  case remoteWakeup =>
    simp only [exec, execRemoteWakeup, asCommand_of_accepts ha, Host.Outcome.next.injEq] at h
    exact .inr (.inl ⟨_, h.symm⟩)
  case openEp =>
    simp only [exec, execOpenEp, asCommand_of_accepts ha, Host.Outcome.next.injEq] at h
    exact .inr (.inl ⟨_, h.symm⟩)
  case closeEp =>
    simp only [exec, execCloseEp, asCommand_of_accepts ha, Host.Outcome.next.injEq] at h
    exact .inr (.inl ⟨_, h.symm⟩)
  case submitXfer =>
    simp only [exec, execSubmitXfer, asCommand_of_accepts ha] at h
    split at h
    · obtain ⟨u, hu, ht⟩ := andThen_eq_next.mp h
      exact .inr (.inr (.inl ⟨_, _, _, u, hu, by simpa using ht.symm⟩))
    · obtain ⟨u, hu, ht⟩ := andThen_eq_next.mp h
      exact .inr (.inr (.inr (.inl ⟨_, _, _, u, hu, by simpa using ht.symm⟩)))
    · exact .inr (.inl ⟨_, by simpa using h.symm⟩)
    · exact .inr (.inl ⟨_, by simpa using h.symm⟩)
  case sendCtrl =>
    simp only [exec, execSendCtrl, asCommand_of_accepts ha] at h
    obtain ⟨u, hu, ht⟩ := andThen_eq_next.mp h
    exact .inr (.inr (.inl ⟨_, _, _, u, hu, by simpa using ht.symm⟩))
  case sendBulk =>
    simp only [exec, execSendBulk, asCommand_of_accepts ha] at h
    obtain ⟨u, hu, ht⟩ := andThen_eq_next.mp h
    exact .inr (.inr (.inl ⟨_, _, _, u, hu, by simpa using ht.symm⟩))
  case recvCtrl =>
    simp only [exec, execRecvCtrl, asCommand_of_accepts ha] at h
    obtain ⟨u, hu, ht⟩ := andThen_eq_next.mp h
    exact .inr (.inr (.inr (.inl ⟨_, _, _, u, hu, by simpa using ht.symm⟩)))
  case recvBulk =>
    simp only [exec, execRecvBulk, asCommand_of_accepts ha] at h
    obtain ⟨u, hu, ht⟩ := andThen_eq_next.mp h
    exact .inr (.inr (.inr (.inl ⟨_, _, _, u, hu, by simpa using ht.symm⟩)))
  case stall =>
    simp only [exec, execStall, asCommand_of_accepts ha, Host.Outcome.next.injEq, stallByEpa] at h
    split at h
    · exact .inr (.inr (.inr (.inr (.inl ⟨_, _, h.symm⟩))))
    · exact .inr (.inr (.inr (.inr (.inr (.inl ⟨_, _, h.symm⟩)))))
  case stallControl =>
    simp only [exec, execStallControl, asCommand_of_accepts ha, Host.Outcome.next.injEq] at h
    exact .inr (.inr (.inr (.inr (.inl ⟨_, _, h.symm⟩))))
  case stallBulkin =>
    simp only [exec, execStallBulkin, asCommand_of_accepts ha, Host.Outcome.next.injEq] at h
    exact .inr (.inr (.inr (.inr (.inl ⟨_, _, h.symm⟩))))
  case stallBulkout =>
    simp only [exec, execStallBulkout, asCommand_of_accepts ha, Host.Outcome.next.injEq] at h
    exact .inr (.inr (.inr (.inr (.inl ⟨_, _, h.symm⟩))))
  case clearStall =>
    simp only [exec, execClearStall, asCommand_of_accepts ha, Host.Outcome.next.injEq, stallByEpa] at h
    split at h
    · exact .inr (.inr (.inr (.inr (.inl ⟨_, _, h.symm⟩))))
    · exact .inr (.inr (.inr (.inr (.inr (.inl ⟨_, _, h.symm⟩)))))
  case clearStallControl =>
    simp only [exec, execClearStallControl, asCommand_of_accepts ha, Host.Outcome.next.injEq] at h
    exact .inr (.inr (.inr (.inr (.inl ⟨_, _, h.symm⟩))))
  case clearStallBulkin =>
    simp only [exec, execClearStallBulkin, asCommand_of_accepts ha, Host.Outcome.next.injEq] at h
    exact .inr (.inr (.inr (.inr (.inl ⟨_, _, h.symm⟩))))
  case clearStallBulkout =>
    simp only [exec, execClearStallBulkout, asCommand_of_accepts ha, Host.Outcome.next.injEq] at h
    exact .inr (.inr (.inr (.inr (.inl ⟨_, _, h.symm⟩))))
  case diagInit =>
    simp only [exec, execDiagInit, asCommand_of_accepts ha, Host.Outcome.next.injEq] at h
    exact .inr (.inr (.inr (.inr (.inr (.inr (.inl h.symm))))))
  case diagPutb b =>
    simp only [exec, execDiagPutb, asCommand_of_accepts ha, Host.Outcome.next.injEq] at h
    refine .inr (.inr (.inr (.inr (.inr (.inr (.inr (.inl ⟨[b], ?_⟩)))))))
    rw [← h]
    simp only [putBytes, respondPut]
    cases hb : (putByte b s).1 <;> simp [hb]
  case diagPuts =>
    simp only [exec, execDiagPuts, asCommand_of_accepts ha] at h
    exact .inr (.inr (.inr (.inr (.inr (.inr (.inr (.inr ⟨_, _, h⟩)))))))
  case diagPuthex8 =>
    simp only [exec, execDiagPuthex8, asCommand_of_accepts ha, Host.Outcome.next.injEq] at h
    exact .inr (.inr (.inr (.inr (.inr (.inr (.inr (.inl ⟨_, h.symm⟩)))))))
  case diagPut16 =>
    simp only [exec, execDiagPut16, asCommand_of_accepts ha, Host.Outcome.next.injEq] at h
    exact .inr (.inr (.inr (.inr (.inr (.inr (.inr (.inl ⟨_, h.symm⟩)))))))
  all_goals cases he

end Sys2Proof.Machine
end

