-- ==== Sys2Proof/Laws/Handler.lean ====
section
/-! SUPPORT. What the handler operations can do, and what none of them touches (42_irq_dispatch.md R182). -/

namespace Sys2Proof.Machine

/-- A handler operation that answers a next state did not start in FATAL (60_exceptions.md R231). -/
theorem isr_running {src : Source} {s t : State} (h : exec src.instr s = .next t) : s.fatal = false := by
  cases src
  · exact (unlessFatal_eq_next (k := fun s => .next (drainOne s)).mp h).1
  · simp only [exec, Source.instr, execIsrCtrlTx, unlessFatal_eq_next] at h; exact h.1
  · simp only [exec, Source.instr, execIsrCtrlRx, unlessFatal_eq_next] at h; exact h.1
  · simp only [exec, Source.instr, execIsrBusReset, unlessFatal_eq_next] at h; exact h.1
  · simp only [exec, Source.instr, execIsrBulkoutRx, unlessFatal_eq_next] at h; exact h.1
  · simp only [exec, Source.instr, execIsrBulkinTx, unlessFatal_eq_next] at h; exact h.1

/-- Tx-complete handling goes on filling, or reports and empties the context (R124, R125). -/
theorem txComplete_cases {ch : TxCh} {s t : State} (h : txComplete ch s = .next t) :
    ((s.txCtx.get ch).remaining ≠ 0 ∧ t = finishFill ch (runFill ch (freshTx ch s)) (freshTx ch s))
      ∨ ((s.txCtx.get ch).remaining = 0 ∧ t = completeSend ch s) := by
  simp only [txComplete] at h
  split at h
  · rename_i hr
    exact .inl ⟨hr, (fillFrom_eq_next.mp h).2⟩
  · rename_i hr
    exact .inr ⟨by simpa using hr, by simpa using h.symm⟩

/-- What each handler operation does when it answers a next state (R124, R125, R127, R128, R133, R164). -/
theorem isr_cases {src : Source} {s t : State} (h : exec src.instr s = .next t) :
    (src = .diagTx ∧ t = drainOne s)
      ∨ (src = .ctrlTx ∧ s.firstTxcDiscard = true ∧ t = { s with firstTxcDiscard := false })
      ∨ (src = .ctrlTx ∧ s.firstTxcDiscard = false ∧ txComplete .control s = .next t)
      ∨ (src = .ctrlRx ∧ setupPend (freshSetup s) = true ∧ t = receiveSetup (freshRx .control (freshSetup s)))
      ∨ (src = .ctrlRx ∧ setupPend (freshSetup s) = false ∧ rxcData .control (freshSetup s) = .next t)
      ∨ (src = .busReset ∧ t = emit { kind := .busReset, fromIsr := true } (writeCtl .control receiveReady s))
      ∨ (src = .bulkoutRx ∧ rxcData .bulkOut s = .next t)
      ∨ (src = .bulkinTx ∧ txComplete .bulkIn s = .next t) := by
  have hf := isr_running h
  cases src
  · simp only [exec, Source.instr, execIsrDiagTx, unlessFatal_of_running hf, Host.Outcome.next.injEq] at h
    exact .inl ⟨rfl, h.symm⟩
  · simp only [exec, Source.instr, execIsrCtrlTx, unlessFatal_of_running hf] at h
    split at h
    · rename_i hd
      exact .inr (.inl ⟨rfl, hd, by simpa using h.symm⟩)
    · rename_i hd
      exact .inr (.inr (.inl ⟨rfl, by simpa using hd, h⟩))
  · simp only [exec, Source.instr, execIsrCtrlRx, unlessFatal_of_running hf] at h
    split at h
    · rename_i hp
      exact .inr (.inr (.inr (.inl ⟨rfl, hp, by simpa using h.symm⟩)))
    · rename_i hp
      exact .inr (.inr (.inr (.inr (.inl ⟨rfl, by simpa using hp, h⟩))))
  · simp only [exec, Source.instr, execIsrBusReset, unlessFatal_of_running hf, Host.Outcome.next.injEq] at h
    exact .inr (.inr (.inr (.inr (.inr (.inl ⟨rfl, h.symm⟩)))))
  · simp only [exec, Source.instr, execIsrBulkoutRx, unlessFatal_of_running hf] at h
    exact .inr (.inr (.inr (.inr (.inr (.inr (.inl ⟨rfl, h⟩))))))
  · simp only [exec, Source.instr, execIsrBulkinTx, unlessFatal_of_running hf] at h
    exact .inr (.inr (.inr (.inr (.inr (.inr (.inr ⟨rfl, h⟩))))))

/-- What no handler operation touches: the sequencer, the command in progress, the enables, the gate and the pending bits,
the responses and the wires, the schedule (R183, R184). -/
structure SameSequencer (s t : State) : Prop where
  inHandler : t.inHandler = s.inHandler
  latched : t.latched = s.latched
  slot : t.slot = s.slot
  fatal : t.fatal = s.fatal
  fatalCause : t.fatalCause = s.fatalCause
  fatalInfo : t.fatalInfo = s.fatalInfo
  cmd : t.cmd = s.cmd
  intEn : t.intEn = s.intEn
  irqGate : t.irqGate = s.irqGate
  pend : t.pend = s.pend
  spuriousArmed : t.spuriousArmed = s.spuriousArmed
  responses : t.responses = s.responses
  wireTx : t.wireTx = s.wireTx
  wireDiag : t.wireDiag = s.wireDiag
  noMem : t.noMem = s.noMem
  params : t.params = s.params
  script : t.script = s.script
  openEnv : t.openEnv = s.openEnv

theorem sameSequencer_rfl (s : State) : SameSequencer s s := by constructor <;> rfl

theorem sameSequencer_trans {s t u : State} (h : SameSequencer s t) (h' : SameSequencer t u) : SameSequencer s u :=
  ⟨h'.1.trans h.1, h'.2.trans h.2, h'.3.trans h.3, h'.4.trans h.4, h'.5.trans h.5, h'.6.trans h.6, h'.7.trans h.7,
    h'.8.trans h.8, h'.9.trans h.9, h'.10.trans h.10, h'.11.trans h.11, h'.12.trans h.12, h'.13.trans h.13,
    h'.14.trans h.14, h'.15.trans h.15, h'.16.trans h.16, h'.17.trans h.17, h'.18.trans h.18⟩

theorem freshTx_sameSequencer (ch : TxCh) (s : State) : SameSequencer s (freshTx ch s) := by constructor <;> simp
theorem freshRx_sameSequencer (ch : RxCh) (s : State) : SameSequencer s (freshRx ch s) := by constructor <;> simp
theorem freshSetup_sameSequencer (s : State) : SameSequencer s (freshSetup s) := by constructor <;> simp
theorem freshReady_sameSequencer (s : State) : SameSequencer s (freshReady s) := by constructor <;> simp

theorem finishFill_sameSequencer (ch : TxCh) (f : Fill) (s : State) : SameSequencer s (finishFill ch f s) := by
  rw [finishFill_eq]
  constructor <;> rfl

theorem drainIfReady_sameSequencer (s : State) : SameSequencer s (drainIfReady s) := by
  simp only [drainIfReady]
  split <;> constructor <;> rfl

theorem drainOne_sameSequencer (s : State) : SameSequencer s (drainOne s) :=
  sameSequencer_trans (freshReady_sameSequencer s) (drainIfReady_sameSequencer _)

theorem txComplete_sameSequencer {ch : TxCh} {s t : State} (h : txComplete ch s = .next t) : SameSequencer s t := by
  rcases txComplete_cases h with ⟨_, rfl⟩ | ⟨_, rfl⟩
  · exact sameSequencer_trans (freshTx_sameSequencer ch s) (finishFill_sameSequencer ch _ _)
  · constructor <;> rfl

theorem rxcData_sameSequencer {ch : RxCh} {s t : State} (h : rxcData ch s = .next t) : SameSequencer s t := by
  refine sameSequencer_trans (freshRx_sameSequencer ch s) ?_
  rcases rxcData_cases rfl h with ⟨_, h⟩ | ⟨_, _, rfl⟩ | ⟨_, _, rfl⟩
  · obtain ⟨_, rfl⟩ := drainPending_eq_next.mp h
    constructor <;> rfl
  · constructor <;> rfl
  · exact sameSequencer_trans (freshRx_sameSequencer ch _) (by constructor <;> rfl)

theorem receiveSetup_sameSequencer (s : State) : SameSequencer s (receiveSetup s) := by
  simp only [receiveSetup, (readControl_spec Config.setupLen s).2.2]
  constructor <;> rfl

theorem isr_sameSequencer {src : Source} {s t : State} (h : exec src.instr s = .next t) : SameSequencer s t := by
  rcases isr_cases h with ⟨_, rfl⟩ | ⟨_, _, rfl⟩ | ⟨_, _, h⟩ | ⟨_, _, rfl⟩ | ⟨_, _, h⟩ | ⟨_, rfl⟩ | ⟨_, h⟩ | ⟨_, h⟩
  · exact drainOne_sameSequencer s
  · constructor <;> rfl
  · exact txComplete_sameSequencer h
  · exact sameSequencer_trans (freshSetup_sameSequencer s)
      (sameSequencer_trans (freshRx_sameSequencer .control _) (receiveSetup_sameSequencer _))
  · exact sameSequencer_trans (freshSetup_sameSequencer s) (rxcData_sameSequencer h)
  · constructor <;> rfl
  · exact rxcData_sameSequencer h
  · exact txComplete_sameSequencer h

/-! ## What each handler operation can change -/

/-- DRAIN_ONE changes the read index, the diagnostic endpoint and the counter of draws (R163). -/
theorem drainOne_frame (s : State) :
    ∃ rd hold dctl dstat draws,
      drainOne s =
        { s with ringRead := rd, diagHold := hold, diagCtl := dctl, diagStat := dstat, draws := draws } := by
  obtain ⟨v, d, h, _⟩ := freshReady_spec s
  rw [drainOne, h, drainIfReady]
  split <;> exact ⟨_, _, _, _, _, rfl⟩

/-- A Tx-complete changes its channel's send side, FORCE_TX's register and the event port (R124, R125). -/
theorem txComplete_frame {ch : TxCh} {s t : State} (h : txComplete ch s = .next t) :
    ∃ ctx fifo busy lent ctl draws evs,
      t = { s with
        txCtx := s.txCtx.set ch ctx
        txq := s.txq.set ch fifo
        busy := s.busy.set ch busy
        lentTx := s.lentTx.set ch lent
        ctl := s.ctl.set (txChannel ch) ctl
        draws := draws
        events := evs } := by
  rcases txComplete_cases h with ⟨_, rfl⟩ | ⟨_, rfl⟩
  · obtain ⟨q, d, he, _⟩ := freshTx_spec ch s
    rw [finishFill_eq, he]
    exact ⟨_, _, s.busy.get ch, s.lentTx.get ch, _, d, s.events, by simp; exact ⟨rfl, rfl, rfl⟩⟩
  · exact ⟨_, s.txq.get ch, _, _, s.ctl.get (txChannel ch), s.draws, _,
      by simp [completeSend, emitComplete, emit]; exact ⟨rfl, rfl, rfl, rfl⟩⟩

/-- RXC_DATA changes its channel's receive side, buffer memory and the event port (R129). -/
theorem rxcData_frame {ch : RxCh} {s t : State} (h : rxcData ch s = .next t) :
    ∃ ctx fifo staged lent draws evs mem,
      t = { s with
        rxCtx := s.rxCtx.set ch ctx
        rxq := s.rxq.set ch fifo
        stg := s.stg.set ch staged
        lentRx := s.lentRx.set ch lent
        draws := draws
        events := evs
        mem := mem } := by
  obtain ⟨q, d, he, _⟩ := freshRx_spec ch s
  rcases rxcData_cases he.symm h with ⟨_, h⟩ | ⟨_, _, rfl⟩ | ⟨_, _, rfl⟩
  · obtain ⟨_, rfl⟩ := drainPending_eq_next.mp h
    exact ⟨_, _, s.stg.get ch, _, d, _, _, by simp [emitComplete, emit]; and_intros <;> rfl⟩
  · exact ⟨s.rxCtx.get ch, q, s.stg.get ch, s.lentRx.get ch, d, _, s.mem, by simp [emitComplete, emit]; rfl⟩
  · obtain ⟨q', d', he', _⟩ := freshRx_spec ch { s with rxq := s.rxq.set ch q, draws := d }
    rw [he', stage]
    exact ⟨s.rxCtx.get ch, _, _, s.lentRx.get ch, d', s.events, s.mem, by simp; exact ⟨rfl, rfl⟩⟩

/-- The SETUP branch changes FIFO[Control], the SETUP counter and the event port (R127). -/
theorem receiveSetup_frame (s : State) :
    ∃ q n d evs, receiveSetup s = { s with rxq := s.rxq.set .control q, setupLeft := n, draws := d, events := evs } := by
  simp only [receiveSetup, (readControl_spec Config.setupLen s).2.2]
  exact ⟨_, _, _, _, rfl⟩

/-- What a handler operation can change: what its source guards, and the event port, the counter of draws and, on the
Rx sources, buffer memory (42_irq_dispatch.md R182, 20_memory.md R73). -/
theorem isr_frame {src : Source} {s t : State} (h : exec src.instr s = .next t) :
    (src = .diagTx ∧ ∃ rd hold dctl dstat draws,
        t = { s with ringRead := rd, diagHold := hold, diagCtl := dctl, diagStat := dstat, draws := draws })
      ∨ (∃ ch, src = txSource ch ∧ ∃ flag ctx fifo busy lent ctl draws evs,
        t = { s with
          firstTxcDiscard := flag
          txCtx := s.txCtx.set ch ctx
          txq := s.txq.set ch fifo
          busy := s.busy.set ch busy
          lentTx := s.lentTx.set ch lent
          ctl := s.ctl.set (txChannel ch) ctl
          draws := draws
          events := evs })
      ∨ (∃ ch, src = rxSource ch ∧ ∃ ctx fifo staged lent left draws evs mem,
        t = { s with
          rxCtx := s.rxCtx.set ch ctx
          rxq := s.rxq.set ch fifo
          stg := s.stg.set ch staged
          lentRx := s.lentRx.set ch lent
          setupLeft := left
          draws := draws
          events := evs
          mem := mem })
      ∨ (src = .busReset ∧ ∃ ctl evs, t = { s with ctl := s.ctl.set .control ctl, events := evs }) := by
  rcases isr_cases h with ⟨rfl, rfl⟩ | ⟨rfl, _, rfl⟩ | ⟨rfl, _, hk⟩ | ⟨rfl, _, rfl⟩ | ⟨rfl, _, hk⟩ | ⟨rfl, rfl⟩ | ⟨rfl, hk⟩
    | ⟨rfl, hk⟩
  · exact .inl ⟨rfl, drainOne_frame s⟩
  · exact .inr (.inl ⟨.control, rfl, false, s.txCtx.get .control, s.txq.get .control, s.busy.get .control,
      s.lentTx.get .control, s.ctl.get .control, s.draws, s.events, by simp [txChannel]⟩)
  · obtain ⟨_, _, _, _, _, _, _, rfl⟩ := txComplete_frame hk
    exact .inr (.inl ⟨.control, rfl, s.firstTxcDiscard, _, _, _, _, _, _, _, rfl⟩)
  · obtain ⟨_, _, _, _, h'⟩ := receiveSetup_frame (freshRx .control (freshSetup s))
    obtain ⟨_, _, hs, _⟩ := freshSetup_spec s
    obtain ⟨_, _, hr, _⟩ := freshRx_spec .control (freshSetup s)
    rw [h', hr, hs]
    exact .inr (.inr (.inl ⟨.control, rfl, s.rxCtx.get .control, _, s.stg.get .control, s.lentRx.get .control, _, _, _,
      s.mem, by simp; exact ⟨rfl, rfl, rfl, rfl⟩⟩))
  · obtain ⟨_, _, hs, _⟩ := freshSetup_spec s
    obtain ⟨_, _, _, _, _, _, _, rfl⟩ := rxcData_frame hk
    rw [hs]
    exact .inr (.inr (.inl ⟨.control, rfl, _, _, _, _, _, _, _, _, rfl⟩))
  · exact .inr (.inr (.inr ⟨rfl, _, _, rfl⟩))
  · obtain ⟨_, _, _, _, _, _, _, rfl⟩ := rxcData_frame hk
    exact .inr (.inr (.inl ⟨.bulkOut, rfl, _, _, _, _, s.setupLeft, _, _, _, rfl⟩))
  · obtain ⟨_, _, _, _, _, _, _, rfl⟩ := txComplete_frame hk
    exact .inr (.inl ⟨.bulkIn, rfl, s.firstTxcDiscard, _, _, _, _, _, _, _, rfl⟩)

end Sys2Proof.Machine
end

