-- ==== Sys2Proof/Laws/Micro.lean ====
section
/-! SUPPORT. What one micro-step can do, said once: an elementary update of the state with the command going on, the
response, or Fatal (20_memory.md R70). -/

namespace Sys2Proof.Machine

/-- The elementary updates a micro-step of the command in progress `c` makes. -/
inductive MicroEffect (c : InProgress) (s : State) : State → Prop where
  | nothing : MicroEffect c s s
  | gate (hi : c.instr = .init) (v : Bool) : MicroEffect c s (setGate v s)
  | emptyContexts (hi : c.instr = .init) : MicroEffect c s (emptyContexts s)
  | emptyStaging (hi : c.instr = .init) : MicroEffect c s (emptyStaging s)
  | armDiscard (hi : c.instr = .init) (ha : c.at_ = 4) : MicroEffect c s (armDiscard s)
  | defaultCtl (hi : c.instr = .init) : MicroEffect c s (defaultCtl s)
  | armSpurious (hi : c.instr = .init) : MicroEffect c s (armSpurious s)
  | enableAll (hi : c.instr = .init) : MicroEffect c s (enableAll s)
  | sendMode (ch : TxCh) : MicroEffect c s (sendMode ch s)
  | mask (src : Source) : MicroEffect c s (maskSource src s)
  | unmask (src : Source) : MicroEffect c s (unmaskSource src s)
  | recordSend (ch : TxCh) (buf len : Nat) : MicroEffect c s (recordSend ch buf len s)
  | fill (ch : TxCh) : MicroEffect c s (finishFill ch (runFill ch (freshTx ch s)) (freshTx ch s))
  | takeStaged (ch : RxCh) (buf len : Nat) (u : State) (hi : recvOperands s.params c.instr = some (ch, buf, len))
      (ha : c.at_ = 3) (hs : c.staged = true) (h : takeStaged ch buf len s = .next u) :
      MicroEffect c s u
  | recordRecv (ch : RxCh) (buf len : Nat) (u : State) (h : recordRecv ch buf len s = .next u) :
      MicroEffect c s u
  | stall (ch : Channel) (v : Bool) : MicroEffect c s (setCtl ch stallBit v s)
  | clearRing : MicroEffect c s (clearRing s)
  | enqueue (b : Byte) : MicroEffect c s (enqueue b s).2

/-- What a micro-step leaves: the command goes on after an elementary update, or ends with a response, or is fatal. -/
inductive MicroResult (c : InProgress) (s : State) : State → Prop where
  | goesOn (u : State) (c' : InProgress) (he : MicroEffect c s u) (hi : c'.instr = c.instr) :
      MicroResult c s { u with cmd := some c' }
  | responds (v : Bool) : MicroResult c s (respond v s)
  | fatal (cause info : Byte) : MicroResult c s (raiseFatal cause info s)

theorem goOn_result {c c' : InProgress} {s u t : State} (h : goOn c' u = .next t) (he : MicroEffect c s u)
    (hi : c'.instr = c.instr) : MicroResult c s t := by
  simp only [goOn, Host.Outcome.next.injEq] at h
  subst h
  exact .goesOn u { c' with at_ := c'.at_ + 1 } he hi

theorem finish_result {c : InProgress} {s t : State} {v : Bool} (h : finish v s = .next t) : MicroResult c s t := by
  simp only [finish, Host.Outcome.next.injEq] at h
  subst h
  exact .responds v

theorem microInit_result {c : InProgress} {s t : State} (hi : c.instr = .init) (h : microInit c s = .next t) :
    MicroResult c s t := by
  simp only [microInit] at h
  split at h
  · exact goOn_result h (.gate hi _) rfl
  · exact goOn_result h (.emptyContexts hi) rfl
  · exact goOn_result h (.emptyStaging hi) rfl
  · rename_i h4; exact goOn_result h (.armDiscard hi h4) rfl
  · exact goOn_result h (.defaultCtl hi) rfl
  · exact goOn_result h (.armSpurious hi) rfl
  · exact goOn_result h (.enableAll hi) rfl
  · exact goOn_result h (.gate hi _) rfl
  · exact finish_result h

theorem microSend_result {ch : TxCh} {buf len : Nat} {c : InProgress} {s t : State}
    (h : microSend ch buf len c s = .next t) : MicroResult c s t := by
  simp only [microSend] at h
  split at h
  · split at h
    · cases h
    · exact goOn_result h (.sendMode ch) rfl
  · exact goOn_result h (.mask _) rfl
  · exact goOn_result h (.recordSend ch buf len) rfl
  · obtain ⟨u, hu, ht⟩ := andThen_eq_next.mp h
    obtain ⟨_, rfl⟩ := fillFrom_eq_next.mp hu
    exact goOn_result ht (.fill ch) rfl
  · exact goOn_result h (.unmask _) rfl
  · exact finish_result h

/-- Micro-step 2 of a receive goes on with what it found, unless a staged receive's buffer was touched (R126 step 2, log 9). -/
theorem decideRecv_eq_next {ch : RxCh} {c : InProgress} {s t : State} :
    decideRecv ch c s = .next t ↔
      (hasStaged ch s = true → c.touched = none) ∧ goOn { c with staged := hasStaged ch s } s = .next t := by
  simp only [decideRecv]
  cases hs : hasStaged ch s <;> cases ht : c.touched <;> simp

theorem microRecv_result {ch : RxCh} {buf len : Nat} {c : InProgress} {s t : State}
    (hi : recvOperands s.params c.instr = some (ch, buf, len)) (h : microRecv ch buf len c s = .next t) : MicroResult c s t := by
  simp only [microRecv] at h
  split at h
  · exact goOn_result h (.mask _) rfl
  · exact goOn_result (decideRecv_eq_next.mp h).2 .nothing rfl
  · rename_i ha
    obtain ⟨u, hu, ht⟩ := andThen_eq_next.mp h
    simp only [recvBranch] at hu
    split at hu
    · rename_i hs; exact goOn_result ht (.takeStaged ch buf len u hi ha hs hu) rfl
    · exact goOn_result ht (.recordRecv ch buf len u hu) rfl
  · exact goOn_result h (.unmask _) rfl
  · exact finish_result h

theorem microSubmit_result {epa : Byte} {buf len : Nat} {c : InProgress} {s t : State}
    (hi : c.instr = .submitXfer epa buf len) (h : microSubmit epa buf len c s = .next t) : MicroResult c s t := by
  simp only [microSubmit] at h
  split at h
  · exact microSend_result h
  · rename_i hr; exact microRecv_result (by simp [hi, recvOperands, hr]) h
  · exact finish_result h
  · exact finish_result h

theorem microStall_result {v : Bool} {cause epa : Byte} {c : InProgress} {s t : State}
    (h : microStall v cause epa c s = .next t) : MicroResult c s t := by
  simp only [microStall] at h
  split at h
  · simp only [Host.Outcome.next.injEq] at h
    subst h
    exact .fatal cause epa
  · split at h
    · exact goOn_result h .nothing rfl
    · exact goOn_result h (.stall _ v) rfl
    · exact finish_result h

theorem microDiagInit_result {c : InProgress} {s t : State} (h : microDiagInit c s = .next t) : MicroResult c s t := by
  simp only [microDiagInit] at h
  split at h
  · exact goOn_result h .clearRing rfl
  · exact finish_result h

theorem microPutRound_result {b : Byte} {count : Nat} {c : InProgress} {s t : State}
    (h : microPutRound b count c s = .next t) : MicroResult c s t := by
  simp only [microPutRound] at h
  split at h
  · exact goOn_result h (.mask _) rfl
  · exact goOn_result h (.enqueue c.byte) rfl
  · exact goOn_result h (.unmask _) rfl
  · split at h
    · simp only [Host.Outcome.next.injEq] at h
      subst h
      exact .goesOn s { c with at_ := 1, round := c.round + 1 } .nothing rfl
    · exact finish_result h

theorem microPuts_result {buf len : Nat} {c : InProgress} {s t : State} (h : microPuts buf len c s = .next t) :
    MicroResult c s t := by
  simp only [microPuts] at h
  split at h
  · exact finish_result h
  · split at h
    · exact microPutRound_result (withMemory_eq_next.mp h).2
    · exact microPutRound_result h

/-- A micro-step that answers a next state made one elementary update, responded, or was fatal. -/
theorem microStep_result {c : InProgress} {s t : State} (h : microStep c s = .next t) : MicroResult c s t := by
  simp only [microStep] at h
  split at h
  case h_1 hi => exact microInit_result hi h
  all_goals first
    | exact finish_result h
    | (rename_i hi; exact microSubmit_result hi h)
    | exact microSend_result h
    | (rename_i hi; exact microRecv_result (by rw [hi]; rfl) h)
    | exact microStall_result h
    | exact microDiagInit_result h
    | exact microPutRound_result h
    | exact microPuts_result h
    | cases h

end Sys2Proof.Machine
end

