-- ==== Sys2Proof/Laws/PerInstr.lean ====
section
/-! SUPPORT. One lemma per constructor about its encoding: the word of every term of `Instr`, well-formed or not, decodes
to an operation with that same word (30_encoding.md R91, R92, R101). -/

namespace Sys2Proof.Laws.Encoding

/-- At every value of the parameters the decoder accepts the word of `i`, as an operation that the encoder writes with
the same word. -/
def Statement (i : Instr) : Prop := ∀ p : Params, ∃ j, decode p (encode p i) = .ok j ∧ encode p j = encode p i

/-- The word of a term decodes to that term itself: one way to have the statement. -/
theorem of_self {i : Instr} (h : ∀ p, decode p (encode p i) = .ok i) : Statement i := fun p => ⟨i, h p, rfl⟩

/-! ## The handler operations -/

theorem isrDiagTx : Statement .isrDiagTx := of_self fun _ => rfl
theorem isrCtrlTx : Statement .isrCtrlTx := of_self fun _ => rfl
theorem isrCtrlRx : Statement .isrCtrlRx := of_self fun _ => rfl
theorem isrBusReset : Statement .isrBusReset := of_self fun _ => rfl
theorem isrBulkoutRx : Statement .isrBulkoutRx := of_self fun _ => rfl
theorem isrBulkinTx : Statement .isrBulkinTx := of_self fun _ => rfl

/-! ## Commands of one row -/

theorem init : Statement .init := of_self fun _ => decodeCmd_init (cmdOp_cmdWord ..)
theorem connect : Statement .connect := of_self fun _ => decodeCmd_connect (cmdOp_cmdWord ..)
theorem disconnect : Statement .disconnect := of_self fun _ => decodeCmd_disconnect (cmdOp_cmdWord ..)
theorem remoteWakeup : Statement .remoteWakeup := of_self fun _ => decodeCmd_remoteWakeup (cmdOp_cmdWord ..)
theorem diagInit : Statement .diagInit := of_self fun _ => decodeCmd_diagInit (cmdOp_cmdWord ..)

theorem setAddress (addr : Byte) : Statement (.setAddress addr) := of_self fun p => by
  rw [encode, decode, decodeCmd_setAddress (cmdOp_cmdWord ..), cmdA_cmdWord]

theorem closeEp (epa : Byte) : Statement (.closeEp epa) := of_self fun p => by
  rw [encode, decode, decodeCmd_closeEp (cmdOp_cmdWord ..), cmdA_cmdWord]

theorem diagPutb (b : Byte) : Statement (.diagPutb b) := of_self fun p => by
  rw [encode, decode, decodeCmd_diagPutb (cmdOp_cmdWord ..), cmdA_cmdWord]

theorem diagPuthex8 (b : Byte) : Statement (.diagPuthex8 b) := of_self fun p => by
  rw [encode, decode, decodeCmd_diagPuthex8 (cmdOp_cmdWord ..), cmdA_cmdWord]

/-! An operand of field L or P comes back as what its field holds of it. -/

theorem openEp (epa : Byte) (mps attr : Nat) : Statement (.openEp epa mps attr) := fun p =>
  ⟨.openEp epa (p.len mps) (p.addr attr), by rw [encode, decode, decodeCmd_openEp (cmdOp_cmdWord ..)]; simp, by simp [encode]⟩

theorem diagPuts (buf len : Nat) : Statement (.diagPuts buf len) := fun p =>
  ⟨.diagPuts (p.addr buf) (p.len len), by rw [encode, decode, decodeCmd_diagPuts (cmdOp_cmdWord ..)]; simp, by simp [encode]⟩

theorem diagPut16 (value : Nat) : Statement (.diagPut16 value) := fun p =>
  ⟨.diagPut16 (p.len value), by rw [encode, decode, decodeCmd_diagPut16 (cmdOp_cmdWord ..)]; simp, by
    rw [encode, ← cmdWord_reduced, len_len, cmdWord_reduced, encode]⟩

/-! ## The refined rows -/

/-- A SUBMIT_XFER word decodes to one of its five rows, all written with that word. -/
theorem of_submit {i : Instr} (epa : Params → Byte) (buf len : Nat)
    (h : ∀ p, encode p i = .cmd (cmdWord p opSubmitXfer (epa p) len buf)) : Statement i := fun p =>
  ⟨decodeSubmit p (epa p) (p.addr buf) (p.len len), by rw [h, decode, decodeCmd_submitXfer (cmdOp_cmdWord ..)]; simp,
    by rw [h, encode_decodeSubmit, cmdWord_reduced]⟩

/-- A STALL word decodes to one of its four rows, all written with that word. -/
theorem of_stall {i : Instr} (epa : Byte) (h : ∀ p, encode p i = .cmd (cmdWord p opStall epa 0 0)) : Statement i := fun p =>
  ⟨decodeStall p epa, by rw [h, decode, decodeCmd_stall (cmdOp_cmdWord ..)]; simp, by rw [h, encode_decodeStall]⟩

/-- A CLEAR_STALL word decodes to one of its four rows, all written with that word. -/
theorem of_clearStall {i : Instr} (epa : Byte) (h : ∀ p, encode p i = .cmd (cmdWord p opClearStall epa 0 0)) :
    Statement i := fun p =>
  ⟨decodeClearStall p epa, by rw [h, decode, decodeCmd_clearStall (cmdOp_cmdWord ..)]; simp,
    by rw [h, encode_decodeClearStall]⟩

theorem submitXfer (epa : Byte) (buf len : Nat) : Statement (.submitXfer epa buf len) :=
  of_submit (fun _ => epa) buf len fun _ => rfl
theorem sendCtrl (buf len : Nat) : Statement (.sendCtrl buf len) :=
  of_submit Params.epaCtrlIn buf len fun _ => rfl
theorem sendBulk (buf len : Nat) : Statement (.sendBulk buf len) :=
  of_submit Params.epaBulkIn buf len fun _ => rfl
theorem recvCtrl (buf len : Nat) : Statement (.recvCtrl buf len) :=
  of_submit Params.epaCtrlOut buf len fun _ => rfl
theorem recvBulk (buf len : Nat) : Statement (.recvBulk buf len) :=
  of_submit Params.epaBulkOut buf len fun _ => rfl
theorem stall (epa : Byte) : Statement (.stall epa) := of_stall epa fun _ => rfl
theorem stallControl (epa : Byte) : Statement (.stallControl epa) := of_stall epa fun _ => rfl
theorem stallBulkin (epa : Byte) : Statement (.stallBulkin epa) := of_stall epa fun _ => rfl
theorem stallBulkout (epa : Byte) : Statement (.stallBulkout epa) := of_stall epa fun _ => rfl
theorem clearStall (epa : Byte) : Statement (.clearStall epa) := of_clearStall epa fun _ => rfl
theorem clearStallControl (epa : Byte) : Statement (.clearStallControl epa) := of_clearStall epa fun _ => rfl
theorem clearStallBulkin (epa : Byte) : Statement (.clearStallBulkin epa) := of_clearStall epa fun _ => rfl
theorem clearStallBulkout (epa : Byte) : Statement (.clearStallBulkout epa) := of_clearStall epa fun _ => rfl

end Sys2Proof.Laws.Encoding
end

