-- ==== Sys2Proof/Laws/Step.lean ====
section
/-! SUPPORT. What one step can be, said once: a handler step, a scheduled move, or the block going on by itself; and
what each of these needs to answer a next state. -/

namespace Sys2Proof.Machine

/-- Outside a handler the head of the script is taken. -/
theorem step_of_script {s : State} {m : Input} {rest : List Input} (hh : s.inHandler = false)
    (hs : s.script = m :: rest) : step s = takeInput m { s with script := rest } := by
  simp only [step, advance, hh, hs, Bool.false_eq_true, if_false]

/-- Inside a handler the invocation goes on. -/
theorem step_of_inHandler {s : State} (hh : s.inHandler = true) : step s = handlerStep s := by
  simp only [step, advance, hh, if_true]

/-- Outside a handler with nothing scheduled the block goes on by itself. -/
theorem step_of_idle {s : State} (hh : s.inHandler = false) (hs : s.script = []) : step s = idleStep s := by
  simp only [step, advance, hh, hs, Bool.false_eq_true, if_false]

/-- A run goes on from the state its first step answers. -/
theorem run_succ {n : Nat} {s u : State} (h : step s = .next u) :
    Host.Core.run Sys2Proof.core (n + 1) s = Host.Core.run Sys2Proof.core n u := by
  have h : Sys2Proof.core.step s = .next u := h
  simp only [Host.Core.run, h]

/-- Every step that answers a next state is a slot of the invocation under way, the exit from it, the move the script
schedules, or the idle machine going on (20_memory.md R70). -/
theorem step_cases {s t : State} (h : step s = .next t) :
    (s.inHandler = true ∧ s.fatal = false ∧
        ((∃ src, s.slot = some src ∧ slotStep src s = .next t) ∨ (s.slot = none ∧ t = handlerExit s)))
      ∨ (s.inHandler = false ∧ ∃ m rest, s.script = m :: rest ∧ takeInput m { s with script := rest } = .next t)
      ∨ (s.inHandler = false ∧ s.script = [] ∧ s.fatal = false ∧ idleStep s = .next t) := by
  simp only [step, advance] at h
  cases hh : s.inHandler with
  | true =>
    rw [hh, if_pos rfl, handlerStep, unlessFatal_eq_next] at h
    refine .inl ⟨rfl, h.1, ?_⟩
    cases hs : s.slot with
    | none => exact .inr ⟨rfl, by simpa [hs] using h.2.symm⟩
    | some src => exact .inl ⟨src, rfl, by simpa [hs] using h.2⟩
  | false =>
    rw [hh, if_neg (by simp)] at h
    cases hs : s.script with
    | nil =>
      have h : idleStep s = .next t := by simpa [hs] using h
      exact .inr (.inr ⟨rfl, rfl, (unlessFatal_eq_next.mp h).1, h⟩)
    | cons m rest => exact .inr (.inl ⟨rfl, m, rest, rfl, by simpa [hs] using h⟩)

/-- A slot that answers a next state was skipped, or ran its operation (42_irq_dispatch.md R181 step 4). -/
theorem slotStep_cases {src : Source} {s t : State} (h : slotStep src s = .next t) :
    (s.latched &&& src.mask = 0 ∧ t = leaveSlot src s)
      ∨ (s.latched &&& src.mask ≠ 0 ∧ ∃ u, exec src.instr s = .next u ∧ t = leaveSlot src u) := by
  simp only [slotStep] at h
  split at h
  · rename_i hl
    obtain ⟨u, hu, ht⟩ := andThen_eq_next.mp h
    exact .inr ⟨hl, u, hu, by simpa using ht.symm⟩
  · rename_i hl
    exact .inl ⟨by simpa using hl, by simpa using h.symm⟩

/-- An invocation that starts was enabled, and the state is that of handler entry (42_irq_dispatch.md R180). -/
theorem startInvocation_eq_next {s t : State} :
    startInvocation s = .next t ↔ irqEnabled s = true ∧ t = handlerEntry s.params.hwrevGiePulse s := by
  simp only [startInvocation, unlessFatal_eq_next]
  constructor
  · rintro ⟨_, h⟩
    split at h
    · rename_i he; exact ⟨he, by simpa using h.symm⟩
    · cases h
  · rintro ⟨he, rfl⟩
    exact ⟨((irqEnabled_iff s).mp he).1, by simp [he]⟩

/-- Where GIE is 1, pulsing it changes nothing (20_memory.md R74). -/
theorem handlerEntry_pulse {s : State} (h : fieldSet s.intEn gieBit = true) (pulse : Bool) :
    handlerEntry pulse s = handlerEntry false s := by
  have hg : ∀ g : Byte, fieldSet g gieBit = true → g &&& ~~~gieBit ||| gieBit = g := by decide +kernel
  cases pulse
  · rfl
  · simp only [handlerEntry, giePulse, setGie, clearIntSrc, setGate, setField_true, setField_false, if_true, hg _ h,
      Bool.false_eq_true, if_false]

/-- The same with the pulse left out, for a proof that goes by the fields of handler entry. -/
theorem startInvocation_cases {s t : State} (h : startInvocation s = .next t) :
    irqEnabled s = true ∧ t = handlerEntry false s := by
  obtain ⟨he, rfl⟩ := startInvocation_eq_next.mp h
  exact ⟨he, handlerEntry_pulse ((irqEnabled_iff s).mp he).2.2.2.1 _⟩

/-- A foreground step takes a micro-step of the command in progress (20_memory.md R70 (a)). -/
theorem fgStep_eq_next {s t : State} :
    fgStep s = .next t ↔ s.fatal = false ∧ ∃ c, s.cmd = some c ∧ microStep c s = .next t := by
  simp only [fgStep, unlessFatal_eq_next]
  cases s.cmd <;> simp

/-- The idle machine goes on with the command in progress, an enabled invocation, the spurious completion that is owed,
or stays as it is (log 4). -/
theorem idleStep_cases {s t : State} (h : idleStep s = .next t) :
    s.fatal = false ∧
      (fgStep s = .next t ∨ (s.cmd = none ∧ startInvocation s = .next t)
        ∨ (s.cmd = none ∧ spurious s = .next t) ∨ t = s) := by
  simp only [idleStep, unlessFatal_eq_next] at h
  refine ⟨h.1, ?_⟩
  have h := h.2
  split at h
  · exact .inl h
  · rename_i hc
    have hc : s.cmd = none := by simpa using hc
    split at h
    · exact .inr (.inl ⟨hc, h⟩)
    · split at h
      · exact .inr (.inr (.inl ⟨hc, h⟩))
      · exact .inr (.inr (.inr (by simpa using h.symm)))

/-- A scheduled move of the environment happens only where its rule enables it (log 3). -/
theorem ifEnabled_eq_next {enabled : Bool} {move : String} {s t : State} :
    ifEnabled enabled move s = .next t ↔ enabled = true ∧ t = s := by
  cases enabled <;> simp [ifEnabled, eq_comm]

/-- A command word either decodes and runs, or is fatal; either way the block was taking commands (43_foreground_api.md
R210, 30_encoding.md R99 (a)). -/
theorem runCommand_cases {w : Nat} {s t : State} (h : runCommand w s = .next t) :
    (∃ i, decodeCmd s.params w = .ok i ∧ exec i s = .next t)
      ∨ ∃ op, acceptsCommand s = true ∧ t = raiseFatal causeIllegalCmd op s := by
  simp only [runCommand] at h
  split at h
  · rename_i i hd
    exact .inl ⟨i, hd, h⟩
  · rename_i e _
    obtain ⟨ha, h⟩ := asCommand_eq_next.mp h
    cases e <;> exact .inr ⟨_, ha, by simpa [undecodedCommand, illegalCommand] using h.symm⟩

/-- An issued word either becomes the command in progress, or is fatal (43_foreground_api.md R210). -/
theorem issueCommand_cases {w : Nat} {s t : State} (h : issueCommand w s = .next t) :
    acceptsCommand s = true ∧
      ((∃ i, decodeCmd s.params w = .ok i ∧ t = { s with cmd := some (startCommand i) })
        ∨ ∃ op, t = raiseFatal causeIllegalCmd op s) := by
  obtain ⟨ha, h⟩ := asCommand_eq_next.mp h
  refine ⟨ha, ?_⟩
  split at h
  · rename_i i hd
    exact .inl ⟨i, hd, by simpa using h.symm⟩
  · rename_i e _
    cases e <;> exact .inr ⟨_, by simpa [undecodedCommand, illegalCommand] using h.symm⟩

/-! ## HOST accesses -/

/-- A note in the command in progress leaves everything but `touched` (log 9). -/
theorem noteTouch_eq (p : Params) (a n : Nat) (c : InProgress) :
    ∃ x, noteTouch p a n c = { c with touched := x } := by
  simp only [noteTouch]
  split
  · split
    · exact ⟨_, rfl⟩
    · exact ⟨c.touched, rfl⟩
  · exact ⟨c.touched, rfl⟩

@[simp] theorem noteTouch_instr (p : Params) (a n : Nat) (c : InProgress) :
    (noteTouch p a n c).instr = c.instr := by
  obtain ⟨x, h⟩ := noteTouch_eq p a n c
  rw [h]

@[simp] theorem noteTouch_at (p : Params) (a n : Nat) (c : InProgress) : (noteTouch p a n c).at_ = c.at_ := by
  obtain ⟨x, h⟩ := noteTouch_eq p a n c
  rw [h]

@[simp] theorem noteTouch_staged (p : Params) (a n : Nat) (c : InProgress) :
    (noteTouch p a n c).staged = c.staged := by
  obtain ⟨x, h⟩ := noteTouch_eq p a n c
  rw [h]

theorem noteAccess_of_idle {s : State} (a n : Nat) (h : s.cmd = none) : noteAccess a n s = s := by
  simp [noteAccess, h]
  rw [← h]

/-- What the HOST may access goes by the ADDR_W bits of an address. -/
@[simp] theorem hostMayWrite_addr (s : State) (a : Nat) : hostMayWrite s (s.params.addr a) = hostMayWrite s a := by
  simp [hostMayWrite]

@[simp] theorem hostMayRead_addr (s : State) (a : Nat) : hostMayRead s (s.params.addr a) = hostMayRead s a := by
  simp [hostMayRead]

/-- A HOST write that answers a next state stored its bytes, outside every window (20_memory.md R64). -/
theorem hostWrite_eq_next {a : Nat} {bytes : List Byte} {s t : State} :
    hostWrite a bytes s = .next t ↔
      firstFailing s.params (hostMayWrite s) a bytes.length = none ∧ firstHole s.params s.noMem a bytes.length = none
        ∧ t = { noteAccess a bytes.length s with mem := writeBytes s.params s.mem a bytes } := by
  simp only [hostWrite]
  split
  · rename_i h
    simp [h]
  · rename_i h
    simp only [h, withMemory_eq_next, Host.Outcome.next.injEq, true_and, eq_comm (a := t)]

/-- A HOST read that answers a next state changed nothing but a note, outside every window the block writes (20_memory.md
R64). -/
theorem hostRead_eq_next {a n : Nat} {s t : State} :
    hostRead a n s = .next t ↔
      firstFailing s.params (hostMayRead s) a n = none ∧ firstHole s.params s.noMem a n = none ∧ t = noteAccess a n s := by
  simp only [hostRead]
  split
  · rename_i h
    simp [h]
  · rename_i h
    simp only [h, withMemory_eq_next, Host.Outcome.next.injEq, true_and, eq_comm (a := t)]

end Sys2Proof.Machine
end

