-- ==== Sys2Proof/Tests/Slice0.lean ====
section
/-! SUPPORT. Tests: every expected value is taken from 95_test_vectors.md or computed by hand from the rule named; and, for
every statement that has hypotheses, a witness that meets them together. -/

namespace Sys2Proof.Tests

set_option Elab.async false

open Sys2Proof Sys2Proof.Machine

/-! ## Helpers -/

/-- The answer is a next state. -/
def isNext : Out → Bool
  | .next _ => true
  | .fault _ | .refused _ => false

/-- A view of the next state, where the answer is one. -/
def view {α : Type} (f : State → α) : Out → Option α
  | .next s => some (f s)
  | .fault _ | .refused _ => none

/-- The fault, where the answer is one. -/
def faultOf : Out → Option Fault
  | .fault f => some f
  | .next _ | .refused _ => none

theorem exists_of_isNext {o : Out} (h : isNext o = true) : ∃ t, o = .next t := by
  cases o with
  | next t => exact ⟨t, rfl⟩
  | fault _ => exact Bool.noConfusion h
  | refused _ => exact Bool.noConfusion h

theorem exists_of_view {α : Type} {f : State → α} {o : Out} {v : α} (h : view f o = some v) :
    ∃ t, o = .next t ∧ f t = v := by
  cases o with
  | next t => exact ⟨t, rfl, Option.some.inj h⟩
  | fault _ => cases h
  | refused _ => cases h

/-- The bytes `b`, `b + 1`, … -/
def rising (b n : Nat) : List Byte := (List.range n).map fun i => BitVec.ofNat 8 (b + i)

/-- The state after the prologue of the programs of 95_test_vectors.md Part 3. -/
def ready : State :=
  { State.reset with
    intEn := 0xDF, irqGate := 0x01, ctl := { control := 0x04, bulkIn := 0x00, bulkOut := 0x04 }
    firstTxcDiscard := false, responses := [0x01] }

/-- `ready` with a schedule. -/
def readyTo (l : List Input) : State := { ready with script := l }

/-- A handler invocation under way at a slot, with `B` latched. -/
def serving (src : Source) (b : Byte) : State :=
  { ready with inHandler := true, irqGate := 0x00, latched := b, slot := some src }

/-- Parameters with addresses of 16 bits and lengths of 8. -/
def narrow : Params := { Params.default with addrW := 16, lenW := 8 }

/-- A FATAL state. -/
def dead : State := { ready with fatal := true, fatalCause := 0x01, fatalInfo := 0x83 }

/-- A send of 100 bytes from 0x1000 after its first fill: ctx[CI] = (0x1040, 100, 64, 36). -/
def halfSent : State :=
  { ready with
    txCtx := { ready.txCtx with control := ⟨0x1040, 100, 64, 36⟩ }, busy := ⟨true, false⟩
    lentTx := ⟨[⟨0x1000, 100, false⟩], []⟩ }

/-- A request of `n` bytes at 0x3000 pending on a receiving channel. -/
def requested (ch : RxCh) (n : Nat) : State :=
  { ready with
    rxCtx := ready.rxCtx.set ch { buffer := 0x3000, total := n, completed := 0, remaining := n, pending := true }
    lentRx := ready.lentRx.set ch [⟨0x3000, n, true⟩] }

/-- `n` bytes 0xA0, 0xA1, … staged on a receiving channel. -/
def stagedOn (ch : RxCh) (n : Nat) : State := { ready with stg := ready.stg.set ch (rising 0xA0 n) }

/-- Bytes in the Rx FIFO of a channel. -/
def arrived (s : State) (ch : RxCh) (bytes : List Byte) : State := { s with rxq := s.rxq.set ch bytes }

/-- The endpoint not ready, and the ring indices as given. -/
def ringAt (rd wr : RingIx) (isReady : Bool) : State :=
  { ready with
    ringRead := rd, ringWrite := wr
    diagStat := if isReady then 0x01 else 0x00, diagCtl := if isReady then 0x00 else 0x01 }

/-- What a test looks at: the last response, the two indices, the hold byte, DIAG_CTL and DIAG_STAT. -/
def ringView (s : State) : List Byte :=
  [s.responses.getLastD 0xFF, s.ringRead.setWidth 8, s.ringWrite.setWidth 8, s.diagHold, s.diagCtl, s.diagStat]

/-- The words of the events of a state. -/
def eventWords (s : State) : List EvtWord := s.events.map (Event.word s.params)

/-! ## Ill-formed terms (30_encoding.md R101) -/

theorem test_wf_submit_xfer_is_no_routed_address :
    [0x80, 0x81, 0x00, (0x02 : Byte)].map (fun a => WellFormed Params.default (.submitXfer a 0 0)) = [false, false, false, false]
      ∧ [0x83, 0x05, 0x01, (0x82 : Byte)].map (fun a => WellFormed Params.default (.submitXfer a 0 0)) = [true, true, true, true] := by
  decide

theorem test_wf_stall_selects_no_channel :
    [0x00, 0x81, (0x02 : Byte)].map (fun a => WellFormed Params.default (.stall a)) = [false, false, false]
      ∧ [0x83, (0x0F : Byte)].map (fun a => WellFormed Params.default (.stall a)) = [true, true] := by decide

theorem test_wf_clear_stall_selects_no_channel :
    [0x00, 0x81, (0x02 : Byte)].map (fun a => WellFormed Params.default (.clearStall a)) = [false, false, false]
      ∧ WellFormed Params.default (.clearStall 0x04) = true := by decide

theorem test_wf_stall_control : WellFormed Params.default (.stallControl 0x81) = false ∧ WellFormed Params.default (.stallControl 0x80) = true := by
  decide

theorem test_wf_stall_bulkin : WellFormed Params.default (.stallBulkin 0x00) = false ∧ WellFormed Params.default (.stallBulkin 0x01) = true := by decide

theorem test_wf_stall_bulkout : WellFormed Params.default (.stallBulkout 0x81) = false ∧ WellFormed Params.default (.stallBulkout 0xF2) = true := by
  decide

theorem test_wf_clear_stall_control :
    WellFormed Params.default (.clearStallControl 0x81) = false ∧ WellFormed Params.default (.clearStallControl 0xF0) = true := by decide

theorem test_wf_clear_stall_bulkin :
    WellFormed Params.default (.clearStallBulkin 0x00) = false ∧ WellFormed Params.default (.clearStallBulkin 0x81) = true := by decide

theorem test_wf_clear_stall_bulkout :
    WellFormed Params.default (.clearStallBulkout 0x81) = false ∧ WellFormed Params.default (.clearStallBulkout 0x02) = true := by decide

/-- Operands one above the largest number of their field (30_encoding.md R95): field P of 32 bits, field L of 16. -/
theorem test_wf_operand_widths :
    [Instr.openEp 0x81 0x10000 2, .openEp 0x81 512 0x100000000, .submitXfer 0x83 0x100000000 0, .sendCtrl 0x100000000 0,
        .sendBulk 0 0x10000, .recvCtrl 0 0x10000, .recvBulk 0x100000000 0, .diagPuts 0 0x10000, .diagPut16 0x10000].map
        (WellFormed Params.default) = List.replicate 9 false
      ∧ [Instr.openEp 0x81 0xFFFF 0xFFFFFFFF, .submitXfer 0x83 0xFFFFFFFF 0xFFFF, .sendCtrl 0xFFFFFFFF 0xFFFF,
        .diagPuts 0xFFFFFFFF 0xFFFF, .diagPut16 0xFFFF].map (WellFormed Params.default) = List.replicate 5 true := by decide

/-! ## Decoding, one word for every row (95_test_vectors.md V6, V7, V8, V9; 30_encoding.md R96) -/

theorem test_decode_init : decodeCmd Params.default 0x0100000000000000 = .ok .init := by decide
theorem test_decode_connect : decodeCmd Params.default 0x0200000000000000 = .ok .connect := by decide
theorem test_decode_disconnect : decodeCmd Params.default 0x0300000000000000 = .ok .disconnect := by decide
theorem test_decode_set_address : decodeCmd Params.default 0x0405000000000000 = .ok (.setAddress 0x05) := by decide
theorem test_decode_remote_wakeup : decodeCmd Params.default 0x0500000000000000 = .ok .remoteWakeup := by decide
theorem test_decode_open_ep : decodeCmd Params.default 0x0681020000000002 = .ok (.openEp 0x81 512 2) := by decide
theorem test_decode_close_ep : decodeCmd Params.default 0x0777000000000000 = .ok (.closeEp 0x77) := by decide
theorem test_decode_submit_xfer : decodeCmd Params.default 0x0883000100001000 = .ok (.submitXfer 0x83 0x1000 1) := by decide
theorem test_decode_send_ctrl : decodeCmd Params.default 0x0880006400001000 = .ok (.sendCtrl 0x1000 100) := by decide
theorem test_decode_send_bulk : decodeCmd Params.default 0x0881040000004000 = .ok (.sendBulk 0x4000 1024) := by decide
theorem test_decode_recv_ctrl : decodeCmd Params.default 0x0800004000003000 = .ok (.recvCtrl 0x3000 64) := by decide
theorem test_decode_recv_bulk : decodeCmd Params.default 0x0802020000002100 = .ok (.recvBulk 0x2100 512) := by decide
theorem test_decode_stall : decodeCmd Params.default 0x090F000000000000 = .ok (.stall 0x0F) := by decide
theorem test_decode_stall_control : decodeCmd Params.default 0x0980000000000000 = .ok (.stallControl 0x80) := by decide
theorem test_decode_stall_bulkin : decodeCmd Params.default 0x0981FFFFFFFFFFFF = .ok (.stallBulkin 0x81) := by decide
theorem test_decode_stall_bulkout : decodeCmd Params.default 0x09F2000000000000 = .ok (.stallBulkout 0xF2) := by decide
theorem test_decode_clear_stall : decodeCmd Params.default 0x0A04000000000000 = .ok (.clearStall 0x04) := by decide
theorem test_decode_clear_stall_control : decodeCmd Params.default 0x0A80000000000000 = .ok (.clearStallControl 0x80) := by decide
theorem test_decode_clear_stall_bulkin : decodeCmd Params.default 0x0A81000000000000 = .ok (.clearStallBulkin 0x81) := by decide
theorem test_decode_clear_stall_bulkout : decodeCmd Params.default 0x0A02000000000000 = .ok (.clearStallBulkout 0x02) := by decide
theorem test_decode_diag_init : decodeCmd Params.default 0x1000000000000000 = .ok .diagInit := by decide
theorem test_decode_diag_putb : decodeCmd Params.default 0x1141000000000000 = .ok (.diagPutb 0x41) := by decide
theorem test_decode_diag_puts : decodeCmd Params.default 0x1200000300004000 = .ok (.diagPuts 0x4000 3) := by decide
theorem test_decode_diag_puthex8 : decodeCmd Params.default 0x133F000000000000 = .ok (.diagPuthex8 0x3F) := by decide
theorem test_decode_diag_put16 : decodeCmd Params.default 0x1400FFFE00000000 = .ok (.diagPut16 0xFFFE) := by decide
theorem test_decode_isr_diag_tx : decodeSrc 0x10 = .ok .isrDiagTx := by decide
theorem test_decode_isr_ctrl_tx : decodeSrc 0x01 = .ok .isrCtrlTx := by decide
theorem test_decode_isr_ctrl_rx : decodeSrc 0x02 = .ok .isrCtrlRx := by decide
theorem test_decode_isr_bus_reset : decodeSrc 0x80 = .ok .isrBusReset := by decide
theorem test_decode_isr_bulkout_rx : decodeSrc 0x08 = .ok .isrBulkoutRx := by decide
theorem test_decode_isr_bulkin_tx : decodeSrc 0x04 = .ok .isrBulkinTx := by decide

/-- Unrecognised opcodes (V9), and a bitmap that names no source (V8). -/
theorem test_decode_refuses :
    decodeCmd Params.default 0x0000000000000000 = .error (.illegalCmd 0x00) ∧ decodeCmd Params.default 0x0B00000000000000 = .error (.illegalCmd 0x0B)
      ∧ decodeCmd Params.default 0x1500000000000000 = .error (.illegalCmd 0x15)
      ∧ decodeCmd Params.default 0xFF123456789ABCDE = .error (.illegalCmd 0xFF) ∧ decodeSrc 0x60 = .error .noSource := by decide

/-- Field extraction (V9). -/
theorem test_fields :
    cmdA Params.default 0xFF123456789ABCDE = 0x12 ∧ cmdL Params.default 0xFF123456789ABCDE = 0x3456 ∧ cmdP Params.default 0xFF123456789ABCDE = 0x789ABCDE := by decide

/-- route(B) (V8). -/
theorem test_route :
    route 0x00 = [] ∧ route 0x60 = [] ∧ route 0x0C = [.isrBulkoutRx, .isrBulkinTx]
      ∧ route 0x11 = [.isrDiagTx, .isrCtrlTx] ∧ route 0x84 = [.isrBusReset, .isrBulkinTx]
      ∧ route 0x93 = [.isrDiagTx, .isrCtrlTx, .isrCtrlRx, .isrBusReset]
      ∧ route 0xFF = [.isrDiagTx, .isrCtrlTx, .isrCtrlRx, .isrBusReset, .isrBulkoutRx, .isrBulkinTx] := by decide

/-- Event words (V10). -/
theorem test_event_words :
    Event.word Params.default ⟨.busReset, true⟩ = 0x018000000000000000000000
      ∧ Event.word Params.default ⟨.setupReceived [0x80, 0x06, 0x00, 0x01, 0x00, 0x00, 0x40, 0x00], true⟩ = 0x028000000040000001000680
      ∧ Event.word Params.default ⟨.xferComplete 0x80 100, true⟩ = 0x038080000000000000000064
      ∧ Event.word Params.default ⟨.xferComplete 0x02 4, false⟩ = 0x030002000000000000000004 := by decide

/-! ## Flags (V8) -/

theorem test_int_src_read :
    ([(0x93, 0xDF), (0x93, 0xDE), (0x1F, 0xCF), (0x9F, 0x40), (0x00, (0xDF : Byte))] : List (Byte × Byte)).map
        (fun p => let s := { ready with pend := p.1, intEn := p.2 }; (intSrc s, (clearIntSrc s).pend))
      = [(0x93, 0x00), (0x92, 0x01), (0x0F, 0x10), (0x00, 0x9F), (0x00, 0x00)] := by decide

theorem test_irq_request :
    irqEnabled { ready with pend := 0x01 } = true ∧ irqEnabled { ready with pend := 0x01, intEn := 0xDE } = false
      ∧ irqEnabled { ready with pend := 0x01, intEn := 0x9F } = false
      ∧ irqEnabled { ready with pend := 0x01, irqGate := 0x00 } = false
      ∧ irqEnabled { serving .diagTx 0x00 with pend := 0x80 } = false
      ∧ irqEnabled { dead with pend := 0x80 } = false ∧ irqEnabled ready = false
      ∧ irqEnabled { State.reset with pend := 0x10, intEn := 0x10 } = false := by decide

/-- STAT at the ends of the queues (10_state.md R45, R49). -/
theorem test_stat_registers :
    statReg .control { ready with txq := ⟨rising 0 64, []⟩, setupLeft := 8 } = 0x07
      ∧ statReg .control { ready with txq := ⟨rising 0 63, []⟩, rxq := ⟨[0], []⟩ } = 0x00
      ∧ statReg .bulkIn { ready with txq := ⟨[], rising 0 512⟩ } = 0x03 ∧ statReg .bulkOut ready = 0x02 := by decide +kernel

/-! ## One step of each instruction -/

/-- INIT (43_foreground_api.md R200), from the reset state. -/
theorem test_init :
    view (fun t => (t.intEn, t.irqGate, t.ctl, t.spuriousArmed, t.responses)) (exec .init State.reset)
      = some (0xDF, 0x01, ⟨0x04, 0x00, 0x04⟩, true, [0x01]) := by decide

/-- INIT empties contexts and staging without an event (R200 steps 2 and 3), and sets the one-shot flag (step 4). -/
theorem test_init_drops_transfers :
    view (fun t => (t.txCtx.control, t.busy.control, t.stg.bulkOut, t.firstTxcDiscard, t.events))
        (exec .init { halfSent with stg := ⟨[], [0xA0]⟩ })
      = some (Ctx.empty, false, [], true, []) := by decide

theorem test_connect : view State.responses (exec .connect ready) = some [0x01, 0x01] := by decide
theorem test_disconnect : view State.responses (exec .disconnect ready) = some [0x01, 0x01] := by decide
theorem test_set_address : view State.responses (exec (.setAddress 0xFF) ready) = some [0x01, 0x01] := by decide
theorem test_remote_wakeup : view State.responses (exec .remoteWakeup ready) = some [0x01, 0x01] := by decide
theorem test_close_ep : view State.responses (exec (.closeEp 0x77) ready) = some [0x01, 0x01] := by decide

/-- OPEN_EP (V9): the diagnostic endpoint is supported, 0x01 is not 0x81. -/
theorem test_open_ep :
    view State.responses (exec (.openEp 0x83 1 3) ready) = some [0x01, 0x01]
      ∧ view State.responses (exec (.openEp 0x01 64 2) ready) = some [0x01, 0x00] := by decide

/-- SUBMIT_XFER (V9): FALSE for the diagnostic endpoint and for an unknown address; no Fatal. -/
theorem test_submit_xfer :
    view (fun t => (t.responses, t.fatal)) (exec (.submitXfer 0x83 0x1000 1) ready) = some ([0x01, 0x00], false)
      ∧ view (fun t => (t.responses, t.fatal)) (exec (.submitXfer 0x01 0x1000 8) ready) = some ([0x01, 0x00], false) := by
  decide

/-- SEND.CTRL of 100 bytes (V2). -/
theorem test_send_ctrl :
    view (fun t => (t.txCtx.control, t.ctl.control, t.intEn, t.busy.control, t.txq.control))
        (exec (.sendCtrl 0x1000 100) { ready with mem := writeBytes Params.default [] 0x1000 (rising 0 100) })
      = some (⟨0x1040, 100, 64, 36⟩, 0x00, 0xDF, true, rising 0 64) := by decide +kernel

/-- The zero-length form (V2): FORCE_TX, an empty FIFO, address 0 not read though nothing is behind it. -/
theorem test_send_ctrl_zlp :
    view (fun t => (t.txCtx.control, t.ctl.control, t.busy.control, t.txq.control))
        (exec (.sendCtrl 0 0) { ready with noMem := [⟨0, 1⟩] })
      = some (⟨0, 0, 0, 0⟩, 0x01, true, []) := by decide +kernel

/-- SEND.BULK (V1): 512 bytes do not force a transmit, 511 do. -/
theorem test_send_bulk :
    view (fun t => (t.txCtx.bulkIn.remaining, t.ctl.bulkIn, t.txq.bulkIn.length)) (exec (.sendBulk 0x4000 512) ready)
        = some (0, 0x00, 512)
      ∧ view (fun t => (t.txCtx.bulkIn.remaining, t.ctl.bulkIn, t.txq.bulkIn.length)) (exec (.sendBulk 0x4000 511) ready)
        = some (0, 0x01, 511) := by decide +kernel

/-- RECV.CTRL with nothing staged (P5 line 4). -/
theorem test_recv_ctrl :
    view (fun t => (t.rxCtx.control, t.ctl.control, t.intEn, t.events)) (exec (.recvCtrl 0x3000 64) ready)
      = some ({ buffer := 0x3000, total := 64, completed := 0, remaining := 64, pending := true }, 0x04, 0xDF, []) := by
  decide

/-- RECV.CTRL of 64 staged bytes (P8 line 13). -/
theorem test_recv_ctrl_staged :
    view (fun t => (eventWords t, t.stg.control, memRead Params.default t.mem 0x503F, t.rxCtx.control.pending))
        (exec (.recvCtrl 0x5000 64) { ready with stg := ⟨rising 0 64, []⟩ })
      = some ([0x030000000000000000000040], [], 0x3F, false) := by decide +kernel

/-- RECV.BULK, 10 staged and 4 asked for (V4 row 1). -/
theorem test_recv_bulk_staged :
    view (fun t => (eventWords t, t.stg.bulkOut, t.mem, t.intEn)) (exec (.recvBulk 0x2000 4) (stagedOn .bulkOut 10))
      = some ([0x030002000000000000000004], [],
          [(0x2000, 0xA0), (0x2001, 0xA1), (0x2002, 0xA2), (0x2003, 0xA3)], 0xDF) := by decide +kernel

/-- RECV.BULK of nothing, nothing staged (V4 row 7): a pending request all the same. -/
theorem test_recv_bulk_zero :
    view (fun t => (t.rxCtx.bulkOut, t.ctl.bulkOut, t.events)) (exec (.recvBulk 0x2000 0) ready)
      = some ({ buffer := 0x2000, total := 0, completed := 0, remaining := 0, pending := true }, 0x04, []) := by decide

/-- STALL 0x0F (V6). -/
theorem test_stall_fatal :
    view (fun t => (t.fatal, t.fatalCause, t.fatalInfo, t.responses, t.ctl)) (exec (.stall 0x0F) ready)
      = some (true, 0x01, 0x0F, [0x01], ⟨0x04, 0x00, 0x04⟩) := by decide

/-- CLEAR_STALL 0x04 (V6). -/
theorem test_clear_stall_fatal :
    view (fun t => (t.fatal, t.fatalCause, t.fatalInfo, t.responses)) (exec (.clearStall 0x04) ready)
      = some (true, 0x02, 0x04, [0x01]) := by decide

/-- STALL 0x80 with a transfer in flight (V6): the context stays. -/
theorem test_stall_control :
    view (fun t => (t.ctl, t.txCtx.control, t.responses)) (exec (.stallControl 0x80) halfSent)
      = some (⟨0x06, 0x00, 0x04⟩, ⟨0x1040, 100, 64, 36⟩, [0x01, 0x01]) := by decide

theorem test_stall_bulkin : view State.ctl (exec (.stallBulkin 0x81) ready) = some ⟨0x04, 0x02, 0x04⟩ := by decide
theorem test_stall_bulkout : view State.ctl (exec (.stallBulkout 0xF2) ready) = some ⟨0x04, 0x00, 0x06⟩ := by decide

theorem test_clear_stall_control :
    view State.ctl (exec (.clearStallControl 0x80) { ready with ctl := ⟨0x06, 0x02, 0x06⟩ }) = some ⟨0x04, 0x02, 0x06⟩ := by
  decide

theorem test_clear_stall_bulkin :
    view State.ctl (exec (.clearStallBulkin 0x81) { ready with ctl := ⟨0x06, 0x02, 0x06⟩ }) = some ⟨0x06, 0x00, 0x06⟩ := by
  decide

theorem test_clear_stall_bulkout :
    view State.ctl (exec (.clearStallBulkout 0x02) { ready with ctl := ⟨0x06, 0x02, 0x06⟩ }) = some ⟨0x06, 0x02, 0x04⟩ := by
  decide

/-- DIAG_INIT zeroes the indices (41_diag_ring.md R161). -/
theorem test_diag_init :
    view ringView (exec .diagInit (ringAt 5 9 false)) = some [0x01, 0, 0, 0x00, 0x01, 0x00] := by decide

/-- DIAG_PUTB with READY = 1 on an empty ring at 7: stored and drained at once (V7). -/
theorem test_diag_putb_drains :
    view ringView (exec (.diagPutb 0x55) (ringAt 7 7 true)) = some [0x01, 8, 8, 0x55, 0x01, 0x00] := by decide

/-- DIAG_PUTB on a full ring with READY = 1: FALSE and nothing sent; at 126 held the write index wraps (V7). -/
theorem test_diag_putb_full :
    view ringView (exec (.diagPutb 0x55) (ringAt 5 4 true)) = some [0x00, 5, 4, 0x00, 0x00, 0x01]
      ∧ view ringView (exec (.diagPutb 0x55) (ringAt 1 127 false)) = some [0x01, 1, 0, 0x00, 0x01, 0x00] := by decide

/-- DIAG_PUTS 0x4000, 3 of 48 69 0A (V7). -/
theorem test_diag_puts :
    view (fun t => (ringBytes t, t.responses))
        (exec (.diagPuts 0x4000 3) { ringAt 0 0 false with mem := writeBytes Params.default [] 0x4000 [0x48, 0x69, 0x0A] })
      = some ([0x48, 0x69, 0x0A], [0x01, 0x01]) := by decide +kernel

/-- DIAG_PUTS with 126 held: one byte queued, FALSE, and 0x4002 not read (V7). -/
theorem test_diag_puts_partial :
    view (fun t => (t.ringWrite, t.responses)) (exec (.diagPuts 0x4000 3) { ringAt 0 126 false with noMem := [⟨0x4002, 1⟩] })
      = some (127, [0x01, 0x00]) := by decide +kernel

theorem test_diag_puthex8 :
    view ringBytes (exec (.diagPuthex8 0x3F) (ringAt 0 0 false)) = some [0x33, 0x46]
      ∧ view ringBytes (exec (.diagPuthex8 0xA0) (ringAt 0 0 false)) = some [0x41, 0x30] := by decide

theorem test_diag_put16 :
    view ringBytes (exec (.diagPut16 0x1234) (ringAt 0 0 false)) = some [0x34, 0x12]
      ∧ view (fun t => (t.ringWrite, ringGet t.ringData 126, t.responses)) (exec (.diagPut16 0x1234) (ringAt 0 126 false))
        = some (127, 0x34, [0x01, 0x00]) := by decide

/-- ISR.DIAG_TX (V7, DRAIN_ONE): the read index wraps. -/
theorem test_isr_diag_tx :
    view ringView (exec .isrDiagTx { ringAt 127 2 true with ringData := (Vector.replicate 128 0).set 127 0x5A })
      = some [0x01, 0, 2, 0x5A, 0x01, 0x00] := by decide

/-- ISR.DIAG_TX does nothing with READY = 0, and nothing on an empty ring (V7). -/
theorem test_isr_diag_tx_idle :
    view ringView (exec .isrDiagTx (ringAt 3 6 false)) = some [0x01, 3, 6, 0x00, 0x01, 0x00]
      ∧ view ringView (exec .isrDiagTx (ringAt 6 6 true)) = some [0x01, 6, 6, 0x00, 0x00, 0x01] := by decide

/-- ISR.CTRL_TX, discarded (V3 row 2): nothing but the flag changes. -/
theorem test_isr_ctrl_tx_discard :
    view (fun t => (t.firstTxcDiscard, t.events, t.txCtx.control, t.txq.control))
        (exec .isrCtrlTx { halfSent with firstTxcDiscard := true })
      = some (false, [], ⟨0x1040, 100, 64, 36⟩, []) := by decide

/-- ISR.CTRL_TX, the second fill (V3 row 4) and the completion (row 5). -/
theorem test_isr_ctrl_tx :
    view (fun t => (t.txCtx.control, t.ctl.control, t.txq.control.length, t.events))
        (exec .isrCtrlTx { halfSent with ctl := ⟨0x00, 0x00, 0x04⟩ })
      = some (⟨0x1064, 100, 100, 0⟩, 0x01, 36, [])
      ∧ view (fun t => (eventWords t, t.txCtx.control, t.busy.control))
        (exec .isrCtrlTx { halfSent with txCtx := ⟨⟨0x1064, 100, 100, 0⟩, Ctx.empty⟩ })
      = some ([0x038080000000000000000064], Ctx.empty, false) := by decide +kernel

/-- ISR.BULKIN_TX (V3 row 9): the one-shot flag is not read, an idle context reports 0 bytes. -/
theorem test_isr_bulkin_tx_idle :
    view (fun t => (eventWords t, t.firstTxcDiscard)) (exec .isrBulkinTx { ready with firstTxcDiscard := true })
      = some ([0x038081000000000000000000], true) := by decide

/-- ISR.BULKIN_TX (V3 row 7). -/
theorem test_isr_bulkin_tx :
    view (fun t => (t.txCtx.bulkIn, t.ctl.bulkIn, t.txq.bulkIn.length))
        (exec .isrBulkinTx { ready with txCtx := ⟨Ctx.empty, ⟨0x4200, 1024, 512, 512⟩⟩, busy := ⟨false, true⟩ })
      = some (⟨0x4400, 1024, 1024, 0⟩, 0x00, 512) := by decide +kernel

/-- ISR.CTRL_RX, the SETUP branch with a request pending (V5 row 1). -/
theorem test_isr_ctrl_rx_setup :
    view (fun t => (eventWords t, t.rxq.control, t.setupLeft, t.rxCtx.control.pending))
        (exec .isrCtrlRx { requested .control 64 with
          rxq := ⟨[0x80, 0x06, 0x00, 0x01, 0x00, 0x00, 0x40, 0x00], []⟩, setupLeft := 8 })
      = some ([0x028000000040000001000680], [], 0, true) := by decide

/-- ISR.CTRL_RX, 60 staged and 10 arriving with nothing requested (V5 row 12). -/
theorem test_isr_ctrl_rx_overflow :
    view (fun t => (t.stg.control, t.rxq.control, t.events))
        (exec .isrCtrlRx (arrived (stagedOn .control 60) .control (rising 0xF0 10)))
      = some (rising 0xA0 60 ++ [0xF0, 0xF1, 0xF2, 0xF3], [], []) := by decide +kernel

/-- ISR.BUS_RESET (40_endpoint_transfer.md R133; P7): FORCE_TX and STALL of Control are cleared, nothing else. -/
theorem test_isr_bus_reset :
    view (fun t => (t.ctl, eventWords t, t.txCtx.control, t.intEn)) (exec .isrBusReset { halfSent with ctl := ⟨0x03, 0x02, 0x06⟩ })
      = some (⟨0x04, 0x02, 0x06⟩, [0x018000000000000000000000], ⟨0x1040, 100, 64, 36⟩, 0xDF) := by decide

/-- ISR.BULKOUT_RX, 10 bytes arrived and 4 requested (V5 row 7): 6 stay in the FIFO. -/
theorem test_isr_bulkout_rx :
    view (fun t => (t.mem, eventWords t, t.rxCtx.bulkOut, t.rxq.bulkOut))
        (exec .isrBulkoutRx (arrived (requested .bulkOut 4) .bulkOut (rising 0xA0 10)))
      = some ([(0x3000, 0xA0), (0x3001, 0xA1), (0x3002, 0xA2), (0x3003, 0xA3)], [0x038002000000000000000004],
          RecvCtx.empty, rising 0xA4 6) := by decide +kernel

/-- ISR.BULKOUT_RX, staging behind what is staged (V5 row 10), and a zero-length packet (row 14). -/
theorem test_isr_bulkout_rx_unrequested :
    view (fun t => (t.stg.bulkOut, t.rxq.bulkOut, t.events))
        (exec .isrBulkoutRx (arrived (stagedOn .bulkOut 10) .bulkOut (rising 0xAA 10)))
      = some (rising 0xA0 20, [], [])
      ∧ view eventWords (exec .isrBulkoutRx ready) = some [0x038002000000000000000000] := by decide +kernel

/-! ## Moves of the environment (V11) -/

theorem test_tx_sent :
    view (fun t => (t.wireTx.control, t.txq.control, t.ctl.control, t.pend))
        (takeInput (.txSent .control) { ready with txq := ⟨rising 0x40 36, []⟩, ctl := ⟨0x01, 0x00, 0x04⟩ })
      = some ([rising 0x40 36], [], 0x00, 0x01)
      ∧ takeInput (.txSent .control) { ready with txq := ⟨rising 0x40 36, []⟩ } = .refused (.moveNotEnabled "TXSENT") := by
  constructor
  · decide +kernel
  · rfl

theorem test_spurious :
    view (fun t => (t.spuriousArmed, t.pend)) (takeInput .spurious { ready with spuriousArmed := true })
      = some (false, 0x01) := by decide

/-- Pending bits rise by themselves in the open environment only, a reserved bit too (R243). -/
theorem test_open_raise :
    view State.pend (takeInput (.openRaise 0x61) { ready with openEnv := true }) = some 0x61
      ∧ takeInput (.openRaise 0x61) ready = .refused (.moveNotEnabled "OPEN") := ⟨by decide, rfl⟩

/-- RXC_DATA reads RXEMPTY, and STAGE reads it again: two draws in the open environment, none in the reference one (R243). -/
theorem test_open_reads :
    (freshRx .bulkOut (freshRx .bulkOut { ready with openEnv := true })).draws = 2
      ∧ freshRx .bulkOut (arrived ready .bulkOut [1]) = arrived ready .bulkOut [1] := ⟨rfl, rfl⟩

/-! ## The parameters of 00_scope.md R7 -/

/-- ADDR_W = 16 and LEN_W = 8: a CMD word of 40 bits, OP in 39:32, A in 31:24, L in 23:16, P in 15:0 (30_encoding.md R91). -/
theorem test_params_widths :
    decodeCmd narrow 0x0880641000 = .ok (.sendCtrl 0x1000 100)
      ∧ encode narrow (.sendCtrl 0x1000 100) = .cmd 0x0880641000
      ∧ decodeCmd narrow 0xFF12345678 = .error (.illegalCmd 0xFF)
      ∧ cmdA narrow 0xFF12345678 = 0x12 ∧ cmdL narrow 0xFF12345678 = 0x34 ∧ cmdP narrow 0xFF12345678 = 0x5678 := by decide

/-- The cursor wraps at 2^ADDR_W (20_memory.md R61), and the second byte is read at address 0. -/
theorem test_params_address_wrap :
    view (fun t => (t.txCtx.control, t.txq.control))
        (exec (.sendCtrl 0xFFFF 2) { ready with params := narrow, mem := [(0, 0x22), (0xFFFF, 0x11)] })
      = some (⟨1, 2, 2, 0⟩, [0x11, 0x22]) := by decide +kernel

/-- Addresses that differ as 92_eei_decisions.md D9 asks, and two that do not. -/
theorem test_params_legal :
    Params.default.Legal ∧ ¬({ Params.default with epaDiag := 0x80 } : Params).Legal
      ∧ ¬({ Params.default with epNumMask := 0x00 } : Params).Legal := by decide +kernel

/-- A Tx FIFO of 128 bytes takes a send of 100 at once, and no transmit is forced, 100 being no less than MPS (D3, R122). -/
theorem test_params_depth :
    view (fun t => (t.txCtx.control, t.ctl.control, t.txq.control.length))
        (exec (.sendCtrl 0x1000 100) { ready with params := { Params.default with txDepthControl := 128 } })
      = some (⟨0x1064, 100, 100, 0⟩, 0x00, 100) := by decide +kernel

/-- Bulk-in at 0x85: the words that select it (30_encoding.md R93, R94). -/
theorem test_params_epa :
    decodeCmd { Params.default with epaBulkIn := 0x85 } 0x0885000100001000 = .ok (.sendBulk 0x1000 1)
      ∧ decodeCmd { Params.default with epaBulkIn := 0x85 } 0x0905000000000000 = .ok (.stallBulkin 0x05)
      ∧ decodeCmd { Params.default with epaBulkIn := 0x85 } 0x0981000000000000 = .ok (.stall 0x81) := by decide

/-- HEX_ALPHA 0x61: lower-case digits (41_diag_ring.md R167). -/
theorem test_params_hex : hexBytes { Params.default with hexAlpha := 0x61 } 0xA9 = [0x61, 0x39] := by decide

/-- The register map of 10_state.md R40 at a base, and the fields of CTL and STAT at other positions. -/
theorem test_register_map :
    regAddr { Params.default with regBase := 0x40000000 } (.ctl .bulkOut) = 0x4000000C
      ∧ regAddr Params.default .diagData = 0x12
      ∧ regValue (.ctl .control) { ready with ctl := ⟨0x06, 0, 0⟩ } = some 0x06
      ∧ regValue .intEn ready = some 0xDF
      ∧ regValue (.ctl .control)
          { ready with
            ctl := ⟨0x06, 0, 0⟩, params := { Params.default with layout := { BitLayout.default with stall := 7 } } }
        = some 0x84 := by decide +kernel

/-! ## Borrow windows (20_memory.md R64) -/

/-- INIT emits no completion, so the window of the send it drops stays open; the completion event closes it. -/
theorem test_window_closes_at_completion :
    view windows (exec .init halfSent) = some [⟨0x1000, 100, false⟩]
      ∧ view windows (exec .isrCtrlTx { halfSent with txCtx := ⟨⟨0x1064, 100, 100, 0⟩, Ctx.empty⟩ }) = some [] := by
  decide +kernel

/-- The HOST reads a byte of the buffer after the issue of a receive, a packet is then staged, and micro-step 2 finds it:
the window was the command itself. -/
theorem test_window_staged_receive :
    view (fun t => t.cmd.bind InProgress.touched)
        (step { readyTo [.hostRead 0x2003 1] with cmd := some (startCommand (.recvBulk 0x2000 4)) })
      = some (some 0x2003)
      ∧ step { stagedOn .bulkOut 10 with
          script := [.fg]
          cmd := some { startCommand (.recvBulk 0x2000 4) with at_ := 2, touched := some 0x2003 } }
        = .refused (.borrowWindow 0x2003) := ⟨by decide +kernel, rfl⟩

/-! ## Micro-steps of SEND.CTRL (V2, rows 2 and 3) -/

theorem test_micro_send :
    view State.intEn (step { readyTo [.fg] with cmd := some { startCommand (.sendCtrl 0x1000 100) with at_ := 2 } })
        = some 0xDE
      ∧ view (fun t => (t.txCtx.control, t.busy.control))
          (step { readyTo [.fg] with cmd := some { startCommand (.sendCtrl 0x1000 100) with at_ := 3 } })
        = some (⟨0x1000, 100, 0, 100⟩, true) := by decide

/-! ## The wrap of addresses (20_memory.md R61) -/

theorem test_address_wrap : writeBytes Params.default [] 0xFFFFFFFF [0x11, 0x22] = [(0, 0x22), (0xFFFFFFFF, 0x11)] := by decide +kernel

/-! ## Running table words from reset -/

theorem test_decode_table_word :
    decodeTableWord 64 0x0880000000000000 = some (.sendCtrl 0 0) ∧ decodeTableWord 8 0x80 = some .isrBusReset := by decide

theorem test_fetch_word :
    view (fun t => (t.responses, t.script)) (step (State.reset.withFetchWord 64 0x0100000000000000)) = some ([0x01], [])
      ∧ view (fun t => (eventWords t, t.slot)) (step (State.reset.withFetchWord 8 0x80))
        = some ([0x018000000000000000000000], some .bulkoutRx) := by decide

/-! ## Witnesses: for each statement with hypotheses, states and operands that meet all of them -/

theorem test_witness_StepRunsTheDecodedCommand :
    (readyTo [.command 0x0880006400001000]).inHandler = false
      ∧ (readyTo [.command 0x0880006400001000]).script = .command 0x0880006400001000 :: []
      ∧ decodeCmd Params.default 0x0880006400001000 = .ok (.sendCtrl 0x1000 100) := ⟨rfl, rfl, by decide +kernel⟩

/-- Both clauses: the bit of the slot set, and not set. -/
theorem test_witness_StepRunsTheSlotOperation :
    ∀ src ∈ slotOrder, ∀ b ∈ [src.mask, ~~~src.mask],
      (serving src b).inHandler = true ∧ (serving src b).fatal = false ∧ (serving src b).slot = some src
        ∧ (b = src.mask → (serving src b).latched &&& src.mask ≠ 0)
        ∧ (b = ~~~src.mask → (serving src b).latched &&& src.mask = 0) := by decide +kernel

theorem test_witness_DecodeOfEncode :
    Params.default.Legal ∧ WellFormed Params.default (.stallBulkout 0xF2) = true
      ∧ WellFormed Params.default (.submitXfer 0xFF 0xFFFFFFFF 0xFFFF) = true := by decide +kernel

/-- Both clauses, at the defaults and at a word of 40 bits. -/
theorem test_witness_DecodedWordsReencode :
    0x09F2FFFFFFFFFFFF < 2 ^ (16 + Params.default.lenW + Params.default.addrW)
      ∧ decodeCmd Params.default 0x09F2FFFFFFFFFFFF = .ok (.stallBulkout 0xF2)
      ∧ 0x09F2FFFFFF < 2 ^ (16 + narrow.lenW + narrow.addrW) ∧ decodeCmd narrow 0x09F2FFFFFF = .ok (.stallBulkout 0xF2) := by
  decide +kernel

/-- The opcodes at the ends of the gaps of the opcode map, run at once and issued. -/
theorem test_witness_IllegalCommandIsFatal :
    ∀ op ∈ [0x00, 0x0B, 0x0F, 0x15, (0xFF : Byte)], ∀ m ∈ [Input.command (cmdWord Params.default op 0 0 0), .issue (cmdWord Params.default op 0 0 0)],
      acceptsCommand (readyTo [m]) = true
        ∧ cmdOp Params.default (cmdWord Params.default op 0 0 0) ∉
          [0x01, 0x02, 0x03, 0x04, 0x05, 0x06, 0x07, 0x08, 0x09, 0x0A, 0x10, 0x11, 0x12, 0x13, (0x14 : Byte)]
        ∧ (m = .command (cmdWord Params.default op 0 0 0) ∨ m = .issue (cmdWord Params.default op 0 0 0)) ∧ (readyTo [m]).script = m :: [] := by
  decide +kernel

/-- The set and the clear bit of a source. -/
theorem test_witness_RouteIsTheSlotOrder : Instr.isrBusReset ∈ route 0x80 ∧ Instr.isrBusReset ∉ route 0x7F := by decide +kernel

theorem test_witness_HardResetLeavesResetState :
    ({ dead with script := [.hardReset] } : State).inHandler = false
      ∧ ({ dead with script := [.hardReset] } : State).script = .hardReset :: [] := ⟨rfl, rfl⟩

theorem test_witness_StepKeepsInvariant :
    MachineInv (readyTo [.command 0x0880006400001000])
      ∧ ∃ t, step (readyTo [.command 0x0880006400001000]) = .next t :=
  ⟨⟨by decide +kernel, by decide +kernel, by decide +kernel, by decide +kernel, by decide +kernel, by decide +kernel,
    by decide +kernel, by decide +kernel⟩, exists_of_isNext (by decide +kernel)⟩

/-- Both clauses: a step, and a Tx-complete that goes on filling. -/
theorem test_witness_SendCountersAreConserved :
    CtxConserved halfSent.params (halfSent.txCtx.get .control)
      ∧ (∃ t, step { halfSent with script := [.busReset] } = .next t)
      ∧ NotDiscarded .control halfSent ∧ (halfSent.txCtx.get .control).remaining ≠ 0
      ∧ ∃ t, exec (txCompleteInstr .control) halfSent = .next t :=
  ⟨by decide +kernel, exists_of_isNext (by decide +kernel), fun _ => rfl, by decide +kernel, exists_of_isNext (by decide +kernel)⟩

/-- RECV.BULK in progress, before micro-step 3, its source masked, a control source being serviced. -/
def midReceive (b : Byte) : State :=
  { serving .ctrlTx b with
    intEn := 0xD7
    cmd := some { instr := .recvBulk 0x2000 4, at_ := 3, round := 0, byte := 0, staged := false, ok := false
                  touched := none } }

theorem test_witness_StepKeepsStagingInvariant :
    StagingInv .bulkOut (midReceive 0x01) ∧ (∃ t, step (midReceive 0x01) = .next t)
      ∧ StagingInv .bulkOut (stagedOn .bulkOut 10) ∧ ∃ t, step (stagedOn .bulkOut 10) = .next t := by
  refine ⟨⟨by decide +kernel, ?_⟩, exists_of_isNext (by decide +kernel), ⟨by decide +kernel, ?_⟩, exists_of_isNext (by decide +kernel)⟩
  · intro c h _
    cases h
    exact ⟨fun _ => by decide +kernel, fun _ => by decide +kernel⟩
  · intro c h
    cases h

theorem test_witness_NoOpCommandsOnlyRespond :
    acceptsCommand ready = true
      ∧ ∀ p ∈ [((0x02FFFFFFFFFFFFFF : Nat), Instr.connect), (0x0300000000000000, .disconnect),
          (0x0405000000000000, .setAddress 0x05), (0x0500000000000000, .remoteWakeup), (0x0777000000000000, .closeEp 0x77)],
        (cmdOp Params.default p.1, p.2) ∈ [(0x02, Instr.connect), (0x03, .disconnect), (0x04, .setAddress (cmdA Params.default p.1)), (0x05, .remoteWakeup),
          ((0x07 : Byte), .closeEp (cmdA Params.default p.1))] := by decide +kernel

/-- Both answers. -/
theorem test_witness_OpenEpAnswersSupported :
    acceptsCommand ready = true
      ∧ (0x83 : Byte) ∈ [ready.params.epaCtrlOut, ready.params.epaCtrlIn, ready.params.epaBulkIn, ready.params.epaBulkOut, ready.params.epaDiag]
      ∧ (0x01 : Byte) ∉ [ready.params.epaCtrlOut, ready.params.epaCtrlIn, ready.params.epaBulkIn, ready.params.epaBulkOut, ready.params.epaDiag] := by
  decide +kernel

theorem test_witness_UnroutedSubmitIsFalse :
    acceptsCommand ready = true ∧ ∀ a ∈ [0x83, 0x01, 0x82, (0xFF : Byte)],
      a ∉ [ready.params.epaCtrlOut, ready.params.epaCtrlIn, ready.params.epaBulkIn, ready.params.epaBulkOut] := by
  decide +kernel

theorem test_witness_InitConfiguresTheBlock : acceptsCommand State.reset = true ∧ acceptsCommand halfSent = true := by
  decide +kernel

/-- The three clauses: FATAL, inside a handler, another command in progress. -/
theorem test_witness_CommandsAreTakenInTheForeground :
    encode Params.default .connect = .cmd 0x0200000000000000 ∧ dead.fatal = true
      ∧ ((serving .diagTx 0x10).fatal = false ∧ (serving .diagTx 0x10).inHandler = true)
      ∧ (({ ready with cmd := some (startCommand .init) } : State).fatal = false
        ∧ ({ ready with cmd := some (startCommand .init) } : State).inHandler = false
        ∧ ({ ready with cmd := some (startCommand .init) } : State).cmd.isSome = true) := by decide +kernel

/-- Lengths at and around one packet, and the longest; a FIFO that is full; in the open environment, a send of no bytes. -/
theorem test_witness_SendSubmitsAndFills :
    (∀ p ∈ [((TxCh.control, 0), 0), ((.control, 63), 63), ((.control, 64), 64), ((.control, 65), 64), ((.bulkIn, 511), 511),
        ((.bulkIn, 512), 512), ((.bulkIn, (0xFFFF : Nat)), (512 : Nat))],
      acceptsCommand ready = true ∧ ready.busy.get p.1.1 = false ∧ ready = freshTx p.1.1 ready
        ∧ p.2 = min p.1.2 (ready.params.txDepth p.1.1 - (ready.txq.get p.1.1).length)
        ∧ ∀ j < p.2, hasMemory Params.default ready.noMem (0xFFFFFFF0 + j) = true)
      ∧ (∀ s ∈ [{ ready with txq := ⟨rising 0 64, []⟩ }], acceptsCommand s = true ∧ s.busy.get .control = false
        ∧ s = freshTx .control s
        ∧ 0 = min 10 (s.params.txDepth .control - (s.txq.get .control).length)
        ∧ ∀ j < 0, hasMemory Params.default s.noMem (0 + j) = true)
      ∧ ∃ e, acceptsCommand { ready with openEnv := true } = true ∧ e = freshTx .control { ready with openEnv := true }
        ∧ 0 = min 0 (Params.default.txDepth .control - (e.txq.get .control).length) :=
  ⟨by decide +kernel, by decide +kernel, _, by decide +kernel, rfl, by simp⟩

/-- Sends of one byte less than a packet and of a packet. -/
theorem test_witness_FirstFillForcesShortPackets :
    ∀ p ∈ [(TxCh.control, (63 : Nat)), (.control, 64), (.bulkIn, 511), (.bulkIn, 512)],
      ready.params.txDepth p.1 = Config.mps p.1 ∧ (freshTx p.1 ready).txq.get p.1 = []
        ∧ fieldSet (ready.ctl.get (txChannel p.1)) 0x01 = false
        ∧ ∃ t, exec (sendInstr p.1 0x1000 p.2) ready = .next t := by
  simp only [List.mem_cons, List.not_mem_nil, or_false, forall_eq_or_imp, forall_eq]
  exact ⟨⟨rfl, rfl, by decide +kernel, exists_of_isNext (by decide +kernel)⟩,
    ⟨rfl, rfl, by decide +kernel, exists_of_isNext (by decide +kernel)⟩,
    ⟨rfl, rfl, by decide +kernel, exists_of_isNext (by decide +kernel)⟩,
    ⟨rfl, rfl, by decide +kernel, exists_of_isNext (by decide +kernel)⟩⟩

/-- Both clauses, on both channels of each. -/
theorem test_witness_SecondSubmissionIsRefused :
    (∀ ch ∈ [TxCh.control, .bulkIn], acceptsCommand { ready with busy := ⟨true, true⟩ } = true
        ∧ ({ ready with busy := ⟨true, true⟩ } : State).busy.get ch = true)
      ∧ ∀ ch ∈ [RxCh.control, .bulkOut], acceptsCommand (requested ch 0) = true ∧ (requested ch 0).stg.get ch = []
        ∧ ((requested ch 0).rxCtx.get ch).pending = true := by decide +kernel

/-- The hole is at the third byte of each access: a send's fill, a staged receive, a refill, a drain; and at the second and
the first byte DIAG_PUTS reads. -/
theorem test_witness_AccessWithoutMemoryIsStuck :
    (∀ s ∈ [{ ready with noMem := [⟨0x1002, 1⟩] }], acceptsCommand s = true ∧ s.busy.get .control = false
        ∧ 2 < min 3 (s.params.txDepth .control - ((freshTx .control s).txq.get .control).length)
        ∧ (∀ i < 2, hasMemory s.params s.noMem (0x1000 + i) = true) ∧ hasMemory s.params s.noMem (0x1000 + 2) = false)
      ∧ (∀ s ∈ [{ stagedOn .bulkOut 10 with noMem := [⟨0x2002, 1⟩] }], acceptsCommand s = true
        ∧ 2 < min (s.stg.get .bulkOut).length (s.params.len 3)
        ∧ (∀ i < 2, hasMemory s.params s.noMem (0x2000 + i) = true) ∧ hasMemory s.params s.noMem (0x2000 + 2) = false)
      ∧ (∀ s ∈ [{ ready with noMem := [⟨0x4001, 1⟩] }], acceptsCommand s = true ∧ 1 < s.params.len 2
        ∧ (putBytes (readBytes s.params s.mem 0x4000 1) s).1 = true
        ∧ (∀ i < 1, hasMemory s.params s.noMem (0x4000 + i) = true) ∧ hasMemory s.params s.noMem (0x4000 + 1) = false
        ∧ (putBytes (readBytes s.params s.mem 0x4001 0) s).1 = true)
      ∧ (∀ s ∈ [{ halfSent with noMem := [⟨0x1042, 1⟩] }], s.fatal = false ∧ s.firstTxcDiscard = false
        ∧ 2 < min (s.txCtx.get .control).remaining (s.params.txDepth .control - ((freshTx .control s).txq.get .control).length)
        ∧ (∀ i < 2, hasMemory s.params s.noMem ((s.txCtx.get .control).buffer + i) = true)
        ∧ hasMemory s.params s.noMem ((s.txCtx.get .control).buffer + 2) = false)
      ∧ ∀ s ∈ [{ arrived (requested .bulkOut 4) .bulkOut (rising 0xA0 10) with noMem := [⟨0x3002, 1⟩] }], s.fatal = false
        ∧ (s.rxCtx.get .bulkOut).pending = true
        ∧ 2 < min (s.rxCtx.get .bulkOut).total ((freshRx .bulkOut (rxStart .bulkOut s)).rxq.get .bulkOut).length
        ∧ (∀ i < 2, hasMemory s.params s.noMem ((s.rxCtx.get .bulkOut).buffer + i) = true)
        ∧ hasMemory s.params s.noMem ((s.rxCtx.get .bulkOut).buffer + 2) = false := by decide +kernel

/-- The drain of an Rx-complete stops at a hole (93_implementation_defined.md U13). -/
theorem test_drain_without_memory :
    faultOf (exec .isrBulkoutRx { arrived (serving .bulkoutRx 0x08) .bulkOut [1] with
        rxCtx := (requested .bulkOut 4).rxCtx, noMem := [⟨0x3000, 1⟩] }) = some (.noMemory 0x3000) := by decide +kernel

theorem test_witness_SendFrame :
    (∃ t, exec (sendInstr .control 0x1000 0) ready = .next t)
      ∧ ∃ t, exec (sendInstr .bulkIn 0x1000 0xFFFF) ready = .next t :=
  ⟨exists_of_isNext (by decide +kernel), exists_of_isNext (by decide +kernel)⟩

theorem test_witness_RecvRecordsTheRequest :
    ∀ ch ∈ [RxCh.control, .bulkOut],
      acceptsCommand ready = true ∧ ready.stg.get ch = [] ∧ (ready.rxCtx.get ch).pending = false := by decide +kernel

/-- Fewer bytes asked for than staged, none, exactly as many, and more. -/
theorem test_witness_RecvDeliversStagedBytes :
    ∀ len ∈ [4, 0, 10, (0xFFFF : Nat)], acceptsCommand (stagedOn .bulkOut 10) = true
      ∧ (stagedOn .bulkOut 10).stg.get .bulkOut ≠ []
      ∧ ∀ j < min ((stagedOn .bulkOut 10).stg.get .bulkOut).length len,
        hasMemory Params.default (stagedOn .bulkOut 10).noMem (0x2000 + j) = true :=
  fun _ _ => ⟨by decide +kernel, by decide +kernel, fun _ _ => rfl⟩

theorem test_witness_StagedBytesReadBack :
    Memory.wf Params.default (stagedOn .control 64).mem ∧ (stagedOn .control 64).stg.get .control ≠ []
      ∧ 64 = min ((stagedOn .control 64).stg.get .control).length (Params.default.len 64) ∧ 64 ≤ 2 ^ Params.default.addrW
      ∧ ∃ t, exec (recvInstr .control 0x5000 64) (stagedOn .control 64) = .next t :=
  ⟨by decide +kernel, by decide +kernel, by decide +kernel, by decide +kernel, exists_of_isNext (by decide +kernel)⟩

theorem test_witness_RecvFrame :
    Memory.wf Params.default ready.mem ∧ (∃ t, exec (recvInstr .bulkOut 0x2000 512) ready = .next t)
      ∧ Memory.wf Params.default (stagedOn .control 64).mem
      ∧ ∃ t, exec (recvInstr .control 0x5000 64) (stagedOn .control 64) = .next t :=
  ⟨by decide +kernel, exists_of_isNext (by decide +kernel), by decide +kernel, exists_of_isNext (by decide +kernel)⟩

theorem test_witness_StallWritesOneBit : acceptsCommand ready = true ∧ acceptsCommand halfSent = true := by decide +kernel

theorem test_witness_StallElsewhereIsFatal :
    acceptsCommand ready = true ∧ ∀ a ∈ [0x83, 0x03, 0x0F, (0xFF : Byte)],
      a &&& ready.params.epNumMask ∉
        [ready.params.epaCtrlOut, ready.params.epaBulkIn, ready.params.epaBulkOut].map (· &&& ready.params.epNumMask) := by
  decide +kernel

theorem test_witness_DiagInitEmptiesTheRing : acceptsCommand (ringAt 5 9 false) = true := by decide +kernel

/-- Both clauses, each with no byte held and with 126. -/
theorem test_witness_PutByteQueuesInOrder :
    ∀ wr ∈ [5, (3 : RingIx)], ∀ r ∈ [false, true], acceptsCommand (ringAt 5 wr r) = true ∧ ringHeld (ringAt 5 wr r) < 127
      ∧ ringAt 5 wr r = freshReady (ringAt 5 wr r) ∧ fieldSet (ringAt 5 wr r).diagStat 0x01 = r := by decide +kernel

theorem test_witness_PutByteOnFullRingFails :
    ∀ r ∈ [false, true], acceptsCommand (ringAt 5 4 r) = true ∧ ringHeld (ringAt 5 4 r) = 127 := by decide +kernel

/-- Room for two bytes, for one and for none, the endpoint ready and not. -/
theorem test_witness_TwoByteHelpersQueueWhatFits :
    ∀ wr ∈ [125, 126, (127 : RingIx)], ∀ r ∈ [false, true],
      acceptsCommand (ringAt 0 wr r) = true ∧ (ringAt 0 wr r).openEnv = false
        ∧ fieldSet (ringAt 0 wr r).diagStat 0x01 = r ∧ ringHeld (ringAt 0 wr r) = wr.toNat := by decide +kernel

/-- Nothing to write, what just fits, one byte too many, and a full ring; the endpoint not ready and ready, where one byte
more fits. -/
theorem test_witness_PutStringQueuesWhatFits :
    ∀ p ∈ [((0 : RingIx), (0 : Nat), false, 127), (0, 127, false, 127), (0, 128, false, 127), (127, 3, false, 0),
        (0, 0, true, 128), (0, 128, true, 128), (0, 129, true, 128), (126, 2, true, 2), (127, 3, true, 0)],
      acceptsCommand (ringAt 0 p.1 p.2.2.1) = true ∧ (ringAt 0 p.1 p.2.2.1).openEnv = false
        ∧ p.2.2.2 = (if fieldSet (ringAt 0 p.1 p.2.2.1).diagStat 0x01 = true ∧ ringHeld (ringAt 0 p.1 p.2.2.1) < 127 then 128
          else 127) - ringHeld (ringAt 0 p.1 p.2.2.1)
        ∧ ∀ j < min p.2.1 (p.2.2.2 + 1),
          hasMemory Params.default (ringAt 0 p.1 p.2.2.1).noMem (0x4000 + j) = true :=
  fun p h => ⟨rfl, rfl, by revert p; decide +kernel, fun _ _ => rfl⟩

theorem test_witness_DiagPutFrame :
    ∀ i ∈ [Instr.diagPutb 0x41, .diagPuts 0x4000 3, .diagPuthex8 0x41, .diagPut16 0x1234],
      i ∈ [Instr.diagPutb 0x41, .diagPuts 0x4000 3, .diagPuthex8 0x41, .diagPut16 0x1234]
        ∧ ∃ t, exec i (ringAt 0 126 false) = .next t := by
  intro i h
  refine ⟨h, exists_of_isNext ?_⟩
  revert i
  decide +kernel

/-- One byte of room, two commands. -/
theorem test_witness_RingCapacityLaw :
    ∀ s ∈ [{ ringAt 0 126 false with script := [0x41, (0x42 : Byte)].map (fun b => Input.command (cmdWord Params.default 0x11 b 0 0)) ++ [] }],
      acceptsCommand s = true ∧ s.openEnv = false ∧ fieldSet s.diagStat 0x01 = false
        ∧ s.script = [0x41, (0x42 : Byte)].map (fun b => Input.command (cmdWord Params.default 0x11 b 0 0)) ++ [] := by decide +kernel

/-- Both arms: a byte to send, none, and the endpoint not ready. -/
theorem test_witness_DiagTxDrainsOneByte :
    (∀ s ∈ [ringAt 3 6 true, ringAt 6 6 true, ringAt 3 6 false], s.fatal = false ∧ s = freshReady s)
      ∧ ((ringAt 3 6 true).ringRead ≠ (ringAt 3 6 true).ringWrite ∧ fieldSet (ringAt 3 6 true).diagStat 0x01 = true) := by
  decide +kernel

theorem test_witness_FirstControlCompletionIsDiscarded :
    ({ halfSent with firstTxcDiscard := true } : State).fatal = false
      ∧ ({ halfSent with firstTxcDiscard := true } : State).firstTxcDiscard = true := by decide +kernel

/-- Idle contexts, and on BulkIn with the one-shot flag set. -/
theorem test_witness_TxCompleteReports :
    (ready.fatal = false ∧ NotDiscarded .control ready ∧ (ready.txCtx.get .control).remaining = 0)
      ∧ State.reset.fatal = false ∧ NotDiscarded .bulkIn State.reset ∧ (State.reset.txCtx.get .bulkIn).remaining = 0 :=
  ⟨⟨rfl, fun _ => rfl, rfl⟩, rfl, fun h => (nomatch h), rfl⟩

theorem test_witness_TxCompleteRefills :
    halfSent.fatal = false ∧ NotDiscarded .control halfSent ∧ (halfSent.txCtx.get .control).remaining ≠ 0
      ∧ CtxConserved halfSent.params (halfSent.txCtx.get .control) ∧ halfSent = freshTx .control halfSent
      ∧ 36 = min (halfSent.txCtx.get .control).remaining (halfSent.params.txDepth .control - (halfSent.txq.get .control).length)
      ∧ ∀ j < 36, hasMemory Params.default halfSent.noMem ((halfSent.txCtx.get .control).buffer + j) = true :=
  ⟨rfl, fun _ => rfl, by decide +kernel, by decide +kernel, rfl, by decide +kernel, by decide +kernel⟩

/-- A request pending and a whole packet; and fewer bytes than the 8 reads take (V5 rows 1 and 15). -/
theorem test_witness_SetupBypassesPendingRequest :
    ∀ s ∈ [{ requested .control 64 with setupLeft := 8 }, { arrived ready .control [1, 2, 3] with setupLeft := 1 }],
      s.fatal = false ∧ s = freshRx .control (freshSetup s) ∧ 0 < s.setupLeft := by decide +kernel

/-- A request longer than the packet, shorter, and of no bytes. -/
theorem test_witness_RxCompleteFillsTheRequest :
    ∀ p ∈ [((512 : Nat), (10 : Nat)), (4, 4), (0, 0)], ∀ s ∈ [arrived (requested .bulkOut p.1) .bulkOut (rising 0xA0 10)],
      s.fatal = false ∧ s.setupLeft = 0 ∧ (s.rxCtx.get .bulkOut).pending = true
        ∧ s = freshRx .bulkOut (rxStart .bulkOut s)
        ∧ p.2 = min (s.rxCtx.get .bulkOut).total (s.rxq.get .bulkOut).length
        ∧ ∀ j < p.2, hasMemory Params.default s.noMem ((s.rxCtx.get .bulkOut).buffer + j) = true := by decide +kernel

theorem test_witness_DataBranch : DataBranch .control ready ∧ DataBranch .bulkOut { ready with setupLeft := 8 } :=
  ⟨fun _ => rfl, fun h => nomatch h⟩

/-- Both clauses: an empty FIFO, and bytes that find the staging buffer full. -/
theorem test_witness_RxCompleteWithoutRequest :
    (ready.fatal = false ∧ DataBranch .control ready ∧ (ready.rxCtx.get .control).pending = false
        ∧ ready = freshRx .control (rxStart .control ready) ∧ ready = freshRx .control ready ∧ ready.rxq.get .control = [])
      ∧ (∀ s ∈ [arrived (stagedOn .control 64) .control [0xF0]], s.fatal = false ∧ s.setupLeft = 0
        ∧ (s.rxCtx.get .control).pending = false ∧ s = freshRx .control (rxStart .control s) ∧ s.rxq.get .control ≠ []
        ∧ (s.stg.get .control).length ≤ Config.stgCap .control) :=
  ⟨⟨rfl, fun _ => rfl, rfl, rfl, rfl, rfl⟩, by decide +kernel⟩

theorem test_witness_BusResetTouchesControlOnly : (serving .busReset 0x80).fatal = false := by decide +kernel

/-- Both clauses: a Tx-complete that fills and one that reports; an Rx-complete in the SETUP branch with a request pending
(which stores nothing), with all 8 bytes and with 5, in the pending branch, and with nothing pending. -/
theorem test_witness_CompletionHandlerFrame :
    (∃ t, exec (txCompleteInstr .control) halfSent = .next t) ∧ (∃ t, exec (txCompleteInstr .bulkIn) ready = .next t)
      ∧ (∀ s ∈ [{ requested .control 64 with setupLeft := 8, rxq := ⟨rising 0 8, []⟩ },
          { requested .control 64 with setupLeft := 3, rxq := ⟨rising 0 5, []⟩ }],
        Memory.wf s.params s.mem ∧ isNext (exec (rxCompleteInstr .control) s) = true ∧ s.openEnv = false
          ∧ (freshSetup s).setupLeft ≠ 0)
      ∧ (∀ s ∈ [arrived (requested .bulkOut 4) .bulkOut (rising 0xA0 10)],
        Memory.wf s.params s.mem ∧ isNext (exec (rxCompleteInstr .bulkOut) s) = true ∧ (s.rxCtx.get .bulkOut).pending = true)
      ∧ ∀ s ∈ [arrived ready .bulkOut (rising 0xA0 10)],
        Memory.wf s.params s.mem ∧ isNext (exec (rxCompleteInstr .bulkOut) s) = true ∧ (s.rxCtx.get .bulkOut).pending = false :=
  ⟨exists_of_isNext (by decide +kernel), exists_of_isNext (by decide +kernel), by decide +kernel, by decide +kernel,
    by decide +kernel⟩

/-- A pending and enabled source, and the same with the gate closed. -/
theorem test_witness_InvocationStartsExactlyWhenRequested :
    ∀ s ∈ [{ readyTo [.irq] with pend := 0x80 }], s.inHandler = false ∧ s.script = .irq :: []
      ∧ irqEnabled s = true ∧ irqEnabled { s with irqGate := 0x00 } = false ∧ ({ s with irqGate := 0x00 } : State).fatal = false := by
  decide +kernel

/-- All six sources enabled and pending, and one of two masked; with nothing scheduled and no command in progress. -/
theorem test_witness_EntryLatchesEnabledSources :
    irqEnabled { ready with pend := 0x9F } = true ∧ irqEnabled { ready with pend := 0x03, intEn := 0xDE } = true
      ∧ ready.script = [] ∧ ready.cmd = none := by decide +kernel

theorem test_witness_SevenStepsAreOneInvocation :
    ({ readyTo [.irq, .busReset] with pend := 0x93 } : State).inHandler = false
      ∧ ({ readyTo [.irq, .busReset] with pend := 0x93 } : State).script = .irq :: [.busReset]
      ∧ ∃ t, invocation { readyTo [.busReset] with pend := 0x93 } = .next t :=
  ⟨rfl, rfl, exists_of_isNext (by decide +kernel)⟩

/-- A slot that is run while another source is masked and not latched, for each of the three clauses; and a bus reset, the
one step that may write the CTL[Control] of a masked source. -/
theorem test_witness_MaskedSourceIsNotServiced :
    ∀ p ∈ [(Source.ctrlTx, Source.ctrlRx), (.ctrlTx, .busReset), (.bulkoutRx, .ctrlTx), (.diagTx, .ctrlRx)],
      ∀ s ∈ [{ serving p.2 p.2.mask with intEn := 0xDF &&& ~~~p.1.mask }],
        s.inHandler = true ∧ isNext (step s) = true ∧ Excluded p.1 s ∧ (s.slot = some .busReset ↔ p.2 = .busReset) := by
  decide +kernel

/-- SEND.CTRL of 100 bytes in six micro-steps. -/
theorem test_witness_MicroStepsRefineTheCommand :
    acceptsCommand (readyTo (.issue 0x0880006400001000 :: (List.replicate 6 Input.fg ++ []))) = true
      ∧ decodeCmd Params.default 0x0880006400001000 = .ok (.sendCtrl 0x1000 100) ∧ microCount (.sendCtrl 0x1000 100) = some 6
      ∧ (readyTo (.issue 0x0880006400001000 :: (List.replicate 6 Input.fg ++ []))).script
        = .issue 0x0880006400001000 :: (List.replicate 6 Input.fg ++ [])
      ∧ ∃ t, exec (.sendCtrl 0x1000 100) (readyTo []) = .next t :=
  ⟨by decide +kernel, by decide +kernel, rfl, rfl, exists_of_isNext (by decide +kernel)⟩

/-- Every clause: a foreground move, an idle step, a handler step, moves of the environment, and a step that goes on. -/
theorem test_witness_FatalIsTerminal :
    (∀ m ∈ [Input.command 0x0100000000000000, .issue 0x0100000000000000, .fg, .irq], ∀ s ∈ [{ dead with script := [m] }],
        s.fatal = true ∧ s.inHandler = false ∧ s.script = m :: [])
      ∧ (dead.fatal = true ∧ dead.script = [])
      ∧ ({ serving .diagTx 0x10 with fatal := true } : State).inHandler = true
      ∧ isNext (takeInput .busReset (raiseFatal 0x01 0x83 ready)) = true
      ∧ (∃ t, step { dead with script := [.hardReset] } = .next t) ∧ ∃ t, step { dead with script := [.busReset] } = .next t :=
  ⟨by decide +kernel, by decide +kernel, by decide +kernel, by decide +kernel, exists_of_isNext (by decide +kernel),
    exists_of_isNext (by decide +kernel)⟩

/-- Both clauses: INIT sets the flag, ISR.CTRL_TX clears it. -/
theorem test_witness_DiscardFlagWriters :
    (ready.firstTxcDiscard = false
        ∧ ∃ t, step (readyTo [.command 0x0100000000000000]) = .next t ∧ t.firstTxcDiscard = true)
      ∧ ∃ t, step { serving .ctrlTx 0x01 with firstTxcDiscard := true } = .next t ∧ t.firstTxcDiscard = false :=
  ⟨⟨rfl, exists_of_view (by decide +kernel)⟩, exists_of_view (by decide +kernel)⟩

/-- Inside a handler, and outside it with a command. -/
theorem test_witness_StreamsOnlyGrow :
    ((∃ t, step (serving .busReset 0x80) = .next t) ∧ (serving .busReset 0x80).inHandler = true)
      ∧ (∃ t, step (readyTo [.command 0x0200000000000000]) = .next t)
      ∧ ∀ rest, (readyTo [.command 0x0200000000000000]).script ≠ .hardReset :: rest :=
  ⟨⟨exists_of_isNext (by decide +kernel), rfl⟩, exists_of_isNext (by decide +kernel), fun rest h => by cases h⟩

/-- A bus reset and a SETUP packet serviced. -/
theorem test_witness_EventOrigins :
    (∃ t, step (serving .busReset 0x80) = .next t ∧ t.events = (serving .busReset 0x80).events ++ [⟨.busReset, true⟩])
      ∧ (serving .busReset 0x80).inHandler = true ∧ (serving .busReset 0x80).slot = some .busReset
      ∧ (serving .busReset 0x80).latched &&& 0x80 ≠ 0
      ∧ ∃ t, step { arrived (serving .ctrlRx 0x02) .control (rising 0 8) with setupLeft := 8 } = .next t
        ∧ t.events = ready.events ++ [⟨.setupReceived (rising 0 8), true⟩] :=
  ⟨exists_of_view (by decide +kernel), rfl, rfl, by decide, exists_of_view (by decide +kernel)⟩

/-- A staged completion from the foreground, at once and at micro-step 3, and a handler step with a reset scheduled next. -/
theorem test_witness_ForegroundEmitsOnlyStagedCompletions :
    ((∃ t, step { stagedOn .bulkOut 10 with script := [.command 0x0802000400002000] } = .next t
        ∧ t.events = ready.events ++ [⟨.xferComplete 0x02 4, false⟩])
      ∧ ∀ rest, ({ stagedOn .bulkOut 10 with script := [.command 0x0802000400002000] } : State).script
        ≠ .hardReset :: rest)
    ∧ (∃ t, step { stagedOn .bulkOut 10 with
          script := [.fg], cmd := some { startCommand (.recvBulk 0x2000 4) with at_ := 3, staged := true } } = .next t
        ∧ t.events = ready.events ++ [⟨.xferComplete 0x02 4, false⟩])
    ∧ (∃ t, step { serving .busReset 0x80 with script := [.hardReset] } = .next t
        ∧ t.events = ready.events ++ [⟨.busReset, true⟩])
    ∧ ({ serving .busReset 0x80 with script := [.hardReset] } : State).inHandler = true :=
  ⟨⟨exists_of_view (by decide +kernel), fun rest h => by cases h⟩, exists_of_view (by decide +kernel),
    exists_of_view (by decide +kernel), rfl⟩

/-- SEND = 1, and SEND = 0; SPURIOUS owed, and not. -/
theorem test_witness_BusResetDiagSentAndSpuriousMoves :
    fieldSet (ringAt 0 0 false).diagCtl 0x01 = true ∧ fieldSet (ringAt 0 0 true).diagCtl 0x01 = false
      ∧ ({ ready with spuriousArmed := true } : State).spuriousArmed = true ∧ ready.spuriousArmed = false := by decide +kernel

/-- Enabled by a full FIFO and by FORCE_TX alone; kept back by the owed spurious completion; not enabled at 63 bytes. -/
theorem test_witness_TxSentMovesOnePacket :
    (∀ s ∈ [{ ready with txq := ⟨rising 0 64, []⟩ }, { ready with ctl := ⟨0x01, 0, 0⟩ }],
      (s.txq.get .control).length ≤ s.params.txDepth .control
        ∧ ((s.txq.get .control).length = s.params.txDepth .control ∨ s.ctl.get (txChannel .control) &&& 0x01 ≠ 0)
        ∧ s.spuriousArmed = false)
      ∧ (∀ s ∈ [{ ready with txq := ⟨rising 0 64, []⟩, spuriousArmed := true }, { ready with txq := ⟨rising 0 63, []⟩ }],
        (s.txq.get .control).length ≤ s.params.txDepth .control
          ∧ ¬(((s.txq.get .control).length = s.params.txDepth .control ∨ s.ctl.get (txChannel .control) &&& 0x01 ≠ 0)
            ∧ s.spuriousArmed = false)) := by decide +kernel

/-- A whole packet, one byte too many, a FIFO that holds a byte, a SETUP packet half read, and 8 bytes of SETUP. -/
theorem test_witness_PacketsArrive :
    (ready.rxq.get .bulkOut = [] ∧ NoSetup .bulkOut ready ∧ (rising 0 512).length ≤ Config.rxMps .bulkOut)
      ∧ ¬(ready.rxq.get .bulkOut = [] ∧ NoSetup .bulkOut ready ∧ (rising 0 513).length ≤ Config.rxMps .bulkOut)
      ∧ ¬((arrived ready .control [1]).rxq.get .control = [] ∧ NoSetup .control (arrived ready .control [1])
        ∧ ([] : List Byte).length ≤ Config.rxMps .control)
      ∧ ¬(({ ready with setupLeft := 1 } : State).rxq.get .control = [] ∧ NoSetup .control { ready with setupLeft := 1 }
        ∧ ([] : List Byte).length ≤ Config.rxMps .control)
      ∧ (rising 0 8).length = 8 := by
  refine ⟨⟨rfl, ?_, by decide +kernel⟩, ?_, ?_, ?_, by decide +kernel⟩
  · intro h; cases h
  · exact fun h => absurd h.2.2 (by decide +kernel)
  · exact fun h => absurd h.1 (by decide +kernel)
  · exact fun h => absurd (h.2.1 rfl) (by decide +kernel)

/-- Writes: the last byte of the window 0x1000 to 0x1063 of a send, and the byte after it. Reads: the same bytes of the
window 0x3000 to 0x303F of a receive, and the send window, which the HOST may read. -/
theorem test_witness_HostAccessesRespectWindows :
    (∃ w ∈ windows halfSent, 0 < [(0x55 : Byte)].length ∧ inRange Params.default w.base w.size (0x1063 + 0) = true)
      ∧ ((∀ w ∈ windows halfSent, ∀ j < [(0x55 : Byte)].length, inRange Params.default w.base w.size (0x1064 + j) = false)
        ∧ ∀ j < [(0x55 : Byte)].length, hasMemory Params.default halfSent.noMem (0x1064 + j) = true)
      ∧ (∃ w ∈ windows (requested .control 64), w.written = true ∧ 0 < 1
        ∧ inRange Params.default w.base w.size (0x303F + 0) = true)
      ∧ ((∀ w ∈ windows (requested .control 64), w.written = true →
          ∀ j < 1, inRange Params.default w.base w.size (0x3040 + j) = false)
        ∧ ∀ j < 1, hasMemory Params.default (requested .control 64).noMem (0x3040 + j) = true)
      ∧ ∀ w ∈ windows halfSent, w.written = true → ∀ j < 1, inRange Params.default w.base w.size (0x1000 + j) = false := by
  decide +kernel

/-- A send and a recorded receive, at the ends of their buffers; a staged receive past micro-step 2, and at it with and
without an early access. -/
theorem test_witness_SubmissionsOpenTheirWindows :
    ((∃ t, exec (sendInstr .control 0x1000 100) ready = .next t) ∧ inRange Params.default 0x1000 100 0x1063 = true
        ∧ inRange Params.default 0x1000 100 0x1000 = true)
      ∧ ((∃ t, exec (recvInstr .control 0x3000 64) ready = .next t) ∧ ready.stg.get .control = []
        ∧ inRange Params.default 0x3000 64 0x303F = true)
      ∧ (∀ c ∈ [{ startCommand (recvInstr .bulkOut 0x2000 4) with at_ := 3, staged := true },
            { startCommand (recvInstr .bulkOut 0x2000 4) with at_ := 2, touched := some 0x2003 },
            { startCommand (recvInstr .bulkOut 0x2000 4) with at_ := 2 }],
          ∀ s ∈ [{ stagedOn .bulkOut 10 with cmd := some c }],
            s.fatal = false ∧ s.cmd = some c ∧ c.instr = recvInstr .bulkOut 0x2000 4 ∧ s.stg.get .bulkOut ≠ []
              ∧ inRange Params.default 0x2000 4 0x2003 = true) :=
  ⟨⟨exists_of_isNext (by decide +kernel), by decide +kernel, by decide +kernel⟩,
    ⟨exists_of_isNext (by decide +kernel), rfl, by decide +kernel⟩, by decide +kernel⟩

end Sys2Proof.Tests
end

section
/-! PROOFS. The decoder against the encoder (30_encoding.md R91 to R96, R101). -/

namespace Sys2Proof

open Machine

/-! ## The refined rows -/

/-- At legal parameters the five addresses differ, so the address behind a route leads back to it (R93, 92_eei_decisions.md
D9). -/
theorem epRoute_routeAddr {p : Params} (hp : p.Legal) (r : EpRoute) : epRoute p (routeAddr p r) = some r := by
  have hd := hp.1
  simp only [List.nodup_cons, List.mem_cons, List.not_mem_nil, or_false, not_or] at hd
  obtain ⟨⟨h1, h2, h3, h4⟩, ⟨h5, h6, h7⟩, ⟨h8, h9⟩, h10, -⟩ := hd
  rcases r with (_ | _) | (_ | _) | _ <;>
    simp [routeAddr, epRoute, Ne.symm h1, Ne.symm h2, Ne.symm h3, Ne.symm h4, Ne.symm h5, Ne.symm h6, Ne.symm h7, Ne.symm h8,
      Ne.symm h9, Ne.symm h10]

theorem routeAddr_send (p : Params) (ch : TxCh) : routeAddr p (.send ch) = epaTx p ch := by cases ch <;> rfl

theorem routeAddr_recv (p : Params) (ch : RxCh) : routeAddr p (.recv ch) = epaRx p ch := by cases ch <;> rfl

/-- The address of a sending channel selects its send row. -/
theorem decodeSubmit_epaTx {p : Params} (hp : p.Legal) (ch : TxCh) (buf len : Nat) :
    decodeSubmit p (epaTx p ch) buf len = sendInstr ch buf len := by
  have h : epRoute p (epaTx p ch) = some (.send ch) := routeAddr_send p ch ▸ epRoute_routeAddr hp (.send ch)
  rw [decodeSubmit, h]
  cases ch <;> rfl

/-- The address of a receiving channel selects its receive row. -/
theorem decodeSubmit_epaRx {p : Params} (hp : p.Legal) (ch : RxCh) (buf len : Nat) :
    decodeSubmit p (epaRx p ch) buf len = recvInstr ch buf len := by
  have h : epRoute p (epaRx p ch) = some (.recv ch) := routeAddr_recv p ch ▸ epRoute_routeAddr hp (.recv ch)
  rw [decodeSubmit, h]
  cases ch <;> rfl

theorem decodeStall_of_channel {p : Params} {epa : Byte} {ch : Channel} (h : stallChannel p epa = some ch) :
    decodeStall p epa = stallInstr ch epa := by
  rw [decodeStall, h]
  cases ch <;> rfl

theorem decodeClearStall_of_channel {p : Params} {epa : Byte} {ch : Channel} (h : stallChannel p epa = some ch) :
    decodeClearStall p epa = clearStallInstr ch epa := by
  rw [decodeClearStall, h]
  cases ch <;> rfl

theorem decodeStall_of_noChannel {p : Params} {epa : Byte} (h : noEpNum p epa = true) : decodeStall p epa = .stall epa := by
  rw [decodeStall, (stallChannel_eq_none_iff p epa).mpr h]

theorem decodeClearStall_of_noChannel {p : Params} {epa : Byte} (h : noEpNum p epa = true) :
    decodeClearStall p epa = .clearStall epa := by
  rw [decodeClearStall, (stallChannel_eq_none_iff p epa).mpr h]

/-- A channel the low-bits decode selects is one whose row admits the address (R94), at any parameters. -/
theorem wellFormed_stallInstr {p : Params} {epa : Byte} {ch : Channel} (h : stallChannel p epa = some ch) :
    WellFormed p (stallInstr ch epa) = true := by
  simp only [stallChannel] at h
  split at h
  · cases h; simpa [stallInstr, WellFormed, sameEpNum]
  split at h
  · cases h; simpa [stallInstr, WellFormed, sameEpNum]
  split at h
  · cases h; simpa [stallInstr, WellFormed, sameEpNum]
  · cases h

theorem wellFormed_clearStallInstr (p : Params) (ch : Channel) (epa : Byte) :
    WellFormed p (clearStallInstr ch epa) = WellFormed p (stallInstr ch epa) := by
  cases ch <;> rfl

/-- A SUBMIT_XFER word selects a row that admits its operands (R101). -/
theorem wellFormed_decodeSubmit {p : Params} {epa : Byte} {buf len : Nat} (h : fitsFields p buf len = true) :
    WellFormed p (decodeSubmit p epa buf len) = true := by
  by_cases h1 : epa = p.epaCtrlOut
  · simpa [decodeSubmit, epRoute, h1, WellFormed]
  by_cases h2 : epa = p.epaCtrlIn
  · simpa [decodeSubmit, epRoute, h1, ← h2, WellFormed]
  by_cases h3 : epa = p.epaBulkIn
  · simpa [decodeSubmit, epRoute, h1, h2, ← h3, WellFormed]
  by_cases h4 : epa = p.epaBulkOut
  · simpa [decodeSubmit, epRoute, h1, h2, h3, ← h4, WellFormed]
  · have hg : WellFormed p (.submitXfer epa buf len) = true := by simp [WellFormed, h1, h2, h3, h4, h]
    rw [decodeSubmit_generic buf len hg, hg]

theorem wellFormed_decodeStall (p : Params) (epa : Byte) : WellFormed p (decodeStall p epa) = true := by
  cases h : stallChannel p epa with
  | none =>
    have hn := (stallChannel_eq_none_iff p epa).mp h
    rwa [decodeStall_of_noChannel hn]
  | some ch => rw [decodeStall_of_channel h, wellFormed_stallInstr h]

theorem wellFormed_decodeClearStall (p : Params) (epa : Byte) : WellFormed p (decodeClearStall p epa) = true := by
  cases h : stallChannel p epa with
  | none =>
    have hn := (stallChannel_eq_none_iff p epa).mp h
    rwa [decodeClearStall_of_noChannel hn]
  | some ch => rw [decodeClearStall_of_channel h, wellFormed_clearStallInstr, wellFormed_stallInstr h]

/-! ## The word of each opcode with operands -/

theorem decodeCmd_submitWord (p : Params) (epa : Byte) (buf len : Nat) :
    decodeCmd p (cmdWord p opSubmitXfer epa len buf) = .ok (decodeSubmit p epa (p.addr buf) (p.len len)) := by
  rw [decodeCmd_submitXfer (cmdOp_cmdWord ..), cmdA_cmdWord, cmdP_cmdWord, cmdL_cmdWord]

/-- The same where the operands fit their fields. -/
theorem decodeCmd_submitWord_of_fits {p : Params} {buf len : Nat} (hf : fitsFields p buf len = true) (epa : Byte) :
    decodeCmd p (cmdWord p opSubmitXfer epa len buf) = .ok (decodeSubmit p epa buf len) := by
  obtain ⟨hb, hl⟩ := fitsFields_iff.mp hf
  rw [decodeCmd_submitWord, hb, hl]

theorem decodeCmd_stallWord (p : Params) (epa : Byte) :
    decodeCmd p (cmdWord p opStall epa 0 0) = .ok (decodeStall p epa) := by
  rw [decodeCmd_stall (cmdOp_cmdWord ..), cmdA_cmdWord]

theorem decodeCmd_clearStallWord (p : Params) (epa : Byte) :
    decodeCmd p (cmdWord p opClearStall epa 0 0) = .ok (decodeClearStall p epa) := by
  rw [decodeCmd_clearStall (cmdOp_cmdWord ..), cmdA_cmdWord]

theorem decodeCmd_openEpWord (p : Params) (epa : Byte) (mps attr : Nat) :
    decodeCmd p (cmdWord p opOpenEp epa mps attr) = .ok (.openEp epa (p.len mps) (p.addr attr)) := by
  rw [decodeCmd_openEp (cmdOp_cmdWord ..), cmdA_cmdWord, cmdL_cmdWord, cmdP_cmdWord]

theorem decodeCmd_diagPutsWord (p : Params) (buf len : Nat) :
    decodeCmd p (cmdWord p opDiagPuts 0 len buf) = .ok (.diagPuts (p.addr buf) (p.len len)) := by
  rw [decodeCmd_diagPuts (cmdOp_cmdWord ..), cmdP_cmdWord, cmdL_cmdWord]

theorem decodeCmd_diagPut16Word (p : Params) (value : Nat) :
    decodeCmd p (cmdWord p opDiagPut16 0 value 0) = .ok (.diagPut16 (p.len value)) := by
  rw [decodeCmd_diagPut16 (cmdOp_cmdWord ..), cmdL_cmdWord]

/-! ## Decoding what was encoded -/

theorem decode_encode {p : Params} (hp : p.Legal) {i : Instr} (hi : WellFormed p i = true) :
    decode p (encode p i) = .ok i := by
  have hch := fun epa => stallChannel_eq_some_iff hp epa
  cases i with
  | init => exact decodeCmd_init (cmdOp_cmdWord ..)
  | connect => exact decodeCmd_connect (cmdOp_cmdWord ..)
  | disconnect => exact decodeCmd_disconnect (cmdOp_cmdWord ..)
  | remoteWakeup => exact decodeCmd_remoteWakeup (cmdOp_cmdWord ..)
  | diagInit => exact decodeCmd_diagInit (cmdOp_cmdWord ..)
  | setAddress addr => rw [encode, decode, decodeCmd_setAddress (cmdOp_cmdWord ..), cmdA_cmdWord]
  | closeEp epa => rw [encode, decode, decodeCmd_closeEp (cmdOp_cmdWord ..), cmdA_cmdWord]
  | diagPutb b => rw [encode, decode, decodeCmd_diagPutb (cmdOp_cmdWord ..), cmdA_cmdWord]
  | diagPuthex8 b => rw [encode, decode, decodeCmd_diagPuthex8 (cmdOp_cmdWord ..), cmdA_cmdWord]
  | openEp epa mps attr =>
    obtain ⟨ha, hl⟩ := fitsFields_iff.mp hi
    rw [encode, decode, decodeCmd_openEpWord, ha, hl]
  | diagPuts buf len =>
    obtain ⟨hb, hl⟩ := fitsFields_iff.mp hi
    rw [encode, decode, decodeCmd_diagPutsWord, hb, hl]
  | diagPut16 value =>
    have hv : p.len value = value := by simpa [WellFormed] using hi
    rw [encode, decode, decodeCmd_diagPut16Word, hv]
  | submitXfer epa buf len =>
    rw [encode, decode, decodeCmd_submitWord_of_fits (Bool.and_eq_true_iff.mp hi).2, decodeSubmit_generic buf len hi]
  | sendCtrl buf len =>
    exact (decodeCmd_submitWord_of_fits hi _).trans (congrArg _ (decodeSubmit_epaTx hp .control buf len))
  | sendBulk buf len =>
    exact (decodeCmd_submitWord_of_fits hi _).trans (congrArg _ (decodeSubmit_epaTx hp .bulkIn buf len))
  | recvCtrl buf len =>
    exact (decodeCmd_submitWord_of_fits hi _).trans (congrArg _ (decodeSubmit_epaRx hp .control buf len))
  | recvBulk buf len =>
    exact (decodeCmd_submitWord_of_fits hi _).trans (congrArg _ (decodeSubmit_epaRx hp .bulkOut buf len))
  | stall epa => rw [encode, decode, decodeCmd_stallWord, decodeStall_of_noChannel hi]
  | stallControl epa => rw [encode, decode, decodeCmd_stallWord, decodeStall_of_channel ((hch epa .control).mpr hi), stallInstr]
  | stallBulkin epa => rw [encode, decode, decodeCmd_stallWord, decodeStall_of_channel ((hch epa .bulkIn).mpr hi), stallInstr]
  | stallBulkout epa => rw [encode, decode, decodeCmd_stallWord, decodeStall_of_channel ((hch epa .bulkOut).mpr hi), stallInstr]
  | clearStall epa => rw [encode, decode, decodeCmd_clearStallWord, decodeClearStall_of_noChannel hi]
  | clearStallControl epa =>
    rw [encode, decode, decodeCmd_clearStallWord, decodeClearStall_of_channel ((hch epa .control).mpr hi), clearStallInstr]
  | clearStallBulkin epa =>
    rw [encode, decode, decodeCmd_clearStallWord, decodeClearStall_of_channel ((hch epa .bulkIn).mpr hi), clearStallInstr]
  | clearStallBulkout epa =>
    rw [encode, decode, decodeCmd_clearStallWord, decodeClearStall_of_channel ((hch epa .bulkOut).mpr hi), clearStallInstr]
  | isrDiagTx => rfl
  | isrCtrlTx => rfl
  | isrCtrlRx => rfl
  | isrBusReset => rfl
  | isrBulkoutRx => rfl
  | isrBulkinTx => rfl

/-- Settles O4: one case per row, the word's opcode selecting the decoder's branch and legality telling the refined rows
apart. -/
theorem decodeOfEncode : Obligations.DecodeOfEncode := fun _ _ hp hi => decode_encode hp hi

/-! ## Encoding what was decoded -/

/-- The four fields of a word within its width, put together, are the word (R91). -/
theorem fields_eq_word {p : Params} {w : Nat} (hw : w < 2 ^ cmdWidth p) :
    (cmdOp p w).toNat * 2 ^ (8 + p.lenW + p.addrW) + (cmdA p w).toNat * 2 ^ (p.lenW + p.addrW) + cmdL p w * 2 ^ p.addrW
      + cmdP p w = w := by
  have h := cmdWord_fields p w
  rwa [cmdWord, len_cmdL, addr_cmdP, Nat.mod_eq_of_lt hw] at h

/-- `i` is written with the opcode of `w`, in a word that decodes to `i`. -/
def Reencodes (p : Params) (w : Nat) (i : Instr) : Prop :=
  ∃ w' : Nat, encode p i = .cmd w' ∧ w' < 2 ^ cmdWidth p ∧ cmdOp p w' = cmdOp p w ∧ decodeCmd p w' = .ok i

theorem reencodes_of_word {p : Params} {w : Nat} {i : Instr} {op : Byte} (hop : cmdOp p w = op) (a : Byte) (l buf : Nat)
    (he : encode p i = .cmd (cmdWord p op a l buf)) (hd : decodeCmd p (cmdWord p op a l buf) = .ok i) : Reencodes p w i :=
  ⟨_, he, cmdWord_lt .., by rw [cmdOp_cmdWord, hop], hd⟩

theorem fitsFields_cmd (p : Params) (w : Nat) : fitsFields p (cmdP p w) (cmdL p w) = true := by simp [fitsFields_iff]

/-- A word that decodes does so to a term some word of its row encodes (R101). -/
theorem wellFormed_of_decodeCmd {p : Params} {w : Nat} {i : Instr} (h : decodeCmd p w = .ok i) : WellFormed p i = true := by
  rcases decodeCmd_cases h with ⟨_, rfl⟩ | ⟨_, rfl⟩ | ⟨_, rfl⟩ | ⟨_, rfl⟩ | ⟨_, rfl⟩ | ⟨_, rfl⟩ | ⟨_, rfl⟩ | ⟨_, rfl⟩ | ⟨_, rfl⟩
    | ⟨_, rfl⟩ | ⟨_, rfl⟩ | ⟨_, rfl⟩ | ⟨_, rfl⟩ | ⟨_, rfl⟩ | ⟨_, rfl⟩
  · exact rfl
  · exact rfl
  · exact rfl
  · exact rfl
  · exact rfl
  · exact fitsFields_cmd p w
  · exact rfl
  · exact wellFormed_decodeSubmit (fitsFields_cmd p w)
  · exact wellFormed_decodeStall p _
  · exact wellFormed_decodeClearStall p _
  · exact rfl
  · exact rfl
  · exact fitsFields_cmd p w
  · exact rfl
  · exact beq_iff_eq.mpr (len_cmdL p w)

theorem reencodes_of_decodeCmd {p : Params} {w : Nat} {i : Instr} (h : decodeCmd p w = .ok i) : Reencodes p w i := by
  rcases decodeCmd_cases h with ⟨hop, rfl⟩ | ⟨hop, rfl⟩ | ⟨hop, rfl⟩ | ⟨hop, rfl⟩ | ⟨hop, rfl⟩ | ⟨hop, rfl⟩ | ⟨hop, rfl⟩
    | ⟨hop, rfl⟩ | ⟨hop, rfl⟩ | ⟨hop, rfl⟩ | ⟨hop, rfl⟩ | ⟨hop, rfl⟩ | ⟨hop, rfl⟩ | ⟨hop, rfl⟩ | ⟨hop, rfl⟩
  · exact reencodes_of_word hop _ _ _ rfl (decodeCmd_init (cmdOp_cmdWord ..))
  · exact reencodes_of_word hop _ _ _ rfl (decodeCmd_connect (cmdOp_cmdWord ..))
  · exact reencodes_of_word hop _ _ _ rfl (decodeCmd_disconnect (cmdOp_cmdWord ..))
  · exact reencodes_of_word hop _ _ _ rfl (by rw [decodeCmd_setAddress (cmdOp_cmdWord ..), cmdA_cmdWord])
  · exact reencodes_of_word hop _ _ _ rfl (decodeCmd_remoteWakeup (cmdOp_cmdWord ..))
  · exact reencodes_of_word hop _ _ _ rfl (by rw [decodeCmd_openEpWord, len_cmdL, addr_cmdP])
  · exact reencodes_of_word hop _ _ _ rfl (by rw [decodeCmd_closeEp (cmdOp_cmdWord ..), cmdA_cmdWord])
  · exact reencodes_of_word hop _ _ _ (encode_decodeSubmit ..) (by rw [decodeCmd_submitWord, len_cmdL, addr_cmdP])
  · exact reencodes_of_word hop _ _ _ (encode_decodeStall ..) (decodeCmd_stallWord ..)
  · exact reencodes_of_word hop _ _ _ (encode_decodeClearStall ..) (decodeCmd_clearStallWord ..)
  · exact reencodes_of_word hop _ _ _ rfl (decodeCmd_diagInit (cmdOp_cmdWord ..))
  · exact reencodes_of_word hop _ _ _ rfl (by rw [decodeCmd_diagPutb (cmdOp_cmdWord ..), cmdA_cmdWord])
  · exact reencodes_of_word hop _ _ _ rfl (by rw [decodeCmd_diagPutsWord, len_cmdL, addr_cmdP])
  · exact reencodes_of_word hop _ _ _ rfl (by rw [decodeCmd_diagPuthex8 (cmdOp_cmdWord ..), cmdA_cmdWord])
  · exact reencodes_of_word hop _ _ _ rfl (by rw [decodeCmd_diagPut16Word, len_cmdL])

/-- Settles O5: the fields of a word are its successive remainders, and each opcode's word, written again from its fields,
takes the same branch of the decoder. -/
theorem decodedWordsReencode : Obligations.DecodedWordsReencode := fun _ _ =>
  ⟨fun hw => ⟨fields_eq_word hw, Nat.mod_lt _ (Nat.two_pow_pos _), Nat.mod_lt _ (Nat.two_pow_pos _)⟩,
    fun _ hi => ⟨wellFormed_of_decodeCmd hi, reencodes_of_decodeCmd hi⟩⟩

end Sys2Proof
end

section
/-! PROOFS. Every step as a chain of elementary updates, so that an invariant is proved by what one update does
(20_memory.md R70). -/

namespace Sys2Proof.Machine

/-! ## The elementary updates -/

/-- The elements of `s` that `MachineInv` speaks of, the others as `u` has them. -/
def State.withUnwatched (s u : State) : State :=
  { s with
    ringData := u.ringData, ringRead := u.ringRead, ringWrite := u.ringWrite, firstTxcDiscard := u.firstTxcDiscard
    cmd := u.cmd, diagHold := u.diagHold, spuriousArmed := u.spuriousArmed, lentTx := u.lentTx, lentRx := u.lentRx
    events := u.events, responses := u.responses, wireTx := u.wireTx, wireDiag := u.wireDiag, script := u.script
    draws := u.draws }

/-- One elementary update of the state, with what the model grants where it makes it. -/
inductive Update (s : State) : State → Prop where
  | unwatched (u : State) : Update s (s.withUnwatched u)
  -- interface registers
  | enable (src : Source) (v : Bool) : Update s { s with intEn := setField s.intEn src.mask v }
  | enableAll : Update s (enableAll s)
  | gate (v : Bool) (hh : s.inHandler = false) : Update s (setGate v s)
  | ctlField (ch : Channel) (mask : Byte) (v : Bool) (hm : mask &&& 0xF8 = 0) : Update s (setCtl ch mask v s)
  | ctlWhole (ch : Channel) (v : Byte) : Update s (writeCtl ch v s)
  | endpoint (v : Bool) :
      Update s { s with diagCtl := setField s.diagCtl sendBit v, diagStat := setField s.diagStat readyBit !v }
  | openReady (v : Bool) (ho : s.openEnv = true) : Update s { s with diagStat := setField s.diagStat readyBit v }
  -- hidden peripheral state, staging and buffer memory
  | raise (src : Source) : Update s (raiseSource src s)
  | openRaise (bits : Byte) (ho : s.openEnv = true) : Update s { s with pend := s.pend ||| bits }
  | txFifo (ch : TxCh) (q : List Byte)
      (hq : (s.txq.get ch).length ≤ s.params.txDepth ch → q.length ≤ s.params.txDepth ch) :
      Update s { s with txq := s.txq.set ch q }
  | rxFifo (ch : RxCh) (q : List Byte)
      (hq : s.params.Legal → (s.rxq.get ch).length ≤ s.params.rxDepth ch → q.length ≤ s.params.rxDepth ch) :
      Update s { s with rxq := s.rxq.set ch q }
  | setup (n : Nat) (hn : n ≤ s.setupLeft ∨ n ≤ Config.setupLen) : Update s { s with setupLeft := n }
  | staging (ch : RxCh) (b : List Byte) (hb : (s.stg.get ch).length ≤ Config.stgCap ch → b.length ≤ Config.stgCap ch) :
      Update s { s with stg := s.stg.set ch b }
  | store (a : Nat) (bytes : List Byte) : Update s { s with mem := writeBytes s.params s.mem a bytes }
  -- contexts
  | startSend (ch : TxCh) (buf len : Nat) :
      Update s { s with txCtx := s.txCtx.set ch (newCtx s.params buf len), busy := s.busy.set ch true }
  | fill (ch : TxCh) : Update s { s with txCtx := s.txCtx.set ch (runFill ch s).ctx }
  | endSend (ch : TxCh) : Update s { s with txCtx := s.txCtx.set ch Ctx.empty, busy := s.busy.set ch false }
  | startRecv (ch : RxCh) (buf len : Nat) :
      Update s { s with rxCtx := s.rxCtx.set ch { newCtx s.params buf len with pending := true } }
  | endRecv (ch : RxCh) : Update s { s with rxCtx := s.rxCtx.set ch RecvCtx.empty }
  -- sequencing
  | fatal (cause info : Byte) (hh : s.inHandler = false) : Update s (raiseFatal cause info s)
  | enter (he : irqEnabled s = true) : Update s (handlerEntry false s)
  | slot (src : Source) (hh : s.inHandler = true) : Update s { s with slot := some src }
  | exit : Update s (handlerExit s)
  | reset : Update s (hardwareReset s)

/-- A chain of elementary updates. -/
abbrev Updates : State → State → Prop := Relation.ReflTransGen Update

theorem Update.params {s t : State} (h : Update s t) : t.params = s.params := by
  cases h <;> rfl

theorem Updates.params {s t : State} (h : Updates s t) : t.params = s.params := by
  induction h with
  | refl => rfl
  | tail _ hu ih => exact hu.params.trans ih

/-- What every update keeps, at the parameters of the run, every chain keeps. -/
theorem Updates.keep {P : State → Prop} (hP : ∀ s t, Update s t → P s → P t) {s t : State} (h : Updates s t) (hs : P s) :
    P t := by
  induction h with
  | refl => exact hs
  | tail _ hu ih => exact hP _ _ hu ih

theorem updates_draws (s : State) (n : Nat) : Updates s { s with draws := n } := .single (.unwatched { s with draws := n })

theorem updates_cmd (s : State) (c : Option InProgress) : Updates s { s with cmd := c } :=
  .single (.unwatched { s with cmd := c })

theorem respond_updates (v : Bool) (s : State) : Updates s (respond v s) := .single (.unwatched (respond v s))

theorem emit_updates (e : Event) (s : State) : Updates s (emit e s) := .single (.unwatched (emit e s))

/-! ## The reads of the open environment -/

theorem freshTx_updates (ch : TxCh) (s : State) : Updates s (freshTx ch s) := by
  obtain ⟨q, d, h, hq⟩ := freshTx_spec ch s
  rw [h]
  refine .head (.txFifo ch q ?_) (updates_draws _ d)
  rcases hq with rfl | hq
  · exact id
  · exact fun _ => hq

theorem freshRx_updates (ch : RxCh) (s : State) : Updates s (freshRx ch s) := by
  obtain ⟨q, d, h, hq⟩ := freshRx_spec ch s
  rw [h]
  refine .head (.rxFifo ch q ?_) (updates_draws _ d)
  rcases hq with rfl | hq
  · exact fun _ => id
  · exact fun _ _ => hq

theorem freshSetup_updates (s : State) : Updates s (freshSetup s) := by
  obtain ⟨n, d, h, hn⟩ := freshSetup_spec s
  rw [h]
  exact .head (.setup n (hn.imp_left Nat.le_of_eq)) (updates_draws _ d)

theorem freshReady_updates (s : State) : Updates s (freshReady s) := by
  by_cases ho : s.openEnv = true
  · rw [freshReady, if_pos ho]
    exact .head (.openReady (drawnBit s) ho) (updates_draws _ _)
  · rw [freshReady_of_reference (by simpa using ho)]

/-! ## Sending -/

/-- The fill pushes no more than the room left (R121). -/
theorem runFill_pushed_length_le (ch : TxCh) (s : State) : (runFill ch s).pushed.length ≤ txRoom ch s := by
  rw [runFill_pushed, readBytes_length]
  exact Nat.min_le_left _ _

theorem finishFill_updates (ch : TxCh) (s : State) : Updates s (finishFill ch (runFill ch s) s) := by
  have hroom := runFill_pushed_length_le ch s
  unfold txRoom at hroom
  have hctl : ∀ u : State, Updates u (setCtl (txChannel ch) forceTxBit true u) := fun u =>
    .single (.ctlField _ forceTxBit true (by decide))
  refine .head (.fill ch) (.head (.txFifo ch (s.txq.get ch ++ (runFill ch s).pushed) ?_) ?_)
  · intro (h : (s.txq.get ch).length ≤ s.params.txDepth ch)
    change (s.txq.get ch ++ (runFill ch s).pushed).length ≤ s.params.txDepth ch
    rw [List.length_append]
    omega
  · unfold finishFill
    split
    · exact hctl _
    · exact .refl

theorem sendMode_updates (ch : TxCh) (s : State) : Updates s (sendMode ch s) :=
  .single (.ctlField (txChannel ch) rxmodeBit false (by decide))

theorem recordSend_updates (ch : TxCh) (buf len : Nat) (s : State) : Updates s (recordSend ch buf len s) :=
  .head (.startSend ch buf len) (.single (.unwatched (recordSend ch buf len s)))

theorem mask_updates (src : Source) (s : State) : Updates s (maskSource src s) := .single (.enable src false)

theorem unmask_updates (src : Source) (s : State) : Updates s (unmaskSource src s) := .single (.enable src true)

theorem submitSend_updates {ch : TxCh} {buf len : Nat} {s t : State} (h : submitSend ch buf len s = .next t) :
    Updates s t := by
  obtain ⟨-, u, hu, rfl⟩ := submitSend_cases h
  obtain ⟨-, rfl⟩ := fillFrom_eq_next.mp hu
  calc Updates s (freshTx ch s) := freshTx_updates ch s
    Updates _ (sendMode ch (freshTx ch s)) := sendMode_updates ch _
    Updates _ (maskSource (txSource ch) (sendMode ch (freshTx ch s))) := mask_updates _ _
    Updates _ (recordSend ch buf len (maskSource (txSource ch) (sendMode ch (freshTx ch s)))) := recordSend_updates ..
    Updates _ _ := (finishFill_updates ch _).trans (unmask_updates _ _)

theorem completeSend_updates (ch : TxCh) (s : State) : Updates s (completeSend ch s) :=
  .head (.endSend ch) (.single (.unwatched (completeSend ch s)))

theorem txComplete_updates {ch : TxCh} {s t : State} (h : txComplete ch s = .next t) : Updates s t := by
  rcases txComplete_cases h with ⟨-, rfl⟩ | ⟨-, rfl⟩
  · exact (freshTx_updates ch s).trans (finishFill_updates ch _)
  · exact completeSend_updates ch s

/-! ## Receiving -/

theorem takeStaged_updates {ch : RxCh} {buf len : Nat} {s t : State} (h : takeStaged ch buf len s = .next t) :
    Updates s t := by
  obtain ⟨-, rfl⟩ := takeStaged_eq_next.mp h
  exact .head (.store buf _) (.head (.staging ch [] fun _ => Nat.zero_le _) (emit_updates _ _))

theorem recordRecv_updates {ch : RxCh} {buf len : Nat} {s t : State} (h : recordRecv ch buf len s = .next t) :
    Updates s t := by
  obtain ⟨-, rfl⟩ := recordRecv_eq_next.mp h
  exact .head (.ctlField (rxChannel ch) rxmodeBit true (by decide))
    (.head (.startRecv ch buf len) (.single (.unwatched { s with lentRx := _ })))

theorem submitRecv_updates {ch : RxCh} {buf len : Nat} {s t : State} (h : submitRecv ch buf len s = .next t) :
    Updates s t := by
  rcases submitRecv_cases h with ⟨-, u, hu, rfl⟩ | ⟨-, u, hu, rfl⟩
  · exact (mask_updates _ s).trans ((takeStaged_updates hu).trans (unmask_updates _ u))
  · exact (mask_updates _ s).trans ((recordRecv_updates hu).trans (unmask_updates _ u))

theorem drainPending_updates {ch : RxCh} {s t : State} (h : drainPending ch s = .next t) : Updates s t := by
  obtain ⟨-, rfl⟩ := drainPending_eq_next.mp h
  refine .head (.store (s.rxCtx.get ch).buffer ((s.rxq.get ch).take (s.rxCtx.get ch).total)) (.head (.endRecv ch)
    (.head (.rxFifo ch ((s.rxq.get ch).drop (s.rxCtx.get ch).total) ?_)
      (.single (.unwatched (emitComplete (epaRx s.params ch) (drained ch s) true { s with lentRx := s.lentRx.set ch [] })))))
  intro _ (h : (s.rxq.get ch).length ≤ s.params.rxDepth ch)
  exact (List.drop_sublist _ _).length_le.trans h

theorem stage_updates (ch : RxCh) (s : State) : Updates s (stage ch s) := by
  refine .head (.staging ch (stageLoop (Config.stgCap ch) (s.rxq.get ch) (s.stg.get ch)) fun h => ?_)
    (.single (.rxFifo ch [] fun _ _ => Nat.zero_le _))
  rw [stageLoop_eq _ h]
  exact List.length_take_le _ _

theorem rxcData_updates {ch : RxCh} {s t : State} (h : rxcData ch s = .next t) : Updates s t := by
  refine (freshRx_updates ch s).trans ?_
  rcases rxcData_cases rfl h with ⟨-, h⟩ | ⟨-, -, rfl⟩ | ⟨-, -, rfl⟩
  · exact drainPending_updates h
  · exact emit_updates _ _
  · exact (freshRx_updates ch _).trans (stage_updates ch _)

theorem receiveSetup_updates (s : State) : Updates s (receiveSetup s) := by
  simp only [receiveSetup, (readControl_spec Config.setupLen s).2.2]
  refine .head (.rxFifo .control (s.rxq.control.drop Config.setupLen) ?_)
    (.head (.setup _ (.inl (Nat.sub_le _ _))) ((updates_draws _ _).trans (emit_updates _ _)))
  exact fun _ h => (List.drop_sublist _ _).length_le.trans h

/-! ## The diagnostic ring -/

theorem drainIfReady_updates (s : State) : Updates s (drainIfReady s) := by
  unfold drainIfReady
  split
  · exact .head (.endpoint true) (.single (.unwatched
      { s with diagHold := ringGet s.ringData s.ringRead, ringRead := s.ringRead + 1 }))
  · exact .refl

theorem drainOne_updates (s : State) : Updates s (drainOne s) := (freshReady_updates s).trans (drainIfReady_updates _)

theorem enqueue_updates (b : Byte) (s : State) : Updates s (enqueue b s).2 := by
  unfold enqueue
  split
  · exact .refl
  · exact .head (.unwatched (appendByte b s)) (drainOne_updates (appendByte b s))

theorem putByte_updates (b : Byte) (s : State) : Updates s (putByte b s).2 :=
  (mask_updates _ s).trans ((enqueue_updates b _).trans (unmask_updates _ _))

theorem putBytes_updates (bs : List Byte) (s : State) : Updates s (putBytes bs s).2 := by
  induction bs generalizing s with
  | nil => exact .refl
  | cons b bs ih =>
    simp only [putBytes]
    split
    · exact (putByte_updates b s).trans (ih _)
    · exact putByte_updates b s

theorem putString_updates {n a : Nat} {s t : State} (h : putString n a s = .next t) : Updates s t := by
  induction n generalizing a s with
  | zero =>
    simp only [putString, Host.Outcome.next.injEq] at h
    exact h ▸ respond_updates true s
  | succ n ih =>
    simp only [putString] at h
    obtain ⟨-, h⟩ := withMemory_eq_next.mp h
    refine (putByte_updates (memRead s.params s.mem a) s).trans ?_
    split at h
    · exact ih h
    · simp only [Host.Outcome.next.injEq] at h
      exact h ▸ respond_updates false _

theorem clearRing_updates (s : State) : Updates s (clearRing s) := .single (.unwatched (clearRing s))

/-! ## INIT -/

theorem emptyContexts_updates (s : State) : Updates s (emptyContexts s) :=
  .head (.endSend .control) (.head (.endSend .bulkIn) (.head (.endRecv .control) (.single (.endRecv .bulkOut))))

theorem emptyStaging_updates (s : State) : Updates s (emptyStaging s) :=
  .head (.staging .control [] fun _ => Nat.zero_le _) (.single (.staging .bulkOut [] fun _ => Nat.zero_le _))

theorem armDiscard_updates (s : State) : Updates s (armDiscard s) := .single (.unwatched (armDiscard s))

theorem defaultCtl_updates (s : State) : Updates s (defaultCtl s) :=
  .head (.ctlWhole .control receiveReady) (.head (.ctlWhole .bulkIn 0x00) (.single (.ctlWhole .bulkOut receiveReady)))

theorem armSpurious_updates (s : State) : Updates s (armSpurious s) := .single (.unwatched (armSpurious s))

theorem initSteps_updates {s : State} (hh : s.inHandler = false) : Updates s (initSteps s) :=
  calc Updates s (setGate false s) := .single (.gate false hh)
    Updates _ (emptyContexts (setGate false s)) := emptyContexts_updates _
    Updates _ (emptyStaging (emptyContexts (setGate false s))) := emptyStaging_updates _
    Updates _ (armDiscard (emptyStaging (emptyContexts (setGate false s)))) := armDiscard_updates _
    Updates _ (defaultCtl (armDiscard (emptyStaging (emptyContexts (setGate false s))))) := defaultCtl_updates _
    Updates _ (armSpurious (defaultCtl (armDiscard (emptyStaging (emptyContexts (setGate false s)))))) :=
      armSpurious_updates _
    Updates _ _ := .head .enableAll (.single (.gate true hh))

/-! ## Commands and handler operations -/

theorem stall_updates (ch : Channel) (v : Bool) (s : State) : Updates s (setCtl ch stallBit v s) :=
  .single (.ctlField ch stallBit v (by decide))

theorem fatal_updates {s : State} (cause info : Byte) (hh : s.inHandler = false) : Updates s (raiseFatal cause info s) :=
  .single (.fatal cause info hh)

theorem command_updates {p : Params} {i : Instr} {w : Nat} {s t : State} (he : encode p i = .cmd w)
    (h : exec i s = .next t) : Updates s t := by
  obtain ⟨-, hh, -⟩ := (acceptsCommand_iff s).mp (command_accepted he h)
  rcases command_cases he h with ⟨-, rfl⟩ | ⟨v, rfl⟩ | ⟨ch, buf, len, u, hu, rfl⟩ | ⟨ch, buf, len, u, hu, rfl⟩ | ⟨v, ch, rfl⟩
    | ⟨cause, info, rfl⟩ | rfl | ⟨bs, rfl⟩ | ⟨n, a, hput⟩
  · exact (initSteps_updates hh).trans (respond_updates _ _)
  · exact respond_updates v s
  · exact (submitSend_updates hu).trans (respond_updates _ _)
  · exact (submitRecv_updates hu).trans (respond_updates _ _)
  · exact (stall_updates ch v s).trans (respond_updates _ _)
  · exact fatal_updates cause info hh
  · exact (clearRing_updates s).trans (respond_updates _ _)
  · exact (putBytes_updates bs s).trans (respond_updates _ _)
  · exact putString_updates hput

theorem isr_updates {src : Source} {s t : State} (h : exec src.instr s = .next t) : Updates s t := by
  rcases isr_cases h with ⟨-, rfl⟩ | ⟨-, -, rfl⟩ | ⟨-, -, h⟩ | ⟨-, -, rfl⟩ | ⟨-, -, h⟩ | ⟨-, rfl⟩ | ⟨-, h⟩ | ⟨-, h⟩
  · exact drainOne_updates s
  · exact .single (.unwatched { s with firstTxcDiscard := false })
  · exact txComplete_updates h
  · exact (freshSetup_updates s).trans ((freshRx_updates _ _).trans (receiveSetup_updates _))
  · exact (freshSetup_updates s).trans (rxcData_updates h)
  · exact .head (.ctlWhole .control receiveReady) (emit_updates _ _)
  · exact rxcData_updates h
  · exact txComplete_updates h

/-! ## Micro-steps -/

theorem MicroEffect.updates {c : InProgress} {s u : State} (hh : s.inHandler = false) (h : MicroEffect c s u) :
    Updates s u := by
  cases h with
  | nothing => exact .refl
  | gate _ v => exact .single (.gate v hh)
  | emptyContexts => exact emptyContexts_updates s
  | emptyStaging => exact emptyStaging_updates s
  | armDiscard => exact armDiscard_updates s
  | defaultCtl => exact defaultCtl_updates s
  | armSpurious => exact armSpurious_updates s
  | enableAll => exact .single .enableAll
  | sendMode ch => exact sendMode_updates ch s
  | mask src => exact mask_updates src s
  | unmask src => exact unmask_updates src s
  | recordSend ch buf len => exact recordSend_updates ch buf len s
  | fill ch => exact (freshTx_updates ch s).trans (finishFill_updates ch _)
  | takeStaged _ _ _ _ _ _ _ h => exact takeStaged_updates h
  | recordRecv _ _ _ _ h => exact recordRecv_updates h
  | stall ch v => exact stall_updates ch v s
  | clearRing => exact clearRing_updates s
  | enqueue b => exact enqueue_updates b s

theorem fgStep_updates {s t : State} (hh : s.inHandler = false) (h : fgStep s = .next t) : Updates s t := by
  obtain ⟨-, c, -, hm⟩ := fgStep_eq_next.mp h
  cases microStep_result hm with
  | goesOn u c' he _ => exact (he.updates hh).trans (updates_cmd u _)
  | responds v => exact respond_updates v s
  | fatal cause info => exact fatal_updates cause info hh

/-! ## The moves outside the block -/

theorem txSentEffect_updates (ch : TxCh) (s : State) : Updates s (txSentEffect ch s) :=
  .head (.unwatched { s with wireTx := s.wireTx.set ch (s.wireTx.get ch ++ [s.txq.get ch]) })
    (.head (.txFifo ch [] fun _ => Nat.zero_le _)
      (.head (.ctlField (txChannel ch) forceTxBit false (by decide)) (.single (.raise (txSource ch)))))

/-- A packet of at most MPS bytes fits an Rx FIFO, at legal parameters (60_exceptions.md R237). -/
theorem rxMps_le_rxDepth {p : Params} (hp : p.Legal) (ch : RxCh) : Config.rxMps ch ≤ p.rxDepth ch := by
  obtain ⟨-, -, hc, hb, -⟩ := hp
  cases ch with
  | control => exact hc
  | bulkOut => exact hb

theorem rxDataEffect_updates {ch : RxCh} {bytes : List Byte} {s : State} (hb : bytes.length ≤ Config.rxMps ch) :
    Updates s (rxDataEffect ch bytes s) :=
  .head (.rxFifo ch bytes fun hp _ => hb.trans (rxMps_le_rxDepth hp ch)) (.single (.raise (rxSource ch)))

theorem rxSetupEffect_updates {bytes : List Byte} {s : State} (hb : bytes.length = Config.setupLen) :
    Updates s (rxSetupEffect bytes s) := by
  have hmps : bytes.length ≤ Config.rxMps .control := hb ▸ by decide
  exact .head (.rxFifo .control bytes fun hp _ => hmps.trans (rxMps_le_rxDepth hp .control))
    (.head (.setup Config.setupLen (.inr (Nat.le_refl _))) (.single (.raise .ctrlRx)))

theorem diagSentEffect_updates (s : State) : Updates s (diagSentEffect s) :=
  .head (.unwatched { s with wireDiag := s.wireDiag ++ [s.diagHold] })
    (.head (.endpoint false) (.single (.raise .diagTx)))

theorem spurious_updates {s t : State} (h : spurious s = .next t) : Updates s t := by
  obtain ⟨-, rfl⟩ := ifEnabled_eq_next.mp h
  exact .head (.unwatched { s with spuriousArmed := false }) (.single (.raise .ctrlTx))

theorem startInvocation_updates {s t : State} (h : startInvocation s = .next t) : Updates s t := by
  obtain ⟨he, rfl⟩ := startInvocation_cases h
  exact .single (.enter he)

theorem runCommand_updates {w : Nat} {s t : State} (h : runCommand w s = .next t) : Updates s t := by
  rcases runCommand_cases h with ⟨i, hd, h⟩ | ⟨op, ha, rfl⟩
  · obtain ⟨w', he⟩ := decoded_isCommand hd
    exact command_updates he h
  · exact fatal_updates _ op ((acceptsCommand_iff s).mp ha).2.1

theorem issueCommand_updates {w : Nat} {s t : State} (h : issueCommand w s = .next t) : Updates s t := by
  obtain ⟨ha, ⟨i, -, rfl⟩ | ⟨op, rfl⟩⟩ := issueCommand_cases h
  · exact updates_cmd s _
  · exact fatal_updates _ op ((acceptsCommand_iff s).mp ha).2.1

theorem takeInput_updates {m : Input} {s t : State} (hh : s.inHandler = false) (h : takeInput m s = .next t) :
    Updates s t := by
  cases m with
  | command w => exact runCommand_updates h
  | issue w => exact issueCommand_updates h
  | fg => exact fgStep_updates hh h
  | irq => exact startInvocation_updates h
  | txSent ch =>
    obtain ⟨-, rfl⟩ := ifEnabled_eq_next.mp h
    exact txSentEffect_updates ch s
  | rxData ch bytes =>
    obtain ⟨he, rfl⟩ := ifEnabled_eq_next.mp h
    refine rxDataEffect_updates ?_
    simp only [rxDataEnabled, Bool.and_eq_true, decide_eq_true_eq] at he
    exact he.2
  | rxSetup bytes =>
    obtain ⟨he, rfl⟩ := ifEnabled_eq_next.mp h
    exact rxSetupEffect_updates (of_decide_eq_true he)
  | busReset =>
    simp only [takeInput, busReset, Host.Outcome.next.injEq] at h
    exact h ▸ .single (.raise .busReset)
  | diagSent =>
    obtain ⟨-, rfl⟩ := ifEnabled_eq_next.mp h
    exact diagSentEffect_updates s
  | spurious => exact spurious_updates h
  | openRaise bits =>
    obtain ⟨ho, rfl⟩ := ifEnabled_eq_next.mp h
    exact .single (.openRaise bits ho)
  | hostWrite a bytes =>
    obtain ⟨-, -, rfl⟩ := hostWrite_eq_next.mp h
    exact .head (.store a bytes) (updates_cmd _ _)
  | hostRead a n =>
    obtain ⟨-, -, rfl⟩ := hostRead_eq_next.mp h
    exact updates_cmd s _
  | hardReset =>
    simp only [takeInput, Host.Outcome.next.injEq] at h
    exact h ▸ .single .reset

theorem idleStep_updates {s t : State} (hh : s.inHandler = false) (h : idleStep s = .next t) : Updates s t := by
  obtain ⟨-, h | ⟨-, h⟩ | ⟨-, h⟩ | rfl⟩ := idleStep_cases h
  · exact fgStep_updates hh h
  · exact startInvocation_updates h
  · exact spurious_updates h
  · exact .refl

/-! ## Steps -/

theorem leaveSlot_updates (src : Source) {s : State} (hh : s.inHandler = true) : Updates s (leaveSlot src s) := by
  unfold leaveSlot
  split
  · exact .single (.slot _ hh)
  · exact .single .exit

theorem slotStep_updates {src : Source} {s t : State} (hh : s.inHandler = true) (h : slotStep src s = .next t) :
    Updates s t := by
  rcases slotStep_cases h with ⟨-, rfl⟩ | ⟨-, u, hu, rfl⟩
  · exact leaveSlot_updates src hh
  · exact (isr_updates hu).trans (leaveSlot_updates src ((isr_sameSequencer hu).inHandler.trans hh))

/-- Every step is a chain of elementary updates. -/
theorem step_updates {s t : State} (h : step s = .next t) : Updates s t := by
  rcases step_cases h with ⟨hh, -, ⟨src, -, hs⟩ | ⟨-, rfl⟩⟩ | ⟨hh, m, rest, -, hm⟩ | ⟨hh, -, -, hi⟩
  · exact slotStep_updates hh hs
  · exact .single .exit
  · exact .head (.unwatched { s with script := rest }) (takeInput_updates (s := { s with script := rest }) hh hm)
  · exact idleStep_updates hh hi

end Sys2Proof.Machine
end

section
/-! PROOFS. What an elementary update keeps of `MachineInv`, part by part (10_state.md), and that every step keeps it. -/

namespace Sys2Proof.Machine

/-! ## Families over channels

What holds of a channel's element, and of a value written over one channel's, holds after the write. -/

theorem perCh_set_keeps {α : Type} {P : α → Prop} {x : PerCh α} {ch ch' : Channel} {v : α} (hx : P (x.get ch))
    (hv : ch = ch' → P v) : P ((x.set ch' v).get ch) := by
  by_cases h : ch = ch'
  · rw [h, perCh_get_set]; exact hv h
  · rwa [perCh_get_set_other x v h]

theorem perTx_set_keeps {α : Type} {P : α → Prop} {x : PerTx α} {ch ch' : TxCh} {v : α} (hx : P (x.get ch))
    (hv : ch = ch' → P v) : P ((x.set ch' v).get ch) := by
  by_cases h : ch = ch'
  · rw [h, perTx_get_set]; exact hv h
  · rwa [perTx_get_set_other x v h]

theorem perRx_set_keeps {α : Type} {P : α → Prop} {x : PerRx α} {ch ch' : RxCh} {v : α} (hx : P (x.get ch))
    (hv : ch = ch' → P v) : P ((x.set ch' v).get ch) := by
  by_cases h : ch = ch'
  · rw [h, perRx_get_set]; exact hv h
  · rwa [perRx_get_set_other x v h]

/-! ## Bits that stay zero -/

theorem and_and_eq_zero {r m : Byte} (x : Byte) (h : r &&& m = 0) : r &&& x &&& m = 0 := by
  rw [BitVec.and_assoc, BitVec.and_comm x m, ← BitVec.and_assoc, h]
  exact BitVec.zero_and

theorem or_and_eq_zero {r x m : Byte} (h : r &&& m = 0) (hx : x &&& m = 0) : (r ||| x) &&& m = 0 := by
  rw [BitVec.and_comm, BitVec.and_or_distrib_left, BitVec.and_comm m r, BitVec.and_comm m x, h, hx, BitVec.or_self]

theorem setField_and_eq_zero {r mask m : Byte} (v : Bool) (h : r &&& m = 0) (hm : mask &&& m = 0) :
    setField r mask v &&& m = 0 := by
  cases v
  · exact and_and_eq_zero _ h
  · exact or_and_eq_zero h hm

theorem mask_and_reserved (src : Source) : src.mask &&& 0x20 = 0 := by cases src <;> rfl

theorem mask_and_unused (src : Source) : src.mask &&& 0x60 = 0 := by cases src <;> rfl

/-- A field reads what was written. -/
theorem fieldSet_setField {mask : Byte} (hm : mask ≠ 0) (r : Byte) (v : Bool) : fieldSet (setField r mask v) mask = v := by
  cases v
  · have h : r &&& ~~~mask &&& mask = 0 := by
      rw [BitVec.and_assoc, BitVec.and_comm (~~~mask), BitVec.and_not_self]
      exact BitVec.and_zero
    simp [fieldSet, h]
  · have h : (r ||| mask) &&& mask = mask := by
      ext i
      rw [BitVec.getElem_and, BitVec.getElem_or]
      cases r[i] <;> cases mask[i] <;> rfl
    rw [fieldSet, setField_true, h]
    exact bne_iff_ne.mpr hm

section Parts

variable {s t : State} (hu : Update s t)
include hu

/-! ## Buffer memory -/

theorem Update.mem_wf (h : Memory.wf s.params s.mem) : Memory.wf t.params t.mem := by
  cases hu
  case store a bytes => exact wf_writeBytes h a bytes
  all_goals exact h

/-! ## Bounds -/

theorem Update.txFifo_bounded {ch : TxCh} (h : (s.txq.get ch).length ≤ s.params.txDepth ch) :
    (t.txq.get ch).length ≤ t.params.txDepth ch := by
  cases hu
  case txFifo ch' q hq =>
    exact perTx_set_keeps (P := fun q : List Byte => q.length ≤ s.params.txDepth ch) h (by rintro rfl; exact hq h)
  case reset => cases ch <;> exact Nat.zero_le _
  all_goals exact h

theorem Update.rxFifo_bounded (hl : s.params.Legal) {ch : RxCh} (h : (s.rxq.get ch).length ≤ s.params.rxDepth ch) :
    (t.rxq.get ch).length ≤ t.params.rxDepth ch := by
  cases hu
  case rxFifo ch' q hq =>
    exact perRx_set_keeps (P := fun q : List Byte => q.length ≤ s.params.rxDepth ch) h (by rintro rfl; exact hq hl h)
  case reset => cases ch <;> exact Nat.zero_le _
  all_goals exact h

theorem Update.staging_bounded {ch : RxCh} (h : (s.stg.get ch).length ≤ Config.stgCap ch) :
    (t.stg.get ch).length ≤ Config.stgCap ch := by
  cases hu
  case staging ch' b hb =>
    exact perRx_set_keeps (P := fun b : List Byte => b.length ≤ Config.stgCap ch) h (by rintro rfl; exact hb h)
  case reset => cases ch <;> exact Nat.zero_le _
  all_goals exact h

theorem Update.setupLeft_bounded (h : s.setupLeft ≤ Config.setupLen) : t.setupLeft ≤ Config.setupLen := by
  cases hu
  case setup n hn => exact hn.elim (fun hn => hn.trans h) id
  case reset => exact Nat.zero_le _
  all_goals exact h

theorem Update.bounded (hl : s.params.Legal) (h : Bounded s) : Bounded t := by
  obtain ⟨htc, htb, hrc, hrb, hsc, hsb, hn⟩ := h
  exact ⟨hu.txFifo_bounded (ch := .control) htc, hu.txFifo_bounded (ch := .bulkIn) htb,
    hu.rxFifo_bounded hl (ch := .control) hrc, hu.rxFifo_bounded hl (ch := .bulkOut) hrb,
    hu.staging_bounded (ch := .control) hsc, hu.staging_bounded (ch := .bulkOut) hsb, hu.setupLeft_bounded hn⟩

/-! ## Reserved bits -/

theorem Update.intEn_reserved (h : s.intEn &&& 0x20 = 0) : t.intEn &&& 0x20 = 0 := by
  cases hu
  case enable src v => exact setField_and_eq_zero v h (mask_and_reserved src)
  case enableAll => exact (by decide : (0xDF : Byte) &&& intEnBits &&& 0x20 = 0)
  case reset => exact (by decide : State.reset.intEn &&& 0x20 = 0)
  all_goals exact h

theorem Update.irqGate_reserved (h : s.irqGate &&& 0xFE = 0) : t.irqGate &&& 0xFE = 0 := by
  cases hu
  case gate v hh => exact setField_and_eq_zero v h (by decide)
  case enter he => exact setField_and_eq_zero false h (by decide)
  case exit => exact setField_and_eq_zero true h (by decide)
  case reset => exact (by decide : State.reset.irqGate &&& 0xFE = 0)
  all_goals exact h

theorem Update.ctl_reserved {ch : Channel} (h : s.ctl.get ch &&& 0xF8 = 0) : t.ctl.get ch &&& 0xF8 = 0 := by
  cases hu
  case ctlField ch' mask v hm =>
    exact perCh_set_keeps (P := fun r : Byte => r &&& 0xF8 = 0) h (by rintro rfl; exact setField_and_eq_zero v h hm)
  case ctlWhole ch' v =>
    have hv : v &&& ctlBits &&& 0xF8 = 0 := by rw [BitVec.and_assoc]; exact BitVec.and_zero
    exact perCh_set_keeps (P := fun r : Byte => r &&& 0xF8 = 0) h fun _ => hv
  case reset => exact (by cases ch <;> decide : State.reset.ctl.get ch &&& 0xF8 = 0)
  all_goals exact h

theorem Update.diag_reserved (h : s.diagCtl &&& 0xFE = 0 ∧ s.diagStat &&& 0xFE = 0) :
    t.diagCtl &&& 0xFE = 0 ∧ t.diagStat &&& 0xFE = 0 := by
  obtain ⟨hc, hs⟩ := h
  cases hu
  case endpoint v => exact ⟨setField_and_eq_zero v hc (by decide), setField_and_eq_zero _ hs (by decide)⟩
  case openReady v ho => exact ⟨hc, setField_and_eq_zero v hs (by decide)⟩
  case reset => exact (by decide : State.reset.diagCtl &&& 0xFE = 0 ∧ State.reset.diagStat &&& 0xFE = 0)
  all_goals exact ⟨hc, hs⟩

theorem Update.reservedZero (h : ReservedZero s) : ReservedZero t := by
  obtain ⟨he, hg, hc, hi, ho, hd⟩ := h
  exact ⟨hu.intEn_reserved he, hu.irqGate_reserved hg, hu.ctl_reserved (ch := .control) hc,
    hu.ctl_reserved (ch := .bulkIn) hi, hu.ctl_reserved (ch := .bulkOut) ho, hu.diag_reserved hd⟩

/-! ## Sequencing -/

theorem Update.sequenced (hg : s.irqGate &&& 0xFE = 0) (h : Sequenced s) : Sequenced t := by
  obtain ⟨hout, hin, hf⟩ := h
  cases hu
  case gate v hh => exact ⟨hout, fun hh' => (Bool.false_ne_true (hh.symm.trans hh')).elim, hf⟩
  case fatal cause info hh =>
    exact ⟨hout, fun hh' => (Bool.false_ne_true (hh.symm.trans hh')).elim, fun hf' => (Bool.false_ne_true hf'.symm).elim⟩
  case enter he =>
    obtain ⟨hrun, -⟩ := (irqEnabled_iff s).mp he
    exact ⟨fun hh' => (Bool.false_ne_true hh'.symm).elim, fun _ => ⟨rfl, hg, hrun⟩, hf⟩
  case slot src hh =>
    exact ⟨fun hh' => (Bool.false_ne_true (hh'.symm.trans hh)).elim, fun _ => ⟨rfl, (hin hh).2⟩, hf⟩
  case exit => exact ⟨fun _ => ⟨rfl, rfl⟩, fun hh' => (Bool.false_ne_true hh').elim, hf⟩
  case reset => exact ⟨fun _ => ⟨rfl, rfl⟩, fun hh' => (Bool.false_ne_true hh').elim, fun _ => ⟨rfl, rfl⟩⟩
  all_goals exact ⟨hout, hin, hf⟩

end Parts

/-! ## Contexts -/

theorem ctxConserved_empty (p : Params) : CtxConserved p Ctx.empty :=
  ⟨rfl, Nat.two_pow_pos _, Nat.two_pow_pos _⟩

/-- A fill moves what it counts from `bytes_remaining` to `bytes_completed` (R13, R121). -/
theorem runFill_conserved {ch : TxCh} {s : State} (h : CtxConserved s.params (s.txCtx.get ch)) :
    CtxConserved s.params (runFill ch s).ctx := by
  obtain ⟨hsum, htotal, hb⟩ := h
  rw [runFill_ctx rfl hsum htotal hb]
  refine ⟨?_, htotal, addr_lt _ _⟩
  simp only
  omega

/-- There is nothing to fill from an empty context. -/
theorem runFill_empty {ch : TxCh} {s : State} (h : s.txCtx.get ch = Ctx.empty) : (runFill ch s).ctx = Ctx.empty := by
  rw [runFill, h]
  cases txRoom ch s <;> rfl

section Parts

variable {s t : State} (hu : Update s t)
include hu

theorem Update.txCtx_conserved {ch : TxCh} (h : CtxConserved s.params (s.txCtx.get ch)) :
    CtxConserved t.params (t.txCtx.get ch) := by
  cases hu
  case startSend ch' buf len =>
    exact perTx_set_keeps (P := CtxConserved s.params) h fun _ => newCtx_conserved _ buf len
  case fill ch' =>
    exact perTx_set_keeps (P := CtxConserved s.params) h (by rintro rfl; exact runFill_conserved h)
  case endSend ch' => exact perTx_set_keeps (P := CtxConserved s.params) h fun _ => ctxConserved_empty _
  case reset => cases ch <;> exact ctxConserved_empty _
  all_goals exact h

theorem Update.rxCtx_conserved {ch : RxCh} (h : CtxConserved s.params (s.rxCtx.get ch).toCtx) :
    CtxConserved t.params (t.rxCtx.get ch).toCtx := by
  cases hu
  case startRecv ch' buf len =>
    exact perRx_set_keeps (P := fun c : RecvCtx => CtxConserved s.params c.toCtx) h fun _ => newCtx_conserved _ buf len
  case endRecv ch' =>
    exact perRx_set_keeps (P := fun c : RecvCtx => CtxConserved s.params c.toCtx) h fun _ => ctxConserved_empty _
  case reset => cases ch <;> exact ctxConserved_empty _
  all_goals exact h

theorem Update.conserved (h : Conserved s) : Conserved t := by
  obtain ⟨htc, htb, hrc, hrb⟩ := h
  exact ⟨hu.txCtx_conserved (ch := .control) htc, hu.txCtx_conserved (ch := .bulkIn) htb,
    hu.rxCtx_conserved (ch := .control) hrc, hu.rxCtx_conserved (ch := .bulkOut) hrb⟩

theorem Update.txCtx_idle {ch : TxCh} (h : s.busy.get ch = false → s.txCtx.get ch = Ctx.empty) :
    t.busy.get ch = false → t.txCtx.get ch = Ctx.empty := by
  cases hu
  case startSend ch' buf len =>
    by_cases he : ch = ch'
    · subst he; simp
    · simpa [perTx_get_set_other _ _ he] using h
  case fill ch' =>
    exact fun hb => perTx_set_keeps (P := (· = Ctx.empty)) (h hb) (by rintro rfl; exact runFill_empty (h hb))
  case endSend ch' =>
    by_cases he : ch = ch'
    · subst he; simp
    · simpa [perTx_get_set_other _ _ he] using h
  case reset => exact fun _ => by cases ch <;> rfl
  all_goals exact h

theorem Update.rxCtx_idle {ch : RxCh} (h : (s.rxCtx.get ch).pending = false → s.rxCtx.get ch = RecvCtx.empty) :
    (t.rxCtx.get ch).pending = false → t.rxCtx.get ch = RecvCtx.empty := by
  cases hu
  case startRecv ch' buf len =>
    exact perRx_set_keeps (P := fun c : RecvCtx => c.pending = false → c = RecvCtx.empty) h
      fun _ hp => (Bool.false_ne_true hp.symm).elim
  case endRecv ch' =>
    exact perRx_set_keeps (P := fun c : RecvCtx => c.pending = false → c = RecvCtx.empty) h fun _ _ => rfl
  case reset => exact fun _ => by cases ch <;> rfl
  all_goals exact h

theorem Update.idleEmpty (h : IdleEmpty s) : IdleEmpty t := by
  obtain ⟨htc, htb, hrc, hrb⟩ := h
  exact ⟨hu.txCtx_idle (ch := .control) htc, hu.txCtx_idle (ch := .bulkIn) htb,
    hu.rxCtx_idle (ch := .control) hrc, hu.rxCtx_idle (ch := .bulkOut) hrb⟩

/-! ## The reference peripheral -/

theorem Update.referencePeripheral (h : ReferencePeripheral s) : ReferencePeripheral t := by
  intro hc
  cases hu
  case endpoint v =>
    obtain ⟨hp, -⟩ := h hc
    refine ⟨hp, ?_⟩
    simp only [diagReady]
    rw [fieldSet_setField (by decide), fieldSet_setField (by decide)]
    cases v <;> decide
  case openReady v ho => exact absurd (ho.symm.trans hc) (by decide)
  case raise src =>
    obtain ⟨hp, hd⟩ := h hc
    exact ⟨or_and_eq_zero hp (mask_and_unused src), hd⟩
  case openRaise bits ho => exact absurd (ho.symm.trans hc) (by decide)
  case enter he =>
    obtain ⟨hp, hd⟩ := h hc
    exact ⟨and_and_eq_zero _ hp, hd⟩
  case reset =>
    exact (by decide : State.reset.pend &&& 0x60 = 0
      ∧ (diagReady State.reset = true ↔ fieldSet State.reset.diagCtl sendBit = false))
  all_goals exact h hc

/-! ## The invariant -/

theorem Update.machineInv (h : MachineInv s) : MachineInv t := by
  obtain ⟨hlegal, hmem, hbound, hres, hseq, hcons, hidle, hper⟩ := h
  obtain ⟨-, hgate, -⟩ := id hres
  exact ⟨hu.params ▸ hlegal, hu.mem_wf hmem, hu.bounded hlegal hbound, hu.reservedZero hres, hu.sequenced hgate hseq,
    hu.conserved hcons, hu.idleEmpty hidle, hu.referencePeripheral hper⟩

end Parts

/-- Settles O11: a step is a chain of elementary updates, each of which keeps the invariant and the parameters. -/
theorem stepKeepsInvariant : Obligations.StepKeepsInvariant := fun _ _ hs h =>
  ⟨(step_updates h).keep (fun _ _ => Update.machineInv) hs, (step_updates h).params⟩

end Sys2Proof.Machine
end

section
/-! PROOFS. The transfers of 00_scope.md R13 to R15: counters, the first fill, staged bytes and the drained request
(40_endpoint_transfer.md). -/

namespace Sys2Proof.Machine

/-! ## The operations by channel -/

theorem exec_sendInstr (ch : TxCh) (buf len : Nat) (s : State) :
    exec (sendInstr ch buf len) s = asCommand s fun s => thenTrue (submitSend ch buf len s) := by
  cases ch <;> rfl

theorem exec_recvInstr (ch : RxCh) (buf len : Nat) (s : State) :
    exec (recvInstr ch buf len) s = asCommand s fun s => thenTrue (submitRecv ch buf len s) := by
  cases ch <;> rfl

/-- A Tx-complete that is not discarded fills or completes (R124, R125). -/
theorem exec_txCompleteInstr {ch : TxCh} {s : State} (hd : NotDiscarded ch s) :
    exec (txCompleteInstr ch) s = unlessFatal s (txComplete ch) := by
  cases ch with
  | control =>
    have h : s.firstTxcDiscard = false := hd rfl
    simp only [exec, txCompleteInstr, execIsrCtrlTx, unlessFatal, h, Bool.false_eq_true, if_false]
  | bulkIn => rfl

/-- An Rx-complete with no SETUP packet waiting handles data, from the state as SETUP_PEND was read (R127, R128). -/
theorem exec_rxCompleteInstr_data {ch : RxCh} {s : State} (hf : s.fatal = false) (hd : DataBranch ch s) :
    exec (rxCompleteInstr ch) s = rxcData ch (rxStart ch s) := by
  cases ch with
  | control =>
    have h : (freshSetup s).setupLeft = 0 := hd rfl
    have hp : setupPend (freshSetup s) = false := by simp [setupPend, h]
    simp only [exec, rxCompleteInstr, execIsrCtrlRx, unlessFatal_of_running hf, hp, Bool.false_eq_true, if_false, rxStart]
  | bulkOut => exact unlessFatal_of_running hf _

/-! ## What a fill leaves -/

theorem finishFill_txCtx_get (ch : TxCh) (f : Fill) (s : State) : (finishFill ch f s).txCtx.get ch = f.ctx := by
  rw [finishFill_eq, perTx_get_set]

theorem finishFill_txq_get (ch : TxCh) (f : Fill) (s : State) :
    (finishFill ch f s).txq.get ch = s.txq.get ch ++ f.pushed := by
  rw [finishFill_eq, perTx_get_set]

/-- FORCE_TX after a fill: as it was, or set because the transfer ended short (R122). -/
theorem finishFill_forceTx (ch : TxCh) (f : Fill) (s : State) :
    fieldSet ((finishFill ch f s).ctl.get (txChannel ch)) forceTxBit =
      (fieldSet (s.ctl.get (txChannel ch)) forceTxBit || (f.ctx.remaining = 0 ∧ f.pushed.length < Config.mps ch)) := by
  rw [finishFill_eq, perCh_get_set, fieldSet_setField (by decide)]

theorem runFill_pushed_length (ch : TxCh) (s : State) :
    (runFill ch s).pushed.length = min (txRoom ch s) (s.txCtx.get ch).remaining := by
  rw [runFill_pushed, readBytes_length]

/-! ## Counters of the send contexts -/

/-- Settles O12: the counters are kept update by update, and the refill's context is the closed form of the fill loop. -/
theorem sendCountersAreConserved : Obligations.SendCountersAreConserved := by
  refine ⟨fun ch s t hc h => ?_, fun ch s t hc hd hr h => ?_⟩
  · have ht := (step_updates h).keep (P := fun u => CtxConserved u.params (u.txCtx.get ch))
      (fun _ _ hu => hu.txCtx_conserved) hc
    rwa [(step_updates h).params] at ht
  · rw [exec_txCompleteInstr hd] at h
    rcases txComplete_cases (unlessFatal_eq_next.mp h).2 with ⟨-, rfl⟩ | ⟨h0, -⟩
    · obtain ⟨hsum, htotal, hb⟩ := hc
      have hctx := runFill_ctx (ch := ch) (s := freshTx ch s) (c := s.txCtx.get ch) (by rw [freshTx_txCtx]) hsum
        (by rwa [freshTx_params]) (by rwa [freshTx_params])
      refine ⟨min (txRoom ch (freshTx ch s)) (s.txCtx.get ch).remaining, ?_, ?_, ?_⟩
      · rw [finishFill_txq_get, List.length_append, runFill_pushed_length, freshTx_txCtx]
      · rw [finishFill_txCtx_get, hctx]
      · rw [finishFill_txCtx_get, hctx]
        exact Nat.sub_add_cancel (Nat.min_le_right _ _)
    · exact absurd h0 hr

/-! ## The first fill -/

/-- The state SUBMIT_SEND fills from: send mode, source masked, transfer recorded (R123 steps 1 to 3). -/
def sendRecorded (ch : TxCh) (buf len : Nat) (s : State) : State :=
  recordSend ch buf len (maskSource (txSource ch) (sendMode ch s))

theorem sendRecorded_txCtx_get (ch : TxCh) (buf len : Nat) (s : State) :
    (sendRecorded ch buf len s).txCtx.get ch = newCtx s.params buf len := perTx_get_set _ _ _

theorem sendRecorded_txq (ch : TxCh) (buf len : Nat) (s : State) : (sendRecorded ch buf len s).txq = s.txq := rfl

theorem sendRecorded_params (ch : TxCh) (buf len : Nat) (s : State) : (sendRecorded ch buf len s).params = s.params := rfl

/-- Send mode writes RXMODE, not FORCE_TX (10_state.md R44). -/
theorem sendRecorded_forceTx (ch : TxCh) (buf len : Nat) (s : State) :
    fieldSet ((sendRecorded ch buf len s).ctl.get (txChannel ch)) forceTxBit =
      fieldSet (s.ctl.get (txChannel ch)) forceTxBit := by
  have hmask : ~~~rxmodeBit &&& forceTxBit = forceTxBit := by decide
  have hctl : (sendRecorded ch buf len s).ctl.get (txChannel ch) = s.ctl.get (txChannel ch) &&& ~~~rxmodeBit :=
    perCh_get_set _ _ _
  rw [hctl, fieldSet, BitVec.and_assoc, hmask, fieldSet]

/-- A submission that answers a next state leaves the register and FIFO of its channel as the first fill does. -/
theorem exec_sendInstr_fill {ch : TxCh} {buf len : Nat} {s t e : State} (he : e = sendRecorded ch buf len (freshTx ch s))
    (h : exec (sendInstr ch buf len) s = .next t) :
    t.ctl = (finishFill ch (runFill ch e) e).ctl ∧ t.txq = (finishFill ch (runFill ch e) e).txq := by
  rw [exec_sendInstr, asCommand_eq_next] at h
  obtain ⟨u, hu, ht⟩ := andThen_eq_next.mp h.2
  obtain ⟨-, v, hv, rfl⟩ := submitSend_cases hu
  obtain ⟨-, rfl⟩ := fillFrom_eq_next.mp hv
  cases ht
  subst he
  exact ⟨rfl, rfl⟩

/-- Settles O20: with the whole of TXDEPTH = MPS free, the fill takes `min(len, MPS)` bytes and ends the transfer short
exactly when `len` is below MPS. -/
theorem firstFillForcesShortPackets : Obligations.FirstFillForcesShortPackets := by
  intro ch buf len s t hdepth hempty hforce h
  obtain ⟨hctl, htxq⟩ := exec_sendInstr_fill rfl h
  generalize he : sendRecorded ch buf len (freshTx ch s) = e at hctl htxq
  have hc : e.txCtx.get ch = newCtx s.params buf len := by rw [← he, sendRecorded_txCtx_get, freshTx_params]
  have hp : e.params = s.params := by rw [← he, sendRecorded_params, freshTx_params]
  have hq : e.txq.get ch = [] := by rw [← he, sendRecorded_txq, hempty]
  have hf : fieldSet (e.ctl.get (txChannel ch)) forceTxBit = false := by
    rw [← he, sendRecorded_forceTx, freshTx_ctl]; exact hforce
  have hroom : txRoom ch e = Config.mps ch := by rw [txRoom, hp, hq, hdepth]; rfl
  have hpushed : (runFill ch e).pushed.length = min (s.params.len len) (Config.mps ch) := by
    rw [runFill_pushed_length, hroom, hc, Nat.min_comm]; rfl
  have hleft : (runFill ch e).ctx.remaining = s.params.len len - min (Config.mps ch) (s.params.len len) := by
    obtain ⟨hsum, htotal, hb⟩ := newCtx_conserved s.params buf len
    rw [runFill_ctx hc hsum (hp ▸ htotal) (hp ▸ hb), hroom]; rfl
  constructor
  · rw [hctl]
    change fieldSet _ forceTxBit = true ↔ _
    rw [finishFill_forceTx, hf, hpushed, hleft, Bool.false_or, decide_eq_true_eq]
    omega
  · rw [htxq, finishFill_txq_get, hq, List.nil_append, hpushed]

/-! ## Staged bytes -/

/-- Settles O25: the staged branch of SUBMIT_RECV, whose mask and unmask leave the source enabled. -/
theorem recvDeliversStagedBytes : Obligations.RecvDeliversStagedBytes := by
  intro ch buf len s ha hstaged hmem
  obtain ⟨-, -, hcmd⟩ := (acceptsCommand_iff s).mp ha
  have hhas : hasStaged ch (maskSource (rxSource ch) s) = true := by simpa [hasStaged] using hstaged
  have htake := (takeStaged_eq_next (ch := ch) (buf := buf) (len := len) (s := maskSource (rxSource ch) s)).mpr
    ⟨firstHole_none_iff.mpr (Nat.min_comm _ _ ▸ hmem), rfl⟩
  rw [exec_recvInstr, asCommand_of_accepts ha]
  simp only [submitRecv, recvBranch, hhas, if_true, htake, andThen_next, thenTrue]
  simp only [respond, respWord, if_true, unmaskSource, emitComplete, emit, maskSource, unmask_mask, hcmd,
    Nat.min_comm (s.stg.get ch).length]

/-! ## A pending request -/

section RxStart

variable (ch : RxCh) (s : State)

theorem rxStart_rxCtx : (rxStart ch s).rxCtx = s.rxCtx := by cases ch <;> simp [rxStart]
theorem rxStart_rxq : (rxStart ch s).rxq = s.rxq := by cases ch <;> simp [rxStart]
theorem rxStart_lentRx : (rxStart ch s).lentRx = s.lentRx := by cases ch <;> simp [rxStart]
theorem rxStart_events : (rxStart ch s).events = s.events := by cases ch <;> simp [rxStart]
theorem rxStart_mem : (rxStart ch s).mem = s.mem := by cases ch <;> simp [rxStart]
theorem rxStart_noMem : (rxStart ch s).noMem = s.noMem := by cases ch <;> simp [rxStart]
theorem rxStart_params : (rxStart ch s).params = s.params := by cases ch <;> simp [rxStart]

end RxStart

/-- Settles O42: the pending branch of RXC_DATA, in the closed form of its drain loop. -/
theorem rxCompleteFillsTheRequest : Obligations.RxCompleteFillsTheRequest := by
  intro ch s e n hf hd hpend he hn hmem
  have hctx : e.rxCtx = s.rxCtx := by rw [he, freshRx_rxCtx, rxStart_rxCtx]
  have hparams : e.params = s.params := by rw [he, freshRx_params, rxStart_params]
  have hnoMem : e.noMem = s.noMem := by rw [he, freshRx_noMem, rxStart_noMem]
  have hm : e.mem = s.mem := by rw [he, freshRx_mem, rxStart_mem]
  have hlent : e.lentRx = s.lentRx := by rw [he, freshRx_lentRx, rxStart_lentRx]
  have hevents : e.events = s.events := by rw [he, freshRx_events, rxStart_events]
  have hset : ∀ q, e.rxq.set ch q = s.rxq.set ch q := fun q => by rw [he, freshRx_rxq_set, rxStart_rxq]
  have hdrained : drained ch e = n := by rw [drained, hctx, hn]
  have htake : (e.rxq.get ch).take (s.rxCtx.get ch).total = (e.rxq.get ch).take n := by rw [hn, List.take_eq_take_min]
  have hdrop : (e.rxq.get ch).drop (s.rxCtx.get ch).total = (e.rxq.get ch).drop n := by rw [hn, List.drop_eq_drop_min]
  have hhole : firstHole e.params e.noMem (e.rxCtx.get ch).buffer (drained ch e) = none := by
    rw [hparams, hnoMem, hctx, hdrained]; exact firstHole_none_iff.mpr hmem
  rw [exec_rxCompleteInstr_data hf hd, rxcData, rxStart_rxCtx, if_pos hpend, ← he,
    drainPending_eq_next.mpr ⟨hhole, rfl⟩, hdrained, hctx, hparams, hm, hlent, hset, htake, hdrop, ← hevents]
  rfl

end Sys2Proof.Machine
end

section
/-! PROOFS. What SUBMIT_SEND and the ring's routines can change, each as a record over the state it started from
(40_endpoint_transfer.md R123, 41_diag_ring.md). -/

namespace Sys2Proof.Machine

/-- SUBMIT_SEND changes its channel's send side, the two registers it writes and the counter of draws (R123). -/
theorem submitSend_frame {ch : TxCh} {buf len : Nat} {s t : State} (h : submitSend ch buf len s = .next t) :
    ∃ ctx fifo busy lent ctl en draws,
      t = { s with
        txCtx := ctx
        txq := fifo
        busy := busy
        lentTx := lent
        ctl := ctl
        intEn := en
        draws := draws } := by
  obtain ⟨-, u, hu, rfl⟩ := submitSend_cases h
  obtain ⟨-, rfl⟩ := fillFrom_eq_next.mp hu
  obtain ⟨q, d, he, -⟩ := freshTx_spec ch s
  rw [finishFill_eq, he]
  exact ⟨_, _, _, _, _, _, _, rfl⟩

/-- ENQUEUE changes the ring, the diagnostic endpoint and the counter of draws (R162). -/
theorem enqueue_frame (b : Byte) (s : State) :
    ∃ data rd wr hold dctl dstat draws,
      (enqueue b s).2 =
        { s with
          ringData := data
          ringRead := rd
          ringWrite := wr
          diagHold := hold
          diagCtl := dctl
          diagStat := dstat
          draws := draws } := by
  unfold enqueue
  split
  · exact ⟨_, _, _, _, _, _, _, rfl⟩
  · obtain ⟨_, _, _, _, _, h⟩ := drainOne_frame (appendByte b s)
    exact ⟨_, _, _, _, _, _, _, h⟩

/-- Bytes put one by one change what one put changes (R166 to R168). -/
theorem putBytes_frame (bs : List Byte) (s : State) :
    ∃ data rd wr hold dctl dstat draws en,
      (putBytes bs s).2 =
        { s with
          ringData := data
          ringRead := rd
          ringWrite := wr
          diagHold := hold
          diagCtl := dctl
          diagStat := dstat
          draws := draws
          intEn := en } := by
  induction bs generalizing s with
  | nil => exact ⟨_, _, _, _, _, _, _, _, rfl⟩
  | cons b bs ih =>
    obtain ⟨_, _, _, _, _, _, _, hput, -⟩ := putByte_frame b s
    simp only [putBytes]
    split
    · obtain ⟨_, _, _, _, _, _, _, _, h⟩ := ih (putByte b s).2
      rw [h, hput]
      exact ⟨_, _, _, _, _, _, _, _, rfl⟩
    · exact ⟨_, _, _, _, _, _, _, _, hput⟩

/-- DIAG_PUTS changes what its puts change, and answers (R166). -/
theorem putString_frame {n a : Nat} {s t : State} (h : putString n a s = .next t) :
    ∃ v data rd wr hold dctl dstat draws en,
      t = respond v
        { s with
          ringData := data
          ringRead := rd
          ringWrite := wr
          diagHold := hold
          diagCtl := dctl
          diagStat := dstat
          draws := draws
          intEn := en } := by
  induction n generalizing a s with
  | zero =>
    simp only [putString, Host.Outcome.next.injEq] at h
    exact ⟨true, _, _, _, _, _, _, _, _, h.symm⟩
  | succ n ih =>
    simp only [putString] at h
    obtain ⟨-, h⟩ := withMemory_eq_next.mp h
    obtain ⟨_, _, _, _, _, _, _, hput, -⟩ := putByte_frame (memRead s.params s.mem a) s
    split at h
    · obtain ⟨v, _, _, _, _, _, _, _, _, rfl⟩ := ih h
      rw [hput]
      exact ⟨v, _, _, _, _, _, _, _, _, rfl⟩
    · simp only [Host.Outcome.next.injEq, hput] at h
      exact ⟨false, _, _, _, _, _, _, _, _, h.symm⟩

end Sys2Proof.Machine
end

section
/-! PROOFS. Staged bytes and a pending request on a receiving channel (10_state.md R26, 20_memory.md R72, R73): what keeps
the two apart, step by step. -/

namespace Sys2Proof.Machine

/-! ## The receive side of a channel -/

/-- The staging buffer and the receive context of a channel are as they were. -/
structure SameReceive (ch : RxCh) (s t : State) : Prop where
  stg : t.stg.get ch = s.stg.get ch
  rxCtx : t.rxCtx.get ch = s.rxCtx.get ch

section Staging

variable {ch : RxCh} {s t u : State}

theorem SameReceive.stagedOrPending (h : SameReceive ch s t) (hs : StagedOrPending ch s) : StagedOrPending ch t := by
  intro hp
  rw [h.stg]
  exact hs (h.rxCtx ▸ hp)

theorem takeStaged_sameReceive {ch' : RxCh} {buf len : Nat} (hne : ch ≠ ch') (h : takeStaged ch' buf len s = .next t) :
    SameReceive ch s t := by
  obtain ⟨-, rfl⟩ := takeStaged_eq_next.mp h
  exact ⟨perRx_get_set_other _ _ hne, rfl⟩

theorem recordRecv_sameReceive {ch' : RxCh} {buf len : Nat} (hne : ch ≠ ch') (h : recordRecv ch' buf len s = .next t) :
    SameReceive ch s t := by
  obtain ⟨-, rfl⟩ := recordRecv_eq_next.mp h
  exact ⟨rfl, perRx_get_set_other _ _ hne⟩

/-- The staged branch leaves no staged byte (R126 step 3a). -/
theorem takeStaged_stagedOrPending {buf len : Nat} (h : takeStaged ch buf len s = .next t) : StagedOrPending ch t := by
  obtain ⟨-, rfl⟩ := takeStaged_eq_next.mp h
  exact fun _ => perRx_get_set _ _ _

/-- A request recorded where nothing is staged (R126 step 3b). -/
theorem recordRecv_stagedOrPending {buf len : Nat} (hs : s.stg.get ch = []) (h : recordRecv ch buf len s = .next t) :
    StagedOrPending ch t := by
  obtain ⟨-, rfl⟩ := recordRecv_eq_next.mp h
  exact fun _ => hs

theorem submitRecv_stagedOrPending {ch' : RxCh} {buf len : Nat} (hs : StagedOrPending ch s)
    (h : submitRecv ch' buf len s = .next t) : StagedOrPending ch t := by
  by_cases hne : ch = ch'
  · subst hne
    rcases submitRecv_cases h with ⟨-, u, hu, rfl⟩ | ⟨he, u, hu, rfl⟩
    · exact takeStaged_stagedOrPending (t := u) hu
    · exact recordRecv_stagedOrPending (s := maskSource (rxSource ch) s) (t := u) he hu
  · rcases submitRecv_cases h with ⟨-, u, hu, rfl⟩ | ⟨-, u, hu, rfl⟩
    · exact (takeStaged_sameReceive hne hu).stagedOrPending hs
    · exact (recordRecv_sameReceive hne hu).stagedOrPending hs

/-- RXC_DATA stages only where no request is pending, and ends the request it fills (R129, 90_conflicts.md C13). -/
theorem rxcData_stagedOrPending (hs : StagedOrPending ch s) (h : rxcData ch s = .next t) : StagedOrPending ch t := by
  rcases rxcData_cases rfl h with ⟨-, h⟩ | ⟨-, -, rfl⟩ | ⟨hp, -, rfl⟩
  · obtain ⟨-, rfl⟩ := drainPending_eq_next.mp h
    intro hp
    exact absurd (hp.symm.trans (congrArg RecvCtx.pending (perRx_get_set _ _ _))) (by decide)
  · exact SameReceive.stagedOrPending ⟨by simp [emitComplete], by simp [emitComplete]⟩ hs
  · intro hp'
    have hctx : (stage ch (freshRx ch (freshRx ch s))).rxCtx = s.rxCtx := by simp [stage]
    rw [hctx, hp] at hp'
    exact absurd hp' (by decide)

/-! ## Handler steps -/

/-- Only the Rx-complete operation of a channel reaches its receive side (20_memory.md R73). -/
theorem isr_sameReceive {src : Source} (hsrc : src ≠ rxSource ch) (h : exec src.instr s = .next t) :
    SameReceive ch s t := by
  rcases isr_frame h with ⟨-, _, _, _, _, _, rfl⟩ | ⟨_, -, _, _, _, _, _, _, _, _, rfl⟩
    | ⟨ch', rfl, _, _, _, _, _, _, _, _, rfl⟩ | ⟨-, _, _, rfl⟩
  · exact ⟨rfl, rfl⟩
  · exact ⟨rfl, rfl⟩
  · have hne : ch ≠ ch' := fun h => hsrc (h ▸ rfl)
    exact ⟨perRx_get_set_other _ _ hne, perRx_get_set_other _ _ hne⟩
  · exact ⟨rfl, rfl⟩

/-- The Rx-complete operation of a channel handles data, or takes a SETUP packet (R127, R128). -/
theorem rxComplete_cases (h : exec (rxSource ch).instr s = .next t) :
    rxcData ch (rxStart ch s) = .next t ∨ t = receiveSetup (freshRx .control (freshSetup s)) := by
  cases ch with
  | control =>
    have h : execIsrCtrlRx s = .next t := h
    simp only [execIsrCtrlRx, unlessFatal_eq_next] at h
    obtain ⟨-, h⟩ := h
    split at h
    · exact .inr (Host.Outcome.next.inj h).symm
    · exact .inl h
  | bulkOut =>
    have h : execIsrBulkoutRx s = .next t := h
    exact .inl (unlessFatal_eq_next.mp h).2

theorem isr_stagedOrPending {src : Source} (hs : StagedOrPending ch s) (h : exec src.instr s = .next t) :
    StagedOrPending ch t := by
  by_cases hsrc : src = rxSource ch
  · subst hsrc
    rcases rxComplete_cases h with h | rfl
    · refine rxcData_stagedOrPending (SameReceive.stagedOrPending ?_ hs) h
      exact ⟨by cases ch <;> simp [rxStart], by rw [rxStart_rxCtx]⟩
    · refine SameReceive.stagedOrPending ?_ hs
      obtain ⟨_, _, _, _, h⟩ := receiveSetup_frame (freshRx .control (freshSetup s))
      rw [h]
      exact ⟨by simp, by simp⟩
  · exact (isr_sameReceive hsrc h).stagedOrPending hs

/-! ## The staging invariant across a step -/

theorem recvSectionSafe_of_noCommand (hc : s.cmd = none) : RecvSectionSafe ch s := fun _ h =>
  Option.some_ne_none _ (h.symm.trans hc) |>.elim

/-- A command in progress that does not receive on the channel holds no section of it. -/
theorem recvSectionSafe_of_other (hc : ∀ c, s.cmd = some c → receivingChannel s.params c.instr ≠ some ch) :
    RecvSectionSafe ch s := fun c h hr => absurd hr (hc c h)

/-- A command in progress outside its micro-steps 2 and 3 holds no section. -/
theorem recvSectionSafe_of_outside {c : InProgress} (hc : s.cmd = some c) (h2 : c.at_ ≠ 2) (h3 : c.at_ ≠ 3) :
    RecvSectionSafe ch s := by
  intro d hd _
  obtain rfl := Option.some.inj (hc.symm.trans hd)
  exact ⟨fun h => (h.elim h2 h3).elim, fun h => absurd h h3⟩

/-- A command in progress inside them, its source excluded and its note of step 2 true. -/
theorem recvSectionSafe_of_inside {c : InProgress} (hc : s.cmd = some c) (hx : Excluded (rxSource ch) s)
    (h3 : c.at_ = 3 → c.staged = hasStaged ch s) : RecvSectionSafe ch s := by
  intro d hd _
  obtain rfl := Option.some.inj (hc.symm.trans hd)
  exact ⟨fun _ => hx, h3⟩

/-- What leaves the command in progress, and neither unmasks an excluded source nor stages for it, keeps the section of a
receive in progress safe. -/
theorem RecvSectionSafe.carry (h : RecvSectionSafe ch s) (hcmd : t.cmd = s.cmd) (hp : t.params = s.params)
    (hx : Excluded (rxSource ch) s → Excluded (rxSource ch) t ∧ t.stg.get ch = s.stg.get ch) : RecvSectionSafe ch t := by
  intro c hc hr
  obtain ⟨hex, hst⟩ := h c (hcmd ▸ hc) (hp ▸ hr)
  refine ⟨fun ha => (hx (hex ha)).1, fun ha => ?_⟩
  rw [hst ha, hasStaged, hasStaged, (hx (hex (.inr ha))).2]

/-- The same for what leaves the receive side of the channel alone. -/
theorem StagingInv.carry (h : StagingInv ch s) (hcmd : t.cmd = s.cmd) (hp : t.params = s.params)
    (hr : SameReceive ch s t) (hx : Excluded (rxSource ch) s → Excluded (rxSource ch) t) : StagingInv ch t :=
  ⟨hr.stagedOrPending h.1, h.2.carry hcmd hp fun he => ⟨hx he, hr.stg⟩⟩

/-! ## The handler -/

/-- Entry latches no source that is masked (10_state.md R42). -/
theorem handlerEntry_stagingInv (h : StagingInv ch s) : StagingInv ch (handlerEntry false s) := by
  refine h.carry rfl rfl ⟨rfl, rfl⟩ fun ⟨hen, _⟩ => ⟨hen, fun _ => ?_⟩
  change s.pend &&& s.intEn &&& srcBits &&& (rxSource ch).mask = 0
  rw [BitVec.and_comm s.pend]
  exact and_and_eq_zero _ (and_and_eq_zero _ hen)

theorem startInvocation_stagingInv (h : StagingInv ch s) (hs : startInvocation s = .next t) : StagingInv ch t := by
  obtain ⟨-, rfl⟩ := startInvocation_cases hs
  exact handlerEntry_stagingInv h

theorem handlerExit_stagingInv (h : StagingInv ch s) : StagingInv ch (handlerExit s) :=
  h.carry rfl rfl ⟨rfl, rfl⟩ fun ⟨hen, _⟩ => ⟨hen, fun hh => absurd hh Bool.false_ne_true⟩

theorem leaveSlot_stagingInv (src : Source) (h : StagingInv ch s) : StagingInv ch (leaveSlot src s) := by
  unfold leaveSlot
  split
  · exact h.carry rfl rfl ⟨rfl, rfl⟩ id
  · exact handlerExit_stagingInv h

/-- The operation of a latched source: it is not the excluded one, so the section of a receive in progress stays safe. -/
theorem isr_stagingInv {src : Source} (hh : s.inHandler = true) (hl : s.latched &&& src.mask ≠ 0) (hi : StagingInv ch s)
    (h : exec src.instr s = .next t) : StagingInv ch t := by
  have hseq := isr_sameSequencer h
  refine ⟨isr_stagedOrPending hi.1 h, hi.2.carry hseq.cmd hseq.params fun hx => ?_⟩
  obtain ⟨hen, hlat⟩ := hx
  have hsrc : src ≠ rxSource ch := by
    rintro rfl
    exact hl (hlat hh)
  refine ⟨?_, (isr_sameReceive hsrc h).stg⟩
  rw [Excluded, hseq.intEn, hseq.latched, hseq.inHandler]
  exact ⟨hen, hlat⟩

theorem slotStep_stagingInv {src : Source} (hh : s.inHandler = true) (hi : StagingInv ch s)
    (h : slotStep src s = .next t) : StagingInv ch t := by
  rcases slotStep_cases h with ⟨-, rfl⟩ | ⟨hl, u, hu, rfl⟩
  · exact leaveSlot_stagingInv src hi
  · exact leaveSlot_stagingInv src (isr_stagingInv hh hl hi hu)

/-! ## Commands run at once -/

theorem initSteps_stagedOrPending (ch : RxCh) (s : State) : StagedOrPending ch (initSteps s) := fun _ => by
  cases ch <;> rfl

theorem command_stagedOrPending {p : Params} {i : Instr} {w : Nat} (he : encode p i = .cmd w) (hs : StagedOrPending ch s)
    (h : exec i s = .next t) : StagedOrPending ch t := by
  rcases command_cases he h with ⟨-, rfl⟩ | ⟨v, rfl⟩ | ⟨_, _, _, u, hu, rfl⟩ | ⟨_, _, _, u, hu, rfl⟩ | ⟨v, _, rfl⟩
    | ⟨_, _, rfl⟩ | rfl | ⟨bs, rfl⟩ | ⟨n, a, hput⟩
  · exact initSteps_stagedOrPending ch s
  · exact hs
  · obtain ⟨_, _, _, _, _, _, _, rfl⟩ := submitSend_frame hu
    exact hs
  · exact submitRecv_stagedOrPending (t := u) hs hu
  · exact hs
  · exact hs
  · exact hs
  · obtain ⟨_, _, _, _, _, _, _, _, hb⟩ := putBytes_frame bs s
    rw [respondPut, hb]
    exact hs
  · obtain ⟨_, _, _, _, _, _, _, _, _, rfl⟩ := putString_frame hput
    exact hs

/-- A command run at once leaves none in progress. -/
theorem command_cmd {p : Params} {i : Instr} {w : Nat} (he : encode p i = .cmd w) (h : exec i s = .next t) :
    t.cmd = none := by
  obtain ⟨-, -, hc⟩ := (acceptsCommand_iff s).mp (command_accepted he h)
  rcases command_cases he h with ⟨-, rfl⟩ | ⟨v, rfl⟩ | ⟨_, _, _, u, hu, rfl⟩ | ⟨_, _, _, u, hu, rfl⟩ | ⟨v, _, rfl⟩
    | ⟨_, _, rfl⟩ | rfl | ⟨bs, rfl⟩ | ⟨n, a, hput⟩
  · rfl
  · rfl
  · rfl
  · rfl
  · rfl
  · exact hc
  · rfl
  · rfl
  · obtain ⟨_, _, _, _, _, _, _, _, _, rfl⟩ := putString_frame hput
    rfl

theorem runCommand_stagingInv {w : Nat} (hi : StagingInv ch s) (h : runCommand w s = .next t) : StagingInv ch t := by
  rcases runCommand_cases h with ⟨i, hd, h⟩ | ⟨op, -, rfl⟩
  · obtain ⟨w', he⟩ := decoded_isCommand hd
    exact ⟨command_stagedOrPending he hi.1 h, recvSectionSafe_of_noCommand (command_cmd he h)⟩
  · exact hi.carry rfl rfl ⟨rfl, rfl⟩ id

theorem issueCommand_stagingInv {w : Nat} (hi : StagingInv ch s) (h : issueCommand w s = .next t) : StagingInv ch t := by
  obtain ⟨-, ⟨i, -, rfl⟩ | ⟨op, rfl⟩⟩ := issueCommand_cases h
  · exact ⟨hi.1, recvSectionSafe_of_outside rfl (show 1 ≠ 2 by decide) (show 1 ≠ 3 by decide)⟩
  · exact hi.carry rfl rfl ⟨rfl, rfl⟩ id

/-! ## Micro-steps of other commands -/

theorem goOn_eq_next {c : InProgress} : goOn c u = .next t ↔ t = { u with cmd := some { c with at_ := c.at_ + 1 } } := by
  rw [goOn, Host.Outcome.next.injEq, eq_comm]

theorem goOn_sameReceive {c : InProgress} (h : goOn c u = .next t) (hu : SameReceive ch s u) : SameReceive ch s t := by
  obtain rfl := goOn_eq_next.mp h
  exact ⟨hu.stg, hu.rxCtx⟩

theorem finish_sameReceive {v : Bool} (h : finish v s = .next t) : SameReceive ch s t := by
  cases h
  exact ⟨rfl, rfl⟩

theorem microSend_sameReceive {ch' : TxCh} {buf len : Nat} {c : InProgress} (h : microSend ch' buf len c s = .next t) :
    SameReceive ch s t := by
  simp only [microSend] at h
  split at h
  · split at h
    · cases h
    · exact goOn_sameReceive h ⟨rfl, rfl⟩
  · exact goOn_sameReceive h ⟨rfl, rfl⟩
  · exact goOn_sameReceive h ⟨rfl, rfl⟩
  · obtain ⟨u, hu, ht⟩ := andThen_eq_next.mp h
    obtain ⟨-, rfl⟩ := fillFrom_eq_next.mp hu
    refine goOn_sameReceive ht ?_
    rw [finishFill_eq]
    exact ⟨by simp, by simp⟩
  · exact goOn_sameReceive h ⟨rfl, rfl⟩
  · exact finish_sameReceive h

theorem microRecv_sameReceive {ch' : RxCh} {buf len : Nat} {c : InProgress} (hne : ch ≠ ch')
    (h : microRecv ch' buf len c s = .next t) : SameReceive ch s t := by
  simp only [microRecv] at h
  split at h
  · exact goOn_sameReceive h ⟨rfl, rfl⟩
  · exact goOn_sameReceive (decideRecv_eq_next.mp h).2 ⟨rfl, rfl⟩
  · obtain ⟨u, hu, ht⟩ := andThen_eq_next.mp h
    simp only [recvBranch] at hu
    split at hu
    · exact goOn_sameReceive ht (takeStaged_sameReceive hne hu)
    · exact goOn_sameReceive ht (recordRecv_sameReceive hne hu)
  · exact goOn_sameReceive h ⟨rfl, rfl⟩
  · exact finish_sameReceive h

theorem microStall_sameReceive {v : Bool} {cause epa : Byte} {c : InProgress} (h : microStall v cause epa c s = .next t) :
    SameReceive ch s t := by
  simp only [microStall] at h
  split at h
  · cases h
    exact ⟨rfl, rfl⟩
  · split at h
    · exact goOn_sameReceive h ⟨rfl, rfl⟩
    · exact goOn_sameReceive h ⟨rfl, rfl⟩
    · exact finish_sameReceive h

theorem microDiagInit_sameReceive {c : InProgress} (h : microDiagInit c s = .next t) : SameReceive ch s t := by
  simp only [microDiagInit] at h
  split at h
  · exact goOn_sameReceive h ⟨rfl, rfl⟩
  · exact finish_sameReceive h

theorem microPutRound_sameReceive {b : Byte} {count : Nat} {c : InProgress} (h : microPutRound b count c s = .next t) :
    SameReceive ch s t := by
  simp only [microPutRound] at h
  split at h
  · exact goOn_sameReceive h ⟨rfl, rfl⟩
  · refine goOn_sameReceive h ?_
    obtain ⟨_, _, _, _, _, _, _, hq⟩ := enqueue_frame c.byte s
    rw [hq]
    exact ⟨rfl, rfl⟩
  · exact goOn_sameReceive h ⟨rfl, rfl⟩
  · split at h
    · cases h
      exact ⟨rfl, rfl⟩
    · exact finish_sameReceive h

theorem microPuts_sameReceive {buf len : Nat} {c : InProgress} (h : microPuts buf len c s = .next t) :
    SameReceive ch s t := by
  simp only [microPuts] at h
  split at h
  · exact finish_sameReceive h
  · split at h
    · exact microPutRound_sameReceive (withMemory_eq_next.mp h).2
    · exact microPutRound_sameReceive h

/-- INIT's step 2 ends every request and its step 3 drops what is staged; its other steps touch neither (R200). -/
theorem microInit_stagedOrPending {c : InProgress} (hs : StagedOrPending ch s) (h : microInit c s = .next t) :
    StagedOrPending ch t := by
  simp only [microInit] at h
  split at h
  case h_2 =>
    obtain rfl := goOn_eq_next.mp h
    exact fun hp => absurd hp (by cases ch <;> exact Bool.false_ne_true)
  case h_3 =>
    obtain rfl := goOn_eq_next.mp h
    exact fun _ => by cases ch <;> rfl
  case h_9 => exact (finish_sameReceive h).stagedOrPending hs
  all_goals exact (goOn_sameReceive h ⟨rfl, rfl⟩).stagedOrPending hs

/-! ## Micro-steps of a receive -/

/-- A receive is the row of its channel, or a SUBMIT_XFER routed to it (43_foreground_api.md R207). -/
theorem recvOperands_cases {p : Params} {i : Instr} {buf len : Nat} (h : recvOperands p i = some (ch, buf, len)) :
    i = recvInstr ch buf len ∨ ∃ epa, i = .submitXfer epa buf len ∧ epRoute p epa = some (.recv ch) := by
  cases i
  case recvCtrl => cases h; exact .inl rfl
  case recvBulk => cases h; exact .inl rfl
  case submitXfer epa b l =>
    simp only [recvOperands] at h
    split at h
    case h_1 hr => cases h; exact .inr ⟨epa, rfl, hr⟩
    all_goals cases h
  all_goals cases h

/-- A receive in progress takes the micro-steps of SUBMIT_RECV (R126). -/
theorem microStep_of_recv {c : InProgress} {buf len : Nat} (h : recvOperands s.params c.instr = some (ch, buf, len)) :
    microStep c s = microRecv ch buf len c s := by
  rcases recvOperands_cases h with hi | ⟨epa, hi, hr⟩
  · cases ch <;> simp only [microStep, hi, recvInstr]
  · simp only [microStep, hi, microSubmit, hr]

theorem microSubmit_sameReceive {epa : Byte} {buf len : Nat} {c : InProgress}
    (hr : epRoute s.params epa ≠ some (.recv ch)) (h : microSubmit epa buf len c s = .next t) : SameReceive ch s t := by
  simp only [microSubmit] at h
  split at h
  · exact microSend_sameReceive h
  · rename_i ch' hch
    exact microRecv_sameReceive (fun he => hr (he ▸ hch)) h
  · exact finish_sameReceive h
  · exact finish_sameReceive h

/-- A micro-step of a command other than INIT and the receives of the channel leaves the receive side of the channel. -/
theorem microStep_sameReceive {c : InProgress} (hi : c.instr ≠ .init)
    (hr : receivingChannel s.params c.instr ≠ some ch) (h : microStep c s = .next t) : SameReceive ch s t := by
  cases he : c.instr <;> simp only [microStep, he] at h
  case init => exact absurd he hi
  case submitXfer epa buf len =>
    refine microSubmit_sameReceive (fun hch => hr ?_) h
    rw [receivingChannel, he, recvOperands, hch]
    rfl
  case recvCtrl | recvBulk =>
    refine microRecv_sameReceive (fun hch => hr ?_) h
    rw [he, hch]
    rfl
  case sendCtrl | sendBulk => exact microSend_sameReceive h
  case stall | stallControl | stallBulkin | stallBulkout => exact microStall_sameReceive h
  case clearStall | clearStallControl | clearStallBulkin | clearStallBulkout => exact microStall_sameReceive h
  case diagInit => exact microDiagInit_sameReceive h
  case diagPutb | diagPuthex8 | diagPut16 => exact microPutRound_sameReceive h
  case diagPuts => exact microPuts_sameReceive h
  case connect | disconnect | setAddress | remoteWakeup | closeEp | openEp => exact finish_sameReceive h
  case isrDiagTx | isrCtrlTx | isrCtrlRx | isrBusReset | isrBulkoutRx | isrBulkinTx => cases h

/-- What a micro-step leaves in progress is the same command. -/
theorem microStep_instr {c c' : InProgress} (hc : s.cmd = some c) (h : microStep c s = .next t) (hc' : t.cmd = some c') :
    c'.instr = c.instr := by
  cases microStep_result h with
  | goesOn u d _ hi => exact Option.some.inj hc' ▸ hi
  | responds v => cases hc'
  | fatal cause info => exact congrArg InProgress.instr (Option.some.inj (hc'.symm.trans hc))

/-- A source just masked is one no handler step can service, outside a handler (20_memory.md R72). -/
theorem maskSource_excluded (src : Source) (hh : s.inHandler = false) : Excluded src (maskSource src s) := by
  refine ⟨?_, fun h => absurd (h.symm.trans hh) (by decide)⟩
  rw [maskSource_intEn, setField_false, BitVec.and_assoc, BitVec.and_comm (~~~src.mask), BitVec.and_not_self]
  exact BitVec.and_zero

/-- The micro-steps of a receive on its own channel: the mask of step 1 excludes the source, step 2 notes what is staged, and
what step 3 finds is what step 2 noted (R126, 20_memory.md R72, R73). -/
theorem microRecv_stagingInv {c : InProgress} {buf len : Nat} (hh : s.inHandler = false) (hc : s.cmd = some c)
    (hr : receivingChannel s.params c.instr = some ch) (hi : StagingInv ch s) (h : microRecv ch buf len c s = .next t) :
    StagingInv ch t := by
  obtain ⟨hsp, hsafe⟩ := hi
  obtain ⟨hex, hst⟩ := hsafe c hc hr
  simp only [microRecv] at h
  split at h
  case h_1 ha =>
    obtain rfl := goOn_eq_next.mp h
    exact ⟨hsp, recvSectionSafe_of_inside rfl (maskSource_excluded _ hh) fun h3 => by simp [ha] at h3⟩
  case h_2 ha =>
    obtain rfl := goOn_eq_next.mp (decideRecv_eq_next.mp h).2
    exact ⟨hsp, recvSectionSafe_of_inside rfl (hex (.inl ha)) fun _ => rfl⟩
  case h_3 ha =>
    obtain ⟨u, hu, ht⟩ := andThen_eq_next.mp h
    obtain rfl := goOn_eq_next.mp ht
    refine ⟨?_, recvSectionSafe_of_outside rfl (by simp [ha]) (by simp [ha])⟩
    rw [recvBranch] at hu
    split at hu
    · exact takeStaged_stagedOrPending (t := u) hu
    · rename_i hs
      refine recordRecv_stagedOrPending (t := u) ?_ hu
      simpa [hst ha, hasStaged] using hs
  case h_4 ha =>
    obtain rfl := goOn_eq_next.mp h
    exact ⟨hsp, recvSectionSafe_of_outside rfl (by simp [ha]) (by simp [ha])⟩
  case h_5 =>
    cases h
    exact ⟨hsp, recvSectionSafe_of_noCommand rfl⟩

/-! ## Steps -/

theorem fgStep_stagingInv (hh : s.inHandler = false) (hi : StagingInv ch s) (h : fgStep s = .next t) :
    StagingInv ch t := by
  have hp : t.params = s.params := (fgStep_updates hh h).params
  obtain ⟨-, c, hc, hm⟩ := fgStep_eq_next.mp h
  by_cases hr : receivingChannel s.params c.instr = some ch
  · obtain ⟨⟨_, buf, len⟩, hops, rfl⟩ := Option.map_eq_some_iff.mp hr
    rw [microStep_of_recv hops] at hm
    exact microRecv_stagingInv hh hc hr hi hm
  · refine ⟨?_, recvSectionSafe_of_other fun d hd => by rwa [hp, microStep_instr hc hm hd]⟩
    by_cases hinit : c.instr = .init
    · simp only [microStep, hinit] at hm
      exact microInit_stagedOrPending hi.1 hm
    · exact (microStep_sameReceive hinit hr hm).stagedOrPending hi.1

/-- A HOST access leaves at most a note in the command in progress (log 9). -/
theorem noteAccess_stagingInv (a n : Nat) (h : StagingInv ch s) : StagingInv ch (noteAccess a n s) := by
  refine ⟨h.1, fun c hc hr => ?_⟩
  obtain ⟨d, hd, rfl⟩ := Option.map_eq_some_iff.mp hc
  rw [noteTouch_instr] at hr
  rw [noteTouch_at, noteTouch_staged]
  exact h.2 d hd hr

/-- A move of the environment keeps what its effect keeps. -/
theorem ifEnabled_stagingInv {enabled : Bool} {move : String} (h : ifEnabled enabled move u = .next t)
    (hu : StagingInv ch u) : StagingInv ch t := by
  obtain ⟨-, rfl⟩ := ifEnabled_eq_next.mp h
  exact hu

theorem spurious_stagingInv (hi : StagingInv ch s) (h : spurious s = .next t) : StagingInv ch t :=
  ifEnabled_stagingInv h (hi.carry rfl rfl ⟨rfl, rfl⟩ id)

/-- At reset nothing is staged, nothing is pending and no command is in progress (10_state.md R50). -/
theorem hardwareReset_stagingInv (ch : RxCh) (s : State) : StagingInv ch (hardwareReset s) :=
  ⟨fun _ => by cases ch <;> rfl, recvSectionSafe_of_noCommand rfl⟩

theorem takeInput_stagingInv {m : Input} (hh : s.inHandler = false) (hi : StagingInv ch s)
    (h : takeInput m s = .next t) : StagingInv ch t := by
  cases m with
  | command w => exact runCommand_stagingInv hi h
  | issue w => exact issueCommand_stagingInv hi h
  | fg => exact fgStep_stagingInv hh hi h
  | irq => exact startInvocation_stagingInv hi h
  | txSent _ => exact ifEnabled_stagingInv h (hi.carry rfl rfl ⟨rfl, rfl⟩ id)
  | rxData _ bytes => exact ifEnabled_stagingInv h (hi.carry rfl rfl ⟨rfl, rfl⟩ id)
  | rxSetup bytes => exact ifEnabled_stagingInv h (hi.carry rfl rfl ⟨rfl, rfl⟩ id)
  | busReset =>
    cases h
    exact hi.carry rfl rfl ⟨rfl, rfl⟩ id
  | diagSent => exact ifEnabled_stagingInv h (hi.carry rfl rfl ⟨rfl, rfl⟩ id)
  | spurious => exact spurious_stagingInv hi h
  | openRaise bits => exact ifEnabled_stagingInv h (hi.carry rfl rfl ⟨rfl, rfl⟩ id)
  | hostWrite a bytes =>
    obtain ⟨-, -, rfl⟩ := hostWrite_eq_next.mp h
    exact (noteAccess_stagingInv a bytes.length hi).carry rfl rfl ⟨rfl, rfl⟩ id
  | hostRead a n =>
    obtain ⟨-, -, rfl⟩ := hostRead_eq_next.mp h
    exact noteAccess_stagingInv a n hi
  | hardReset =>
    cases h
    exact hardwareReset_stagingInv ch s

theorem idleStep_stagingInv (hh : s.inHandler = false) (hi : StagingInv ch s) (h : idleStep s = .next t) :
    StagingInv ch t := by
  obtain ⟨-, h | ⟨-, h⟩ | ⟨-, h⟩ | rfl⟩ := idleStep_cases h
  · exact fgStep_stagingInv hh hi h
  · exact startInvocation_stagingInv hi h
  · exact spurious_stagingInv hi h
  · exact hi

end Staging

/-- Settles O13: a handler services only latched sources, which the mask of a receive in progress keeps its own out of, and
a micro-step of the receive leaves what the next one relies on. -/
theorem stepKeepsStagingInvariant : Obligations.StepKeepsStagingInvariant := by
  intro ch s t hi h
  rcases step_cases h with ⟨hh, -, ⟨src, -, hs⟩ | ⟨-, rfl⟩⟩ | ⟨hh, m, rest, -, hm⟩ | ⟨hh, -, -, hidle⟩
  · exact slotStep_stagingInv hh hi hs
  · exact handlerExit_stagingInv hi
  · exact takeInput_stagingInv (s := { s with script := rest }) hh (hi.carry rfl rfl ⟨rfl, rfl⟩ id) hm
  · exact idleStep_stagingInv hh hi hidle

end Sys2Proof.Machine
end

section
/-! PROOFS. The output streams and the one-shot flag across a step (10_state.md R29, R34): what grows, and who writes the
flag. -/

namespace Sys2Proof.Machine

/-! ## Output streams -/

/-- Each output stream of `t` begins with what `s` had on it (10_state.md R34). -/
structure StreamsGrow (s t : State) : Prop where
  events : s.events <+: t.events
  responses : s.responses <+: t.responses
  wireDiag : s.wireDiag <+: t.wireDiag
  wireTx : ∀ ch, s.wireTx.get ch <+: t.wireTx.get ch

/-- The output streams grow and the one-shot flag is as it was. -/
structure Onward (s t : State) : Prop extends StreamsGrow s t where
  flag : t.firstTxcDiscard = s.firstTxcDiscard

section Parts

variable {s t u : State}

theorem StreamsGrow.trans (h : StreamsGrow s t) (h' : StreamsGrow t u) : StreamsGrow s u :=
  ⟨h.events.trans h'.events, h.responses.trans h'.responses, h.wireDiag.trans h'.wireDiag,
    fun ch => (h.wireTx ch).trans (h'.wireTx ch)⟩

theorem Onward.trans (h : Onward s t) (h' : Onward t u) : Onward s u :=
  ⟨h.toStreamsGrow.trans h'.toStreamsGrow, h'.flag.trans h.flag⟩

/-- What an operation that reports nothing leaves as it was. -/
def State.reports (s : State) : Bool × List Event × List Byte × List Byte × PerTx (List (List Byte)) :=
  (s.firstTxcDiscard, s.events, s.responses, s.wireDiag, s.wireTx)

/-- Reports that differ in the flag at most. -/
theorem streamsGrow_of_reports {v : Bool} (h : t.reports = { s with firstTxcDiscard := v }.reports) : StreamsGrow s t := by
  simp only [State.reports, Prod.mk.injEq] at h
  obtain ⟨-, he, hr, hd, hw⟩ := h
  exact ⟨he ▸ List.prefix_rfl, hr ▸ List.prefix_rfl, hd ▸ List.prefix_rfl, fun _ => hw ▸ List.prefix_rfl⟩

theorem onward_of_reports (h : t.reports = s.reports) : Onward s t :=
  ⟨streamsGrow_of_reports (v := s.firstTxcDiscard) h, congrArg Prod.fst h⟩

theorem emit_onward (e : Event) (s : State) : Onward s (emit e s) :=
  ⟨⟨List.prefix_append _ _, List.prefix_rfl, List.prefix_rfl, fun _ => List.prefix_rfl⟩, rfl⟩

theorem respond_onward (v : Bool) (s : State) : Onward s (respond v s) :=
  ⟨⟨List.prefix_rfl, List.prefix_append _ _, List.prefix_rfl, fun _ => List.prefix_rfl⟩, rfl⟩

/-- A report after an update that reports nothing. -/
theorem emit_onward_of_reports (e : Event) (h : t.reports = s.reports) : Onward s (emit e t) :=
  (onward_of_reports h).trans (emit_onward e t)

theorem respond_onward_of_reports (v : Bool) (h : t.reports = s.reports) : Onward s (respond v t) :=
  (onward_of_reports h).trans (respond_onward v t)

/-! ## The routines -/

theorem freshTx_reports (ch : TxCh) (s : State) : (freshTx ch s).reports = s.reports := by simp [State.reports]

theorem freshRx_reports (ch : RxCh) (s : State) : (freshRx ch s).reports = s.reports := by simp [State.reports]

theorem freshSetup_reports (s : State) : (freshSetup s).reports = s.reports := by simp [State.reports]

theorem finishFill_reports (ch : TxCh) (f : Fill) (s : State) : (finishFill ch f s).reports = s.reports := by
  rw [finishFill_eq]
  rfl

theorem enqueue_reports (b : Byte) (s : State) : (enqueue b s).2.reports = s.reports := by
  obtain ⟨_, _, _, _, _, _, _, h⟩ := enqueue_frame b s
  rw [h]
  rfl

theorem submitSend_reports {ch : TxCh} {buf len : Nat} (h : submitSend ch buf len s = .next t) : t.reports = s.reports := by
  obtain ⟨_, _, _, _, _, _, _, rfl⟩ := submitSend_frame h
  rfl

theorem takeStaged_onward {ch : RxCh} {buf len : Nat} (h : takeStaged ch buf len s = .next t) : Onward s t := by
  obtain ⟨-, rfl⟩ := takeStaged_eq_next.mp h
  exact emit_onward_of_reports _ rfl

theorem recordRecv_reports {ch : RxCh} {buf len : Nat} (h : recordRecv ch buf len s = .next t) : t.reports = s.reports := by
  obtain ⟨-, rfl⟩ := recordRecv_eq_next.mp h
  rfl

theorem submitRecv_onward {ch : RxCh} {buf len : Nat} (h : submitRecv ch buf len s = .next t) : Onward s t := by
  have hmask : Onward s (maskSource (rxSource ch) s) := onward_of_reports rfl
  have hunmask : ∀ u, Onward u (unmaskSource (rxSource ch) u) := fun _ => onward_of_reports rfl
  rcases submitRecv_cases h with ⟨-, u, hu, rfl⟩ | ⟨-, u, hu, rfl⟩
  · exact hmask.trans ((takeStaged_onward hu).trans (hunmask u))
  · exact hmask.trans ((onward_of_reports (recordRecv_reports hu)).trans (hunmask u))

theorem txComplete_onward {ch : TxCh} (h : txComplete ch s = .next t) : Onward s t := by
  rcases txComplete_cases h with ⟨-, rfl⟩ | ⟨-, rfl⟩
  · exact onward_of_reports ((finishFill_reports ch _ _).trans (freshTx_reports ch s))
  · exact emit_onward_of_reports _ rfl

theorem rxcData_onward {ch : RxCh} (h : rxcData ch s = .next t) : Onward s t := by
  refine (onward_of_reports (freshRx_reports ch s)).trans ?_
  rcases rxcData_cases rfl h with ⟨-, h⟩ | ⟨-, -, rfl⟩ | ⟨-, -, rfl⟩
  · obtain ⟨-, rfl⟩ := drainPending_eq_next.mp h
    exact emit_onward_of_reports _ rfl
  · exact emit_onward _ _
  · exact onward_of_reports (freshRx_reports ch (freshRx ch s))

theorem receiveSetup_onward (s : State) : Onward s (receiveSetup s) := by
  rw [receiveSetup, (readControl_spec Config.setupLen s).2.2]
  exact emit_onward_of_reports _ rfl

/-! ## Handler operations, commands and micro-steps -/

/-- Of the handler operations only ISR.CTRL_TX writes the flag, to discard a completion (R124). -/
theorem isr_onward {src : Source} (h : exec src.instr s = .next t) :
    Onward s t ∨ (src = .ctrlTx ∧ t = { s with firstTxcDiscard := false }) := by
  rcases isr_cases h with ⟨-, rfl⟩ | ⟨hsrc, -, ht⟩ | ⟨-, -, h⟩ | ⟨-, -, rfl⟩ | ⟨-, -, h⟩ | ⟨-, rfl⟩ | ⟨-, h⟩ | ⟨-, h⟩
  · obtain ⟨_, _, _, _, _, hd⟩ := drainOne_frame s
    rw [hd]
    exact .inl (onward_of_reports rfl)
  · exact .inr ⟨hsrc, ht⟩
  · exact .inl (txComplete_onward h)
  · exact .inl ((onward_of_reports ((freshRx_reports _ _).trans (freshSetup_reports s))).trans (receiveSetup_onward _))
  · exact .inl ((onward_of_reports (freshSetup_reports s)).trans (rxcData_onward h))
  · exact .inl (emit_onward_of_reports _ rfl)
  · exact .inl (rxcData_onward h)
  · exact .inl (txComplete_onward h)

/-- Of the commands only INIT writes the flag (R200). -/
theorem command_onward {p : Params} {i : Instr} {w : Nat} (he : encode p i = .cmd w) (h : exec i s = .next t) :
    Onward s t ∨ (i = .init ∧ t = respond true (initSteps s)) := by
  rcases command_cases he h with hi | ⟨v, rfl⟩ | ⟨_, _, _, u, hu, rfl⟩ | ⟨_, _, _, u, hu, rfl⟩ | ⟨v, _, rfl⟩
    | ⟨_, _, rfl⟩ | rfl | ⟨bs, rfl⟩ | ⟨n, a, hput⟩
  · exact .inr hi
  · exact .inl (respond_onward v s)
  · exact .inl (respond_onward_of_reports true (submitSend_reports hu))
  · exact .inl ((submitRecv_onward hu).trans (respond_onward true u))
  · exact .inl (respond_onward_of_reports true rfl)
  · exact .inl (onward_of_reports rfl)
  · exact .inl (respond_onward_of_reports true rfl)
  · obtain ⟨_, _, _, _, _, _, _, _, hb⟩ := putBytes_frame bs s
    rw [respondPut, hb]
    exact .inl (respond_onward_of_reports _ rfl)
  · obtain ⟨v, _, _, _, _, _, _, _, _, rfl⟩ := putString_frame hput
    exact .inl (respond_onward_of_reports v rfl)

/-- Of the elementary updates only INIT's step 4 writes the flag (R200). -/
theorem MicroEffect.onward {c : InProgress} (h : MicroEffect c s u) :
    Onward s u ∨ (c.instr = .init ∧ c.at_ = 4 ∧ u = Machine.armDiscard s) := by
  cases h with
  | armDiscard hi ha => exact .inr ⟨hi, ha, rfl⟩
  | fill ch => exact .inl (onward_of_reports ((finishFill_reports ch _ _).trans (freshTx_reports ch s)))
  | takeStaged _ _ _ _ _ _ _ h => exact .inl (takeStaged_onward h)
  | recordRecv _ _ _ _ h => exact .inl (onward_of_reports (recordRecv_reports h))
  | enqueue b => exact .inl (onward_of_reports (enqueue_reports b s))
  | _ => exact .inl (onward_of_reports rfl)

/-! ## Steps -/

/-- The command in progress stands before INIT's step 4 (R200). -/
def BeforeArming (s : State) : Prop := ∃ c, s.cmd = some c ∧ c.instr = .init ∧ c.at_ = 4

/-- The ways a step can treat the streams and the flag: it leaves the flag, or it is INIT, run at once or at its step 4, or
the discard of ISR.CTRL_TX, or the reset input (R29). -/
inductive FlagStep (s t : State) : Prop where
  | onward (h : Onward s t)
  | init (hg : StreamsGrow s t) (hf : t.firstTxcDiscard = true) (hh : s.inHandler = false)
      (hs : ∃ w rest, s.script = .command w :: rest ∧ decodeCmd s.params w = .ok .init)
  | arming (hg : StreamsGrow s t) (hf : t.firstTxcDiscard = true) (hh : s.inHandler = false) (hc : BeforeArming s)
  | discard (hg : StreamsGrow s t) (hf : t.firstTxcDiscard = false) (hh : s.inHandler = true)
      (hs : s.slot = some .ctrlTx) (hl : s.latched &&& Source.ctrlTx.mask ≠ 0)
  | reset (hf : t.firstTxcDiscard = true) (hh : s.inHandler = false) (hs : ∃ rest, s.script = .hardReset :: rest)

theorem leaveSlot_reports (src : Source) (s : State) : (leaveSlot src s).reports = s.reports := by
  unfold leaveSlot
  split <;> rfl

theorem slotStep_flagStep {src : Source} (hh : s.inHandler = true) (hs : s.slot = some src) (h : slotStep src s = .next t) :
    FlagStep s t := by
  rcases slotStep_cases h with ⟨-, rfl⟩ | ⟨hl, u, hu, rfl⟩
  · exact .onward (onward_of_reports (leaveSlot_reports src s))
  · have hleave := leaveSlot_reports src u
    rcases isr_onward hu with hu | ⟨rfl, rfl⟩
    · exact .onward (hu.trans (onward_of_reports hleave))
    · exact .discard (streamsGrow_of_reports hleave) (congrArg Prod.fst hleave) hh hs hl

theorem fgStep_onward (h : fgStep s = .next t) :
    Onward s t ∨ (StreamsGrow s t ∧ t.firstTxcDiscard = true ∧ BeforeArming s) := by
  obtain ⟨-, c, hc, hm⟩ := fgStep_eq_next.mp h
  cases microStep_result hm with
  | goesOn u d he hi =>
    rcases he.onward with hu | ⟨hinit, hat, rfl⟩
    · exact .inl (hu.trans (onward_of_reports rfl))
    · exact .inr ⟨streamsGrow_of_reports (v := true) rfl, rfl, c, hc, hinit, hat⟩
  | responds v => exact .inl (respond_onward v s)
  | fatal cause info => exact .inl (onward_of_reports rfl)

theorem startInvocation_onward (h : startInvocation s = .next t) : Onward s t := by
  obtain ⟨-, rfl⟩ := startInvocation_cases h
  exact onward_of_reports rfl

theorem runCommand_onward {w : Nat} (h : runCommand w s = .next t) :
    Onward s t ∨ (StreamsGrow s t ∧ t.firstTxcDiscard = true ∧ decodeCmd s.params w = .ok .init) := by
  rcases runCommand_cases h with ⟨i, hd, h⟩ | ⟨op, -, rfl⟩
  · obtain ⟨w', he⟩ := decoded_isCommand hd
    rcases command_onward he h with ht | ⟨rfl, rfl⟩
    · exact .inl ht
    · have hinit : StreamsGrow s (initSteps s) := streamsGrow_of_reports (v := true) rfl
      exact .inr ⟨hinit.trans (respond_onward true _).toStreamsGrow, rfl, hd⟩
  · exact .inl (onward_of_reports rfl)

theorem issueCommand_onward {w : Nat} (h : issueCommand w s = .next t) : Onward s t := by
  obtain ⟨-, ⟨i, -, rfl⟩ | ⟨op, rfl⟩⟩ := issueCommand_cases h <;> exact onward_of_reports rfl

theorem txSentEffect_onward (ch : TxCh) (s : State) : Onward s (txSentEffect ch s) := by
  refine ⟨⟨List.prefix_rfl, List.prefix_rfl, List.prefix_rfl, fun ch' => ?_⟩, rfl⟩
  exact perTx_set_keeps (P := (s.wireTx.get ch' <+: ·)) List.prefix_rfl fun he => he ▸ List.prefix_append _ _

theorem diagSentEffect_onward (s : State) : Onward s (diagSentEffect s) :=
  ⟨⟨List.prefix_rfl, List.prefix_rfl, List.prefix_append _ _, fun _ => List.prefix_rfl⟩, rfl⟩

theorem ifEnabled_onward {enabled : Bool} {move : String} (h : ifEnabled enabled move u = .next t) (hu : Onward s u) :
    Onward s t := by
  obtain ⟨-, rfl⟩ := ifEnabled_eq_next.mp h
  exact hu

theorem takeInput_flagStep {m : Input} {rest : List Input} (hh : s.inHandler = false) (hs : s.script = m :: rest)
    (h : takeInput m { s with script := rest } = .next t) : FlagStep s t := by
  have hpop : Onward s { s with script := rest } := onward_of_reports rfl
  have hgrow := hpop.toStreamsGrow
  cases m with
  | command w =>
    rcases runCommand_onward h with ht | ⟨hg, hf, hd⟩
    · exact .onward (hpop.trans ht)
    · exact .init (hgrow.trans hg) hf hh ⟨w, rest, hs, hd⟩
  | issue w => exact .onward (hpop.trans (issueCommand_onward h))
  | fg =>
    rcases fgStep_onward h with ht | ⟨hg, hf, hc⟩
    · exact .onward (hpop.trans ht)
    · exact .arming (hgrow.trans hg) hf hh hc
  | irq => exact .onward (hpop.trans (startInvocation_onward h))
  | txSent ch => exact .onward (hpop.trans (ifEnabled_onward h (txSentEffect_onward ch _)))
  | rxData ch bytes => exact .onward (ifEnabled_onward h (onward_of_reports rfl))
  | rxSetup bytes => exact .onward (ifEnabled_onward h (onward_of_reports rfl))
  | busReset =>
    cases h
    exact .onward (onward_of_reports rfl)
  | diagSent => exact .onward (hpop.trans (ifEnabled_onward h (diagSentEffect_onward _)))
  | spurious => exact .onward (ifEnabled_onward h (onward_of_reports rfl))
  | openRaise bits => exact .onward (ifEnabled_onward h (onward_of_reports rfl))
  | hostWrite a bytes =>
    obtain ⟨-, -, rfl⟩ := hostWrite_eq_next.mp h
    exact .onward (onward_of_reports rfl)
  | hostRead a n =>
    obtain ⟨-, -, rfl⟩ := hostRead_eq_next.mp h
    exact .onward (onward_of_reports rfl)
  | hardReset =>
    cases h
    exact .reset rfl hh ⟨rest, hs⟩

theorem idleStep_flagStep (hh : s.inHandler = false) (h : idleStep s = .next t) : FlagStep s t := by
  obtain ⟨-, h | ⟨-, h⟩ | ⟨-, h⟩ | rfl⟩ := idleStep_cases h
  · rcases fgStep_onward h with ht | ⟨hg, hf, hc⟩
    · exact .onward ht
    · exact .arming hg hf hh hc
  · exact .onward (startInvocation_onward h)
  · exact .onward (ifEnabled_onward h (onward_of_reports rfl))
  · exact .onward (onward_of_reports rfl)

theorem step_flagStep (h : step s = .next t) : FlagStep s t := by
  rcases step_cases h with ⟨hh, -, ⟨src, hsrc, hs⟩ | ⟨-, rfl⟩⟩ | ⟨hh, m, rest, hscript, hm⟩ | ⟨hh, -, -, hi⟩
  · exact slotStep_flagStep hh hsrc hs
  · exact .onward (onward_of_reports rfl)
  · exact takeInput_flagStep hh hscript hm
  · exact idleStep_flagStep hh hi

end Parts

/-- Settles O52: of the ways a step can treat the flag, the two of INIT and the reset input set it, and the discard clears
it. -/
theorem discardFlagWriters : Obligations.DiscardFlagWriters := by
  intro s t h
  cases step_flagStep h with
  | onward h =>
    exact ⟨fun hs ht => absurd (ht.symm.trans (h.flag.trans hs)) (by decide),
      fun hs ht => absurd (ht.symm.trans (h.flag.trans hs)) (by decide)⟩
  | init _ hf hh hs => exact ⟨fun _ _ => ⟨hh, .inr (.inl hs)⟩, fun _ ht => absurd (ht.symm.trans hf) (by decide)⟩
  | arming _ hf hh hc => exact ⟨fun _ _ => ⟨hh, .inr (.inr hc)⟩, fun _ ht => absurd (ht.symm.trans hf) (by decide)⟩
  | discard _ hf hh hs hl => exact ⟨fun _ ht => absurd (ht.symm.trans hf) (by decide), fun _ _ => ⟨hh, hs, hl⟩⟩
  | reset hf hh hs => exact ⟨fun _ _ => ⟨hh, .inl hs⟩, fun _ ht => absurd (ht.symm.trans hf) (by decide)⟩

/-- Settles O53: every way but the reset input only appends. -/
theorem streamsOnlyGrow : Obligations.StreamsOnlyGrow := by
  intro s t h hreset
  have hg : StreamsGrow s t := by
    cases step_flagStep h with
    | onward h => exact h.toStreamsGrow
    | init hg => exact hg
    | arming hg => exact hg
    | discard hg => exact hg
    | reset _ hh hs =>
      obtain ⟨rest, hs⟩ := hs
      exact (hreset.elim (fun hh' => Bool.false_ne_true (hh.symm.trans hh')) fun hne => hne rest hs).elim
  exact ⟨hg.events, hg.responses, hg.wireDiag, hg.wireTx⟩

end Sys2Proof.Machine
end

section
/-! PROOFS. The reset state against R50 and the invariants, the refusal of a second submission, and handler entry
(10_state.md R24, R50; 93_implementation_defined.md U1; 42_irq_dispatch.md R181). -/

namespace Sys2Proof.Machine

/-! ## Reset -/

/-- Settles O8: the literal of `State.reset`, element by element, and STAT computed from it. -/
theorem resetValues : Obligations.ResetValues := by
  refine ⟨fun ch => ?_, fun ch => ?_, fun ch => ?_, rfl, rfl, rfl, rfl, rfl, rfl, rfl, rfl, rfl, rfl, rfl, rfl, rfl, rfl, rfl,
    rfl, rfl, rfl, rfl, rfl⟩
  · cases ch <;> exact ⟨rfl, rfl, rfl, rfl⟩
  · cases ch <;> exact ⟨rfl, rfl, rfl⟩
  · cases ch <;> exact ⟨rfl, by decide⟩

theorem params_default_legal : Params.default.Legal := by decide

/-- The parts of the invariant at reset, in the order of `MachineInv`. -/
theorem reset_machineInv : MachineInv State.reset := by
  have hbound : Bounded State.reset := by decide
  have hreserved : ReservedZero State.reset := by decide
  have hseq : Sequenced State.reset := by decide
  have hempty : CtxConserved Params.default Ctx.empty := ctxConserved_empty _
  have hidle : IdleEmpty State.reset := by decide
  have hper : ReferencePeripheral State.reset := fun _ => by decide
  exact ⟨params_default_legal, wf_nil, hbound, hreserved, hseq, ⟨hempty, hempty, hempty, hempty⟩, hidle, hper⟩

/-- Settles O10. The staging invariant is that of any state the reset input leaves, at the reset state itself. -/
theorem resetSatisfiesInvariants : Obligations.ResetSatisfiesInvariants :=
  ⟨reset_machineInv, fun ch => hardwareReset_stagingInv ch State.reset⟩

/-! ## Second submissions -/

theorem submitSend_of_busy {ch : TxCh} {s : State} (h : s.busy.get ch = true) (buf len : Nat) :
    submitSend ch buf len s = .refused .secondSubmission := if_pos h

theorem recordRecv_of_pending {ch : RxCh} {s : State} (h : (s.rxCtx.get ch).pending = true) (buf len : Nat) :
    recordRecv ch buf len s = .refused .secondSubmission := if_pos h

/-- With nothing staged a receive takes the recording branch, where the pending request stands in its way. -/
theorem submitRecv_of_pending {ch : RxCh} {s : State} (hs : s.stg.get ch = []) (h : (s.rxCtx.get ch).pending = true)
    (buf len : Nat) : submitRecv ch buf len s = .refused .secondSubmission := by
  have hnone : hasStaged ch (maskSource (rxSource ch) s) = false := by simp [hasStaged, hs]
  rw [submitRecv, hnone, recvBranch, if_neg Bool.false_ne_true,
    recordRecv_of_pending (s := maskSource (rxSource ch) s) h, andThen_refused]

/-- Settles O21: both routines refuse, and the refusal stands as the command's answer. -/
theorem secondSubmissionIsRefused : Obligations.SecondSubmissionIsRefused := by
  refine ⟨fun ch buf len s ha hbusy => ?_, fun ch buf len s ha hs hp => ?_⟩
  · rw [exec_sendInstr, asCommand_of_accepts ha, submitSend_of_busy hbusy, thenTrue, andThen_refused]
  · rw [exec_recvInstr, asCommand_of_accepts ha, submitRecv_of_pending hs hp, thenTrue, andThen_refused]

/-! ## Handler entry -/

/-- Handler entry as a record over the state it starts from (R181 steps 1 to 3, 10_state.md R42). -/
theorem handlerEntry_eq (s : State) :
    handlerEntry false s =
      { s with
        irqGate := s.irqGate &&& 0xFE
        inHandler := true
        latched := s.pend &&& s.intEn &&& 0x9F
        pend := s.pend &&& ~~~(s.pend &&& s.intEn &&& 0x9F)
        slot := some .diagTx } := rfl

theorem startInvocation_of_enabled {s : State} (h : irqEnabled s = true) :
    startInvocation s = .next (handlerEntry false s) := by
  obtain ⟨-, -, -, hgie, -⟩ := (irqEnabled_iff s).mp h
  exact startInvocation_eq_next.mpr ⟨h, (handlerEntry_pulse hgie _).symm⟩

/-- With no command in progress the idle machine takes an enabled invocation (log 4). -/
theorem idleStep_of_enabled {s : State} (h : irqEnabled s = true) (hc : s.cmd = none) : idleStep s = startInvocation s := by
  obtain ⟨hf, -⟩ := (irqEnabled_iff s).mp h
  simp [idleStep, unlessFatal_of_running hf, hc, h]

/-- Settles O47: GIE is 1 where an invocation is enabled, so the pulse changes nothing, and both ways to take the step are
`startInvocation`. -/
theorem entryLatchesEnabledSources : Obligations.EntryLatchesEnabledSources := by
  intro s t he ht
  obtain ⟨-, hh, -, hgie, -⟩ := (irqEnabled_iff s).mp he
  rw [← handlerEntry_eq] at ht
  subst ht
  refine ⟨handlerEntry_pulse hgie, ?_, fun hs hc => ?_⟩
  · rw [step_of_script (s := { s with script := .irq :: s.script }) hh rfl]
    exact startInvocation_of_enabled he
  · rw [step_of_idle hh hs, idleStep_of_enabled he hc, startInvocation_of_enabled he]

end Sys2Proof.Machine
end

section
/-! PROOFS. The submissions in closed form (40_endpoint_transfer.md R123, R126): the state each leaves as one record, from
which the whole next state and the frame of SEND and RECV are read off. -/

namespace Sys2Proof.Machine

/-! ## SEND.CTRL and SEND.BULK -/

/-- How many bytes the first fill of a send takes, from the state as TXFULL is read (R121). -/
def firstFillCount (ch : TxCh) (len : Nat) (e : State) : Nat :=
  min (e.params.len len) (e.params.txDepth ch - (e.txq.get ch).length)

theorem firstFillCount_le (ch : TxCh) (len : Nat) (e : State) : firstFillCount ch len e ≤ e.params.len len :=
  Nat.min_le_left _ _

theorem runFill_sendRecorded_pushed (ch : TxCh) (buf len : Nat) (e : State) :
    (runFill ch (sendRecorded ch buf len e)).pushed = readBytes e.params e.mem buf (firstFillCount ch len e) := by
  rw [runFill_pushed, sendRecorded_txCtx_get, Nat.min_comm]
  exact readBytes_addr e.mem buf _

theorem runFill_sendRecorded_ctx (ch : TxCh) (buf len : Nat) (e : State) :
    (runFill ch (sendRecorded ch buf len e)).ctx =
      { buffer := e.params.addr (buf + firstFillCount ch len e)
        total := e.params.len len
        completed := firstFillCount ch len e
        remaining := e.params.len len - firstFillCount ch len e } := by
  obtain ⟨hsum, htotal, hb⟩ := newCtx_conserved e.params buf len
  rw [runFill_ctx (sendRecorded_txCtx_get ch buf len e) hsum htotal hb, Nat.min_comm]
  simp only [newCtx, sendRecorded_params, addr_addr_add, Nat.zero_add]
  rfl

/-- What the fill and the unmask of SUBMIT_SEND leave, from the state as TXFULL is read: send mode, the transfer and its
window recorded, `firstFillCount` bytes pushed, FORCE_TX set where they end the transfer short (R121 to R123). -/
def sendSubmitted (ch : TxCh) (buf len : Nat) (e : State) : State :=
  let k := firstFillCount ch len e
  { e with
    ctl := e.ctl.set (txChannel ch)
      (setField (e.ctl.get (txChannel ch) &&& 0xFB) 0x01
        (fieldSet (e.ctl.get (txChannel ch)) 0x01 || (k = e.params.len len ∧ k < Config.mps ch)))
    intEn := e.intEn ||| (txSource ch).mask
    txCtx := e.txCtx.set ch
      { buffer := e.params.addr (buf + k), total := e.params.len len, completed := k, remaining := e.params.len len - k }
    busy := e.busy.set ch true
    lentTx := e.lentTx.set ch
      (e.lentTx.get ch ++ [{ base := e.params.addr buf, size := e.params.len len, written := false }])
    txq := e.txq.set ch (e.txq.get ch ++ readBytes e.params e.mem buf k) }

/-- The transfer is finished by its first fill exactly when that took all of it (R122). -/
theorem unmask_fill_sendRecorded (ch : TxCh) (buf len : Nat) (e : State) :
    unmaskSource (txSource ch)
        (finishFill ch (runFill ch (sendRecorded ch buf len e)) (sendRecorded ch buf len e)) = sendSubmitted ch buf len e := by
  have hforce := sendRecorded_forceTx ch buf len e
  have hctl : (sendRecorded ch buf len e).ctl = e.ctl.set (txChannel ch) (e.ctl.get (txChannel ch) &&& 0xFB) := rfl
  have hfinished : e.params.len len - firstFillCount ch len e = 0 ↔ firstFillCount ch len e = e.params.len len := by
    have := firstFillCount_le ch len e
    omega
  rw [finishFill_eq, hforce, runFill_sendRecorded_ctx, runFill_sendRecorded_pushed, readBytes_length, hctl, perCh_get_set,
    perCh_set_set]
  simp only [sendRecorded, recordSend, maskSource, sendMode, setCtl, unmaskSource, unmask_mask, perTx_set_set, hfinished,
    sendSubmitted]
  rfl

/-- A buffer's bytes have memory behind them whether or not its address is reduced (R61). -/
theorem firstHole_addr (p : Params) (holes : List Hole) (a n : Nat) :
    firstHole p holes (p.addr a) n = none ↔ firstHole p holes a n = none := by
  have h : ∀ j, hasMemory p holes (p.addr a + j) = hasMemory p holes (a + j) := fun j => by
    rw [← hasMemory_addr, addr_addr_add, hasMemory_addr]
  simp only [firstHole_none_iff, h]

theorem submitSend_eq_next {ch : TxCh} {buf len : Nat} {s t e : State} (he : e = freshTx ch s) :
    submitSend ch buf len s = .next t ↔
      s.busy.get ch = false ∧ firstHole s.params s.noMem buf (firstFillCount ch len e) = none
        ∧ t = sendSubmitted ch buf len e := by
  have hhole : firstHole e.params e.noMem ((sendRecorded ch buf len e).txCtx.get ch).buffer
      (runFill ch (sendRecorded ch buf len e)).pushed.length = none
        ↔ firstHole s.params s.noMem buf (firstFillCount ch len e) = none := by
    rw [sendRecorded_txCtx_get, runFill_sendRecorded_pushed, readBytes_length, he, freshTx_params, freshTx_noMem]
    exact firstHole_addr _ _ _ _
  subst he
  constructor
  · intro h
    obtain ⟨hb, u, hu, rfl⟩ := submitSend_cases h
    obtain ⟨hn, rfl⟩ := fillFrom_eq_next.mp hu
    exact ⟨hb, hhole.mp hn, unmask_fill_sendRecorded ch buf len _⟩
  · rintro ⟨hb, hn, rfl⟩
    have hfill : fillFrom ch (sendRecorded ch buf len (freshTx ch s)) = .next _ :=
      fillFrom_eq_next.mpr ⟨hhole.mpr hn, rfl⟩
    rw [sendRecorded] at hfill
    rw [submitSend, hb, if_neg Bool.false_ne_true, fillFlush, freshTx_recordSend, hfill, andThen_next]
    exact congrArg _ (unmask_fill_sendRecorded ch buf len _)

theorem exec_sendInstr_eq_next {ch : TxCh} {buf len : Nat} {s t e : State} (he : e = freshTx ch s) :
    exec (sendInstr ch buf len) s = .next t ↔
      acceptsCommand s = true ∧ s.busy.get ch = false
        ∧ firstHole s.params s.noMem buf (firstFillCount ch len e) = none
        ∧ t = respond true (sendSubmitted ch buf len e) := by
  rw [exec_sendInstr, asCommand_eq_next, thenTrue, andThen_eq_next]
  simp only [submitSend_eq_next he, Host.Outcome.next.injEq]
  constructor
  · rintro ⟨ha, u, ⟨hb, hn, rfl⟩, rfl⟩
    exact ⟨ha, hb, hn, rfl⟩
  · rintro ⟨ha, hb, hn, rfl⟩
    exact ⟨ha, _, ⟨hb, hn, rfl⟩, rfl⟩

/-- Settles O19: the closed form of SUBMIT_SEND, whose reads of the state do not depend on how TXFULL answers. -/
theorem sendSubmitsAndFills : Obligations.SendSubmitsAndFills := by
  intro ch buf len s e k ha hb he hk hmem
  obtain ⟨-, -, hcmd⟩ := (acceptsCommand_iff s).mp ha
  have hcount : firstFillCount ch len e = k := by rw [firstFillCount, he, freshTx_params, ← he, hk]
  have h := (exec_sendInstr_eq_next (ch := ch) (buf := buf) (len := len) he).mpr
    ⟨ha, hb, hcount ▸ firstHole_none_iff.mpr hmem, rfl⟩
  rw [h, sendSubmitted, hcount]
  subst he
  simp [respond, respWord, ← hcmd]

/-- The bits of CTL a send may write: RXMODE and FORCE_TX (10_state.md R44). -/
theorem send_ctl_kept (r : Byte) (v : Bool) : setField (r &&& 0xFB) 0x01 v &&& 0xFA = r &&& 0xFA := by
  revert r v
  decide +kernel

/-- Enabling a source leaves every other enable bit. -/
theorem or_mask_kept (r mask : Byte) : (r ||| mask) &&& ~~~mask = r &&& ~~~mask := by
  ext i
  simp only [BitVec.getElem_and, BitVec.getElem_or, BitVec.getElem_not]
  cases r[i] <;> cases mask[i] <;> rfl

/-- Settles O23: the frame is read off the closed form of SUBMIT_SEND. -/
theorem sendFrame : Obligations.SendFrame := by
  intro ch buf len s t h
  obtain ⟨ha, -, -, rfl⟩ := (exec_sendInstr_eq_next rfl).mp h
  obtain ⟨-, -, hcmd⟩ := (acceptsCommand_iff s).mp ha
  obtain ⟨q, d, he, -⟩ := freshTx_spec ch s
  have hdraws : s.openEnv = false → d = s.draws := fun ho => by
    rw [freshTx_of_reference ch ho] at he
    exact (congrArg State.draws he).symm
  simp only [he, sendSubmitted, respond, respWord, if_true, perTx_set_set, hcmd]
  exact ⟨_, _, _, _, _, d, rfl, send_ctl_kept _ _, or_mask_kept _ _, List.prefix_append _ _, hdraws, fun _ => trivial⟩

/-! ## RECV.CTRL and RECV.BULK -/

/-- What a receive leaves that recorded its request (R126 step 3b). -/
def recvRecorded (ch : RxCh) (buf len : Nat) (s : State) : State :=
  { s with
    ctl := s.ctl.set (rxChannel ch) (s.ctl.get (rxChannel ch) ||| 0x04)
    intEn := s.intEn ||| (rxSource ch).mask
    rxCtx := s.rxCtx.set ch { newCtx s.params buf len with pending := true }
    lentRx := s.lentRx.set ch
      (s.lentRx.get ch ++ [{ base := s.params.addr buf, size := s.params.len len, written := true }]) }

/-- What a receive leaves that delivered staged bytes (R126 step 3a). -/
def recvDelivered (ch : RxCh) (buf len : Nat) (s : State) : State :=
  { s with
    mem := writeBytes s.params s.mem buf ((s.stg.get ch).take (s.params.len len))
    stg := s.stg.set ch []
    intEn := s.intEn ||| (rxSource ch).mask
    events := s.events ++
      [{ kind := .xferComplete (epaRx s.params ch) (min (s.params.len len) (s.stg.get ch).length), fromIsr := false }] }

theorem unmask_of_recordRecv {ch : RxCh} {buf len : Nat} {s u : State}
    (h : recordRecv ch buf len (maskSource (rxSource ch) s) = .next u) :
    (s.rxCtx.get ch).pending = false ∧ unmaskSource (rxSource ch) u = recvRecorded ch buf len s := by
  obtain ⟨hp, rfl⟩ := recordRecv_eq_next.mp h
  refine ⟨hp, ?_⟩
  simp only [unmaskSource, setCtl, maskSource, unmask_mask]
  rfl

theorem unmask_of_takeStaged {ch : RxCh} {buf len : Nat} {s u : State}
    (h : takeStaged ch buf len (maskSource (rxSource ch) s) = .next u) :
    unmaskSource (rxSource ch) u = recvDelivered ch buf len s := by
  obtain ⟨-, rfl⟩ := takeStaged_eq_next.mp h
  simp only [unmaskSource, emitComplete, emit, maskSource, unmask_mask]
  rfl

/-- When a receive answers a next state, it delivered staged bytes or recorded its request (R126 step 3). -/
theorem exec_recvInstr_cases {ch : RxCh} {buf len : Nat} {s t : State} (h : exec (recvInstr ch buf len) s = .next t) :
    acceptsCommand s = true ∧
      ((s.stg.get ch ≠ [] ∧ t = respond true (recvDelivered ch buf len s))
        ∨ (s.stg.get ch = [] ∧ t = respond true (recvRecorded ch buf len s))) := by
  rw [exec_recvInstr, asCommand_eq_next] at h
  obtain ⟨ha, h⟩ := h
  obtain ⟨v, hv, ht⟩ := andThen_eq_next.mp h
  cases ht
  rcases submitRecv_cases hv with ⟨hs, u, hu, rfl⟩ | ⟨hs, u, hu, rfl⟩
  · exact ⟨ha, .inl ⟨hs, congrArg _ (unmask_of_takeStaged hu)⟩⟩
  · exact ⟨ha, .inr ⟨hs, congrArg _ (unmask_of_recordRecv hu).2⟩⟩

/-- Settles O24: nothing staged selects the recording branch, and the mask and unmask leave the source enabled. -/
theorem recvRecordsTheRequest : Obligations.RecvRecordsTheRequest := by
  intro ch buf len s ha hs hp
  obtain ⟨-, -, hcmd⟩ := (acceptsCommand_iff s).mp ha
  have hnone : hasStaged ch (maskSource (rxSource ch) s) = false := by simp [hasStaged, hs]
  have hrec : recordRecv ch buf len (maskSource (rxSource ch) s) = .next _ := recordRecv_eq_next.mpr ⟨hp, rfl⟩
  rw [exec_recvInstr, asCommand_of_accepts ha, submitRecv, hnone, recvBranch, if_neg Bool.false_ne_true, hrec, andThen_next,
    (unmask_of_recordRecv hrec).2, thenTrue, andThen_next]
  simp only [respond, respWord, if_true, recvRecorded, newCtx, ← hcmd]

theorem recv_ctl_kept (r : Byte) : (r ||| 0x04) &&& 0xFB = r &&& 0xFB := by
  revert r
  decide +kernel

/-- Settles O27: both branches of SUBMIT_RECV in closed form; only the staged one stores, the bytes it takes. -/
theorem recvFrame : Obligations.RecvFrame := by
  intro ch buf len s t hwf h
  obtain ⟨ha, ⟨-, rfl⟩ | ⟨-, rfl⟩⟩ := exec_recvInstr_cases h
  all_goals obtain ⟨-, -, hcmd⟩ := (acceptsCommand_iff s).mp ha
  all_goals simp only [respond, respWord, if_true, hcmd]
  · have hrx := perRx_set_get s.rxCtx ch
    have hctl := perCh_set_get s.ctl (rxChannel ch)
    have hlent := perRx_set_get s.lentRx ch
    refine ⟨s.rxCtx.get ch, [], s.ctl.get (rxChannel ch), _, _, _, s.lentRx.get ch, by rw [hrx, hctl, hlent]; rfl, rfl,
      or_mask_kept _ _, List.prefix_rfl, fun a hout => ?_⟩
    rw [Nat.min_comm, ← List.length_take] at hout
    exact memRead_writeBytes_outside hwf hout
  · have hstg := perRx_set_get s.stg ch
    exact ⟨_, s.stg.get ch, _, _, s.events, s.mem, _, by rw [hstg]; rfl, recv_ctl_kept _, or_mask_kept _ _,
      List.prefix_append _ _, fun _ _ => rfl⟩

end Sys2Proof.Machine
end

section
/-! PROOFS. The completion handlers (40_endpoint_transfer.md R124 to R130): the branches in closed form, and their frames. -/

namespace Sys2Proof.Machine

/-! ## Tx-complete -/

theorem txCompleteInstr_eq (ch : TxCh) : txCompleteInstr ch = (txSource ch).instr := by cases ch <;> rfl

/-- Settles O39: with nothing remaining, Tx-complete handling is `completeSend`. -/
theorem txCompleteReports : Obligations.TxCompleteReports := by
  intro ch s hf hd hr
  rw [exec_txCompleteInstr hd, unlessFatal_of_running hf, txComplete, if_neg (not_not.mpr hr)]
  rfl

/-- FORCE_TX is the one bit of CTL a fill may write (10_state.md R44). -/
theorem forceTx_ctl_kept (r : Byte) (v : Bool) : setField r forceTxBit v &&& 0xFE = r &&& 0xFE := by
  revert r v
  decide +kernel

theorem freshTx_draws_of_reference {ch : TxCh} {s : State} (h : s.openEnv = false) : (freshTx ch s).draws = s.draws := by
  rw [freshTx_of_reference ch h]

theorem freshRx_draws_of_reference {ch : RxCh} {s : State} (h : s.openEnv = false) : (freshRx ch s).draws = s.draws := by
  rw [freshRx_of_reference ch h]

/-- The frame of Tx-complete handling, with the bits of CTL it keeps and when it draws (R124, R125). -/
theorem txComplete_frame_ctl {ch : TxCh} {s t : State} (h : txComplete ch s = .next t) :
    ∃ ctx fifo busy lent ctl draws evs,
      t = { s with
        txCtx := s.txCtx.set ch ctx
        txq := s.txq.set ch fifo
        busy := s.busy.set ch busy
        lentTx := s.lentTx.set ch lent
        ctl := s.ctl.set (txChannel ch) ctl
        draws := draws
        events := evs }
      ∧ ctl &&& 0xFE = s.ctl.get (txChannel ch) &&& 0xFE ∧ (s.openEnv = false → draws = s.draws) := by
  have hbusy := perTx_set_get s.busy ch
  have hlent := perTx_set_get s.lentTx ch
  rcases txComplete_cases h with ⟨-, rfl⟩ | ⟨-, rfl⟩
  · have hdraws := freshTx_draws_of_reference (ch := ch) (s := s)
    obtain ⟨q, d, he, -⟩ := freshTx_spec ch s
    rw [he] at hdraws
    rw [finishFill_eq, he]
    simp only [perTx_set_set]
    exact ⟨_, _, s.busy.get ch, s.lentTx.get ch, _, d, s.events, by rw [hbusy, hlent], forceTx_ctl_kept _ _, hdraws⟩
  · have htxq := perTx_set_get s.txq ch
    have hctl := perCh_set_get s.ctl (txChannel ch)
    exact ⟨_, s.txq.get ch, _, _, s.ctl.get (txChannel ch), s.draws, _, by rw [htxq, hctl]; rfl, rfl, fun _ => rfl⟩

/-- A Tx-complete is discarded by the one-shot flag, or handled (R124, R125). -/
theorem txCompleteInstr_cases {ch : TxCh} {s t : State} (h : exec (txCompleteInstr ch) s = .next t) :
    txComplete ch s = .next t ∨ (ch = .control ∧ t = { s with firstTxcDiscard := false }) := by
  by_cases hd : NotDiscarded ch s
  · rw [exec_txCompleteInstr hd, unlessFatal_eq_next] at h
    exact .inl h.2
  · obtain ⟨rfl, hflag⟩ : ch = .control ∧ s.firstTxcDiscard = true := by simpa [NotDiscarded] using hd
    have h : execIsrCtrlTx s = .next t := h
    simp only [execIsrCtrlTx, unlessFatal_eq_next, hflag, if_true, Host.Outcome.next.injEq] at h
    exact .inr ⟨rfl, h.2.symm⟩

/-- What a Tx-complete operation can change (R124, R125). -/
theorem txCompleteInstr_frame {ch : TxCh} {s t : State} (h : exec (txCompleteInstr ch) s = .next t) :
    ∃ (ctx : Ctx) (fifo : List Byte) (busy flag : Bool) (lent : List Window) (ctl : Byte) (evs : List Event) (draws : Nat),
      t = { s with
        txCtx := s.txCtx.set ch ctx
        txq := s.txq.set ch fifo
        busy := s.busy.set ch busy
        lentTx := s.lentTx.set ch lent
        firstTxcDiscard := flag
        ctl := s.ctl.set (txChannel ch) ctl
        draws := draws
        events := evs }
      ∧ ctl &&& 0xFE = s.ctl.get (txChannel ch) &&& 0xFE
      ∧ (ch = .bulkIn → flag = s.firstTxcDiscard)
      ∧ (s.openEnv = false → draws = s.draws) := by
  rcases txCompleteInstr_cases h with h | ⟨rfl, rfl⟩
  · obtain ⟨ctx, fifo, busy, lent, ctl, draws, evs, rfl, hctl, hdraws⟩ := txComplete_frame_ctl h
    exact ⟨ctx, fifo, busy, s.firstTxcDiscard, lent, ctl, evs, draws, rfl, hctl, fun _ => rfl, hdraws⟩
  · exact ⟨s.txCtx.control, s.txq.control, s.busy.control, false, s.lentTx.control, s.ctl.control, s.events, s.draws, rfl,
      rfl, fun h => absurd h (by decide), fun _ => rfl⟩

/-! ## Rx-complete: the SETUP branch -/

/-- With SETUP_PEND = 1 ISR.CTRL_RX takes the SETUP packet (R127). -/
theorem exec_isrCtrlRx_setup {s : State} (hf : s.fatal = false) (hp : (freshSetup s).setupLeft ≠ 0) :
    exec .isrCtrlRx s = .next (receiveSetup (freshRx .control (freshSetup s))) := by
  have hp : setupPend (freshSetup s) = true := by simpa [setupPend, Nat.pos_iff_ne_zero] using hp
  simp only [exec, execIsrCtrlRx, unlessFatal_of_running hf, hp, if_true]

/-- The SETUP branch in closed form, from the state as the FIFO is read: 8 reads and their report (R127). -/
theorem receiveSetup_eq (e : State) :
    receiveSetup e =
      { e with
        rxq := e.rxq.set .control (e.rxq.control.drop 8)
        setupLeft := e.setupLeft - 8
        draws := e.draws + (8 - e.rxq.control.length)
        events := e.events ++ [{ kind := .setupReceived (readControl 8 e).1, fromIsr := true }] } := by
  rw [receiveSetup, Config.setupLen, (readControl_spec 8 e).2.2]
  rfl

/-- Settles O41: the SETUP branch reads FIFO[Control] 8 times, and `readControl_spec` says what 8 reads are. -/
theorem setupBypassesPendingRequest : Obligations.SetupBypassesPendingRequest := by
  intro s e hf he hp
  obtain ⟨hlen, htake, -⟩ := readControl_spec 8 e
  refine ⟨(readControl 8 e).1, hlen, htake, ?_⟩
  have hleft : (freshSetup s).setupLeft ≠ 0 := by
    rw [he, freshRx_setupLeft] at hp
    exact Nat.pos_iff_ne_zero.mp hp
  have hset : ∀ q, e.rxq.set .control q = s.rxq.set .control q := fun q => by
    rw [he, freshRx_rxq_set, freshSetup_rxq]
  have hevents : e.events = s.events := by rw [he, freshRx_events, freshSetup_events]
  rw [exec_isrCtrlRx_setup hf hleft, ← he, receiveSetup_eq, hset, hevents]
  rfl

/-! ## Rx-complete: the frame -/

/-- The frame of RXC_DATA, with when it draws and what it stores (R129). -/
theorem rxcData_frame_mem {ch : RxCh} {s t : State} (h : rxcData ch s = .next t) :
    ∃ ctx fifo staged lent draws evs mem,
      t = { s with
        rxCtx := s.rxCtx.set ch ctx
        rxq := s.rxq.set ch fifo
        stg := s.stg.set ch staged
        lentRx := s.lentRx.set ch lent
        draws := draws
        events := evs
        mem := mem }
      ∧ (s.openEnv = false → draws = s.draws)
      ∧ ((s.rxCtx.get ch).pending = true → mem = (runDrain ch (freshRx ch s)).mem)
      ∧ ((s.rxCtx.get ch).pending = false → mem = s.mem) := by
  have hdraws := freshRx_draws_of_reference (ch := ch) (s := s)
  have hctx := perRx_set_get s.rxCtx ch
  have hstg := perRx_set_get s.stg ch
  have hlent := perRx_set_get s.lentRx ch
  rcases rxcData_cases rfl h with ⟨hp, h⟩ | ⟨hp, -, rfl⟩ | ⟨hp, -, rfl⟩
  · obtain ⟨-, rfl⟩ := drainPending_eq_next.mp h
    obtain ⟨q, d, he, -⟩ := freshRx_spec ch s
    rw [he] at hdraws ⊢
    simp only [perRx_set_set]
    exact ⟨_, _, s.stg.get ch, _, d, _, _, by rw [hstg]; rfl, hdraws, fun _ => (runDrain_mem _ _).symm,
      fun hn => absurd (hp.symm.trans hn) (by decide)⟩
  · obtain ⟨q, d, he, -⟩ := freshRx_spec ch s
    rw [he] at hdraws ⊢
    exact ⟨s.rxCtx.get ch, q, s.stg.get ch, s.lentRx.get ch, d, _, s.mem, by rw [hctx, hstg, hlent]; rfl, hdraws,
      fun hy => absurd (hy.symm.trans hp) (by decide), fun _ => rfl⟩
  · have hdraws' : s.openEnv = false → (freshRx ch (freshRx ch s)).draws = s.draws := fun ho => by
      rw [freshRx_of_reference ch ho, freshRx_of_reference ch ho]
    obtain ⟨q, d, he, -⟩ := freshRx_spec ch s
    obtain ⟨q', d', he', -⟩ := freshRx_spec ch (freshRx ch s)
    rw [he', he] at hdraws' ⊢
    simp only [stage, perRx_set_set]
    exact ⟨s.rxCtx.get ch, _, _, s.lentRx.get ch, d', s.events, s.mem, by rw [hctx, hlent], hdraws',
      fun hy => absurd (hy.symm.trans hp) (by decide), fun _ => rfl⟩

/-- A drain stores only in the bytes it moves (R129). -/
theorem runDrain_mem_outside {ch : RxCh} {e : State} (hwf : Memory.wf e.params e.mem) {a : Nat}
    (h : inRange e.params (e.rxCtx.get ch).buffer (runDrain ch e).count a = false) :
    memRead e.params (runDrain ch e).mem a = memRead e.params e.mem a := by
  rw [runDrain_count, drained, ← List.length_take] at h
  rw [runDrain_mem]
  exact memRead_writeBytes_outside hwf h

theorem rxStart_of_reference (ch : RxCh) {s : State} (h : s.openEnv = false) : rxStart ch s = s := by
  cases ch
  · exact freshSetup_of_reference h
  · rfl

theorem rxStart_spec (ch : RxCh) (s : State) :
    ∃ n d, rxStart ch s = { s with setupLeft := n, draws := d } ∧ (ch = .bulkOut → n = s.setupLeft) := by
  cases ch with
  | control =>
    obtain ⟨n, d, h, -⟩ := freshSetup_spec s
    exact ⟨n, d, h, fun h => absurd h (by decide)⟩
  | bulkOut => exact ⟨s.setupLeft, s.draws, rfl, fun _ => rfl⟩

/-- Where an Rx-complete operation takes no data branch, a SETUP packet waits on Control (R127). -/
theorem setup_of_not_dataBranch {ch : RxCh} {s : State} (h : ¬DataBranch ch s) :
    ch = .control ∧ (freshSetup s).setupLeft ≠ 0 := by
  obtain ⟨rfl, h⟩ : ch = .control ∧ (rxStart ch s).setupLeft ≠ 0 := by simpa [DataBranch, NoSetup] using h
  exact ⟨rfl, h⟩

theorem rxCompleteInstr_eq (ch : RxCh) : rxCompleteInstr ch = (rxSource ch).instr := by cases ch <;> rfl

/-- The frame of the data branch, over the state before SETUP_PEND was read (R127 to R129). -/
theorem dataBranch_frame {ch : RxCh} {s t : State} (hwf : Memory.wf s.params s.mem)
    (h : rxcData ch (rxStart ch s) = .next t) :
    ∃ ctx fifo staged lent left draws evs mem,
      t = { s with
        rxCtx := s.rxCtx.set ch ctx
        rxq := s.rxq.set ch fifo
        stg := s.stg.set ch staged
        lentRx := s.lentRx.set ch lent
        setupLeft := left
        draws := draws
        events := evs
        mem := mem }
      ∧ (ch = .bulkOut → left = s.setupLeft)
      ∧ (s.openEnv = false → left = s.setupLeft ∧ draws = s.draws)
      ∧ ((s.rxCtx.get ch).pending = true → ∀ a,
          inRange s.params (s.rxCtx.get ch).buffer (runDrain ch (freshRx ch (rxStart ch s))).count a = false →
            memRead s.params mem a = memRead s.params s.mem a)
      ∧ ((s.rxCtx.get ch).pending = false → mem = s.mem) := by
  obtain ⟨ctx, fifo, staged, lent, draws, evs, mem, rfl, hdraws, hstore, hkeep⟩ := rxcData_frame_mem h
  have hreference : s.openEnv = false → (rxStart ch s).setupLeft = s.setupLeft ∧ draws = s.draws := fun ho => by
    rw [rxStart_of_reference ch ho] at hdraws ⊢
    exact ⟨rfl, hdraws ho⟩
  have hmem : (s.rxCtx.get ch).pending = true → ∀ a,
      inRange s.params (s.rxCtx.get ch).buffer (runDrain ch (freshRx ch (rxStart ch s))).count a = false →
        memRead s.params mem a = memRead s.params s.mem a := fun hp a hout => by
    have hdrain := runDrain_mem_outside (ch := ch) (e := freshRx ch (rxStart ch s)) (a := a)
    simp only [freshRx_params, freshRx_mem, freshRx_rxCtx, rxStart_params, rxStart_mem, rxStart_rxCtx] at hdrain
    rw [hstore (by rw [rxStart_rxCtx, hp])]
    exact hdrain hwf hout
  have hsame : (s.rxCtx.get ch).pending = false → mem = s.mem := fun hp => by
    rw [hkeep (by rw [rxStart_rxCtx, hp]), rxStart_mem]
  obtain ⟨n, d, he, hn⟩ := rxStart_spec ch s
  rw [he] at hreference hmem ⊢
  exact ⟨ctx, fifo, staged, lent, n, draws, evs, mem, rfl, hn, hreference, hmem, hsame⟩

/-- The frame of the SETUP branch; outside the open environment it counts down 8 and draws for the bytes the FIFO lacks
(R127, 20_memory.md R67). -/
theorem setupBranch_frame (s : State) :
    ∃ fifo left draws evs,
      receiveSetup (freshRx .control (freshSetup s)) =
        { s with rxq := s.rxq.set .control fifo, setupLeft := left, draws := draws, events := evs }
      ∧ (s.openEnv = false → left = s.setupLeft - 8 ∧ draws = s.draws + (8 - s.rxq.control.length)) := by
  obtain ⟨e, he⟩ : ∃ e, e = freshRx .control (freshSetup s) := ⟨_, rfl⟩
  have hreference : s.openEnv = false → e = s := fun ho => by
    rw [he, freshSetup_of_reference ho, freshRx_of_reference .control ho]
  have hset : ∀ q, e.rxq.set .control q = s.rxq.set .control q := fun q => by
    rw [he, freshRx_rxq_set, freshSetup_rxq]
  obtain ⟨q, d, hr, -⟩ := freshRx_spec .control (freshSetup s)
  obtain ⟨n, d', hs, -⟩ := freshSetup_spec s
  rw [← he, receiveSetup_eq, hset]
  refine ⟨e.rxq.control.drop 8, e.setupLeft - 8, e.draws + (8 - e.rxq.control.length),
    s.events ++ [{ kind := .setupReceived (readControl 8 e).1, fromIsr := true }], ?_, fun ho => ?_⟩
  · rw [he, hr, hs]
  · rw [hreference ho]
    exact ⟨rfl, rfl⟩

/-- Settles O45. A Tx-complete is discarded, fills or completes. An Rx-complete handles data from `rxStart`, or takes a
SETUP packet, which is on Control and stores nothing. -/
theorem completionHandlerFrame : Obligations.CompletionHandlerFrame := by
  refine ⟨fun ch s t h => txCompleteInstr_frame h, fun ch s t hwf h => ?_⟩
  have hf : s.fatal = false := isr_running (src := rxSource ch) (rxCompleteInstr_eq ch ▸ h)
  by_cases hd : DataBranch ch s
  · rw [exec_rxCompleteInstr_data hf hd] at h
    obtain ⟨ctx, fifo, staged, lent, left, draws, evs, mem, rfl, hleft, href, hmem, hsame⟩ := dataBranch_frame hwf h
    exact ⟨ctx, fifo, staged, lent, left, draws, evs, mem, rfl, hleft, fun ho _ => href ho, fun _ hnd => absurd hd hnd,
      fun hp _ => hmem hp, fun hn a => by rw [hsame (by simpa [hd] using hn)]⟩
  · obtain ⟨rfl, hleft⟩ := setup_of_not_dataBranch hd
    obtain rfl := Host.Outcome.next.inj ((exec_isrCtrlRx_setup hf hleft).symm.trans h)
    obtain ⟨fifo, left, draws, evs, ht, href⟩ := setupBranch_frame s
    rw [ht]
    exact ⟨s.rxCtx.control, fifo, s.stg.control, s.lentRx.control, left, draws, evs, s.mem, rfl,
      fun h => absurd h (by decide), fun _ hy => absurd hy hd, fun ho _ => href ho, fun _ hy => absurd hy hd,
      fun _ _ => rfl⟩

end Sys2Proof.Machine
end

section
/-! PROOFS. The handler as steps (42_irq_dispatch.md R181 to R183): one invocation is seven of them, and none of them
reaches what a masked source guards (20_memory.md R72, R73). -/

namespace Sys2Proof.Machine

/-! ## Commands at the head of the script -/

/-- Settles O1: outside a handler the step is the scheduled move, which decodes its word and runs it. -/
theorem stepRunsTheDecodedCommand : Obligations.StepRunsTheDecodedCommand := by
  intro w i rest s hh hs hd
  refine ⟨wellFormed_of_decodeCmd hd, ?_⟩
  rw [step_of_script hh hs, takeInput, runCommand, hd]

/-! ## One invocation -/

/-- An invocation under way stands at a slot, out of FATAL (10_state.md R30). -/
structure AtSlot (src : Source) (s : State) : Prop where
  inHandler : s.inHandler = true
  fatal : s.fatal = false
  slot : s.slot = some src

/-- What an exit from the handler leaves (R181 step 5). -/
structure OutOfHandler (s : State) : Prop where
  inHandler : s.inHandler = false
  slot : s.slot = none
  latched : s.latched = 0
  gate : s.irqGate &&& 0x01 = 0x01

theorem handlerExit_outOfHandler (s : State) : OutOfHandler (handlerExit s) := by
  have hgate : ∀ r : Byte, setField r gateBit true &&& 0x01 = 0x01 := by decide +kernel
  exact ⟨rfl, rfl, rfl, hgate _⟩

theorem step_of_atSlot {src : Source} {s : State} (h : AtSlot src s) : step s = slotStep src s := by
  rw [step_of_inHandler h.inHandler, handlerStep, unlessFatal_of_running h.fatal, h.slot]

/-- A slot is left from a state whose sequencer is that of the state it was entered in, skipped or serviced (R183). -/
theorem slotStep_leaves {src : Source} {s t : State} (h : slotStep src s = .next t) :
    ∃ u, SameSequencer s u ∧ t = leaveSlot src u := by
  rcases slotStep_cases h with ⟨-, rfl⟩ | ⟨-, u, hu, rfl⟩
  · exact ⟨s, sameSequencer_rfl s, rfl⟩
  · exact ⟨u, isr_sameSequencer hu, rfl⟩

/-- After a slot the walk stands at the next one. -/
theorem slotStep_atSlot {src n : Source} {s t : State} (hs : AtSlot src s) (hn : src.next = some n)
    (h : slotStep src s = .next t) : AtSlot n t ∧ t.script = s.script := by
  obtain ⟨u, hu, rfl⟩ := slotStep_leaves h
  rw [leaveSlot, hn]
  exact ⟨⟨hu.inHandler.trans hs.inHandler, hu.fatal.trans hs.fatal, rfl⟩, hu.script⟩

/-- After the last slot the handler is left. -/
theorem slotStep_exits {src : Source} {s t : State} (hn : src.next = none) (h : slotStep src s = .next t) :
    OutOfHandler t ∧ t.script = s.script := by
  obtain ⟨u, hu, rfl⟩ := slotStep_leaves h
  rw [leaveSlot, hn]
  exact ⟨handlerExit_outOfHandler u, hu.script⟩

/-- The slots from one on, in dispatch order, the last of which leaves the handler. -/
inductive SlotsFrom : Source → List Source → Prop where
  | last {src : Source} (h : src.next = none) : SlotsFrom src [src]
  | more {src n : Source} {rest : List Source} (h : src.next = some n) (hr : SlotsFrom n rest) : SlotsFrom src (src :: rest)

theorem slotOrder_slotsFrom : SlotsFrom .diagTx slotOrder :=
  .more rfl (.more rfl (.more rfl (.more rfl (.more rfl (.last rfl)))))

/-- Walking the slots is taking one step for each, and ends outside the handler with the schedule untouched (log 6). -/
theorem run_of_walkSlots {src : Source} {slots : List Source} (hw : SlotsFrom src slots) {s t : State} (hs : AtSlot src s)
    (h : walkSlots slots s = .next t) :
    Host.Core.run Sys2Proof.core slots.length s = .next t ∧ OutOfHandler t ∧ t.script = s.script := by
  induction hw generalizing s with
  | last hn =>
    obtain ⟨u, hu, hk⟩ := andThen_eq_next.mp h
    obtain rfl := Host.Outcome.next.inj hk
    obtain ⟨hout, hscript⟩ := slotStep_exits hn hu
    exact ⟨run_succ ((step_of_atSlot hs).trans hu), hout, hscript⟩
  | more hn hr ih =>
    obtain ⟨u, hu, hk⟩ := andThen_eq_next.mp h
    obtain ⟨hat, hscript⟩ := slotStep_atSlot hs hn hu
    obtain ⟨hrun, hout, hscript'⟩ := ih hat hk
    exact ⟨(run_succ ((step_of_atSlot hs).trans hu)).trans hrun, hout, hscript'.trans hscript⟩

/-- Settles O48: the entry is the scheduled step, and the six slots are walked one a step. -/
theorem sevenStepsAreOneInvocation : Obligations.SevenStepsAreOneInvocation := by
  intro rest s t hh hs h
  obtain ⟨u, hu, hwalk⟩ := andThen_eq_next.mp h
  have hentry : step s = .next u := (step_of_script hh hs).trans hu
  obtain ⟨he, rfl⟩ := startInvocation_cases hu
  have hat : AtSlot .diagTx (handlerEntry false { s with script := rest }) := ⟨rfl, ((irqEnabled_iff _).mp he).1, rfl⟩
  obtain ⟨hrun, hout, hscript⟩ := run_of_walkSlots slotOrder_slotsFrom hat hwalk
  exact ⟨(run_succ hentry).trans hrun, hscript, hout.inHandler, hout.slot, hout.latched, hout.gate⟩

/-! ## What a mask guards -/

theorem txChannel_injective : Function.Injective txChannel := by
  rintro (_ | _) (_ | _) h
  · rfl
  · cases h
  · cases h
  · rfl

theorem eq_control_of_rxChannel {ch : RxCh} (h : rxChannel ch = .control) : ch = .control := by
  cases ch
  · rfl
  · cases h

/-- What stays of a register under a mask stays under a narrower one. -/
theorem and_eq_of_and_eq {a b m n : Byte} (h : a &&& m = b &&& m) (hn : m &&& n = n) : a &&& n = b &&& n := by
  rw [← hn, ← BitVec.and_assoc, h, BitVec.and_assoc]

/-- What a handler operation of another source leaves of a sending channel; FORCE_TX but by a bus reset of Control (R73). -/
structure SameSend (ch : TxCh) (src : Source) (s t : State) : Prop where
  txCtx : t.txCtx.get ch = s.txCtx.get ch
  txq : t.txq.get ch = s.txq.get ch
  busy : t.busy.get ch = s.busy.get ch
  forceTx : ¬(ch = .control ∧ src = .busReset) → t.ctl.get (txChannel ch) &&& 0x01 = s.ctl.get (txChannel ch) &&& 0x01

theorem isr_sameSend {ch : TxCh} {src : Source} {s t : State} (hsrc : src ≠ txSource ch) (h : exec src.instr s = .next t) :
    SameSend ch src s t := by
  rcases isr_frame h with ⟨-, _, _, _, _, _, rfl⟩ | ⟨ch', rfl, _, _, _, _, _, _, _, _, rfl⟩
    | ⟨_, -, _, _, _, _, _, _, _, _, rfl⟩ | ⟨rfl, _, _, rfl⟩
  · exact ⟨rfl, rfl, rfl, fun _ => rfl⟩
  · have hne : ch ≠ ch' := fun h => hsrc (h ▸ rfl)
    exact ⟨perTx_get_set_other _ _ hne, perTx_get_set_other _ _ hne, perTx_get_set_other _ _ hne,
      fun _ => by rw [perCh_get_set_other _ _ (txChannel_injective.ne hne)]⟩
  · exact ⟨rfl, rfl, rfl, fun _ => rfl⟩
  · refine ⟨rfl, rfl, rfl, fun hreset => ?_⟩
    have hne : txChannel ch ≠ .control := fun hc => hreset ⟨txChannel_injective hc, rfl⟩
    rw [perCh_get_set_other _ _ hne]

/-- The same for a receiving channel and RXMODE, which a Tx-complete of Control leaves in the register it shares (R73). -/
structure SameRecv (ch : RxCh) (src : Source) (s t : State) : Prop where
  rxCtx : t.rxCtx.get ch = s.rxCtx.get ch
  rxq : t.rxq.get ch = s.rxq.get ch
  stg : t.stg.get ch = s.stg.get ch
  rxmode : ¬(ch = .control ∧ src = .busReset) → t.ctl.get (rxChannel ch) &&& 0x04 = s.ctl.get (rxChannel ch) &&& 0x04

theorem txComplete_rxmode {ch : TxCh} {s t : State} (c : Channel) (h : exec (txSource ch).instr s = .next t) :
    t.ctl.get c &&& 0x04 = s.ctl.get c &&& 0x04 := by
  obtain ⟨_, _, _, _, _, _, _, _, rfl, hctl, -⟩ := txCompleteInstr_frame (txCompleteInstr_eq ch ▸ h)
  by_cases hc : c = txChannel ch
  · rw [hc, perCh_get_set]
    exact and_eq_of_and_eq hctl (by decide)
  · rw [perCh_get_set_other _ _ hc]

theorem isr_sameRecv {ch : RxCh} {src : Source} {s t : State} (hsrc : src ≠ rxSource ch) (h : exec src.instr s = .next t) :
    SameRecv ch src s t := by
  rcases isr_frame h with ⟨-, _, _, _, _, _, rfl⟩ | ⟨ch', rfl, _, _, _, _, _, _, _, _, rfl⟩
    | ⟨ch', rfl, _, _, _, _, _, _, _, _, rfl⟩ | ⟨rfl, _, _, rfl⟩
  · exact ⟨rfl, rfl, rfl, fun _ => rfl⟩
  · exact ⟨rfl, rfl, rfl, fun _ => txComplete_rxmode (rxChannel ch) h⟩
  · have hne : ch ≠ ch' := fun h => hsrc (h ▸ rfl)
    exact ⟨perRx_get_set_other _ _ hne, perRx_get_set_other _ _ hne, perRx_get_set_other _ _ hne, fun _ => rfl⟩
  · refine ⟨rfl, rfl, rfl, fun hreset => ?_⟩
    have hne : rxChannel ch ≠ .control := fun hc => hreset ⟨eq_control_of_rxChannel hc, rfl⟩
    rw [perCh_get_set_other _ _ hne]

/-- What a handler operation of another source leaves of the diagnostic endpoint (R73). -/
structure SameDiag (s t : State) : Prop where
  ringData : t.ringData = s.ringData
  ringRead : t.ringRead = s.ringRead
  ringWrite : t.ringWrite = s.ringWrite
  diagHold : t.diagHold = s.diagHold
  diagCtl : t.diagCtl = s.diagCtl
  diagStat : t.diagStat = s.diagStat

theorem isr_sameDiag {src : Source} {s t : State} (hsrc : src ≠ .diagTx) (h : exec src.instr s = .next t) :
    SameDiag s t := by
  rcases isr_frame h with ⟨hd, -⟩ | ⟨_, -, _, _, _, _, _, _, _, _, rfl⟩ | ⟨_, -, _, _, _, _, _, _, _, _, rfl⟩
    | ⟨-, _, _, rfl⟩
  · exact absurd hd hsrc
  all_goals exact ⟨rfl, rfl, rfl, rfl, rfl, rfl⟩

/-- A handler step goes on to the next slot or leaves the handler. -/
inductive Moved (u : State) : State → Prop where
  | slot (n : Source) : Moved u { u with slot := some n }
  | exit : Moved u (handlerExit u)

theorem leaveSlot_moved (src : Source) (u : State) : Moved u (leaveSlot src u) := by
  unfold leaveSlot
  split
  · exact .slot _
  · exact .exit

theorem Moved.excluded {src : Source} {u t : State} (h : Moved u t) (hx : Excluded src u) : Excluded src t := by
  cases h with
  | slot => exact hx
  | exit => exact ⟨hx.1, fun hh => absurd hh Bool.false_ne_true⟩

/-- A handler step moves on from the state it found, or from what the operation of its slot left, whose source was latched
(R181 step 4). -/
theorem handlerStep_cases {s t : State} (hh : s.inHandler = true) (h : step s = .next t) :
    Moved s t
      ∨ ∃ src u, s.slot = some src ∧ s.latched &&& src.mask ≠ 0 ∧ exec src.instr s = .next u ∧ Moved u t := by
  rcases step_cases h with ⟨-, -, ⟨src, hs, hk⟩ | ⟨-, rfl⟩⟩ | ⟨hn, -⟩ | ⟨hn, -⟩
  · rcases slotStep_cases hk with ⟨-, rfl⟩ | ⟨hl, u, hu, rfl⟩
    · exact .inl (leaveSlot_moved src s)
    · exact .inr ⟨src, u, hs, hl, hu, leaveSlot_moved src u⟩
  · exact .inl .exit
  all_goals exact absurd (hh.symm.trans hn) (by decide)

/-- A handler operation serviced while a source is excluded is of another source, and leaves it excluded. -/
theorem isr_excluded {src masked : Source} {s u : State} (hh : s.inHandler = true) (hl : s.latched &&& src.mask ≠ 0)
    (hu : exec src.instr s = .next u) (hx : Excluded masked s) : src ≠ masked ∧ Excluded masked u := by
  obtain ⟨hen, hlat⟩ := hx
  have hseq := isr_sameSequencer hu
  refine ⟨?_, ?_⟩
  · rintro rfl
    exact hl (hlat hh)
  · rw [Excluded, hseq.intEn, hseq.latched, hseq.inHandler]
    exact ⟨hen, hlat⟩

/-- Settles O49: an excluded source is never the one serviced, and the operations of the others leave what it guards. -/
theorem maskedSourceIsNotServiced : Obligations.MaskedSourceIsNotServiced := by
  intro s t hh h
  rcases handlerStep_cases hh h with hm | ⟨src, u, hs, hl, hu, hm⟩
  · have hx : ∀ masked, Excluded masked s → Excluded masked t := fun _ => hm.excluded
    cases hm <;> exact ⟨fun ch he => ⟨hx _ he, rfl, rfl, rfl, fun _ => rfl⟩,
      fun ch he => ⟨hx _ he, rfl, rfl, rfl, fun _ => rfl⟩, fun he => ⟨hx _ he, rfl, rfl, rfl, rfl, rfl, rfl⟩⟩
  · have hx : ∀ masked, Excluded masked s → src ≠ masked ∧ Excluded masked t := fun _ he =>
      (isr_excluded hh hl hu he).imp_right hm.excluded
    have hreset : ∀ {c : Prop}, (c → s.slot = some .busReset → s.latched &&& 0x80 = 0) →
        ¬(c ∧ src = .busReset) := by
      rintro c hquiet ⟨hc, rfl⟩
      exact hl (hquiet hc hs)
    refine ⟨fun ch he => ?_, fun ch he => ?_, fun he => ?_⟩
    · obtain ⟨hctx, hq, hbusy, hforce⟩ := isr_sameSend (hx _ he).1 hu
      have hforce := fun hc => hforce (hreset hc)
      cases hm <;> exact ⟨(hx _ he).2, hctx, hq, hbusy, hforce⟩
    · obtain ⟨hctx, hq, hstg, hmode⟩ := isr_sameRecv (hx _ he).1 hu
      have hmode := fun hc => hmode (hreset hc)
      cases hm <;> exact ⟨(hx _ he).2, hctx, hq, hstg, hmode⟩
    · obtain ⟨h1, h2, h3, h4, h5, h6⟩ := isr_sameDiag (hx _ he).1 hu
      cases hm <;> exact ⟨(hx _ he).2, h1, h2, h3, h4, h5, h6⟩

end Sys2Proof.Machine
end

section
/-! PROOFS. HOST accesses against the borrow windows, and the windows the submissions open (20_memory.md R64,
93_implementation_defined.md U2). -/

namespace Sys2Proof.Machine

/-! ## Accesses -/

theorem hostMayWrite_iff {s : State} {a : Nat} :
    hostMayWrite s a = true ↔ ∀ w ∈ windows s, inRange s.params w.base w.size a = false := by
  simp [hostMayWrite]

theorem hostMayRead_iff {s : State} {a : Nat} :
    hostMayRead s a = true ↔ ∀ w ∈ windows s, w.written = true → inRange s.params w.base w.size a = false := by
  simp only [hostMayRead, List.all_eq_true, Bool.not_eq_true', Bool.and_eq_false_imp]

/-- Somewhere in a range a test that goes by the ADDR_W bits of an address fails. -/
theorem firstFailing_some_of {p : Params} {ok : Nat → Bool} {a n j : Nat} (hok : ∀ x, ok (p.addr x) = ok x) (hj : j < n)
    (h : ok (a + j) = false) : ∃ x, firstFailing p ok a n = some x := by
  rw [← Option.ne_none_iff_exists']
  intro hnone
  exact absurd ((firstFailing_none_of hok).mp hnone j hj) (by rw [h]; exact Bool.false_ne_true)

theorem hostWrite_refused {s : State} {a j : Nat} {bytes : List Byte} (hj : j < bytes.length)
    (h : hostMayWrite s (a + j) = false) : ∃ x, hostWrite a bytes s = .refused (.borrowWindow x) := by
  obtain ⟨x, hx⟩ := firstFailing_some_of (hostMayWrite_addr s) hj h
  exact ⟨x, by rw [hostWrite, hx]⟩

theorem hostRead_refused {s : State} {a n j : Nat} (hj : j < n) (h : hostMayRead s (a + j) = false) :
    ∃ x, hostRead a n s = .refused (.borrowWindow x) := by
  obtain ⟨x, hx⟩ := firstFailing_some_of (hostMayRead_addr s) hj h
  exact ⟨x, by rw [hostRead, hx]⟩

/-- A byte of an open window is not the HOST's to write. -/
theorem hostMayWrite_of_mem {s : State} {w : Window} {a : Nat} (hw : w ∈ windows s)
    (h : inRange s.params w.base w.size a = true) : hostMayWrite s a = false := by
  rw [← Bool.not_eq_true, hostMayWrite_iff]
  exact fun hall => Bool.false_ne_true ((hall w hw).symm.trans h)

/-- Nor to read, where the block writes the window. -/
theorem hostMayRead_of_mem {s : State} {w : Window} {a : Nat} (hw : w ∈ windows s) (hwr : w.written = true)
    (h : inRange s.params w.base w.size a = true) : hostMayRead s a = false := by
  rw [← Bool.not_eq_true, hostMayRead_iff]
  exact fun hall => Bool.false_ne_true ((hall w hw hwr).symm.trans h)

/-- Settles O59: both accesses scan their bytes for one a window forbids, then for a hole. -/
theorem hostAccessesRespectWindows : Obligations.HostAccessesRespectWindows := by
  intro a bytes n s
  refine ⟨fun w j hw hj hin => ?_, fun hfree hmem => ?_, fun w j hw hwr hj hin => ?_, fun hfree hmem => ?_⟩
  · exact hostWrite_refused hj (hostMayWrite_of_mem hw hin)
  · exact hostWrite_eq_next.mpr ⟨(firstFailing_none_of (hostMayWrite_addr s)).mpr fun j hj =>
      hostMayWrite_iff.mpr fun w hw => hfree w j hw hj, firstHole_none_iff.mpr hmem, rfl⟩
  · exact hostRead_refused hj (hostMayRead_of_mem hw hwr hin)
  · exact hostRead_eq_next.mpr ⟨(firstFailing_none_of (hostMayRead_addr s)).mpr fun j hj =>
      hostMayRead_iff.mpr fun w hw hwr => hfree w j hw hwr hj, firstHole_none_iff.mpr hmem, rfl⟩

/-! ## The windows of the submissions -/

theorem mem_windows_of_lentTx {s : State} {w : Window} (ch : TxCh) (h : w ∈ s.lentTx.get ch) : w ∈ windows s := by
  simp only [windows, List.mem_append]
  cases ch
  · exact .inl (.inl (.inl (.inl h)))
  · exact .inl (.inl (.inl (.inr h)))

theorem mem_windows_of_lentRx {s : State} {w : Window} (ch : RxCh) (h : w ∈ s.lentRx.get ch) : w ∈ windows s := by
  simp only [windows, List.mem_append]
  cases ch
  · exact .inl (.inl (.inr h))
  · exact .inl (.inr h)

theorem mem_windows_of_command {s : State} {w : Window} {c : InProgress} (hc : s.cmd = some c)
    (h : w ∈ commandWindow s.params c) : w ∈ windows s := by
  simp only [windows, List.mem_append, commandWindows, hc]
  exact .inr h

theorem commandWindow_of_recv {p : Params} {c : InProgress} {ch : RxCh} {buf len : Nat} (h : c.instr = recvInstr ch buf len) :
    commandWindow p c = stagedWindow p buf len c := by
  cases ch <;> simp only [commandWindow, h, recvInstr]

/-- Micro-step 2 of a receive, past FATAL, is its decision (R126 step 2). -/
theorem fgStep_decideRecv {s : State} {c : InProgress} {ch : RxCh} {buf len : Nat} (hf : s.fatal = false)
    (hc : s.cmd = some c) (hi : c.instr = recvInstr ch buf len) (ha : c.at_ = 2) : fgStep s = decideRecv ch c s := by
  have hops : recvOperands s.params c.instr = some (ch, buf, len) := by rw [hi]; cases ch <;> rfl
  simp only [fgStep, unlessFatal_of_running hf, hc, microStep_of_recv hops, microRecv, ha]

theorem hasStaged_of_ne_nil {ch : RxCh} {s : State} (h : s.stg.get ch ≠ []) : hasStaged ch s = true := by
  simpa [hasStaged] using h

/-- Settles O60: each submission's own window is among those open after it. -/
theorem submissionsOpenTheirWindows : Obligations.SubmissionsOpenTheirWindows := by
  refine ⟨fun ch buf len s t a h hin => ?_, fun ch buf len s t a h hs hin => ?_, fun ch buf len c s a hf hc hi =>
    ⟨fun hstaged hin => ?_, fun ha hs => ⟨fun htouched => ?_, fun htouched => ?_⟩⟩⟩
  · obtain ⟨-, -, -, rfl⟩ := (exec_sendInstr_eq_next rfl).mp h
    have hlent : { base := s.params.addr buf, size := s.params.len len, written := false } ∈
        (respond true (sendSubmitted ch buf len (freshTx ch s))).lentTx.get ch := by
      simp [sendSubmitted]
    refine hostMayWrite_of_mem (mem_windows_of_lentTx ch hlent) ?_
    simpa [sendSubmitted] using hin
  · obtain ⟨-, ⟨hne, -⟩ | ⟨-, rfl⟩⟩ := exec_recvInstr_cases h
    · exact absurd hs hne
    have hlent : { base := s.params.addr buf, size := s.params.len len, written := true } ∈
        (respond true (recvRecorded ch buf len s)).lentRx.get ch := by
      simp [recvRecorded]
    have hmem := mem_windows_of_lentRx ch hlent
    have hin : inRange s.params (s.params.addr buf) (s.params.len len) a = true := by rwa [inRange_addr_base]
    exact ⟨hostMayWrite_of_mem hmem hin, hostMayRead_of_mem hmem rfl hin⟩
  · have hmem : { base := s.params.addr buf, size := s.params.len len, written := true } ∈ windows s :=
      mem_windows_of_command hc (by simp [commandWindow_of_recv hi, stagedWindow, hstaged])
    have hin : inRange s.params (s.params.addr buf) (s.params.len len) a = true := by rwa [inRange_addr_base]
    exact ⟨hostMayWrite_of_mem hmem hin, hostMayRead_of_mem hmem rfl hin⟩
  · rw [fgStep_decideRecv hf hc hi ha, decideRecv, hasStaged_of_ne_nil hs, if_pos rfl, htouched]
  · rw [fgStep_decideRecv hf hc hi ha, decideRecv, hasStaged_of_ne_nil hs, if_pos rfl, htouched, goOn, ha]

end Sys2Proof.Machine
end

section
/-! PROOFS. A command's micro-steps in a row end where the command run at once does (20_memory.md R70, R79): no routine
reads the schedule or the command in progress, so each micro-step makes its part of the routine's effect. -/

namespace Sys2Proof.Machine

/-! ## The state while a command is in progress -/

/-- The state with another schedule and another command in progress. -/
def State.during (s : State) (l : List Input) (c : Option InProgress) : State := { s with script := l, cmd := c }

section Routines

variable (s : State) (l : List Input) (c : Option InProgress)

theorem freshTx_during (ch : TxCh) : freshTx ch (s.during l c) = (freshTx ch s).during l c := by
  by_cases h : s.openEnv = true <;> simp [freshTx, State.during, h]

theorem freshReady_during : freshReady (s.during l c) = (freshReady s).during l c := by
  by_cases h : s.openEnv = true <;> simp [freshReady, State.during, drawnBit, h]

theorem finishFill_during (ch : TxCh) (f : Fill) : finishFill ch f (s.during l c) = (finishFill ch f s).during l c := by
  rw [finishFill_eq, finishFill_eq]
  rfl

theorem drainIfReady_during : drainIfReady (s.during l c) = (drainIfReady s).during l c := by
  by_cases h : s.ringRead ≠ s.ringWrite ∧ diagReady s = true
  · rw [drainIfReady_ready h.1 h.2, drainIfReady_ready (s := s.during l c) h.1 h.2]
    rfl
  · have hkeep : drainIfReady s = s := if_neg h
    have hkeep' : drainIfReady (s.during l c) = s.during l c := if_neg h
    rw [hkeep, hkeep']

theorem drainOne_during : drainOne (s.during l c) = (drainOne s).during l c := by
  rw [drainOne, freshReady_during, drainIfReady_during, drainOne]

theorem enqueue_during (b : Byte) : enqueue b (s.during l c) = ((enqueue b s).1, (enqueue b s).2.during l c) := by
  rcases Nat.lt_or_ge (ringHeld s) 127 with h | h
  · rw [enqueue_room b h, enqueue_room (s := s.during l c) b h]
    exact congrArg _ (drainOne_during (appendByte b s) l c)
  · have hfull : ringHeld s = 127 := by have := ringHeld_lt s; omega
    rw [enqueue_full b hfull, enqueue_full (s := s.during l c) b hfull]

variable {s} {u : State}

theorem fillFlush_during {ch : TxCh} (h : fillFlush ch s = .next u) : fillFlush ch (s.during l c) = .next (u.during l c) := by
  obtain ⟨hn, rfl⟩ := fillFrom_eq_next.mp h
  rw [fillFlush, freshTx_during]
  exact fillFrom_eq_next.mpr ⟨hn, (finishFill_during _ l c ch _).symm⟩

theorem recvBranch_during {staged : Bool} {ch : RxCh} {buf len : Nat} (h : recvBranch staged ch buf len s = .next u) :
    recvBranch staged ch buf len (s.during l c) = .next (u.during l c) := by
  cases staged with
  | true =>
    obtain ⟨hn, rfl⟩ := takeStaged_eq_next.mp h
    exact takeStaged_eq_next.mpr ⟨hn, rfl⟩
  | false =>
    obtain ⟨hp, rfl⟩ := recordRecv_eq_next.mp h
    exact recordRecv_eq_next.mpr ⟨hp, rfl⟩

end Routines

/-! ## Micro-steps in a row -/

/-- The foreground may go on: no handler runs, and the block is not in FATAL (R70 (a)). -/
structure Foreground (s : State) : Prop where
  fatal : s.fatal = false
  inHandler : s.inHandler = false

theorem Foreground.of_sameSequencer {s t : State} (h : SameSequencer s t) (hs : Foreground s) : Foreground t :=
  ⟨h.fatal.trans hs.fatal, h.inHandler.trans hs.inHandler⟩

theorem fillFlush_sameSequencer {ch : TxCh} {s t : State} (h : fillFlush ch s = .next t) : SameSequencer s t := by
  obtain ⟨-, rfl⟩ := fillFrom_eq_next.mp h
  exact sameSequencer_trans (freshTx_sameSequencer ch s) (finishFill_sameSequencer ch _ _)

/-- From a command in progress at `s`, `n` micro-steps with nothing in between end at `t`, the last of them its response. -/
inductive MicroRun : Nat → InProgress → State → State → Prop where
  | finish {c : InProgress} {s : State} (v : Bool) (hs : Foreground s)
      (h : ∀ l, microStep c (s.during l (some c)) = finish v (s.during l (some c))) : MicroRun 1 c s (respond v s)
  | goOn {c : InProgress} (c' : InProgress) (k : Nat) {s : State} (u : State) {t : State} {n : Nat} (hs : Foreground s)
      (h : ∀ l, microStep c (s.during l (some c)) = goOn { c' with at_ := k } (u.during l (some c)))
      (hr : MicroRun n { c' with at_ := k + 1 } u t) : MicroRun (n + 1) c s t

/-- A scheduled micro-step is that of the command in progress. -/
theorem step_fg {s : State} {c : InProgress} (hs : Foreground s) (l : List Input) :
    step (s.during (.fg :: l) (some c)) = microStep c (s.during l (some c)) := by
  rw [step_of_script (s := s.during (.fg :: l) (some c)) hs.inHandler rfl]
  change fgStep (s.during l (some c)) = _
  simp only [fgStep, unlessFatal_of_running (s := s.during l (some c)) hs.fatal]
  rfl

theorem MicroRun.run {n : Nat} {c : InProgress} {s t : State} (h : MicroRun n c s t) (rest : List Input) :
    Host.Core.run Sys2Proof.core n (s.during (List.replicate n .fg ++ rest) (some c)) = .next (t.during rest none) := by
  induction h with
  | finish v hs h => exact run_succ ((step_fg hs rest).trans (h rest))
  | goOn c' k u hs h hr ih => exact (run_succ ((step_fg hs _).trans (h _))).trans ih

/-! ## The routines, micro-step by micro-step -/

/-- The micro-steps of SUBMIT_SEND (R123). -/
theorem microRun_send {i : Instr} {ch : TxCh} {buf len : Nat} {s u : State}
    (hi : ∀ c v, c.instr = i → microStep c v = microSend ch buf len c v) (hs : Foreground s)
    (h : submitSend ch buf len s = .next u) : MicroRun 6 (startCommand i) s (respond true u) := by
  simp only [submitSend] at h
  split at h
  · cases h
  rename_i hb
  obtain ⟨v, hv, hu⟩ := andThen_eq_next.mp h
  obtain rfl := Host.Outcome.next.inj hu
  have hv' : Foreground v := .of_sameSequencer (fillFlush_sameSequencer hv) ⟨hs.fatal, hs.inHandler⟩
  refine .goOn (startCommand i) 1 (sendMode ch s) hs (fun l => (hi _ _ rfl).trans ?_) ?_
  · exact if_neg hb
  refine .goOn (startCommand i) 2 (maskSource (txSource ch) (sendMode ch s)) ⟨hs.fatal, hs.inHandler⟩
    (fun l => hi _ _ rfl) ?_
  refine .goOn (startCommand i) 3 (sendRecorded ch buf len s) ⟨hs.fatal, hs.inHandler⟩ (fun l => hi _ _ rfl) ?_
  refine .goOn (startCommand i) 4 v ⟨hs.fatal, hs.inHandler⟩ (fun l => (hi _ _ rfl).trans ?_) ?_
  · exact congrArg (andThen · (goOn _)) (fillFlush_during l _ hv)
  refine .goOn (startCommand i) 5 (unmaskSource (txSource ch) v) hv' (fun l => hi _ _ rfl) ?_
  exact .finish true ⟨hv'.fatal, hv'.inHandler⟩ fun l => hi _ _ rfl

theorem recvBranch_foreground {staged : Bool} {ch : RxCh} {buf len : Nat} {s u : State} (hs : Foreground s)
    (h : recvBranch staged ch buf len s = .next u) : Foreground u := by
  cases staged with
  | true =>
    obtain ⟨-, rfl⟩ := takeStaged_eq_next.mp h
    exact ⟨hs.fatal, hs.inHandler⟩
  | false =>
    obtain ⟨-, rfl⟩ := recordRecv_eq_next.mp h
    exact ⟨hs.fatal, hs.inHandler⟩

/-- With no access of the HOST noted, micro-step 2 of a receive only decides the branch (R126 step 2; log 9). -/
theorem microRecv_decides {ch : RxCh} {buf len : Nat} {c : InProgress} {s : State} (ha : c.at_ = 2) (ht : c.touched = none) :
    microRecv ch buf len c s = goOn { c with staged := hasStaged ch s } s := by
  simp only [microRecv, ha, decideRecv, ht, ite_self]

/-- A receive in progress that has decided its branch (R126 step 2). -/
def decidedRecv (i : Instr) (staged : Bool) : InProgress := { startCommand i with staged := staged }

/-- The micro-steps of SUBMIT_RECV (R126). -/
theorem microRun_recv {i : Instr} {ch : RxCh} {buf len : Nat} {s u : State}
    (hi : ∀ c v, c.instr = i → microStep c v = microRecv ch buf len c v) (hs : Foreground s)
    (h : submitRecv ch buf len s = .next u) : MicroRun 5 (startCommand i) s (respond true u) := by
  obtain ⟨v, hv, hu⟩ := andThen_eq_next.mp h
  obtain rfl := Host.Outcome.next.inj hu
  have hm : Foreground (maskSource (rxSource ch) s) := ⟨hs.fatal, hs.inHandler⟩
  have hv' : Foreground v := recvBranch_foreground hm hv
  obtain ⟨staged, hstaged⟩ : ∃ b, b = hasStaged ch (maskSource (rxSource ch) s) := ⟨_, rfl⟩
  rw [← hstaged] at hv
  refine .goOn (startCommand i) 1 (maskSource (rxSource ch) s) hs (fun l => hi _ _ rfl) ?_
  refine .goOn (decidedRecv i staged) 2 (maskSource (rxSource ch) s) hm (fun l => (hi _ _ rfl).trans ?_) ?_
  · exact (microRecv_decides rfl rfl).trans (by rw [hstaged]; rfl)
  refine .goOn (decidedRecv i staged) 3 v hm (fun l => (hi _ _ rfl).trans ?_) ?_
  · exact congrArg (andThen · (goOn _)) (recvBranch_during l _ hv)
  refine .goOn (decidedRecv i staged) 4 (unmaskSource (rxSource ch) v) hv' (fun l => hi _ _ rfl) ?_
  exact .finish true ⟨hv'.fatal, hv'.inHandler⟩ fun l => hi _ _ rfl

section Stall

variable {v : Bool} {cause epa : Byte} {c : InProgress} {ch : Channel} {s : State} (hch : stallChannel s.params epa = some ch)
include hch

theorem microStall_at_one (ha : c.at_ = 1) : microStall v cause epa c s = goOn c s := by
  simp only [microStall, hch, ha]

theorem microStall_at_two (ha : c.at_ = 2) : microStall v cause epa c s = goOn c (setCtl ch stallBit v s) := by
  simp only [microStall, hch, ha]

theorem microStall_at_three (ha : c.at_ = 3) : microStall v cause epa c s = finish true s := by
  simp only [microStall, hch, ha]

/-- The micro-steps of STALL and CLEAR_STALL on an address that names a channel (R131, R132). -/
theorem microRun_stall {i : Instr} (hi : ∀ c u, c.instr = i → microStep c u = microStall v cause epa c u)
    (hs : Foreground s) : MicroRun 3 (startCommand i) s (writeStall v ch s) := by
  refine .goOn (startCommand i) 1 s hs (fun l => (hi _ _ rfl).trans (microStall_at_one hch rfl)) ?_
  refine .goOn (startCommand i) 2 (setCtl ch stallBit v s) hs (fun l => (hi _ _ rfl).trans ?_) ?_
  · exact microStall_at_two (s := s.during l _) hch rfl
  exact .finish true ⟨hs.fatal, hs.inHandler⟩ fun l =>
    (hi _ _ rfl).trans (microStall_at_three (s := (setCtl ch stallBit v s).during l _) hch rfl)

end Stall

/-- The micro-steps of DIAG_PUTB, whose response is what its ENQUEUE answered (R165). -/
theorem microRun_putb {b : Byte} {s : State} (hs : Foreground s) :
    MicroRun 4 (startCommand (.diagPutb b)) s (respondPut (putByte b s)) := by
  have hput : Foreground (enqueue b (maskSource .diagTx s)).2 := by
    obtain ⟨_, _, _, _, _, _, _, h⟩ := enqueue_frame b (maskSource .diagTx s)
    rw [h]
    exact ⟨hs.fatal, hs.inHandler⟩
  refine .goOn { startCommand (.diagPutb b) with byte := b } 1 (maskSource .diagTx s) hs (fun l => rfl) ?_
  refine .goOn { startCommand (.diagPutb b) with byte := b, ok := (enqueue b (maskSource .diagTx s)).1 } 2
    (enqueue b (maskSource .diagTx s)).2 ⟨hs.fatal, hs.inHandler⟩ (fun l => ?_) ?_
  · exact congrArg (fun r : Bool × State => goOn { startCommand (.diagPutb b) with byte := b, ok := r.1, at_ := 2 } r.2)
      (enqueue_during (maskSource .diagTx s) l _ b)
  refine .goOn { startCommand (.diagPutb b) with byte := b, ok := (enqueue b (maskSource .diagTx s)).1 } 3
    (unmaskSource .diagTx (enqueue b (maskSource .diagTx s)).2) hput (fun l => rfl) ?_
  exact .finish _ ⟨hput.fatal, hput.inHandler⟩ fun l => if_neg fun h => absurd h.2 (Nat.lt_irrefl 1)

/-- The micro-steps of INIT (R200). -/
theorem microRun_init {s : State} (hs : Foreground s) : MicroRun 9 (startCommand .init) s (respond true (initSteps s)) := by
  obtain ⟨hf, hh⟩ := hs
  refine .goOn (startCommand .init) 1 (setGate false s) ⟨hf, hh⟩ (fun l => rfl) ?_
  refine .goOn (startCommand .init) 2 (emptyContexts _) ⟨hf, hh⟩ (fun l => rfl) ?_
  refine .goOn (startCommand .init) 3 (emptyStaging _) ⟨hf, hh⟩ (fun l => rfl) ?_
  refine .goOn (startCommand .init) 4 (armDiscard _) ⟨hf, hh⟩ (fun l => rfl) ?_
  refine .goOn (startCommand .init) 5 (defaultCtl _) ⟨hf, hh⟩ (fun l => rfl) ?_
  refine .goOn (startCommand .init) 6 (armSpurious _) ⟨hf, hh⟩ (fun l => rfl) ?_
  refine .goOn (startCommand .init) 7 (enableAll _) ⟨hf, hh⟩ (fun l => rfl) ?_
  refine .goOn (startCommand .init) 8 (setGate true _) ⟨hf, hh⟩ (fun l => rfl) ?_
  exact .finish true ⟨hf, hh⟩ fun l => rfl

/-- The commands whose one micro-step is their response (R201 to R207). -/
theorem microRun_respond {i : Instr} {v : Bool} {s : State} (hs : Foreground s)
    (hi : ∀ c u, c.instr = i → u.params = s.params → microStep c u = finish v u) :
    MicroRun 1 (startCommand i) s (respond v s) :=
  .finish v hs fun _ => hi _ _ rfl rfl

/-- The micro-steps of DIAG_INIT (R161). -/
theorem microRun_diagInit {s : State} (hs : Foreground s) :
    MicroRun 2 (startCommand .diagInit) s (respond true (clearRing s)) :=
  .goOn (startCommand .diagInit) 1 (clearRing s) hs (fun _ => rfl) (.finish true ⟨hs.fatal, hs.inHandler⟩ fun _ => rfl)

/-! ## What decoding says of the operands -/

theorem stallInstr_injective {ch ch' : Channel} {epa : Byte} (h : stallInstr ch epa = stallInstr ch' epa) : ch = ch' := by
  cases ch <;> cases ch' <;> cases h <;> rfl

theorem clearStallInstr_injective {ch ch' : Channel} {epa : Byte} (h : clearStallInstr ch epa = clearStallInstr ch' epa) :
    ch = ch' := by
  cases ch <;> cases ch' <;> cases h <;> rfl

/-- A STALL row that refines comes of an address the low-bits decode maps to its channel, at any parameters (R94, R101). -/
theorem stallChannel_of_stallInstr {p : Params} {w : Nat} {ch : Channel} {epa : Byte}
    (h : decodeCmd p w = .ok (stallInstr ch epa)) : stallChannel p epa = some ch := by
  obtain ⟨w', he, -, -, hd⟩ := reencodes_of_decodeCmd h
  have hw : encode p (stallInstr ch epa) = .cmd (cmdWord p opStall epa 0 0) := by cases ch <;> rfl
  obtain rfl := Encoded.cmd.inj (he.symm.trans hw)
  have hd := Except.ok.inj ((decodeCmd_stallWord p epa).symm.trans hd)
  cases hch : stallChannel p epa with
  | none =>
    rw [decodeStall, hch] at hd
    cases ch <;> cases hd
  | some ch' => exact congrArg some (stallInstr_injective ((decodeStall_of_channel hch).symm.trans hd))

theorem stallChannel_of_clearStallInstr {p : Params} {w : Nat} {ch : Channel} {epa : Byte}
    (h : decodeCmd p w = .ok (clearStallInstr ch epa)) : stallChannel p epa = some ch := by
  obtain ⟨w', he, -, -, hd⟩ := reencodes_of_decodeCmd h
  have hw : encode p (clearStallInstr ch epa) = .cmd (cmdWord p opClearStall epa 0 0) := by cases ch <;> rfl
  obtain rfl := Encoded.cmd.inj (he.symm.trans hw)
  have hd := Except.ok.inj ((decodeCmd_clearStallWord p epa).symm.trans hd)
  cases hch : stallChannel p epa with
  | none =>
    rw [decodeClearStall, hch] at hd
    cases ch <;> cases hd
  | some ch' => exact congrArg some (clearStallInstr_injective ((decodeClearStall_of_channel hch).symm.trans hd))

/-- A well-formed SUBMIT_XFER is routed to no transfer, and answers FALSE (R101, R207). -/
theorem submitXfer_unrouted {p : Params} {epa : Byte} {buf len : Nat} (h : WellFormed p (.submitXfer epa buf len) = true) :
    epRoute p epa = some .diag ∨ epRoute p epa = none := by
  have hg := decodeSubmit_generic buf len h
  cases hr : epRoute p epa with
  | none => exact .inr rfl
  | some r =>
    rw [decodeSubmit, hr] at hg
    rcases r with (_ | _) | (_ | _) | _
    case diag => exact .inl rfl
    all_goals cases hg

/-! ## Every command -/

/-- What a command answers that always goes on. -/
theorem eq_of_asCommand {s t : State} {f : State → State} (h : asCommand s (fun s => .next (f s)) = .next t) : t = f s :=
  (Host.Outcome.next.inj (asCommand_eq_next.mp h).2).symm

theorem microRun_of_submitSend {ch : TxCh} {buf len : Nat} {s t : State} (hs : Foreground s)
    (h : exec (sendInstr ch buf len) s = .next t) : MicroRun 6 (startCommand (sendInstr ch buf len)) s t := by
  rw [exec_sendInstr, asCommand_eq_next] at h
  obtain ⟨u, hu, ht⟩ := andThen_eq_next.mp h.2
  obtain rfl := Host.Outcome.next.inj ht
  exact microRun_send (fun c v hc => by cases ch <;> simp only [microStep, hc, sendInstr]) hs hu

theorem microRun_of_submitRecv {ch : RxCh} {buf len : Nat} {s t : State} (hs : Foreground s)
    (h : exec (recvInstr ch buf len) s = .next t) : MicroRun 5 (startCommand (recvInstr ch buf len)) s t := by
  rw [exec_recvInstr, asCommand_eq_next] at h
  obtain ⟨u, hu, ht⟩ := andThen_eq_next.mp h.2
  obtain rfl := Host.Outcome.next.inj ht
  exact microRun_recv (fun c v hc => by cases ch <;> simp only [microStep, hc, recvInstr]) hs hu

theorem microRun_of_stall {ch : Channel} {epa : Byte} {w : Nat} {s t : State} (hs : Foreground s)
    (hd : decodeCmd s.params w = .ok (stallInstr ch epa)) (h : exec (stallInstr ch epa) s = .next t) :
    MicroRun 3 (startCommand (stallInstr ch epa)) s t := by
  have ht : t = writeStall true ch s := by cases ch <;> exact eq_of_asCommand h
  rw [ht]
  exact microRun_stall (cause := causeBadEpStall) (stallChannel_of_stallInstr hd)
    (fun c u hc => by cases ch <;> simp only [microStep, hc, stallInstr]) hs

theorem microRun_of_clearStall {ch : Channel} {epa : Byte} {w : Nat} {s t : State} (hs : Foreground s)
    (hd : decodeCmd s.params w = .ok (clearStallInstr ch epa)) (h : exec (clearStallInstr ch epa) s = .next t) :
    MicroRun 3 (startCommand (clearStallInstr ch epa)) s t := by
  have ht : t = writeStall false ch s := by cases ch <;> exact eq_of_asCommand h
  rw [ht]
  exact microRun_stall (cause := causeBadEpClearStall) (stallChannel_of_clearStallInstr hd)
    (fun c u hc => by cases ch <;> simp only [microStep, hc, clearStallInstr]) hs

theorem microRun_of_submitXfer {epa : Byte} {buf len : Nat} {s t : State} (hs : Foreground s)
    (hw : WellFormed s.params (.submitXfer epa buf len) = true) (h : exec (.submitXfer epa buf len) s = .next t) :
    MicroRun 1 (startCommand (.submitXfer epa buf len)) s t := by
  have hr := submitXfer_unrouted hw
  have ht : t = respond false s := by
    simp only [exec, execSubmitXfer, asCommand_eq_next] at h
    rcases hr with hr | hr <;> rw [hr] at h <;> exact (Host.Outcome.next.inj h.2).symm
  rw [ht]
  refine microRun_respond hs fun c u hc hp => ?_
  rcases hr with hr | hr <;> simp only [microStep, hc, microSubmit, hp, hr]

/-- A command that `microCount` numbers takes that many micro-steps, and they end as the command run at once (R79). -/
theorem microRun_of_exec {w : Nat} {i : Instr} {n : Nat} {s t : State} (hd : decodeCmd s.params w = .ok i)
    (hn : microCount i = some n) (hs : Foreground s) (h : exec i s = .next t) : MicroRun n (startCommand i) s t := by
  cases i <;> cases hn
  case init => obtain rfl := eq_of_asCommand (f := fun s => respond true (initSteps s)) h; exact microRun_init hs
  case connect => obtain rfl := eq_of_asCommand h; exact microRun_respond hs fun c u hc _ => by simp only [microStep, hc]
  case disconnect => obtain rfl := eq_of_asCommand h; exact microRun_respond hs fun c u hc _ => by simp only [microStep, hc]
  case setAddress => obtain rfl := eq_of_asCommand h; exact microRun_respond hs fun c u hc _ => by simp only [microStep, hc]
  case remoteWakeup => obtain rfl := eq_of_asCommand h; exact microRun_respond hs fun c u hc _ => by simp only [microStep, hc]
  case openEp => obtain rfl := eq_of_asCommand h; exact microRun_respond hs fun c u hc hp => by simp only [microStep, hc, hp]
  case closeEp => obtain rfl := eq_of_asCommand h; exact microRun_respond hs fun c u hc _ => by simp only [microStep, hc]
  case submitXfer => exact microRun_of_submitXfer hs (wellFormed_of_decodeCmd hd) h
  case sendCtrl => exact microRun_of_submitSend (ch := .control) hs h
  case sendBulk => exact microRun_of_submitSend (ch := .bulkIn) hs h
  case recvCtrl => exact microRun_of_submitRecv (ch := .control) hs h
  case recvBulk => exact microRun_of_submitRecv (ch := .bulkOut) hs h
  case stallControl => exact microRun_of_stall (ch := .control) hs hd h
  case stallBulkin => exact microRun_of_stall (ch := .bulkIn) hs hd h
  case stallBulkout => exact microRun_of_stall (ch := .bulkOut) hs hd h
  case clearStallControl => exact microRun_of_clearStall (ch := .control) hs hd h
  case clearStallBulkin => exact microRun_of_clearStall (ch := .bulkIn) hs hd h
  case clearStallBulkout => exact microRun_of_clearStall (ch := .bulkOut) hs hd h
  case diagInit => obtain rfl := eq_of_asCommand (f := fun s => respond true (clearRing s)) h; exact microRun_diagInit hs
  case diagPutb b => obtain rfl := eq_of_asCommand (f := fun s => respondPut (putByte b s)) h; exact microRun_putb hs

theorem submitRecv_script {ch : RxCh} {buf len : Nat} {s t : State} (h : submitRecv ch buf len s = .next t) :
    t.script = s.script := by
  rcases submitRecv_cases h with ⟨-, u, hu, rfl⟩ | ⟨-, u, hu, rfl⟩
  · obtain ⟨-, rfl⟩ := takeStaged_eq_next.mp hu
    rfl
  · obtain ⟨-, rfl⟩ := recordRecv_eq_next.mp hu
    rfl

/-- A command run at once leaves the schedule. -/
theorem command_script {p : Params} {i : Instr} {w : Nat} {s t : State} (he : encode p i = .cmd w) (h : exec i s = .next t) :
    t.script = s.script := by
  rcases command_cases he h with ⟨-, rfl⟩ | ⟨v, rfl⟩ | ⟨_, _, _, u, hu, rfl⟩ | ⟨_, _, _, u, hu, rfl⟩ | ⟨v, _, rfl⟩
    | ⟨_, _, rfl⟩ | rfl | ⟨bs, rfl⟩ | ⟨n, a, hput⟩
  · rfl
  · rfl
  · obtain ⟨_, _, _, _, _, _, _, rfl⟩ := submitSend_frame hu
    rfl
  · exact submitRecv_script (t := u) hu
  · rfl
  · rfl
  · rfl
  · obtain ⟨_, _, _, _, _, _, _, _, hb⟩ := putBytes_frame bs s
    rw [respondPut, hb]
    rfl
  · obtain ⟨_, _, _, _, _, _, _, _, _, rfl⟩ := putString_frame hput
    rfl

/-- The step that issues a command puts it in progress (43_foreground_api.md R210). -/
theorem step_issue {w : Nat} {i : Instr} {l : List Input} {s : State} (ha : acceptsCommand s = true)
    (hd : decodeCmd s.params w = .ok i) (hs : s.script = .issue w :: l) :
    step s = .next (s.during l (some (startCommand i))) := by
  obtain ⟨-, hh, -⟩ := (acceptsCommand_iff s).mp ha
  rw [step_of_script hh hs, takeInput, issueCommand, asCommand_of_accepts (s := { s with script := l }) ha, hd]
  rfl

/-- Settles O50: the issue and the micro-steps of `microRun_of_exec`, which end with the schedule used up and no command in
progress, as the command run at once does. -/
theorem microStepsRefineTheCommand : Obligations.MicroStepsRefineTheCommand := by
  intro w i n rest s t ha hd hn hs h
  obtain ⟨hf, hh, -⟩ := (acceptsCommand_iff s).mp ha
  obtain ⟨w', he⟩ := decoded_isCommand hd
  have hrun := (microRun_of_exec (s := { s with script := rest }) hd hn ⟨hf, hh⟩ h).run rest
  have ht : t.during rest none = t := by
    rw [State.during, ← command_cmd he h, ← show t.script = rest from command_script he h]
  rw [ht] at hrun
  exact (run_succ (step_issue ha hd hs)).trans hrun

end Sys2Proof.Machine
end

section
/-! PROOFS. Words the spec prints, and words whose opcode is not in the opcode map (30_encoding.md R92, R99; 95_test_vectors.md
V6, V7, V9). -/

namespace Sys2Proof

open Machine

/-! ## Printed words -/

/-- Settles O3: fourteen closed command words at the default parameters and one source bitmap, each read by its decoder. -/
theorem printedWordsDecode : Obligations.PrintedWordsDecode := by
  unfold Obligations.PrintedWordsDecode
  decide

/-! ## Opcodes outside the map -/

/-- The opcodes of the opcode map (R92). -/
def opcodeMap : List Byte :=
  [opInit, opConnect, opDisconnect, opSetAddress, opRemoteWakeup, opOpenEp, opCloseEp, opSubmitXfer, opStall, opClearStall,
    opDiagInit, opDiagPutb, opDiagPuts, opDiagPuthex8, opDiagPut16]

/-- The decoder compares OP with the opcodes of the map and with nothing else (R99 (a)). -/
theorem decodeCmd_of_not_mem_opcodeMap {p : Params} {w : Nat} (h : cmdOp p w ∉ opcodeMap) :
    decodeCmd p w = .error (.illegalCmd (cmdOp p w)) := by
  simp only [opcodeMap, List.mem_cons, List.not_mem_nil, or_false, not_or] at h
  simp only [decodeCmd, h, if_false]

namespace Machine

variable {w : Nat} {op : Byte} {s : State}

/-- A word run at once that the decoder finds illegal is fatal at its decode. -/
theorem runCommand_of_illegalCmd (ha : acceptsCommand s = true) (hd : decodeCmd s.params w = .error (.illegalCmd op)) :
    runCommand w s = .next (raiseFatal causeIllegalCmd op s) := by
  rw [runCommand, hd]
  exact asCommand_of_accepts ha _

/-- An issued word that the decoder finds illegal is fatal too: no command comes to be in progress. -/
theorem issueCommand_of_illegalCmd (ha : acceptsCommand s = true) (hd : decodeCmd s.params w = .error (.illegalCmd op)) :
    issueCommand w s = .next (raiseFatal causeIllegalCmd op s) := by
  rw [issueCommand, asCommand_of_accepts ha, hd]
  rfl

end Machine

/-- Settles O6: both ways to give the command decode it in an accepting state, and the decode error is the Fatal. -/
theorem illegalCommandIsFatal : Obligations.IllegalCommandIsFatal := by
  intro w m rest s ha hop hm hs
  obtain ⟨-, hh, -⟩ := (acceptsCommand_iff s).mp ha
  have hd : decodeCmd s.params w = .error (.illegalCmd (cmdOp s.params w)) := decodeCmd_of_not_mem_opcodeMap hop
  rw [step_of_script hh hs]
  rcases hm with rfl | rfl
  · exact runCommand_of_illegalCmd (s := { s with script := rest }) ha hd
  · exact issueCommand_of_illegalCmd (s := { s with script := rest }) ha hd

end Sys2Proof
end

section
/-! PROOFS. Buffer memory that is not there: every loop over buffer memory is stuck at the first hole it comes to
(93_implementation_defined.md U13). -/

namespace Sys2Proof.Machine

/-! ## The first hole -/

theorem withMemory_stuck {s : State} {a n j : Nat} (hj : j < n) (h : FirstHoleAt s a j) (k : State → Out) :
    withMemory s a n k = .fault (.noMemory (s.params.addr (a + j))) := by
  obtain ⟨hbefore, hhole⟩ := h
  simp only [withMemory, firstHole_at hj hbefore hhole]

/-- Holes are found at the ADDR_W bits of an address (R61). -/
theorem firstHoleAt_addr {s : State} {a j : Nat} (h : FirstHoleAt s a j) : FirstHoleAt s (s.params.addr a) j := by
  have haddr : ∀ i, hasMemory s.params s.noMem (s.params.addr a + i) = hasMemory s.params s.noMem (a + i) := fun i => by
    rw [← hasMemory_addr, addr_addr_add, hasMemory_addr]
  simpa only [FirstHoleAt, haddr] using h

/-- Where the holes are depends on the parameters and the map of holes only. -/
theorem FirstHoleAt.carry {s t : State} {a j : Nat} (hp : t.params = s.params) (hn : t.noMem = s.noMem)
    (h : FirstHoleAt s a j) : FirstHoleAt t a j := by
  rwa [FirstHoleAt, hp, hn]

/-- From the address after one that has memory the first hole is one nearer. -/
theorem FirstHoleAt.tail {s : State} {a j : Nat} (h : FirstHoleAt s a (j + 1)) : FirstHoleAt s (a + 1) j := by
  obtain ⟨hbefore, hhole⟩ := h
  refine ⟨fun i hi => ?_, ?_⟩
  · rw [Nat.add_assoc, Nat.add_comm 1 i]
    exact hbefore (i + 1) (Nat.succ_lt_succ hi)
  · rw [Nat.add_assoc, Nat.add_comm 1 j]
    exact hhole

/-! ## Sends and refills -/

theorem fillFrom_stuck {ch : TxCh} {s : State} {j : Nat} (hj : j < min (s.txCtx.get ch).remaining (txRoom ch s))
    (h : FirstHoleAt s (s.txCtx.get ch).buffer j) :
    fillFrom ch s = .fault (.noMemory (s.params.addr ((s.txCtx.get ch).buffer + j))) := by
  rw [Nat.min_comm, ← runFill_pushed_length] at hj
  rw [fillFrom, withMemory_stuck hj h]

theorem submitSend_stuck {ch : TxCh} {buf len j : Nat} {s : State} (hb : s.busy.get ch = false)
    (hj : j < min (s.params.len len) (s.params.txDepth ch - ((freshTx ch s).txq.get ch).length))
    (h : FirstHoleAt s buf j) : submitSend ch buf len s = .fault (.noMemory (s.params.addr (buf + j))) := by
  have hctx : (sendRecorded ch buf len (freshTx ch s)).txCtx.get ch = newCtx s.params buf len := by
    rw [sendRecorded_txCtx_get, freshTx_params]
  have hparams : (sendRecorded ch buf len (freshTx ch s)).params = s.params := freshTx_params s ch
  have hnoMem : (sendRecorded ch buf len (freshTx ch s)).noMem = s.noMem := freshTx_noMem s ch
  have hroom : txRoom ch (sendRecorded ch buf len (freshTx ch s))
      = s.params.txDepth ch - ((freshTx ch s).txq.get ch).length := by rw [txRoom, hparams, sendRecorded_txq]
  have hfill := fillFrom_stuck (ch := ch) (s := sendRecorded ch buf len (freshTx ch s)) (j := j)
    (by rw [hctx, hroom]; exact hj) (by rw [hctx]; exact (firstHoleAt_addr h).carry hparams hnoMem)
  rw [hctx, hparams, newCtx, addr_addr_add, sendRecorded] at hfill
  rw [submitSend, hb, if_neg Bool.false_ne_true, fillFlush, freshTx_recordSend, hfill, andThen_fault]

theorem txComplete_stuck {ch : TxCh} {s : State} {j : Nat}
    (hj : j < min (s.txCtx.get ch).remaining (s.params.txDepth ch - ((freshTx ch s).txq.get ch).length))
    (h : FirstHoleAt s (s.txCtx.get ch).buffer j) :
    txComplete ch s = .fault (.noMemory (s.params.addr ((s.txCtx.get ch).buffer + j))) := by
  have hr : (s.txCtx.get ch).remaining ≠ 0 := by omega
  have hfill := fillFrom_stuck (ch := ch) (s := freshTx ch s) (j := j)
    (by rwa [txRoom, freshTx_txCtx, freshTx_params])
    (by rw [freshTx_txCtx]; exact h.carry (freshTx_params s ch) (freshTx_noMem s ch))
  rw [txComplete, if_pos hr, fillFlush, hfill, freshTx_txCtx, freshTx_params]

/-! ## Receives and drains -/

theorem takeStaged_stuck {ch : RxCh} {buf len j : Nat} {s : State}
    (hj : j < min (s.stg.get ch).length (s.params.len len)) (h : FirstHoleAt s buf j) :
    takeStaged ch buf len s = .fault (.noMemory (s.params.addr (buf + j))) := by
  rw [Nat.min_comm, ← List.length_take] at hj
  rw [takeStaged, withMemory_stuck hj h]

theorem submitRecv_stuck {ch : RxCh} {buf len j : Nat} {s : State}
    (hj : j < min (s.stg.get ch).length (s.params.len len)) (h : FirstHoleAt s buf j) :
    submitRecv ch buf len s = .fault (.noMemory (s.params.addr (buf + j))) := by
  have hstaged : s.stg.get ch ≠ [] := fun he => by simp [he] at hj
  have hhas : hasStaged ch (maskSource (rxSource ch) s) = true := hasStaged_of_ne_nil hstaged
  rw [submitRecv, hhas, recvBranch, if_pos rfl, takeStaged_stuck (s := maskSource (rxSource ch) s) hj h, andThen_fault,
    maskSource_params]

theorem drainPending_stuck {ch : RxCh} {s : State} {j : Nat} (hj : j < drained ch s)
    (h : FirstHoleAt s (s.rxCtx.get ch).buffer j) :
    drainPending ch s = .fault (.noMemory (s.params.addr ((s.rxCtx.get ch).buffer + j))) := by
  rw [← runDrain_count] at hj
  rw [drainPending, withMemory_stuck hj h]

theorem rxcData_stuck {ch : RxCh} {s : State} {j : Nat} (hp : (s.rxCtx.get ch).pending = true)
    (hj : j < min (s.rxCtx.get ch).total ((freshRx ch s).rxq.get ch).length)
    (h : FirstHoleAt s (s.rxCtx.get ch).buffer j) :
    rxcData ch s = .fault (.noMemory (s.params.addr ((s.rxCtx.get ch).buffer + j))) := by
  have hdrain := drainPending_stuck (ch := ch) (s := freshRx ch s) (j := j) (by rwa [drained, freshRx_rxCtx])
    (by rw [freshRx_rxCtx]; exact h.carry (freshRx_params s ch) (freshRx_noMem s ch))
  rw [rxcData, if_pos hp, hdrain, freshRx_rxCtx, freshRx_params]

/-! ## DIAG_PUTS -/

theorem putString_of_present {n a : Nat} {s : State} (h : hasMemory s.params s.noMem a = true) :
    putString (n + 1) a s =
      if (putByte (memRead s.params s.mem a) s).1 = true then putString n (a + 1) (putByte (memRead s.params s.mem a) s).2
      else .next (respond false (putByte (memRead s.params s.mem a) s).2) := by
  rw [putString, withMemory_of_present]
  intro i hi
  rwa [Nat.lt_one_iff.mp hi]

/-- Bytes that were all put: the first was, and so were the others. -/
theorem putBytes_cons_ok {b : Byte} {bs : List Byte} {s : State} (h : (putBytes (b :: bs) s).1 = true) :
    (putByte b s).1 = true ∧ (putBytes bs (putByte b s).2).1 = true := by
  rw [putBytes] at h
  by_cases hb : (putByte b s).1 = true
  · exact ⟨hb, by rwa [if_pos hb] at h⟩
  · rw [if_neg hb] at h
    exact absurd h hb

/-- DIAG_PUTS comes to the hole once the bytes before it were put (R166). -/
theorem putString_stuck {n a j : Nat} {s : State} (hj : j < n)
    (hput : (putBytes (readBytes s.params s.mem a j) s).1 = true) (h : FirstHoleAt s a j) :
    putString n a s = .fault (.noMemory (s.params.addr (a + j))) := by
  induction j generalizing n a s with
  | zero =>
    obtain ⟨n, rfl⟩ := Nat.exists_eq_add_one_of_ne_zero (Nat.ne_of_gt hj)
    exact withMemory_stuck Nat.one_pos h _
  | succ j ih =>
    obtain ⟨n, rfl⟩ := Nat.exists_eq_add_one_of_ne_zero (Nat.ne_of_gt (Nat.zero_lt_of_lt hj))
    obtain ⟨hfirst, hrest⟩ := putBytes_cons_ok hput
    have hhere : hasMemory s.params s.noMem a = true := h.1 0 (Nat.succ_pos j)
    rw [putString_of_present hhere, if_pos hfirst]
    obtain ⟨_, _, _, _, _, _, _, ht, -⟩ := putByte_frame (memRead s.params s.mem a) s
    generalize (putByte (memRead s.params s.mem a) s).2 = t at ht hrest
    have hparams : t.params = s.params := by rw [ht]
    have hmem : t.mem = s.mem := by rw [ht]
    have hnoMem : t.noMem = s.noMem := by rw [ht]
    rw [ih (Nat.lt_of_succ_lt_succ hj) (by rwa [hparams, hmem]) (h.tail.carry hparams hnoMem), hparams, Nat.add_assoc,
      Nat.add_comm 1 j]

/-- Settles O22: each routine that runs a loop over buffer memory is stuck there, and the fault stands as the operation's
answer. -/
theorem accessWithoutMemoryIsStuck : Obligations.AccessWithoutMemoryIsStuck := by
  refine ⟨fun ch buf len s j ha hb hj h => ?_, fun ch buf len s j ha hj h => ?_, fun buf len s j ha hj hput h => ?_,
    fun ch s j hf hd hj h => ?_, fun ch s j hf hd hp hj h => ?_⟩
  · rw [exec_sendInstr, asCommand_of_accepts ha, submitSend_stuck hb hj h, thenTrue, andThen_fault]
  · rw [exec_recvInstr, asCommand_of_accepts ha, submitRecv_stuck hj h, thenTrue, andThen_fault]
  · exact (asCommand_of_accepts ha _).trans (putString_stuck hj hput h)
  · rw [exec_txCompleteInstr hd, unlessFatal_of_running hf, txComplete_stuck hj h]
  · rw [exec_rxCompleteInstr_data hf hd, rxcData_stuck (by rwa [rxStart_rxCtx]) (by rwa [rxStart_rxCtx])
      (by rw [rxStart_rxCtx]; exact h.carry (rxStart_params ch s) (rxStart_noMem ch s)), rxStart_rxCtx, rxStart_params]

end Sys2Proof.Machine
end

section
/-! PROOFS. Staged bytes read back, the branches of the completion handlers that report no finished transfer, and STALL
(40_endpoint_transfer.md R121 to R133). -/

namespace Sys2Proof

/-- Two addresses less than the address space apart differ (00_scope.md R11). -/
theorem addr_add_ne {p : Params} {a k : Nat} (hk : 0 < k) (hlt : k < 2 ^ p.addrW) : p.addr (a + k) ≠ p.addr a := by
  intro h
  have hmod : k ≡ 0 [MOD 2 ^ p.addrW] := Nat.ModEq.add_left_cancel' a h
  exact Nat.ne_of_gt hk (hmod.eq_of_lt_of_lt hlt (Nat.two_pow_pos _))

namespace Machine

/-! ## Staged bytes read back -/

/-- Bytes stored read back, where the address space is wide enough to hold them apart (R61, R65). -/
theorem readBytes_writeBytes {p : Params} {m : Memory} (h : Memory.wf p m) (a : Nat) {bs : List Byte} {n : Nat}
    (hn : bs.length = n) (hwide : n ≤ 2 ^ p.addrW) : readBytes p (writeBytes p m a bs) a n = bs := by
  induction bs generalizing m a n with
  | nil =>
    subst hn
    rfl
  | cons b bs ih =>
    subst hn
    rw [List.length_cons] at hwide
    have hwf := wf_memWrite h a b
    have hout : inRange p (a + 1) bs.length a = false := inRange_false_iff.mpr fun j hj => by
      rw [Nat.add_assoc]
      exact addr_add_ne (by omega) (by omega)
    have hhead : memRead p (writeBytes p (memWrite p m a b) (a + 1) bs) a = b := by
      rw [memRead_writeBytes_outside hwf hout, memRead_memWrite_same h b rfl]
    rw [writeBytes, List.length_cons, readBytes, hhead, ih hwf (a + 1) rfl (by omega)]

/-- Settles O26: staged bytes select the delivering branch, which stores exactly the bytes it takes. -/
theorem stagedBytesReadBack : Obligations.StagedBytesReadBack := by
  intro ch buf len s t n hwf hs hn h
  obtain ⟨-, ⟨-, rfl⟩ | ⟨hnil, -⟩⟩ := exec_recvInstr_cases h
  · have hmem : (respond true (recvDelivered ch buf len s)).mem =
        writeBytes s.params s.mem buf ((s.stg.get ch).take n) := by
      rw [hn, Nat.min_comm, ← List.take_eq_take_min]; rfl
    have hlen : ((s.stg.get ch).take n).length = n := by rw [List.length_take]; omega
    rw [hmem]
    exact ⟨readBytes_writeBytes hwf buf hlen, perRx_get_set _ _ _,
      fun a hout => memRead_writeBytes_outside hwf (by rwa [hlen])⟩
  · exact absurd hnil hs

/-! ## Tx-complete -/

/-- Settles O40: the refill is FILL_FLUSH from the state as TXFULL is read, in the closed form of its loop. -/
theorem txCompleteRefills : Obligations.TxCompleteRefills := by
  intro ch s e k hf hd hr hc he hk hmem
  obtain ⟨hsum, htotal, hb⟩ := hc
  have hctx : e.txCtx = s.txCtx := by rw [he, freshTx_txCtx]
  have hparams : e.params = s.params := by rw [he, freshTx_params]
  have hnoMem : e.noMem = s.noMem := by rw [he, freshTx_noMem]
  have hm : e.mem = s.mem := by rw [he, freshTx_mem]
  have hctl : e.ctl = s.ctl := by rw [he, freshTx_ctl]
  have hset : ∀ q, e.txq.set ch q = s.txq.set ch q := fun q => by rw [he, freshTx_txq_set]
  have hcount : min (txRoom ch e) (s.txCtx.get ch).remaining = k := by rw [txRoom, hparams, Nat.min_comm, hk]
  have hpushed : (runFill ch e).pushed = readBytes s.params s.mem (s.txCtx.get ch).buffer k := by
    rw [runFill_pushed, hparams, hm, hctx, hcount]
  have hleft := runFill_ctx (congrArg (PerTx.get · ch) hctx) hsum (hparams ▸ htotal) (hparams ▸ hb)
  rw [hparams, hcount] at hleft
  have hhole : firstHole e.params e.noMem (e.txCtx.get ch).buffer (runFill ch e).pushed.length = none := by
    rw [hpushed, readBytes_length, hparams, hnoMem, hctx]
    exact firstHole_none_iff.mpr hmem
  have hfinished : (s.txCtx.get ch).remaining - k = 0 ↔ k = (s.txCtx.get ch).remaining := by omega
  rw [exec_txCompleteInstr hd, unlessFatal_of_running hf, txComplete, if_pos hr, fillFlush, ← he,
    fillFrom_eq_next.mpr ⟨hhole, rfl⟩, finishFill_eq, hpushed, hleft, readBytes_length, hctx, hctl, hset]
  simp only [hfinished]
  rfl

/-- Settles O38: the one-shot flag is tested before the transfer. -/
theorem firstControlCompletionIsDiscarded : Obligations.FirstControlCompletionIsDiscarded := by
  intro s hf hd
  rw [exec, execIsrCtrlTx, unlessFatal_of_running hf, if_pos hd]

/-! ## Rx-complete -/

theorem rxStart_stg (ch : RxCh) (s : State) : (rxStart ch s).stg = s.stg := by cases ch <;> simp [rxStart]
theorem rxStart_openEnv (ch : RxCh) (s : State) : (rxStart ch s).openEnv = s.openEnv := by cases ch <;> simp [rxStart]

/-- Nothing pending and an empty FIFO: a zero-length packet (R129). -/
theorem rxcData_zeroLength {ch : RxCh} {s e : State} (hp : (s.rxCtx.get ch).pending = false) (he : e = freshRx ch s)
    (hq : e.rxq.get ch = []) : rxcData ch s = .next (emitComplete (epaRx s.params ch) 0 true e) := by
  have hempty : rxEmpty ch e = true := by rw [rxEmpty, hq]; rfl
  rw [rxcData, hp, if_neg Bool.false_ne_true, ← he, if_pos hempty, he, freshRx_params]

/-- Nothing pending and bytes in the FIFO: they are staged, as the loop reads them (R129, R130). -/
theorem rxcData_stages {ch : RxCh} {s e : State} (hp : (s.rxCtx.get ch).pending = false) (he : e = freshRx ch s)
    (hq : e.rxq.get ch ≠ []) : rxcData ch s = .next (stage ch (freshRx ch e)) := by
  have hempty : rxEmpty ch e = false := by simpa [rxEmpty] using hq
  rw [rxcData, hp, if_neg Bool.false_ne_true, ← he, if_neg (Bool.eq_false_iff.mp hempty)]

/-- Settles O43: with nothing pending RXEMPTY selects one of the two branches of RXC_DATA, and the staging loop keeps what
fits. -/
theorem rxCompleteWithoutRequest : Obligations.RxCompleteWithoutRequest := by
  intro ch s e e' hf hd hp he he'
  have hpend : ((rxStart ch s).rxCtx.get ch).pending = false := by rw [rxStart_rxCtx, hp]
  rw [exec_rxCompleteInstr_data hf hd]
  refine ⟨fun hq => ?_, fun hq hcap => ?_, fun ho => ?_⟩
  · have hevents : e.events = s.events := by rw [he, freshRx_events, rxStart_events]
    rw [rxcData_zeroLength hpend he hq, rxStart_params, ← hevents]
    rfl
  · have hstg : e'.stg = s.stg := by rw [he', freshRx_stg, he, freshRx_stg, rxStart_stg]
    have hset : e'.rxq.set ch [] = s.rxq.set ch [] := by
      rw [he', freshRx_rxq_set, he, freshRx_rxq_set, rxStart_rxq]
    rw [rxcData_stages hpend he hq, ← he', stage, hstg, stageLoop_eq _ hcap, hset]
  · have hopen : e.openEnv = false := by rw [he, freshRx_openEnv, rxStart_openEnv, ho]
    rw [he', freshRx_of_reference ch hopen]

/-! ## Bus reset -/

/-- Settles O44: the default receive-ready state has no reserved bit, so the whole write leaves it. -/
theorem busResetTouchesControlOnly : Obligations.BusResetTouchesControlOnly := by
  intro s hf
  have hready : receiveReady &&& ctlBits = 0x04 := by decide
  rw [exec, execIsrBusReset, unlessFatal_of_running hf, writeCtl, hready, emit]

/-! ## STALL and CLEAR_STALL -/

theorem exec_stallInstr (ch : Channel) (epa : Byte) (s : State) :
    exec (stallInstr ch epa) s = asCommand s fun s => .next (writeStall true ch s) := by
  cases ch <;> rfl

theorem exec_clearStallInstr (ch : Channel) (epa : Byte) (s : State) :
    exec (clearStallInstr ch epa) s = asCommand s fun s => .next (writeStall false ch s) := by
  cases ch <;> rfl

/-- Settles O28: each refining row is `writeStall` on its channel. -/
theorem stallWritesOneBit : Obligations.StallWritesOneBit := by
  intro ch epa s ha
  obtain ⟨-, -, hcmd⟩ := (acceptsCommand_iff s).mp ha
  have hclear : ~~~stallBit = 0xFD := by decide
  rw [exec_stallInstr, exec_clearStallInstr, asCommand_of_accepts ha, asCommand_of_accepts ha]
  simp only [writeStall, setCtl, respond, respWord, if_true, setField_true, setField_false, hclear, ← hcmd]
  exact ⟨rfl, trivial⟩

/-- Settles O29: the low bits select no channel, and Fatal comes before any write. -/
theorem stallElsewhereIsFatal : Obligations.StallElsewhereIsFatal := by
  intro epa s ha hbits
  simp only [List.map_cons, List.map_nil, List.mem_cons, List.not_mem_nil, or_false, not_or] at hbits
  obtain ⟨hout, hin, hbulk⟩ := hbits
  have hnone : stallChannel s.params epa = none := by simp only [stallChannel, if_neg hout, if_neg hin, if_neg hbulk]
  have hfatal : ∀ v cause, stallByEpa v cause epa s = raiseFatal cause epa s := fun v cause => by rw [stallByEpa, hnone]
  simp only [exec, execStall, execClearStall, asCommand_of_accepts ha, hfatal]
  exact ⟨rfl, rfl⟩

end Machine
end Sys2Proof
end

section
/-! PROOFS. The events of a step: which operations report one, and where a report from the foreground comes from
(43_foreground_api.md R211, R214; 40_endpoint_transfer.md R126). -/

namespace Sys2Proof.Machine

/-! ## Reports -/

/-- The completion of a receive that found staged bytes on the channel: one event from the foreground, for at most the bytes
staged, and the staging buffer empty (R126 step 3a). -/
structure Delivered (ch : RxCh) (count : Nat) (s t : State) : Prop where
  events : t.events = s.events ++ [{ kind := .xferComplete (epaRx s.params ch) count, fromIsr := false }]
  count_le : count ≤ (s.stg.get ch).length
  emptied : t.stg.get ch = []

/-- The receive in progress found staged bytes on the channel at its micro-step 2 (R126 step 2). -/
def FoundStaged (ch : RxCh) (s : State) : Prop :=
  ∃ c, s.cmd = some c ∧ c.at_ = 3 ∧ c.staged = true ∧ receivingChannel s.params c.instr = some ch

/-- No event, or one from the handler. -/
def AtMostOneFromIsr (s t : State) : Prop :=
  t.events = s.events ∨ ∃ e : Event, t.events = s.events ++ [e] ∧ e.fromIsr = true

/-- The ways a step that is not the reset input can treat the event port. -/
inductive EventStep (s t : State) : Prop where
  | silent (h : t.events = s.events)
  | handler (hh : s.inHandler = true) (h : AtMostOneFromIsr s t)
  | delivered (ch : RxCh) (count : Nat) (hh : s.inHandler = false) (hd : Delivered ch count s t)
      (hw : s.stg.get ch ≠ [] ∨ FoundStaged ch s)

section Parts

variable {s t u : State}

theorem events_of_reports (h : t.reports = s.reports) : t.events = s.events := congrArg (fun r => r.2.1) h

/-- With the staging invariant, staged bytes the receive found are still there at its micro-step 3 (R26, R126). -/
theorem FoundStaged.staged {ch : RxCh} (h : FoundStaged ch s) (hi : StagingInv ch s) : s.stg.get ch ≠ [] := by
  obtain ⟨c, hc, hat, hfound, hch⟩ := h
  obtain ⟨-, hsafe⟩ := hi
  have hhas : hasStaged ch s = true := ((hsafe c hc hch).2 hat).symm.trans hfound
  intro hnil
  simp [hasStaged, hnil] at hhas

/-! ## The handler -/

theorem txComplete_events {ch : TxCh} (h : txComplete ch s = .next t) : AtMostOneFromIsr s t := by
  rcases txComplete_cases h with ⟨-, rfl⟩ | ⟨-, rfl⟩
  · exact .inl (events_of_reports ((finishFill_reports ch _ _).trans (freshTx_reports ch s)))
  · exact .inr ⟨_, rfl, rfl⟩

theorem rxcData_events {ch : RxCh} (h : rxcData ch s = .next t) : AtMostOneFromIsr s t := by
  rcases rxcData_cases rfl h with ⟨-, h⟩ | ⟨-, -, rfl⟩ | ⟨-, -, rfl⟩
  · obtain ⟨-, rfl⟩ := drainPending_eq_next.mp h
    exact .inr ⟨_, congrArg (· ++ _) (freshRx_events s ch), rfl⟩
  · exact .inr ⟨_, congrArg (· ++ _) (freshRx_events s ch), rfl⟩
  · exact .inl ((freshRx_events _ ch).trans (freshRx_events s ch))

/-- A handler operation reports at most once (42_irq_dispatch.md R182). -/
theorem isr_events {src : Source} (h : exec src.instr s = .next t) : AtMostOneFromIsr s t := by
  rcases isr_cases h with ⟨-, rfl⟩ | ⟨-, -, rfl⟩ | ⟨-, -, h⟩ | ⟨-, -, rfl⟩ | ⟨-, -, h⟩ | ⟨-, rfl⟩ | ⟨-, h⟩ | ⟨-, h⟩
  · obtain ⟨_, _, _, _, _, hd⟩ := drainOne_frame s
    exact .inl (by rw [hd])
  · exact .inl rfl
  · exact txComplete_events h
  · have he : (freshRx .control (freshSetup s)).events = s.events := by rw [freshRx_events, freshSetup_events]
    rw [receiveSetup_eq, he]
    exact .inr ⟨_, rfl, rfl⟩
  · have ht := rxcData_events h
    rwa [AtMostOneFromIsr, freshSetup_events] at ht
  · exact .inr ⟨_, rfl, rfl⟩
  · exact rxcData_events h
  · exact txComplete_events h

theorem slotStep_events {src : Source} (hh : s.inHandler = true) (h : slotStep src s = .next t) : EventStep s t := by
  rcases slotStep_cases h with ⟨-, rfl⟩ | ⟨-, u, hu, rfl⟩
  · exact .silent (events_of_reports (leaveSlot_reports src s))
  · have ht := isr_events hu
    rw [AtMostOneFromIsr, ← events_of_reports (leaveSlot_reports src u)] at ht
    exact .handler hh ht

/-! ## The foreground -/

theorem takeStaged_delivered {ch : RxCh} {buf len : Nat} (h : takeStaged ch buf len s = .next t) :
    Delivered ch (min (s.params.len len) (s.stg.get ch).length) s t := by
  obtain ⟨-, rfl⟩ := takeStaged_eq_next.mp h
  exact ⟨rfl, Nat.min_le_right _ _, perRx_get_set _ _ _⟩

/-- A receive run at once delivers staged bytes, or reports nothing (R126 step 3). -/
theorem submitRecv_events {ch : RxCh} {buf len : Nat} (h : submitRecv ch buf len s = .next t) :
    t.events = s.events ∨ s.stg.get ch ≠ [] ∧ ∃ count, Delivered ch count s t := by
  rcases submitRecv_cases h with ⟨hs, u, hu, rfl⟩ | ⟨-, u, hu, rfl⟩
  · obtain ⟨hevents, hle, hempty⟩ := takeStaged_delivered hu
    exact .inr ⟨hs, _, hevents, hle, hempty⟩
  · exact .inl (events_of_reports (s := maskSource (rxSource ch) s) (t := u) (recordRecv_reports hu))

/-- Of the commands only a receive that finds staged bytes reports, once (R211). -/
theorem command_events {p : Params} {i : Instr} {w : Nat} (he : encode p i = .cmd w) (h : exec i s = .next t) :
    t.events = s.events ∨ ∃ ch, s.stg.get ch ≠ [] ∧ ∃ count, Delivered ch count s t := by
  rcases command_cases he h with ⟨-, rfl⟩ | ⟨v, rfl⟩ | ⟨_, _, _, u, hu, rfl⟩ | ⟨ch, _, _, u, hu, rfl⟩ | ⟨v, _, rfl⟩
    | ⟨_, _, rfl⟩ | rfl | ⟨bs, rfl⟩ | ⟨n, a, hput⟩
  · exact .inl rfl
  · exact .inl rfl
  · exact .inl (events_of_reports (t := u) (submitSend_reports hu))
  · rcases submitRecv_events hu with ht | ⟨hs, count, hevents, hle, hempty⟩
    · exact .inl ht
    · exact .inr ⟨ch, hs, count, hevents, hle, hempty⟩
  · exact .inl rfl
  · exact .inl rfl
  · exact .inl rfl
  · obtain ⟨_, _, _, _, _, _, _, _, hb⟩ := putBytes_frame bs s
    rw [respondPut, hb]
    exact .inl rfl
  · obtain ⟨_, _, _, _, _, _, _, _, _, rfl⟩ := putString_frame hput
    exact .inl rfl

/-- Of the elementary updates only the staged branch of a receive, at its micro-step 3, reports (R126 step 3a). -/
theorem MicroEffect.events {c : InProgress} (hc : s.cmd = some c) (h : MicroEffect c s u) :
    u.events = s.events ∨ ∃ ch, FoundStaged ch s ∧ ∃ count, Delivered ch count s u := by
  cases h with
  | fill ch => exact .inl (events_of_reports ((finishFill_reports ch _ _).trans (freshTx_reports ch s)))
  | takeStaged ch _ _ _ hi ha hs h =>
    exact .inr ⟨ch, ⟨c, hc, ha, hs, by rw [receivingChannel, hi]; rfl⟩, _, takeStaged_delivered h⟩
  | recordRecv _ _ _ _ h => exact .inl (events_of_reports (recordRecv_reports h))
  | enqueue b => exact .inl (events_of_reports (enqueue_reports b s))
  | _ => exact .inl rfl

theorem fgStep_events (hh : s.inHandler = false) (h : fgStep s = .next t) : EventStep s t := by
  obtain ⟨-, c, hc, hm⟩ := fgStep_eq_next.mp h
  cases microStep_result hm with
  | goesOn u d he _ =>
    rcases he.events hc with ht | ⟨ch, hfound, count, hevents, hle, hempty⟩
    · exact .silent ht
    · exact .delivered ch count hh ⟨hevents, hle, hempty⟩ (.inr hfound)
  | responds v => exact .silent rfl
  | fatal cause info => exact .silent rfl

theorem runCommand_events {w : Nat} (hh : s.inHandler = false) (h : runCommand w s = .next t) : EventStep s t := by
  rcases runCommand_cases h with ⟨i, hd, h⟩ | ⟨op, -, rfl⟩
  · obtain ⟨w', he⟩ := decoded_isCommand hd
    rcases command_events he h with ht | ⟨ch, hs, count, hd⟩
    · exact .silent ht
    · exact .delivered ch count hh hd (.inl hs)
  · exact .silent rfl

/-! ## Steps -/

theorem startInvocation_events (h : startInvocation s = .next t) : t.events = s.events := by
  obtain ⟨-, rfl⟩ := startInvocation_cases h
  rfl

theorem issueCommand_events {w : Nat} (h : issueCommand w s = .next t) : t.events = s.events := by
  obtain ⟨-, ⟨i, -, rfl⟩ | ⟨op, rfl⟩⟩ := issueCommand_cases h <;> rfl

/-- A move of the environment reports nothing: the event port is the block's. -/
theorem ifEnabled_events {enabled : Bool} {move : String} (h : ifEnabled enabled move u = .next t)
    (hu : u.events = s.events) : EventStep s t := by
  obtain ⟨-, rfl⟩ := ifEnabled_eq_next.mp h
  exact .silent hu

theorem takeInput_events {m : Input} (hm : m ≠ .hardReset) (hh : s.inHandler = false) (h : takeInput m s = .next t) :
    EventStep s t := by
  cases m with
  | command w => exact runCommand_events hh h
  | issue w => exact .silent (issueCommand_events h)
  | fg => exact fgStep_events hh h
  | irq => exact .silent (startInvocation_events h)
  | txSent ch => exact ifEnabled_events h rfl
  | rxData ch bytes => exact ifEnabled_events h rfl
  | rxSetup bytes => exact ifEnabled_events h rfl
  | busReset =>
    cases h
    exact .silent rfl
  | diagSent => exact ifEnabled_events h rfl
  | spurious => exact ifEnabled_events h rfl
  | openRaise bits => exact ifEnabled_events h rfl
  | hostWrite a bytes =>
    obtain ⟨-, -, rfl⟩ := hostWrite_eq_next.mp h
    exact .silent rfl
  | hostRead a n =>
    obtain ⟨-, -, rfl⟩ := hostRead_eq_next.mp h
    exact .silent rfl
  | hardReset => exact absurd rfl hm

theorem idleStep_events (hh : s.inHandler = false) (h : idleStep s = .next t) : EventStep s t := by
  obtain ⟨-, h | ⟨-, h⟩ | ⟨-, h⟩ | rfl⟩ := idleStep_cases h
  · exact fgStep_events hh h
  · exact .silent (startInvocation_events h)
  · exact ifEnabled_events h rfl
  · exact .silent rfl

/-- Taking the move off the script bears on no report. -/
theorem EventStep.of_popped {rest : List Input} (h : EventStep { s with script := rest } t) : EventStep s t := by
  cases h with
  | silent h => exact .silent h
  | handler hh h => exact .handler hh h
  | delivered ch count hh hd hw => exact .delivered ch count hh ⟨hd.events, hd.count_le, hd.emptied⟩ hw

theorem step_events (hreset : s.inHandler = true ∨ ∀ rest, s.script ≠ .hardReset :: rest) (h : step s = .next t) :
    EventStep s t := by
  rcases step_cases h with ⟨hh, -, ⟨src, -, hs⟩ | ⟨-, rfl⟩⟩ | ⟨hh, m, rest, hscript, hm⟩ | ⟨hh, -, -, hi⟩
  · exact slotStep_events hh hs
  · exact .silent rfl
  · have hne : m ≠ .hardReset := fun he =>
      hreset.elim (fun hh' => Bool.false_ne_true (hh.symm.trans hh')) fun hn => hn rest (he ▸ hscript)
    exact (takeInput_events (s := { s with script := rest }) hne hh hm).of_popped
  · exact idleStep_events hh hi

end Parts

/-- Settles O55: of the ways a step can treat the event port, only the delivery of staged bytes reports outside the handler. -/
theorem foregroundEmitsOnlyStagedCompletions : Obligations.ForegroundEmitsOnlyStagedCompletions := by
  intro s t h hreset
  cases step_events hreset h with
  | silent h => exact .inl h
  | handler hh h =>
    refine h.imp_right fun ⟨e, he, hisr⟩ => ⟨e, he, iff_of_true hisr hh, fun hh' => ?_⟩
    exact absurd (hh.symm.trans hh') (by decide)
  | delivered ch count hh hd hw =>
    refine .inr ⟨_, hd.events, by simp [hh], fun _ => ⟨ch, count, rfl, hd.count_le, hd.emptied, hw, fun hi => ?_⟩⟩
    exact hw.elim id fun hfound => hfound.staged hi

end Sys2Proof.Machine
end

section
/-! PROOFS. The diagnostic ring (41_diag_ring.md): a put as a move of the queue that the ring and the endpoint's hold byte
are, first of one byte in both environments, then of several in the reference environment, where what fits is known
beforehand; and from these the DIAG commands, ISR.DIAG_TX and a run of DIAG_PUTB. -/

namespace Sys2Proof.Machine

/-! ## Moves of the queue -/

/-- From `s` to `t` the bytes came behind those held, and none left. -/
structure Queues (bs : List Byte) (s t : State) : Prop where
  bytes : ringBytes t = ringBytes s ++ bs
  hold : t.diagHold = s.diagHold
  ctl : t.diagCtl = s.diagCtl
  stat : t.diagStat = s.diagStat

/-- From `s` to `t` the bytes came behind those held, and the oldest of all went to the endpoint, which is then not ready
(R163, 10_state.md R47). -/
structure Sends (bs : List Byte) (s t : State) : Prop where
  bytes : t.diagHold :: ringBytes t = ringBytes s ++ bs
  ctl : t.diagCtl = s.diagCtl ||| 0x01
  stat : t.diagStat = s.diagStat &&& 0xFE

section Moves

variable {b : Byte} {bs cs : List Byte} {s t u : State}

/-- The enable bits are no part of the queue. -/
theorem Queues.nil (en : Byte) : Queues [] s { s with intEn := en } := ⟨(List.append_nil _).symm, rfl, rfl, rfl⟩

theorem Queues.trans (h : Queues bs s t) (h' : Queues cs t u) : Queues (bs ++ cs) s u :=
  ⟨by rw [h'.bytes, h.bytes, List.append_assoc], h'.hold.trans h.hold, h'.ctl.trans h.ctl, h'.stat.trans h.stat⟩

/-- Bytes queued after the send come behind those it left. -/
theorem Sends.queues (h : Sends bs s t) (h' : Queues cs t u) : Sends (bs ++ cs) s u :=
  ⟨by rw [h'.bytes, h'.hold, ← List.cons_append, h.bytes, List.append_assoc], h'.ctl.trans h.ctl, h'.stat.trans h.stat⟩

theorem Queues.held (h : Queues bs s t) : ringHeld t = ringHeld s + bs.length := by
  simpa using congrArg List.length h.bytes

theorem Sends.held (h : Sends [b] s t) : ringHeld t = ringHeld s := by
  simpa using congrArg List.length h.bytes

theorem Queues.ready (h : Queues bs s t) : diagReady t = diagReady s := by rw [diagReady, h.stat, diagReady]

theorem Sends.notReady (h : Sends bs s t) : diagReady t = false := by
  have hclear : ∀ r : Byte, fieldSet (r &&& 0xFE) readyBit = false := by decide +kernel
  rw [diagReady, h.stat, hclear]

/-! ## One byte -/

theorem freshReady_held (s : State) : ringHeld (freshReady s) = ringHeld s := by simp [ringHeld]

theorem freshReady_bytes (s : State) : ringBytes (freshReady s) = ringBytes s := by simp [ringBytes, freshReady_held]

theorem ring_full_of_le (h : 127 ≤ ringHeld s) : ringHeld s = 127 :=
  Nat.le_antisymm (Nat.le_of_lt_succ (ringHeld_lt s)) h

theorem putByte_ok (h : ringHeld s < 127) : (putByte b s).1 = true := by rw [putByte_room b h]

/-- With the endpoint read as not ready a byte put on a ring with room is queued (R162, R163). -/
theorem putByte_queues (h : ringHeld s < 127) (hr : diagReady (freshReady s) = false) :
    Queues [b] (freshReady s) (putByte b s).2 := by
  rw [putByte_room b h, drainIfReady_notReady (s := appendByte b (freshReady s)) hr]
  exact ⟨appendByte_bytes b (by rwa [freshReady_held]), rfl, rfl, rfl⟩

/-- With the endpoint read as ready a byte put on a ring with room is queued, and the oldest leaves: the ring holds at
least that byte when the endpoint is asked (R162, R163). -/
theorem putByte_sends (h : ringHeld s < 127) (hr : diagReady (freshReady s) = true) :
    Sends [b] (freshReady s) (putByte b s).2 := by
  have hroom : ringHeld (freshReady s) < 127 := by rwa [freshReady_held]
  have hsome : (appendByte b (freshReady s)).ringRead ≠ (appendByte b (freshReady s)).ringWrite := fun e => by
    have := (ring_empty_iff _).mp e
    rw [appendByte_held b hroom] at this
    omega
  rw [putByte_room b h]
  refine ⟨(drainIfReady_bytes hsome hr).trans (appendByte_bytes b hroom), ?_, ?_⟩ <;>
    rw [drainIfReady_ready hsome hr] <;> rfl

theorem putByte_keeps (b : Byte) (s : State) :
    (putByte b s).2.params = s.params ∧ (putByte b s).2.mem = s.mem ∧ (putByte b s).2.noMem = s.noMem
      ∧ (putByte b s).2.openEnv = s.openEnv := by
  obtain ⟨_, _, _, _, _, _, _, h, -⟩ := putByte_frame b s
  rw [h]
  exact ⟨rfl, rfl, rfl, rfl⟩

theorem putByte_reference (b : Byte) (he : s.openEnv = false) : (putByte b s).2.openEnv = false := by
  obtain ⟨-, -, -, henv⟩ := putByte_keeps b s
  rw [henv, he]

/-! ## Bytes put one by one -/

theorem putBytes_cons_of_put (h : (putByte b s).1 = true) : putBytes (b :: bs) s = putBytes bs (putByte b s).2 := by
  rw [putBytes, if_pos h]

theorem putBytes_singleton (b : Byte) (s : State) : putBytes [b] s = putByte b s := by
  rw [putBytes]
  split
  · rename_i hput
    exact Prod.ext hput.symm rfl
  · rfl

/-- On a full ring the first put fails, and only the enable bit changes (R165). -/
theorem putBytes_full (h : ringHeld s = 127) (hne : bs ≠ []) :
    putBytes bs s = (false, { s with intEn := s.intEn ||| 0x10 }) := by
  obtain ⟨b, bs, rfl⟩ := List.exists_cons_of_ne_nil hne
  simp only [putBytes, putByte_full b h, Bool.false_eq_true, if_false]

/-- How many bytes can be put: the places left up to 127, and one more where the first put lets a byte leave (R162, R163). -/
def ringRoom (s : State) : Nat := (if diagReady s = true ∧ ringHeld s < 127 then 128 else 127) - ringHeld s

theorem ringRoom_notReady (hr : diagReady s = false) : ringRoom s = 127 - ringHeld s := by simp [ringRoom, hr]

theorem ringRoom_ready (hr : diagReady s = true) (h : ringHeld s < 127) : ringRoom s = 128 - ringHeld s := by
  simp [ringRoom, hr, h]

theorem ringRoom_full (h : ringHeld s = 127) : ringRoom s = 0 := by simp [ringRoom, h]

/-- While the endpoint is not ready, the bytes that fit are queued and the next put fails. -/
theorem putBytes_notReady (he : s.openEnv = false) (hr : diagReady s = false) :
    (putBytes bs s).1 = decide (bs.length ≤ 127 - ringHeld s) ∧ Queues (bs.take (127 - ringHeld s)) s (putBytes bs s).2 := by
  induction bs generalizing s with
  | nil => exact ⟨by simp [putBytes], by rw [List.take_nil]; exact .nil s.intEn⟩
  | cons b bs ih =>
    rcases Nat.lt_or_ge (ringHeld s) 127 with h | h
    · have hput := putByte_queues (b := b) h (by rwa [freshReady_of_reference he])
      rw [freshReady_of_reference he] at hput
      obtain ⟨hok, hqueues⟩ := ih (putByte_reference b he) (hput.ready.trans hr)
      obtain ⟨room, hroom⟩ : ∃ room, 127 - ringHeld s = room + 1 := ⟨126 - ringHeld s, by omega⟩
      have hrest : 127 - ringHeld (putByte b s).2 = room := by
        rw [hput.held, List.length_singleton]
        omega
      rw [putBytes_cons_of_put (putByte_ok h), hok, hrest, hroom]
      rw [hrest] at hqueues
      exact ⟨by simp, hput.trans hqueues⟩
    · have h := ring_full_of_le h
      rw [putBytes_full h (List.cons_ne_nil b bs), h]
      exact ⟨by simp, .nil _⟩

/-- With the endpoint ready and room in the ring, the first put lets the oldest byte leave, and the others find the endpoint
not ready. -/
theorem putBytes_ready (he : s.openEnv = false) (hr : diagReady s = true) (h : ringHeld s < 127) :
    (putBytes (b :: bs) s).1 = decide (bs.length ≤ 127 - ringHeld s)
      ∧ Sends (b :: bs.take (127 - ringHeld s)) s (putBytes (b :: bs) s).2 := by
  have hput := putByte_sends (b := b) h (by rwa [freshReady_of_reference he])
  rw [freshReady_of_reference he] at hput
  obtain ⟨hok, hqueues⟩ := putBytes_notReady (bs := bs) (putByte_reference b he) hput.notReady
  rw [hput.held] at hok hqueues
  rw [putBytes_cons_of_put (putByte_ok h)]
  exact ⟨hok, hput.queues hqueues⟩

/-- Every byte was put exactly when all fit. -/
theorem putBytes_ok (he : s.openEnv = false) : (putBytes bs s).1 = decide (bs.length ≤ ringRoom s) := by
  cases hr : diagReady s with
  | false => rw [(putBytes_notReady he hr).1, ringRoom_notReady hr]
  | true =>
    cases bs with
    | nil => simp [putBytes]
    | cons b bs =>
      rcases Nat.lt_or_ge (ringHeld s) 127 with h | h
      · rw [(putBytes_ready he hr h).1, ringRoom_ready hr h, List.length_cons]
        exact decide_eq_decide.mpr (by omega)
      · have h := ring_full_of_le h
        rw [putBytes_full h (List.cons_ne_nil b bs), ringRoom_full h]
        simp

/-- No byte leaves while the endpoint is not ready, from a full ring, or where none is put. -/
theorem putBytes_queues (he : s.openEnv = false) (h : diagReady s = false ∨ ringHeld s = 127 ∨ bs = []) :
    Queues (bs.take (ringRoom s)) s (putBytes bs s).2 := by
  rcases h with hr | h | rfl
  · rw [ringRoom_notReady hr]
    exact (putBytes_notReady he hr).2
  · rw [ringRoom_full h, List.take_zero]
    cases bs with
    | nil => exact .nil s.intEn
    | cons b bs =>
      rw [putBytes_full h (List.cons_ne_nil b bs)]
      exact .nil _
  · rw [List.take_nil]
    exact .nil s.intEn

/-- One byte leaves with the endpoint ready, room in the ring and a byte to put. -/
theorem putBytes_sends (he : s.openEnv = false) (hr : diagReady s = true) (h : ringHeld s < 127) (hne : bs ≠ []) :
    Sends (bs.take (ringRoom s)) s (putBytes bs s).2 := by
  obtain ⟨b, bs, rfl⟩ := List.exists_cons_of_ne_nil hne
  rw [ringRoom_ready hr h, show 128 - ringHeld s = 127 - ringHeld s + 1 by omega]
  exact (putBytes_ready he hr h).2

/-! ## The string of DIAG_PUTS -/

theorem readBytes_take (p : Params) (m : Memory) (a n k : Nat) :
    (readBytes p m a n).take k = readBytes p m a (min n k) := by
  induction n generalizing a k with
  | zero => simp [readBytes]
  | succ n ih =>
    cases k with
    | zero => simp [readBytes]
    | succ k => rw [readBytes, List.take_succ_cons, ih, Nat.add_min_add_right, readBytes]

/-- DIAG_PUTS puts the bytes of its buffer if every byte it comes to has memory behind it: it comes to one once those
before it were put (R166). -/
theorem putString_eq_putBytes {n a : Nat}
    (h : ∀ j < n, (putBytes (readBytes s.params s.mem a j) s).1 = true → hasMemory s.params s.noMem (a + j) = true) :
    putString n a s = .next (respondPut (putBytes (readBytes s.params s.mem a n) s)) := by
  induction n generalizing a s with
  | zero => rfl
  | succ n ih =>
    have hhere : hasMemory s.params s.noMem a = true := h 0 n.succ_pos rfl
    rw [putString_of_present hhere, readBytes, putBytes]
    by_cases hput : (putByte (memRead s.params s.mem a) s).1 = true
    · obtain ⟨hparams, hmem, hnoMem, -⟩ := putByte_keeps (memRead s.params s.mem a) s
      rw [if_pos hput, if_pos hput, ih, hparams, hmem]
      intro j hj hok
      rw [hparams, hmem, ← putBytes_cons_of_put hput] at hok
      rw [hparams, hnoMem, Nat.add_assoc, Nat.add_comm 1 j]
      exact h (j + 1) (Nat.succ_lt_succ hj) hok
    · rw [if_neg hput, if_neg hput, respondPut, Bool.eq_false_iff.mpr hput]

/-! ## The commands -/

theorem exec_diagPutb (ha : acceptsCommand s = true) : exec (.diagPutb b) s = .next (respondPut (putByte b s)) := by
  rw [exec, execDiagPutb, asCommand_of_accepts ha]

/-- A response of a command that was taken: no command is in progress before it, and none after. -/
theorem respond_of_accepts (v : Bool) (ha : acceptsCommand s = true) :
    respond v s = { s with responses := s.responses ++ [respWord v] } := by
  obtain ⟨-, -, hc⟩ := (acceptsCommand_iff s).mp ha
  rw [respond, ← hc]

/-- The answer of a DIAG_PUT command on a full ring. -/
theorem respondPut_full (ha : acceptsCommand s = true) :
    respondPut (false, { s with intEn := s.intEn ||| 0x10 }) =
      { s with intEn := s.intEn ||| 0x10, responses := s.responses ++ [0x00] } :=
  respond_of_accepts (s := { s with intEn := s.intEn ||| 0x10 }) false ha

theorem respondPut_putBytes_responses (bs : List Byte) (s : State) :
    (respondPut (putBytes bs s)).responses = s.responses ++ [respWord (putBytes bs s).1] := by
  obtain ⟨_, _, _, _, _, _, _, _, h⟩ := putBytes_frame bs s
  rw [respondPut, h, respond_responses]

theorem respondPut_putByte_responses (b : Byte) (s : State) :
    (respondPut (putByte b s)).responses = s.responses ++ [respWord (putByte b s).1] := by
  rw [← putBytes_singleton, respondPut_putBytes_responses]

/-- The response reaches neither the ring nor the endpoint. -/
theorem Queues.respondPut {r : Bool × State} (h : Queues bs s r.2) : Queues bs s (respondPut r) :=
  ⟨h.bytes, h.hold, h.ctl, h.stat⟩

theorem Sends.respondPut {r : Bool × State} (h : Sends bs s r.2) : Sends bs s (respondPut r) := ⟨h.bytes, h.ctl, h.stat⟩

end Moves

/-- Settles O30: the routine zeroes the indices, and the response is TRUE. -/
theorem diagInitEmptiesTheRing : Obligations.DiagInitEmptiesTheRing := by
  intro s ha
  have hclear : acceptsCommand (clearRing s) = true := ha
  rw [exec, execDiagInit, asCommand_of_accepts ha, respond_of_accepts true hclear]
  rfl

/-- Settles O32: the put of a full ring, with the response FALSE. -/
theorem putByteOnFullRingFails : Obligations.PutByteOnFullRingFails := by
  intro b s ha h
  rw [exec_diagPutb ha, putByte_full b h, respondPut_full ha]

/-- Settles O31: the put of a ring with room, by what READY answers. -/
theorem putByteQueuesInOrder : Obligations.PutByteQueuesInOrder := by
  rintro b s _ ha h rfl
  refine ⟨_, exec_diagPutb ha, ?_, ?_, fun hr => ?_, fun hr => ?_⟩
  · rw [respondPut_putByte_responses, putByte_ok h]
    rfl
  · rw [putByte_room b h]
    rfl
  · obtain ⟨hbytes, hhold, hctl, hstat⟩ := (putByte_queues (b := b) h hr).respondPut
    exact ⟨hbytes.trans (by rw [freshReady_bytes]), hhold.trans (freshReady_diagHold s), hctl.trans (freshReady_diagCtl s),
      hstat⟩
  · obtain ⟨hbytes, hctl, hstat⟩ := (putByte_sends (b := b) h hr).respondPut
    exact ⟨hbytes.trans (by rw [freshReady_bytes]), hctl.trans (by rw [freshReady_diagCtl]), hstat⟩

/-- Settles O33: both commands put two bytes one by one. -/
theorem twoByteHelpersQueueWhatFits : Obligations.TwoByteHelpersQueueWhatFits := by
  intro s i bytes ha he hi
  obtain ⟨hexec, hlen⟩ : exec i s = .next (respondPut (putBytes bytes s)) ∧ bytes.length = 2 := by
    rcases hi with ⟨b, rfl, rfl⟩ | ⟨v, rfl, rfl⟩
    · exact ⟨by rw [exec, execDiagPuthex8, asCommand_of_accepts ha, hexBytes], rfl⟩
    · exact ⟨by rw [exec, execDiagPut16, asCommand_of_accepts ha, lowHighBytes], rfl⟩
  have hne : bytes ≠ [] := List.ne_nil_of_length_eq_add_one hlen
  refine ⟨fun hr => ⟨_, hexec, ?_⟩, fun hr h => ⟨_, hexec, ?_⟩, fun h => ?_⟩
  · obtain ⟨hok, hqueues⟩ := putBytes_notReady (bs := bytes) he hr
    obtain ⟨hbytes, hhold, hctl, hstat⟩ := hqueues.respondPut
    have hfit : bytes.length ≤ 127 - ringHeld s ↔ ringHeld s + 2 ≤ 127 := by omega
    exact ⟨hbytes, by rw [respondPut_putBytes_responses, hok, decide_eq_decide.mpr hfit], hhold, hctl, hstat⟩
  · have hfit : bytes.length ≤ ringRoom s := by
      rw [ringRoom_ready hr h]
      omega
    have hsends := putBytes_sends he hr h hne
    rw [List.take_of_length_le hfit] at hsends
    obtain ⟨hbytes, hctl, hstat⟩ := hsends.respondPut
    refine ⟨hbytes, ?_, hctl, hstat⟩
    rw [respondPut_putBytes_responses, putBytes_ok he, decide_eq_true hfit]
    rfl
  · rw [hexec, putBytes_full h hne, respondPut_full ha]

/-- Settles O34: DIAG_PUTS puts the bytes of its buffer one by one, and comes at most to the one behind those that fit. -/
theorem putStringQueuesWhatFits : Obligations.PutStringQueuesWhatFits := by
  intro buf len s room ha he hroom hmem
  have hroom : room = ringRoom s := hroom
  subst hroom
  have hreached : ∀ j < s.params.len len, (putBytes (readBytes s.params s.mem buf j) s).1 = true →
      hasMemory s.params s.noMem (buf + j) = true := fun j hj hok => by
    rw [putBytes_ok he, readBytes_length, decide_eq_true_iff] at hok
    exact hmem j (by omega)
  have hexec : exec (.diagPuts buf len) s =
      .next (respondPut (putBytes (readBytes s.params s.mem buf (s.params.len len)) s)) :=
    (asCommand_of_accepts ha _).trans (putString_eq_putBytes hreached)
  have hnil : ∀ n, readBytes s.params s.mem buf n = [] ↔ n = 0 := fun n => by
    rw [← List.length_eq_zero_iff, readBytes_length]
  refine ⟨_, hexec, ?_, fun h => ?_, fun hr h hlen => ?_⟩
  · rw [respondPut_putBytes_responses, putBytes_ok he, readBytes_length]
  · have hqueues := putBytes_queues he (h.imp_right (Or.imp_right (hnil _).mpr))
    rw [readBytes_take] at hqueues
    obtain ⟨hbytes, hhold, hctl, hstat⟩ := hqueues.respondPut
    exact ⟨hbytes, hhold, hctl, hstat⟩
  · have hsends := putBytes_sends he hr h (mt (hnil _).mp hlen)
    rw [readBytes_take] at hsends
    obtain ⟨hbytes, hctl, hstat⟩ := hsends.respondPut
    exact ⟨hbytes, hctl, hstat⟩

/-! ## DIAG_PUTB in a row -/

/-- The scheduled word of a DIAG_PUTB is decoded and run at once (20_memory.md R79). -/
theorem step_diagPutb {b : Byte} {l : List Input} {s : State} (ha : acceptsCommand s = true)
    (hs : s.script = .command (cmdWord s.params opDiagPutb b 0 0) :: l) :
    step s = .next (respondPut (putByte b { s with script := l })) := by
  obtain ⟨-, hh, -⟩ := (acceptsCommand_iff s).mp ha
  have hd : decodeCmd s.params (cmdWord s.params opDiagPutb b 0 0) = .ok (.diagPutb b) := by
    rw [decodeCmd_diagPutb (cmdOp_cmdWord ..), cmdA_cmdWord]
  rw [step_of_script hh hs, takeInput, runCommand, hd]
  exact exec_diagPutb (s := { s with script := l }) ha

/-- What a DIAG_PUTB leaves for the next command: the block takes it, under the same parameters and schedule. -/
theorem respondPut_putByte_frame (b : Byte) {s : State} (ha : acceptsCommand s = true) :
    acceptsCommand (respondPut (putByte b s)) = true ∧ (respondPut (putByte b s)).params = s.params
      ∧ (respondPut (putByte b s)).script = s.script ∧ (respondPut (putByte b s)).openEnv = s.openEnv := by
  obtain ⟨hf, hh, -⟩ := (acceptsCommand_iff s).mp ha
  obtain ⟨_, _, _, _, _, _, _, h, -⟩ := putByte_frame b s
  rw [respondPut, h]
  exact ⟨(acceptsCommand_iff _).mpr ⟨hf, hh, rfl⟩, rfl, rfl, rfl⟩

/-- While the endpoint is not ready, one byte is queued if it fits. -/
theorem respondPut_putByte_notReady (b : Byte) {s : State} (he : s.openEnv = false) (hr : diagReady s = false) :
    (respondPut (putByte b s)).responses = s.responses ++ [respWord (ringHeld s < 127)]
      ∧ Queues ([b].take (127 - ringHeld s)) s (respondPut (putByte b s)) := by
  obtain ⟨hok, hqueues⟩ := putBytes_notReady (bs := [b]) he hr
  rw [putBytes_singleton] at hok hqueues
  have hfit : [b].length ≤ 127 - ringHeld s ↔ ringHeld s < 127 := by
    rw [List.length_singleton]
    omega
  exact ⟨by rw [respondPut_putByte_responses, hok, decide_eq_decide.mpr hfit], hqueues.respondPut⟩

/-- The step of a scheduled DIAG_PUTB while no byte leaves. -/
theorem step_diagPutb_notReady {b : Byte} {l : List Input} {s : State} (ha : acceptsCommand s = true)
    (he : s.openEnv = false) (hr : diagReady s = false)
    (hs : s.script = .command (cmdWord s.params opDiagPutb b 0 0) :: l) :
    ∃ u, step s = .next u ∧ acceptsCommand u = true ∧ u.params = s.params ∧ u.script = l ∧ u.openEnv = false
      ∧ u.responses = s.responses ++ [respWord (ringHeld s < 127)] ∧ Queues ([b].take (127 - ringHeld s)) s u := by
  obtain ⟨hu, hparams, hscript, henv⟩ := respondPut_putByte_frame b (s := { s with script := l }) ha
  obtain ⟨hresp, hqueues⟩ := respondPut_putByte_notReady b (s := { s with script := l }) he hr
  obtain ⟨hbytes, hhold, hctl, hstat⟩ := hqueues
  exact ⟨_, step_diagPutb ha hs, hu, hparams, hscript, henv.trans he, hresp, hbytes, hhold, hctl, hstat⟩

/-- Settles O36, by induction on the bytes: each step queues its byte if it fits, and what fits of the others is counted
from there. -/
theorem ringCapacityLaw : Obligations.RingCapacityLaw := by
  intro bs rest s ha he hr hs
  induction bs generalizing s with
  | nil => exact ⟨s, rfl, hs, by simp, by simp⟩
  | cons b bs ih =>
    rw [List.map_cons, List.cons_append] at hs
    obtain ⟨u, hstep, hu, hparams, hscript, henv, hresp, hqueues⟩ := step_diagPutb_notReady ha he hr hs
    have hheld : ringHeld u = ringHeld s + min (127 - ringHeld s) 1 := by
      rw [hqueues.held, List.length_take, List.length_singleton]
    obtain ⟨t, hrun, hrest, hresps, hbytes⟩ := ih u hu henv (hqueues.ready.trans hr) (by rw [hscript, hparams])
    refine ⟨t, (run_succ hstep).trans hrun, hrest, ?_, ?_⟩
    · have hlater : ∀ i, decide (ringHeld u + i < 127) = decide (ringHeld s + (i + 1) < 127) := fun i =>
        decide_eq_decide.mpr (by omega)
      simp only [hresps, hresp, hlater, List.length_cons, List.range_succ_eq_map, List.map_cons, List.map_map,
        List.append_assoc, List.singleton_append, Nat.add_zero]
      rfl
    · have hroom : 127 - ringHeld u = 127 - ringHeld s - [b].length := by
        rw [hheld, List.length_singleton]
        omega
      rw [hbytes, hqueues.bytes, hroom, List.append_assoc, ← List.take_append, List.singleton_append]

/-- Settles O37: DRAIN_ONE on the state as READY is read. -/
theorem diagTxDrainsOneByte : Obligations.DiagTxDrainsOneByte := by
  refine ⟨by decide, rfl, ?_⟩
  rintro s _ hf rfl
  rw [exec, execIsrDiagTx, unlessFatal_of_running hf]
  simp only [drainOne, drainIfReady, freshReady_ringRead, freshReady_ringWrite, freshReady_ringData, freshReady_diagCtl]
  rfl

end Sys2Proof.Machine
end

section
/-! PROOFS. The source bitmap, its slots, and the interrupt request (42_irq_dispatch.md R180 to R185). -/

namespace Sys2Proof

/-! ## The route of a bitmap -/

/-- The mask of a source selects that source alone (R96). -/
theorem routeSources_mask (src : Source) : routeSources src.mask = [src] := by cases src <;> rfl

theorem encode_instr (p : Params) (src : Source) : encode p src.instr = .src src.mask := by cases src <;> rfl

/-- The word of a source's operation is its mask, which selects the source back. -/
theorem source_instr_injective : Function.Injective Source.instr := by
  intro a b h
  have hmask : a.mask = b.mask := by simpa [encode_instr] using congrArg (encode Params.default) h
  simpa [routeSources_mask] using congrArg routeSources hmask

theorem mem_route (src : Source) (b : Byte) : src.instr ∈ route b ↔ b &&& src.mask ≠ 0 := by
  rw [route, List.mem_map_of_injective source_instr_injective, mem_routeSources]

/-- Bits 5 and 6 are no source's (R185). -/
theorem selectedIn_srcBits (src : Source) (b : Byte) : src.selectedIn (b &&& Machine.srcBits) = src.selectedIn b := by
  have hmask : Machine.srcBits &&& src.mask = src.mask := by cases src <;> rfl
  rw [Source.selectedIn, BitVec.and_assoc, hmask, Source.selectedIn]

theorem route_srcBits (b : Byte) : route (b &&& Machine.srcBits) = route b := by
  simp only [route, routeSources, selectedIn_srcBits]

theorem route_sublist (b : Byte) : (route b).Sublist (slotOrder.map Source.instr) :=
  List.filter_sublist.map Source.instr

/-- Settles O7: the route filters the slot order by the bits of the bitmap. -/
theorem routeIsTheSlotOrder : Obligations.RouteIsTheSlotOrder := fun b =>
  ⟨fun src => mem_route src b, route_srcBits b, route_sublist b⟩

theorem decodeSrc_mask (src : Source) : decodeSrc src.mask = .ok src.instr := by
  rw [decodeSrc, route, routeSources_mask, List.map_singleton]

end Sys2Proof

namespace Sys2Proof.Machine

/-! ## The step of a slot -/

theorem slotStep_of_latched {src : Source} {s : State} (h : s.latched &&& src.mask ≠ 0) :
    slotStep src s = andThen (exec src.instr s) fun t => .next (leaveSlot src t) := if_pos h

theorem slotStep_of_notLatched {src : Source} {s : State} (h : s.latched &&& src.mask = 0) :
    slotStep src s = .next (leaveSlot src s) := if_neg (not_not_intro h)

/-- Settles O2: the step at a slot is `slotStep`, which branches on the slot's bit of B. -/
theorem stepRunsTheSlotOperation : Obligations.StepRunsTheSlotOperation := by
  intro src s hh hf hs
  have hstep : step s = slotStep src s := step_of_atSlot ⟨hh, hf, hs⟩
  exact ⟨decodeSrc_mask src, fun hl => hstep.trans (slotStep_of_latched hl),
    fun hl => hstep.trans (slotStep_of_notLatched hl)⟩

/-! ## The request -/

theorem fieldSet_iff (r mask : Byte) : fieldSet r mask = true ↔ r &&& mask ≠ 0 := bne_iff_ne

/-- The step takes a scheduled invocation exactly where one is enabled, and leaves handler entry (R180, R181). -/
theorem step_irq_eq_next {rest : List Input} {s t : State} (hh : s.inHandler = false) (hs : s.script = .irq :: rest) :
    step s = .next t ↔ irqEnabled s = true ∧ t = handlerEntry false { s with script := rest } := by
  rw [step_of_script hh hs, takeInput]
  constructor
  · exact startInvocation_cases
  · rintro ⟨he, rfl⟩
    exact startInvocation_of_enabled he

/-- Settles O46: the request line is the five conditions, and a scheduled invocation waits for nothing else. -/
theorem invocationStartsExactlyWhenRequested : Obligations.InvocationStartsExactlyWhenRequested := by
  intro s
  refine ⟨?_, fun rest hh hs => ⟨?_, fun t ht => ?_⟩⟩
  · rw [irqEnabled_iff, fieldSet_iff, fieldSet_iff]
    rfl
  · simp only [step_irq_eq_next hh hs, exists_and_left, exists_eq, and_true]
  · obtain ⟨-, rfl⟩ := (step_irq_eq_next hh hs).mp ht
    rfl

end Sys2Proof.Machine
end

section
/-! PROOFS. The foreground request API (43_foreground_api.md R200 to R216): where the BUS_RESET and SETUP_RECEIVED events come
from, when a command is taken, and what INIT, OPEN_EP, a generic SUBMIT_XFER and the commands without effect leave. -/

namespace Sys2Proof.Machine

/-! ## Events of the handler -/

/-- What the handler operation of a source can report (R212 to R214). -/
inductive IsrReport (src : Source) : Event → Prop where
  | busReset (hsrc : src = .busReset) : IsrReport src { kind := .busReset, fromIsr := true }
  | setupReceived (hsrc : src = .ctrlRx) (bytes : List Byte) (hlen : bytes.length = 8) :
      IsrReport src { kind := .setupReceived bytes, fromIsr := true }
  | xferComplete (epa : Byte) (count : Nat) : IsrReport src { kind := .xferComplete epa count, fromIsr := true }

/-- No event, or one the source reports. -/
def IsrReports (src : Source) (s t : State) : Prop :=
  t.events = s.events ∨ ∃ e, IsrReport src e ∧ t.events = s.events ++ [e]

section Events

variable {src : Source} {s t : State} {e : Event}

theorem txComplete_isrReports (src : Source) {ch : TxCh} (h : txComplete ch s = .next t) : IsrReports src s t := by
  rcases txComplete_cases h with ⟨-, rfl⟩ | ⟨-, rfl⟩
  · exact .inl (events_of_reports ((finishFill_reports ch _ _).trans (freshTx_reports ch s)))
  · exact .inr ⟨_, .xferComplete _ _, rfl⟩

theorem rxcData_isrReports (src : Source) {ch : RxCh} (h : rxcData ch s = .next t) : IsrReports src s t := by
  rcases rxcData_cases rfl h with ⟨-, h⟩ | ⟨-, -, rfl⟩ | ⟨-, -, rfl⟩
  · obtain ⟨-, rfl⟩ := drainPending_eq_next.mp h
    exact .inr ⟨_, .xferComplete _ _, congrArg (· ++ _) (freshRx_events s ch)⟩
  · exact .inr ⟨_, .xferComplete _ _, congrArg (· ++ _) (freshRx_events s ch)⟩
  · exact .inl ((freshRx_events _ ch).trans (freshRx_events s ch))

/-- BUS_RESET is reported by ISR.BUS_RESET, SETUP_RECEIVED by the SETUP branch of ISR.CTRL_RX, which reads 8 bytes
(40_endpoint_transfer.md R127, R133). -/
theorem isr_isrReports (h : exec src.instr s = .next t) : IsrReports src s t := by
  rcases isr_cases h with ⟨-, rfl⟩ | ⟨-, -, rfl⟩ | ⟨-, -, h⟩ | ⟨hsrc, -, rfl⟩ | ⟨-, -, h⟩ | ⟨hsrc, rfl⟩ | ⟨-, h⟩ | ⟨-, h⟩
  · obtain ⟨_, _, _, _, _, hd⟩ := drainOne_frame s
    exact .inl (by rw [hd])
  · exact .inl rfl
  · exact txComplete_isrReports src h
  · have he : (freshRx .control (freshSetup s)).events = s.events := by rw [freshRx_events, freshSetup_events]
    rw [receiveSetup_eq, he]
    exact .inr ⟨_, .setupReceived hsrc _ (readControl_spec 8 _).1, rfl⟩
  · have ht := rxcData_isrReports src h
    rwa [IsrReports, freshSetup_events] at ht
  · exact .inr ⟨_, .busReset hsrc, rfl⟩
  · exact rxcData_isrReports src h
  · exact txComplete_isrReports src h

/-- Nothing was reported where the events are those before. -/
theorem not_reported (h : t.events = s.events) : t.events ≠ s.events ++ [e] := by
  rw [h]
  exact fun he => List.cons_ne_nil e [] (List.self_eq_append_right.mp he)

/-- An event that leaves a step of the handler is one that the source at its slot, latched, reports. -/
theorem handler_event_origin (hh : s.inHandler = true) (h : step s = .next t) (he : t.events = s.events ++ [e]) :
    ∃ src, s.slot = some src ∧ s.latched &&& src.mask ≠ 0 ∧ IsrReport src e := by
  rcases step_cases h with ⟨-, -, ⟨src, hslot, hstep⟩ | ⟨-, rfl⟩⟩ | ⟨hout, -⟩ | ⟨hout, -⟩
  · rcases slotStep_cases hstep with ⟨-, rfl⟩ | ⟨hl, u, hu, rfl⟩
    · exact absurd he (not_reported (events_of_reports (leaveSlot_reports src s)))
    · rw [events_of_reports (leaveSlot_reports src u)] at he
      rcases isr_isrReports hu with hsilent | ⟨e', hr, he'⟩
      · exact absurd he (not_reported hsilent)
      · obtain rfl : e' = e := List.singleton_inj.mp (List.append_cancel_left (he'.symm.trans he))
        exact ⟨src, hslot, hl, hr⟩
  · exact absurd he (not_reported rfl)
  · exact absurd (hout.symm.trans hh) Bool.false_ne_true
  · exact absurd (hout.symm.trans hh) Bool.false_ne_true

/-- An event that leaves a step outside the handler is a completion: the reset input empties the port, and of the other steps
only the delivery of staged bytes reports (R214). -/
theorem foreground_event_kind (hh : s.inHandler = false) (h : step s = .next t) (he : t.events = s.events ++ [e]) :
    ∃ epa count, e.kind = .xferComplete epa count := by
  by_cases hreset : ∀ rest, s.script ≠ .hardReset :: rest
  · cases step_events (.inr hreset) h with
    | silent hs => exact absurd he (not_reported hs)
    | handler hin _ => exact absurd (hh.symm.trans hin) Bool.false_ne_true
    | delivered ch count _ hd _ =>
      obtain rfl := List.singleton_inj.mp (List.append_cancel_left (hd.events.symm.trans he))
      exact ⟨_, count, rfl⟩
  · push Not at hreset
    obtain ⟨rest, hscript⟩ := hreset
    rw [step_of_script hh hscript] at h
    cases h
    exact absurd he.symm (List.append_ne_nil_of_right_ne_nil _ (List.cons_ne_nil e []))

/-- The service of the bus reset reports it (40_endpoint_transfer.md R133). -/
theorem busReset_serviced (hh : s.inHandler = true) (hslot : s.slot = some .busReset) (hl : s.latched &&& 0x80 ≠ 0)
    (h : step s = .next t) : t.events = s.events ++ [{ kind := .busReset, fromIsr := true }] := by
  rcases step_cases h with ⟨-, hf, -⟩ | ⟨hout, -⟩ | ⟨hout, -⟩
  · rw [step_of_atSlot ⟨hh, hf, hslot⟩, slotStep_of_latched hl, Source.instr, busResetTouchesControlOnly s hf] at h
    cases h
    rfl
  · exact absurd (hout.symm.trans hh) Bool.false_ne_true
  · exact absurd (hout.symm.trans hh) Bool.false_ne_true

end Events

/-- Settles O54: outside the handler only completions are reported, and inside it the report names its source. -/
theorem eventOrigins : Obligations.EventOrigins := by
  intro s t h
  refine ⟨fun e he => ?_, fun hh hslot hl => busReset_serviced hh hslot hl h⟩
  cases hh : s.inHandler with
  | false =>
    obtain ⟨epa, count, hkind⟩ := foreground_event_kind hh h he
    rw [hkind]
    exact ⟨nofun, fun _ => nofun⟩
  | true =>
    obtain ⟨src, hslot, hl, hr⟩ := handler_event_origin hh h he
    cases hr with
    | busReset hsrc =>
      subst hsrc
      exact ⟨fun _ => ⟨rfl, hslot, hl, rfl⟩, fun _ => nofun⟩
    | setupReceived hsrc bytes hlen =>
      subst hsrc
      refine ⟨nofun, fun bytes' hb => ?_⟩
      cases hb
      exact ⟨rfl, hslot, hl, hlen, rfl⟩
    | xferComplete epa count => exact ⟨nofun, fun _ => nofun⟩

/-! ## Taking a command -/

/-- Every command row runs under the test of R210. -/
theorem exec_eq_asCommand {p : Params} {i : Instr} {w : Nat} (he : encode p i = .cmd w) :
    ∃ k, ∀ s, exec i s = asCommand s k := by
  cases i
  case isrDiagTx | isrCtrlTx | isrCtrlRx | isrBusReset | isrBulkoutRx | isrBulkinTx => cases he
  all_goals exact ⟨_, fun _ => rfl⟩

/-- Settles O18: the three tests of `asCommand`, in their order. -/
theorem commandsAreTakenInTheForeground : Obligations.CommandsAreTakenInTheForeground := by
  intro p i w s he
  obtain ⟨k, hk⟩ := exec_eq_asCommand he
  rw [hk, asCommand]
  refine ⟨fun hf => if_pos hf, fun hf hh => ?_, fun hf hh hc => ?_⟩
  · simp only [hf, hh, Bool.false_eq_true, if_false, if_true]
  · simp only [hf, hh, hc, Bool.false_eq_true, if_false, if_true]

/-! ## Commands that only answer -/

/-- A taken command that is nothing but a response leaves that response alone. -/
theorem asCommand_respond {s : State} (ha : acceptsCommand s = true) (v : Bool) :
    asCommand s (fun s => .next (respond v s)) = .next { s with responses := s.responses ++ [respWord v] } := by
  rw [asCommand_of_accepts ha, respond_of_accepts v ha]

/-- Settles O14: one row each, its opcode and its meaning. -/
theorem noOpCommandsOnlyRespond : Obligations.NoOpCommandsOnlyRespond := by
  intro w i s ha hmem
  simp only [List.mem_cons, List.not_mem_nil, or_false, Prod.mk.injEq] at hmem
  rcases hmem with ⟨hop, rfl⟩ | ⟨hop, rfl⟩ | ⟨hop, rfl⟩ | ⟨hop, rfl⟩ | ⟨hop, rfl⟩
  · exact ⟨decodeCmd_connect hop, asCommand_respond ha true⟩
  · exact ⟨decodeCmd_disconnect hop, asCommand_respond ha true⟩
  · exact ⟨decodeCmd_setAddress hop, asCommand_respond ha true⟩
  · exact ⟨decodeCmd_remoteWakeup hop, asCommand_respond ha true⟩
  · exact ⟨decodeCmd_closeEp hop, asCommand_respond ha true⟩

/-- The supported endpoints are the five recognised addresses (R205, 30_encoding.md R93). -/
theorem supportedEp_iff (p : Params) (epa : Byte) :
    supportedEp p epa = true ↔ epa ∈ [p.epaCtrlOut, p.epaCtrlIn, p.epaBulkIn, p.epaBulkOut, p.epaDiag] := by
  simp only [supportedEp, epRoute, List.mem_cons, List.not_mem_nil, or_false]
  split_ifs <;> simp [*]

/-- Settles O15: the row's word, and the endpoint test as a list of addresses. -/
theorem openEpAnswersSupported : Obligations.OpenEpAnswersSupported := by
  intro epa mps attr s ha
  refine ⟨decodeCmd_openEpWord s.params epa mps attr, ?_⟩
  rw [exec, execOpenEp, asCommand_of_accepts ha, respond_of_accepts _ ha, respWord]
  simp only [supportedEp_iff]

/-- An address outside the four of the transfers is routed to none (30_encoding.md R93). -/
theorem epRoute_unrouted {p : Params} {epa : Byte}
    (h : epa ∉ [p.epaCtrlOut, p.epaCtrlIn, p.epaBulkIn, p.epaBulkOut]) :
    epRoute p epa = some .diag ∨ epRoute p epa = none := by
  simp only [List.mem_cons, List.not_mem_nil, or_false, not_or] at h
  obtain ⟨hctrlOut, hctrlIn, hbulkIn, hbulkOut⟩ := h
  rw [epRoute, if_neg hctrlOut, if_neg hctrlIn, if_neg hbulkIn, if_neg hbulkOut]
  exact ite_eq_or_eq ..

/-- Settles O16: EPA_DIAG and an unrecognised address take the branch that only answers. -/
theorem unroutedSubmitIsFalse : Obligations.UnroutedSubmitIsFalse := by
  intro epa buf len s ha h
  rw [exec, execSubmitXfer, asCommand_of_accepts ha]
  rcases epRoute_unrouted h with hr | hr <;> rw [hr] <;> exact congrArg _ (respond_of_accepts false ha)

/-! ## INIT -/

/-- Closing the gate at step 1 and opening it at step 8 leaves GATE = 1 and the other bits as they were (R200). -/
theorem gate_closed_then_opened (g : Byte) : setField (setField g gateBit false) gateBit true = g ||| 0x01 := by
  revert g
  decide +kernel

/-- INIT as a record over the state it starts from (R200). -/
theorem initSteps_eq (s : State) :
    initSteps s =
      { s with
        txCtx := { control := Ctx.empty, bulkIn := Ctx.empty }
        rxCtx := { control := RecvCtx.empty, bulkOut := RecvCtx.empty }
        busy := { control := false, bulkIn := false }
        stg := { control := [], bulkOut := [] }
        firstTxcDiscard := true
        ctl := { control := 0x04, bulkIn := 0x00, bulkOut := 0x04 }
        spuriousArmed := true
        intEn := 0xDF
        irqGate := s.irqGate ||| 0x01 } := by
  rw [← gate_closed_then_opened]
  rfl

/-- Settles O17: the steps of INIT, then the response TRUE. -/
theorem initConfiguresTheBlock : Obligations.InitConfiguresTheBlock := by
  intro s ha
  have hafter : acceptsCommand (initSteps s) = true := ha
  rw [exec, execInit, asCommand_of_accepts ha, respond_of_accepts true hafter, initSteps_eq]
  rfl

end Sys2Proof.Machine
end

section
/-! PROOFS. The moves of the reference environment (60_exceptions.md R236 to R241): what enables each and what it does. -/

namespace Sys2Proof.Machine

/-! ## Enabling -/

theorem ifEnabled_of_enabled {enabled : Bool} (h : enabled = true) (move : String) (s : State) :
    ifEnabled enabled move s = .next s := if_pos h

/-- A move that is not enabled has no next state. -/
theorem ifEnabled_ne_next {enabled : Bool} (h : enabled ≠ true) (move : String) (s t : State) :
    ifEnabled enabled move s ≠ .next t := fun hn => h (ifEnabled_eq_next.mp hn).1

/-- TXSENT needs a full FIFO or FORCE_TX, and on Control that no spurious completion is owed (R236). -/
theorem txSentEnabled_iff {ch : TxCh} {s : State} (hcap : (s.txq.get ch).length ≤ s.params.txDepth ch) :
    txSentEnabled ch s = true ↔
      ((s.txq.get ch).length = s.params.txDepth ch ∨ s.ctl.get (txChannel ch) &&& 0x01 ≠ 0)
        ∧ (ch = .control → s.spuriousArmed = false) := by
  have hfull : txFull ch s = true ↔ (s.txq.get ch).length = s.params.txDepth ch := by
    rw [txFull, decide_eq_true_iff]
    omega
  have hfirst : (!spuriousFirst ch s) = true ↔ (ch = .control → s.spuriousArmed = false) := by
    cases ch <;> simp [spuriousFirst]
  rw [txSentEnabled, Bool.and_eq_true, Bool.or_eq_true, hfull, hfirst, fieldSet_iff, forceTxBit]

/-- A data packet needs an empty FIFO, no SETUP packet half read, and at most MPS bytes (R237). -/
theorem rxDataEnabled_iff {ch : RxCh} {bytes : List Byte} {s : State} :
    rxDataEnabled ch bytes s = true ↔
      s.rxq.get ch = [] ∧ NoSetup ch s ∧ bytes.length ≤ Config.rxMps ch := by
  have hempty : rxEmpty ch s = true ↔ s.rxq.get ch = [] := List.isEmpty_iff
  have hsetup : (!setupWaiting ch s) = true ↔ NoSetup ch s := by
    cases ch <;> simp [setupWaiting, setupPend, NoSetup]
  rw [rxDataEnabled, Bool.and_eq_true, Bool.and_eq_true, hempty, hsetup, decide_eq_true_iff, and_assoc]

/-! ## The obligations -/

/-- Settles O56: BUSRESET has no condition, the other two are `ifEnabled` on SEND and on the debt. -/
theorem busResetDiagSentAndSpuriousMoves : Obligations.BusResetDiagSentAndSpuriousMoves := by
  intro s
  refine ⟨rfl, fun hsend => ?_, fun hsend => ?_, fun howed => ?_, fun howed => ?_⟩
  · exact ifEnabled_of_enabled hsend "DIAGSENT" (diagSentEffect s)
  · exact ifEnabled_ne_next (Bool.eq_false_iff.mp hsend) "DIAGSENT" (diagSentEffect s)
  · exact ifEnabled_of_enabled howed "SPURIOUS" (spuriousEffect s)
  · exact ifEnabled_ne_next (Bool.eq_false_iff.mp howed) "SPURIOUS" (spuriousEffect s)

/-- Settles O57: within the capacity of the FIFO, TXFULL says that TXDEPTH bytes are held. -/
theorem txSentMovesOnePacket : Obligations.TxSentMovesOnePacket := by
  intro ch s hcap
  rw [← txSentEnabled_iff hcap]
  exact ⟨fun h => ifEnabled_of_enabled h "TXSENT" (txSentEffect ch s),
    fun h => ifEnabled_ne_next h "TXSENT" (txSentEffect ch s)⟩

/-- Settles O58: the data packet by its condition, the SETUP packet by its length alone. -/
theorem packetsArrive : Obligations.PacketsArrive := by
  refine ⟨fun ch bytes s hempty hsetup hlen => ?_, fun ch bytes s h => ?_, fun bytes s hlen => ?_⟩
  · exact ifEnabled_of_enabled (rxDataEnabled_iff.mpr ⟨hempty, hsetup, hlen⟩) "RXPKT" (rxDataEffect ch bytes s)
  · exact ifEnabled_ne_next (mt rxDataEnabled_iff.mp h) "RXPKT" (rxDataEffect ch bytes s)
  · exact ifEnabled_of_enabled (decide_eq_true hlen) "RXPKT" (rxSetupEffect bytes s)

end Sys2Proof.Machine
end

section
/-! PROOFS. The FATAL state (60_exceptions.md R231): the block's own steps are faults there, the environment does not see
it, and what the block has answered and reported stands until the reset input. -/

namespace Sys2Proof.Machine

/-! ## The block is stuck -/

theorem asCommand_of_fatal {s : State} (hf : s.fatal = true) (k : State → Out) :
    asCommand s k = .fault (.fatalState s.fatalCause s.fatalInfo) := if_pos hf

theorem unlessFatal_of_fatal {s : State} (hf : s.fatal = true) (k : State → Out) :
    unlessFatal s k = .fault (.fatalState s.fatalCause s.fatalInfo) := if_pos hf

/-- A word is a fault whether it encodes a command or not. -/
theorem runCommand_of_fatal {s : State} (hf : s.fatal = true) (w : Nat) :
    runCommand w s = .fault (.fatalState s.fatalCause s.fatalInfo) := by
  rw [runCommand]
  split
  · rename_i i hd
    obtain ⟨_, he⟩ := decoded_isCommand hd
    obtain ⟨hfault, -⟩ := commandsAreTakenInTheForeground _ i _ s he
    exact hfault hf
  · exact asCommand_of_fatal hf _

/-- The moves of the block's own agents, and those that give it a command (20_memory.md R70). -/
theorem takeInput_of_fatal {m : Input} {w : Nat} {s : State} (hf : s.fatal = true)
    (hm : m ∈ [.command w, .issue w, .fg, .irq]) :
    takeInput m s = .fault (.fatalState s.fatalCause s.fatalInfo) := by
  simp only [List.mem_cons, List.not_mem_nil, or_false] at hm
  rcases hm with rfl | rfl | rfl | rfl
  · exact runCommand_of_fatal hf w
  · rw [takeInput, issueCommand, asCommand_of_fatal hf]
  · rw [takeInput, fgStep, unlessFatal_of_fatal hf]
  · rw [takeInput, startInvocation, unlessFatal_of_fatal hf]

/-- The handler and the idle machine go on only outside FATAL. -/
theorem step_of_fatal {s : State} (hf : s.fatal = true) (h : s.inHandler = true ∨ s.script = []) :
    step s = .fault (.fatalState s.fatalCause s.fatalInfo) := by
  cases hh : s.inHandler with
  | true =>
    rw [step_of_inHandler hh]
    exact unlessFatal_of_fatal hf _
  | false =>
    rw [step_of_idle hh (h.resolve_left (Bool.eq_false_iff.mp hh))]
    exact unlessFatal_of_fatal hf _

/-! ## The environment goes on -/

/-- A move whose condition does not read the fatal registers, and whose effect commutes with raising Fatal. -/
theorem ifEnabled_raiseFatal {enabled : Bool} {move : String} {c i : Byte} {s : State} :
    ifEnabled enabled move (raiseFatal c i s) = andThen (ifEnabled enabled move s) fun t => .next (raiseFatal c i t) := by
  cases enabled <;> rfl

theorem takeInput_raiseFatal {m : Input} {ch : TxCh} {rx : RxCh} {bytes : List Byte} {bits : Byte} (c i : Byte) (s : State)
    (hm : m ∈ [.txSent ch, .rxData rx bytes, .rxSetup bytes, .busReset, .diagSent, .spurious, .openRaise bits]) :
    takeInput m (raiseFatal c i s) = andThen (takeInput m s) fun t => .next (raiseFatal c i t) := by
  simp only [List.mem_cons, List.not_mem_nil, or_false] at hm
  rcases hm with rfl | rfl | rfl | rfl | rfl | rfl | rfl
  · exact ifEnabled_raiseFatal (enabled := txSentEnabled ch s) (s := txSentEffect ch s)
  · exact ifEnabled_raiseFatal (enabled := rxDataEnabled rx bytes s) (s := rxDataEffect rx bytes s)
  · exact ifEnabled_raiseFatal (s := rxSetupEffect bytes s)
  · rfl
  · exact ifEnabled_raiseFatal (s := diagSentEffect s)
  · exact ifEnabled_raiseFatal (s := spuriousEffect s)
  · exact ifEnabled_raiseFatal (s := { s with pend := s.pend ||| bits })

/-! ## Only the reset input leaves FATAL -/

/-- What stands in FATAL: the fatal registers and the block's two output ports (R231). -/
def State.fatalRecord (s : State) : Bool × Byte × Byte × List Byte × List Event :=
  (s.fatal, s.fatalCause, s.fatalInfo, s.responses, s.events)

theorem ifEnabled_fatalRecord {enabled : Bool} {move : String} {s t u : State} (h : ifEnabled enabled move u = .next t)
    (hu : u.fatalRecord = s.fatalRecord) : t.fatalRecord = s.fatalRecord := by
  obtain ⟨-, rfl⟩ := ifEnabled_eq_next.mp h
  exact hu

/-- A move made in FATAL is the environment's, the HOST's at buffer memory, or the reset input. -/
theorem takeInput_fatalRecord {m : Input} {s t : State} (hf : s.fatal = true) (hm : m ≠ .hardReset)
    (h : takeInput m s = .next t) : t.fatalRecord = s.fatalRecord := by
  have hblocked : ∀ w, m ∉ [.command w, .issue w, .fg, .irq] := fun w hmem =>
    nomatch (takeInput_of_fatal hf hmem).symm.trans h
  cases m with
  | command w => exact absurd (by simp) (hblocked w)
  | issue w => exact absurd (by simp) (hblocked w)
  | fg => exact absurd (by simp) (hblocked 0)
  | irq => exact absurd (by simp) (hblocked 0)
  | txSent ch => exact ifEnabled_fatalRecord h rfl
  | rxData ch bytes => exact ifEnabled_fatalRecord h rfl
  | rxSetup bytes => exact ifEnabled_fatalRecord h rfl
  | busReset =>
    cases h
    rfl
  | diagSent => exact ifEnabled_fatalRecord h rfl
  | spurious => exact ifEnabled_fatalRecord h rfl
  | openRaise bits => exact ifEnabled_fatalRecord h rfl
  | hostWrite a bytes =>
    obtain ⟨-, -, rfl⟩ := hostWrite_eq_next.mp h
    rfl
  | hostRead a n =>
    obtain ⟨-, -, rfl⟩ := hostRead_eq_next.mp h
    rfl
  | hardReset => exact absurd rfl hm

/-- A step in FATAL is a scheduled move: the handler and the idle machine are stuck. -/
theorem step_fatalRecord {s t : State} (hf : s.fatal = true) (h : step s = .next t) :
    (∃ rest, s.script = .hardReset :: rest) ∨ t.fatalRecord = s.fatalRecord := by
  rcases step_cases h with ⟨-, hrun, -⟩ | ⟨-, m, rest, hscript, hm⟩ | ⟨-, -, hrun, -⟩
  · exact absurd (hf.symm.trans hrun) (by decide)
  · by_cases hreset : m = .hardReset
    · exact .inl ⟨rest, hreset ▸ hscript⟩
    · exact .inr (takeInput_fatalRecord (s := { s with script := rest }) hf hreset hm)
  · exact absurd (hf.symm.trans hrun) (by decide)

/-- Settles O51: the block's steps are faults, the environment's commute with raising Fatal, and of the moves that are left
only the reset input writes what FATAL records. -/
theorem fatalIsTerminal : Obligations.FatalIsTerminal := by
  refine ⟨fun _ _ _ => rfl, fun m w rest s hf hh hm hs => ?_, fun s hf h => step_of_fatal hf h,
    fun m ch rx bytes bits c i s hm => takeInput_raiseFatal c i s hm, fun s t hf h => ?_⟩
  · rw [step_of_script hh hs]
    exact takeInput_of_fatal (s := { s with script := rest }) hf hm
  · refine (step_fatalRecord hf h).imp_right fun hkept => ?_
    simp only [State.fatalRecord, Prod.mk.injEq] at hkept
    obtain ⟨hfatal, hcause, hinfo, hresponses, hevents⟩ := hkept
    exact ⟨hfatal.trans hf, hcause, hinfo, hresponses, hevents⟩

end Sys2Proof.Machine
end

section
/-! PROOFS. The frame of the DIAG_PUT commands (41_diag_ring.md R165 to R168): what a put may change, said as a relation that
puts one after the other keep. -/

namespace Sys2Proof.Machine

/-- From `s` to `t` only the ring, the diagnostic endpoint and the enable bits changed, of each register only its one field,
and the draws only in the open environment. -/
structure PutFrame (s t : State) : Prop where
  rest : t = { s with
    ringData := t.ringData
    ringRead := t.ringRead
    ringWrite := t.ringWrite
    diagHold := t.diagHold
    diagCtl := t.diagCtl
    diagStat := t.diagStat
    intEn := t.intEn
    draws := t.draws }
  diagCtl : t.diagCtl &&& 0xFE = s.diagCtl &&& 0xFE
  diagStat : t.diagStat &&& 0xFE = s.diagStat &&& 0xFE
  intEn : t.intEn &&& 0xEF = s.intEn &&& 0xEF
  draws : s.openEnv = false → t.draws = s.draws

theorem PutFrame.refl (s : State) : PutFrame s s := ⟨rfl, rfl, rfl, rfl, fun _ => rfl⟩

theorem PutFrame.trans {s t u : State} (h : PutFrame s t) (h' : PutFrame t u) : PutFrame s u where
  rest := by rw [h'.rest, h.rest]
  diagCtl := h'.diagCtl.trans h.diagCtl
  diagStat := h'.diagStat.trans h.diagStat
  intEn := h'.intEn.trans h.intEn
  draws he := by
    have henv : t.openEnv = s.openEnv := by rw [h.rest]
    rw [h'.draws (henv.trans he), h.draws he]

/-- The response after puts adds itself to what they changed. -/
theorem PutFrame.respond {s t : State} (h : PutFrame s t) (ha : acceptsCommand s = true) (ok : Bool) :
    respond ok t = { s with
      ringData := t.ringData
      ringRead := t.ringRead
      ringWrite := t.ringWrite
      diagHold := t.diagHold
      diagCtl := t.diagCtl
      diagStat := t.diagStat
      intEn := t.intEn
      draws := t.draws
      responses := s.responses ++ [respWord ok] } := by
  have ht : acceptsCommand t = true := by
    rw [h.rest]
    exact ha
  rw [respond_of_accepts ok ht, h.rest]

theorem putByte_putFrame (b : Byte) (s : State) : PutFrame s (putByte b s).2 := by
  have hen : ∀ r : Byte, (r ||| 0x10) &&& 0xEF = r &&& 0xEF := by decide +kernel
  obtain ⟨_, _, _, _, _, _, _, h, hctl, hstat, hdraws⟩ := putByte_frame b s
  rw [h]
  exact ⟨rfl, hctl, hstat, hen s.intEn, hdraws⟩

theorem putBytes_putFrame (bs : List Byte) (s : State) : PutFrame s (putBytes bs s).2 := by
  induction bs generalizing s with
  | nil => exact .refl s
  | cons b bs ih =>
    rw [putBytes]
    split
    · exact (putByte_putFrame b s).trans (ih _)
    · exact putByte_putFrame b s

/-- DIAG_PUTS, where it answers, put the bytes of its buffer one by one (R166). -/
theorem putString_eq_next {n a : Nat} {s t : State} (h : putString n a s = .next t) :
    t = respondPut (putBytes (readBytes s.params s.mem a n) s) := by
  induction n generalizing a s with
  | zero =>
    cases h
    rfl
  | succ n ih =>
    obtain ⟨-, h⟩ := withMemory_eq_next.mp h
    dsimp only at h
    rw [readBytes, putBytes]
    split at h
    · rename_i hput
      obtain ⟨hparams, hmem, -, -⟩ := putByte_keeps (memRead s.params s.mem a) s
      rw [if_pos hput, ih h, hparams, hmem]
    · rename_i hput
      cases h
      rw [if_neg hput, respondPut, Bool.eq_false_iff.mpr hput]

/-- A DIAG_PUT command, where it is taken, puts the bytes of its operands one by one, or runs the loop of DIAG_PUTS (R165 to
R168). -/
theorem exec_diagPut_eq_asCommand {i : Instr} {b : Byte} {v buf len : Nat} (s : State)
    (hi : i ∈ [.diagPutb b, .diagPuts buf len, .diagPuthex8 b, .diagPut16 v]) :
    ∃ k, exec i s = asCommand s k
      ∧ ((∃ bs, k s = .next (respondPut (putBytes bs s))) ∨ k s = putString (s.params.len len) buf s) := by
  simp only [List.mem_cons, List.not_mem_nil, or_false] at hi
  rcases hi with rfl | rfl | rfl | rfl
  · exact ⟨fun s => .next (respondPut (putByte b s)), rfl, .inl ⟨[b], by rw [putBytes_singleton]⟩⟩
  · exact ⟨fun s => putString (s.params.len len) buf s, rfl, .inr rfl⟩
  · exact ⟨fun s => .next (respondPut (putBytes (hexBytes s.params b) s)), rfl, .inl ⟨_, rfl⟩⟩
  · exact ⟨fun s => .next (respondPut (putBytes (lowHighBytes s.params v) s)), rfl, .inl ⟨_, rfl⟩⟩

/-- Settles O35: each command puts bytes one by one, which keeps the frame, and then only answers. -/
theorem diagPutFrame : Obligations.DiagPutFrame := by
  intro i b v buf len s hi
  obtain ⟨k, hexec, hk⟩ := exec_diagPut_eq_asCommand s hi
  refine ⟨fun ha hmem => ?_, fun t h => ?_⟩
  · rw [hexec, asCommand_of_accepts ha]
    rcases hk with ⟨bs, hk⟩ | hk
    · exact ⟨_, hk⟩
    · exact ⟨_, hk.trans (putString_eq_putBytes fun j hj _ => hmem j hj)⟩
  · obtain ⟨ha, h⟩ := asCommand_eq_next.mp (hexec.symm.trans h)
    obtain ⟨bs, rfl⟩ : ∃ bs, t = respondPut (putBytes bs s) := by
      rcases hk with ⟨bs, hk⟩ | hk
      · exact ⟨bs, Host.Outcome.next.inj (h.symm.trans hk)⟩
      · exact ⟨_, putString_eq_next (hk.symm.trans h)⟩
    have hframe := putBytes_putFrame bs s
    exact ⟨_, _, _, _, _, _, _, _, _, hframe.respond ha _, hframe.diagCtl, hframe.diagStat, hframe.intEn, hframe.draws⟩

end Sys2Proof.Machine
end

section
/-! PROOFS. The reset input as a step (70_reset_and_hazards.md R280). -/

namespace Sys2Proof.Machine

/-- The reset input has no enabling condition: it is taken in FATAL and with a command in progress too (R280). -/
theorem takeInput_hardReset (s : State) : takeInput .hardReset s = .next (hardwareReset s) := rfl

/-- Settles O9: outside a handler the step takes the scheduled reset input, and `hardwareReset` keeps only what is not the
block's state (log 21), the schedule with the input removed. -/
theorem hardResetLeavesResetState : Obligations.HardResetLeavesResetState := by
  intro rest s hh hs
  rw [step_of_script hh hs, takeInput_hardReset, hardwareReset]

end Sys2Proof.Machine
end
